-- ==== Sys2Proof/Word.lean ====
section
/-!
DEFINITION. The widths the spec names (00_scope.md R7): u8 bytes, u9 node indices, u10 node counts,
u32 registers, and the 12-bit byte offset of the register port (20_memory.md R60).
-/

namespace Sys2Proof

/-- A 32-bit register, counter, length or command word (R7, R22, R80). -/
abbrev Word := BitVec 32

/-- A byte of a stream, which is also a symbol (R5). -/
abbrev Byte := BitVec 8

/-- A u9 index into the tree store (10_state.md R41). -/
abbrev NodeIdx := BitVec 9

/-- A byte offset into the 4 KiB register window (20_memory.md R60, R61). -/
abbrev Offset := BitVec 12

end Sys2Proof
end

