-- ==== Sys2Proof/Machine/Node.lean ====
section
/-!
DEFINITION. One entry of the tree store (10_state.md R41).
-/

namespace Sys2Proof.Machine

/-- A NODE entry: a LEAF holds a symbol, an INTERNAL entry always names two children, and both hold a
frequency (R41: "an INTERNAL entry always names two children, and a LEAF entry names none"). -/
inductive Node where
  | leaf (sym : Byte) (freq : Word)
  | internal (left right : NodeIdx) (freq : Word)
  deriving DecidableEq, Repr, Inhabited

/-- NODE[i].freq. -/
def Node.freq : Node → Word
  | .leaf _ f => f
  | .internal _ _ f => f

/-- NODE[i].kind = LEAF. -/
def Node.isLeaf : Node → Bool
  | .leaf _ _ => true
  | .internal _ _ _ => false

end Sys2Proof.Machine
end

