-- ==== Sys2Proof/Config.lean ====
section
/-!
DEFINITION. The fixed parameters of 00_scope.md R5 and the free values: constants without a body for
what the spec leaves unspecified. The one OPEN parameter, BUF_BITS, is a field of State (log 4).
-/

namespace Sys2Proof.Config

/-- ID reads this constant (10_state.md R23). -/
def idValue : Word := 0x48554601#32

/-- MAX_LEN = 2^32 - 2 (00_scope.md R5). -/
def maxLen : Word := 0xFFFFFFFE#32

/-- NODE_CAP (00_scope.md R5). -/
def nodeCap : Nat := 511

/-- HEAP_CAP (00_scope.md R5). -/
def heapCap : Nat := 256

/-- MAX_CODE (00_scope.md R5). -/
def maxCode : Nat := 255

/-- STACK_CAP (00_scope.md R5). -/
def stackCap : Nat := 511

/-- The reset value of CFG.SENTINEL (00_scope.md R5). -/
def resetSentinel : Byte := 0x03#8

/-- The freq of every node DEC_TREE reads (43_decoder.md R202). -/
def decodedFreq : Word := 0xFFFFFFFF#32

/-- The default BUF_BITS, 128 (00_scope.md R5), counted in bytes beyond the first: 8 * (15 + 1). -/
def defaultExtraBytes : Nat := 15

/-- FREE VALUE (log 3): what an unspecified register read returns (10_state.md R49), by the step counter
`Env.epoch` and the word number of the register. Nothing constrains it. -/
opaque freeRead : Nat → Nat → Word

/-- FREE VALUE (log 7): what an index outside NODE[0..510] reads as. No rule reaches it. -/
opaque absentNode : Machine.Node

/-- FREE VALUE (log 7): what an extraction from an empty heap returns. No rule reaches it
(42_encoder.md R152: every caller calls it only when the heap holds an entry). -/
opaque emptyHeapEntry : NodeIdx

end Sys2Proof.Config
end

