-- ==== Sys2Proof/Syntax.lean ====
section
/-!
DEFINITION. The instruction set: the 14 commands of 30_encoding.md R81, one constructor per row of
spec/opcode_table.json.
-/

namespace Sys2Proof

/-- One legal or nearly legal CMD word. Only BB_WRITE_BIT and BB_WRITE_BYTE have an explicit operand,
the word's ARG field (30_encoding.md R82); every other command's operands are registers and streams. -/
inductive Instr where
  /-- NOP (R105) -/
  | nop
  /-- ENC_COUNT (R168) -/
  | encCount
  /-- ENC_BUILD (R169) -/
  | encBuild
  /-- ENC_EMIT (R170) -/
  | encEmit
  /-- ENCODE (R171) -/
  | encode
  /-- DEC_TREE (R207) -/
  | decTree
  /-- DEC_PAYLOAD (R208) -/
  | decPayload
  /-- DECODE (R209) -/
  | decode
  /-- BB_OPEN_W (R129) -/
  | bbOpenW
  /-- BB_OPEN_R (R130) -/
  | bbOpenR
  /-- BB_WRITE_BIT (R131): `arg[0]` is the bit; `arg[7:1]` must be 0 (WellFormed). -/
  | bbWriteBit (arg : Byte)
  /-- BB_WRITE_BYTE (R132): `arg` is the byte, any value. -/
  | bbWriteByte (arg : Byte)
  /-- BB_READ_BIT (R133) -/
  | bbReadBit
  /-- BB_CLOSE (R134) -/
  | bbClose
  deriving DecidableEq, Repr

end Sys2Proof
end

