-- ==== Sys2Proof/WellFormed.lean ====
section
/-!
DEFINITION. Which terms of `Instr` are legal commands: the ARG constraints of 30_encoding.md R81 that
the type of `Instr` does not already settle.
-/

namespace Sys2Proof

/-- R81: every ARG constraint is part of the encoding. A command without an operand has ARG = 0 by its
type; BB_WRITE_BYTE takes any byte; BB_WRITE_BIT needs ARG[7:1] = 0. -/
def Instr.wellFormed : Instr → Bool
  | .nop => true
  | .encCount => true
  | .encBuild => true
  | .encEmit => true
  | .encode => true
  | .decTree => true
  | .decPayload => true
  | .decode => true
  | .bbOpenW => true
  | .bbOpenR => true
  | .bbWriteBit arg => arg.extractLsb' 1 7 == 0#7
  | .bbWriteByte _ => true
  | .bbReadBit => true
  | .bbClose => true

end Sys2Proof
end

