-- ==== Sys2Proof/Decode.lean ====
section
/-!
DEFINITION. The decoder of CMD words, total on all 2^32 words and rejecting by name (30_encoding.md
R83, R84), and the encoder, both written from the format of R80 and the opcode map of R81.
-/

namespace Sys2Proof

/-- The three ways a word is illegal, 30_encoding.md R83 (a), (b) and (c). -/
inductive DecodeError where
  /-- (a) OP is not one of the 14 assigned values. -/
  | unassignedOp
  /-- (b) RSVD is not 0. -/
  | rsvdNonzero
  /-- (c) ARG breaks the constraint of its OP. -/
  | badArg
  deriving DecidableEq, Repr

/-- OP, bits [7:0] of a CMD word (R80). -/
def opField (w : Word) : Byte := w.extractLsb' 0 8

/-- ARG, bits [15:8] of a CMD word (R80, R82). -/
def argField (w : Word) : Byte := w.extractLsb' 8 8

/-- RSVD, bits [31:16] of a CMD word (R80). -/
def rsvdField (w : Word) : BitVec 16 := w.extractLsb' 16 16

/-- The decoder, by the opcode map of R81: RSVD must be 0, OP assigned, and ARG within its constraint. -/
def decode (w : Word) : Except DecodeError Instr :=
  if rsvdField w ≠ 0#16 then .error .rsvdNonzero
  else
    let arg := argField w
    let plain (i : Instr) : Except DecodeError Instr := if arg = 0#8 then .ok i else .error .badArg
    match (opField w).toNat with
    | 0x00 => plain .nop
    | 0x10 => plain .encCount
    | 0x11 => plain .encBuild
    | 0x12 => plain .encEmit
    | 0x13 => plain .encode
    | 0x20 => plain .decTree
    | 0x21 => plain .decPayload
    | 0x22 => plain .decode
    | 0x30 => plain .bbOpenW
    | 0x31 => plain .bbOpenR
    | 0x32 => if (Instr.bbWriteBit arg).wellFormed then .ok (.bbWriteBit arg) else .error .badArg
    | 0x33 => .ok (.bbWriteByte arg)
    | 0x34 => plain .bbReadBit
    | 0x35 => plain .bbClose
    | _ => .error .unassignedOp

/-- The host's view of the decoder: a command word is one 32-bit word (R85), already numbered as
spec/opcode_table.json numbers it; the bits above `nbits` are 0. -/
def decodeTableWord (nbits w : Nat) : Option Instr :=
  if w % 2 ^ nbits < 2 ^ 32 then
    match decode (BitVec.ofNat 32 (w % 2 ^ nbits)) with
    | .ok i => some i
    | .error _ => none
  else none

/-- OP of each command (R81). -/
def Instr.opcode : Instr → Byte
  | .nop => 0x00#8
  | .encCount => 0x10#8
  | .encBuild => 0x11#8
  | .encEmit => 0x12#8
  | .encode => 0x13#8
  | .decTree => 0x20#8
  | .decPayload => 0x21#8
  | .decode => 0x22#8
  | .bbOpenW => 0x30#8
  | .bbOpenR => 0x31#8
  | .bbWriteBit _ => 0x32#8
  | .bbWriteByte _ => 0x33#8
  | .bbReadBit => 0x34#8
  | .bbClose => 0x35#8

/-- ARG of each command (R81, R82). -/
def Instr.argument : Instr → Byte
  | .bbWriteBit arg => arg
  | .bbWriteByte arg => arg
  | .nop => 0#8
  | .encCount => 0#8
  | .encBuild => 0#8
  | .encEmit => 0#8
  | .encode => 0#8
  | .decTree => 0#8
  | .decPayload => 0#8
  | .decode => 0#8
  | .bbOpenW => 0#8
  | .bbOpenR => 0#8
  | .bbReadBit => 0#8
  | .bbClose => 0#8

/-- The encoder: the word with RSVD = 0, ARG and OP, bit 31 on the left (R80). -/
def encodeWord (i : Instr) : Word := 0#16 ++ (i.argument ++ i.opcode)

end Sys2Proof
end

