-- ==== Sys2Proof/Machine/State.lean ====
section
/-!
DEFINITION. The state of the Huffman codec core (10_state.md) as plain data, with the outside agents'
bytes and coming actions beside it (Env), the reasons a step can stop, and the state after reset
(70_reset_and_hazards.md R291).
-/

namespace Sys2Proof.Machine

/-- The error taxonomy of 60_exceptions.md R260; `none` is code 0, success. -/
inductive ErrCode where
  | none
  | emptyInput
  | invalidMode
  | endOfStream
  | unknownSymbol
  | sentinelCollision
  | illegalCmd
  | sequence
  | countOverflow
  | treeMalformed
  deriving DecidableEq, Repr

/-- BB_MODE (10_state.md R39). -/
inductive BBMode where
  | closed
  | write
  | read
  deriving DecidableEq, Repr

/-- The valid flags that are preconditions of commands (10_state.md R46, R47). -/
inductive ValidFlag where
  | freq
  | tree
  | table
  deriving DecidableEq, Repr

/-- One entry of STACK (10_state.md R44; layout free, log 6). -/
inductive Frame where
  /-- A node still to visit in a preorder walk, with the path from the root (42_encoder.md R161, R164). -/
  | visit (n : NodeIdx) (path : List Bool)
  /-- An internal node being read whose left subtree is being read (43_decoder.md R200). -/
  | needLeft (i : NodeIdx)
  /-- An internal node being read whose left child is `l` and whose right subtree is being read. -/
  | needRight (i l : NodeIdx)
  deriving DecidableEq, Repr

/-- What a `readBit()` is for: where the rule that called it puts the bit. -/
inductive BitUse where
  /-- RESULT.BIT (41_bitbuffer.md R133) -/
  | result
  /-- the tag bit of a tree record (43_decoder.md R200) -/
  | tag
  /-- a bit of the symbol of leaf `i`: `acc` holds the bits so far, `more` bits follow this one (R200) -/
  | symbol (i : NodeIdx) (acc : Byte) (more : Nat)
  /-- one step of the descent (R203) -/
  | descent
  deriving DecidableEq, Repr

/-- The statements of the command rules' pseudocode. The core's progress state (10_state.md R21) is the
list of the statements still to run; one core step runs the first of them. -/
inductive Stmt where
  /-- the legality check (40_control.md R102) -/
  | legality
  /-- enter the phase with this opcode (R106) -/
  | phase (op : Byte)
  /-- `complete()` (R103) -/
  | complete
  /-- the atomic step that ends `raise(e)` (60_exceptions.md R261) -/
  | fail (e : ErrCode)
  /-- raise SEQUENCE unless the flag is 1 -/
  | needFlag (f : ValidFlag)
  /-- raise INVALID_MODE unless BB_MODE is this -/
  | needMode (m : BBMode)
  /-- `bbOpen(m)` (41_bitbuffer.md R121) -/
  | bbOpen (m : BBMode)
  /-- `writeBit(b)` (R122) -/
  | writeBit (b : Bool)
  /-- `writeByte(v)` (R124) -/
  | writeByte (v : Byte)
  /-- `BB_BITS <- []` after a full buffer has been sent (R122) -/
  | clearBits
  /-- `readBit()` and the use of its bit (R125) -/
  | readBit (u : BitUse)
  /-- the refill loop of `readBit()`: `n` more bytes to take (R125) -/
  | fetch (n : Nat)
  /-- `bbClose()` (R126) -/
  | bbClose
  /-- the last three assignments of `bbClose()` (R126) -/
  | bbShut
  /-- `OutByte(v)` (20_memory.md R65) -/
  | outByte (v : Byte)
  /-- ENC_COUNT's flag clears and latches (42_encoder.md R168) -/
  | encLatch
  /-- raise EMPTY_INPUT if SRC_LEN = 0 (R168, R170) -/
  | needSource
  /-- raise COUNT_OVERFLOW if SRC_LEN > MAX_LEN (R168) -/
  | needCountable
  /-- `for s in 0 .. 255: FREQ[s] <- 0` (R155) -/
  | clearFreq
  /-- the start of the loop over SRC_LEN bytes (R155) -/
  | countPass
  /-- `n` more iterations of the count loop (R155) -/
  | count (n : Nat)
  /-- the body of the count loop for byte `v` (R155) -/
  | tally (v : Byte)
  /-- `FREQ[ENC_SENT] <- FREQ[ENC_SENT] + 1` (R155) -/
  | countSentinel
  /-- `FREQ_VALID <- 1` (R168) -/
  | setFreqValid
  /-- `deg <- 0`, `NCNT <- 0` and an empty heap (R156, R169) -/
  | buildStart
  /-- the leaf loop from symbol `k` on (R156) -/
  | makeLeaves (k : Nat)
  /-- `if L == 1: wrapSingle() else: mergeLoop()` (R169) -/
  | shape
  /-- `wrapSingle()` (R158) -/
  | wrapSingle
  /-- `mergeLoop()` (R157) -/
  | mergeLoop
  /-- `for s in 0 .. 255: CT[s].len <- 0` (R160) -/
  | clearTable
  /-- put ROOT on STACK, for `buildTable()` and `treeWrite(ROOT)` (R161, R164) -/
  | walkStart
  /-- the loop of the table walk (R161) -/
  | walkTable
  /-- `TREE_VALID <- 1; TABLE_VALID <- 1; DEGENERATE <- deg` (R169) -/
  | setBuilt
  /-- the loop of the tree write (R164) -/
  | treeWrite
  /-- the start of the payload loop over SRC_LEN bytes (R165) -/
  | payloadPass
  /-- `n` more iterations of the payload loop (R165) -/
  | emit (n : Nat)
  /-- the body of the payload loop for byte `v` (R165) -/
  | emitSym (v : Byte)
  /-- `sentinelCode()` (R166) -/
  | sentinelCode
  /-- DEC_TREE's flag clears (43_decoder.md R207) -/
  | clearTreeFlags
  /-- `NCNT <- 0` and an empty stack (R207) -/
  | treeReadStart
  /-- `readNode()` returns index `i` to its caller (R200) -/
  | nodeDone (i : NodeIdx)
  /-- the statements of DEC_TREE after `r <- readNode()` (R207) -/
  | rootRead (r : NodeIdx)
  /-- `DSENT <- CFG.SENTINEL` (R208) -/
  | sampleSentinel
  /-- `CUR <- ROOT`, the start of a descent (R203) -/
  | descendStart
  /-- the descent FSM and the symbol emitter (R203, R204) -/
  | symbolLoop
  /-- `drain()` (R205) -/
  | drain
  deriving DecidableEq, Repr

/-- One action of an agent outside the core (00_scope.md R10). -/
inductive Event where
  /-- the host writes `v` to the register at byte offset `off` (20_memory.md R61) -/
  | write (off : Offset) (v : Word)
  /-- the host reads the register at byte offset `off` -/
  | read (off : Offset)
  /-- the source offers these bytes after those it already offers (30_encoding.md R93, SRC) -/
  | offer (bytes : List Byte)
  /-- the source withdraws its first `n` bytes not yet taken (70_reset_and_hazards.md R296) -/
  | withdraw (n : Nat)
  /-- the sink will accept `n` more bytes, or every byte (`none`, R93 SINK) -/
  | sinkReady (n : Option Nat)
  /-- the reset input `rst` (R290) -/
  | rst
  deriving DecidableEq, Repr

/-- What the agents outside the core hold, and what they will do: the MODEL's own fields (log 1, 2, 3). -/
structure Env where
  /-- the coming actions, oldest first; each step performs one -/
  events : List Event
  /-- the bytes the source offers and the core has not taken -/
  sIn : List Byte
  /-- the bytes the sink has accepted, oldest first -/
  sOut : List Byte
  /-- how many more bytes the sink accepts; `none`: every byte -/
  sink : Option Nat
  /-- how many core steps the core takes in each coming step; an empty list: it runs on -/
  sched : List Nat
  /-- the data the register port last returned -/
  readData : Word
  /-- the index of the free values of unspecified reads -/
  epoch : Nat
  deriving DecidableEq, Repr

/-- The state of the block (10_state.md), every piece under its own name. -/
structure State where
  /-- the OPEN parameter: BUF_BITS = 8 * (extraBytes + 1) (00_scope.md R5, log 4) -/
  extraBytes : Nat
  /-- CTRL.IRQ_EN (R24) -/
  irqEn : Bool
  /-- STATUS.DONE (R26) -/
  done : Bool
  /-- STATUS.CMD_DROPPED (R26) -/
  dropped : Bool
  /-- ERR_CODE.CODE (R27) -/
  errCode : ErrCode
  /-- ERR_CODE.OP (R27) -/
  errOp : Byte
  /-- CFG.SENTINEL (R28) -/
  sentinel : Byte
  /-- CFG.COLL_CHK (R28) -/
  collChk : Bool
  /-- SRC_LEN (R29) -/
  srcLen : Word
  /-- IN_COUNT (R30) -/
  inCount : Word
  /-- OUT_COUNT (R31) -/
  outCount : Word
  /-- RESULT.BIT (R32) -/
  result : Bool
  /-- TBL_IDX.IDX (R33) -/
  tblIdx : Byte
  /-- STATUS.FREQ_VALID (R47) -/
  freqValid : Bool
  /-- STATUS.TREE_VALID (R47) -/
  treeValid : Bool
  /-- STATUS.TABLE_VALID (R47) -/
  tableValid : Bool
  /-- STATUS.DEGENERATE (R47) -/
  degenerate : Bool
  /-- BB_MODE (R39) -/
  bbMode : BBMode
  /-- BB_BITS, first bit first (R39, R8) -/
  bbBits : List Bool
  /-- BB_REMAIN (R39) -/
  bbRemain : Word
  /-- FREQ[0..255] (R40) -/
  freq : Vector Word 256
  /-- NODE[0..510] (R41) -/
  node : Vector Node 511
  /-- NCNT (R41) -/
  ncnt : BitVec 10
  /-- ROOT (R41) -/
  root : NodeIdx
  /-- HEAP, its entries in ascending order (R42, log 6; empty after reset, log 15) -/
  heap : List NodeIdx
  /-- CT[s].code; CT[s].len is its length (R43, log 9) -/
  ct : Vector (List Bool) 256
  /-- STACK, top first (R44) -/
  stack : List Frame
  /-- PATH (R44) -/
  path : List Bool
  /-- CUR (R44) -/
  cur : NodeIdx
  /-- DSENT (R44) -/
  dsent : Byte
  /-- ENC_BUILD's local `deg` (R158, R169) -/
  deg : Bool
  /-- ENC_SENT (R45) -/
  encSent : Byte
  /-- ENC_COLL (R45) -/
  encColl : Bool
  /-- CMDW (40_control.md R100) -/
  cmdw : Word
  /-- the opcode of the running command or phase (R21, R106) -/
  phase : Byte
  /-- the statements the running command still has to run; empty: idle (R21) -/
  todo : List Stmt
  /-- the agents outside the core -/
  env : Env
  deriving DecidableEq, Repr

/-- The faults. NONE: nothing stops this block. An error ends a command (60_exceptions.md R261) and a
wait for a stream is a hold (R276); both are next states. -/
inductive Fault where
  deriving DecidableEq, Repr

/-- The refusals. -/
inductive Refusal where
  /-- An arm of `exec` whose instruction has no meaning yet; raised by no arm of this model. Safe. -/
  | notModelled (mnemonic : String)
  deriving DecidableEq, Repr

/-- The outside world in the state after reset: nothing offered, nothing accepted, a sink that accepts
every byte, no coming action (log 2). -/
def Env.initial : Env where
  events := []
  sIn := []
  sOut := []
  sink := none
  sched := []
  readData := 0#32
  epoch := 0

/-- The state right after reset (70_reset_and_hazards.md R291). The values R291 calls unspecified
(`freq`, `node`, `ct`, `root`, `stack`, `path`, `cur`, `dsent`, `deg`, `cmdw`, `phase`) are 0 or empty,
DESIGN CHOICE, unsafe (log 5). That HEAP is empty, ENC_SENT 0x03 and ENC_COLL 1 follows R42, R45 and R291 where
I8 of 93_implementation_defined.md says any value: DEDUCED (log 15). -/
def State.reset : State where
  extraBytes := Config.defaultExtraBytes
  irqEn := false
  done := false
  dropped := false
  errCode := .none
  errOp := 0#8
  sentinel := Config.resetSentinel
  collChk := true
  srcLen := 0#32
  inCount := 0#32
  outCount := 0#32
  result := false
  tblIdx := 0#8
  freqValid := false
  treeValid := false
  tableValid := false
  degenerate := false
  bbMode := .closed
  bbBits := []
  bbRemain := 0#32
  freq := Vector.replicate 256 0#32
  node := Vector.replicate 511 (.leaf 0#8 0#32)
  ncnt := 0#10
  root := 0#9
  heap := []
  ct := Vector.replicate 256 []
  stack := []
  path := []
  cur := 0#9
  dsent := 0#8
  deg := false
  encSent := Config.resetSentinel
  encColl := true
  cmdw := 0#32
  phase := 0#8
  todo := []
  env := Env.initial

end Sys2Proof.Machine
end

