-- ==== Sys2Proof/Machine/Operands.lean ====
section
/-!
DEFINITION. Operand assembly and bit order: the fields of the latched command word (30_encoding.md
R80, R82), bits of a byte in stream order (20_memory.md R66, R67, R68) and the code window (10_state.md R36).
-/

namespace Sys2Proof.Machine

/-- The bits of a byte in stream order: bit 7 first, bit 0 last (R66, R68). -/
def bitsOfByte (v : Byte) : List Bool :=
  [v.getLsbD 7, v.getLsbD 6, v.getLsbD 5, v.getLsbD 4, v.getLsbD 3, v.getLsbD 2, v.getLsbD 1, v.getLsbD 0]

/-- The value 0 or 1 of bit `i` of a bit sequence; a missing bit reads as 0 (R67). -/
def bitValue (bits : List Bool) (i : Nat) : Nat := (bits.getD i false).toNat

/-- `streamByte(s, n)`: the sum over j of `s[8n + j] << (7 - j)` (R67). -/
def streamByte (bits : List Bool) (n : Nat) : Byte :=
  BitVec.ofNat 8
    (128 * bitValue bits (8 * n) + 64 * bitValue bits (8 * n + 1) + 32 * bitValue bits (8 * n + 2)
      + 16 * bitValue bits (8 * n + 3) + 8 * bitValue bits (8 * n + 4) + 4 * bitValue bits (8 * n + 5)
      + 2 * bitValue bits (8 * n + 6) + bitValue bits (8 * n + 7))

/-- `ceil(n / 8)` (R12). -/
def ceilDiv8 (n : Nat) : Nat := (n + 7) / 8

/-- The bytes of a bit sequence, the last one padded with 0 bits: `streamByte(s, n)` for
n in 0 .. ceil(len(s)/8) - 1 (41_bitbuffer.md R126, R127). -/
def packBits (bits : List Bool) : List Byte :=
  (List.range (ceilDiv8 bits.length)).map (streamByte bits)

/-- Shift one bit into a symbol, most significant bit first: `(s << 1) | b` (43_decoder.md R200). -/
def shiftIn (acc : Byte) (b : Bool) : Byte := acc <<< 1 ||| (BitVec.ofBool b).setWidth 8

/-- Word `k` of the code window: bit j is code bit 32k + j, and 0 past the code's end (10_state.md R36). -/
def codeWindow (code : List Bool) (k : Nat) : Word :=
  BitVec.ofNat 32 (((List.range 32).map fun j => bitValue code (32 * k + j) * 2 ^ j).sum)

/-- The writeBit's value operand of BB_WRITE_BIT: ARG[0] (30_encoding.md R82). -/
def argBit (arg : Byte) : Bool := arg.getLsbD 0

/-- The legality check's condition, the four tests of 40_control.md R102 word for word. -/
def illegalWord (w : Word) : Bool :=
  !([0x00#8, 0x10#8, 0x11#8, 0x12#8, 0x13#8, 0x20#8, 0x21#8, 0x22#8,
      0x30#8, 0x31#8, 0x32#8, 0x33#8, 0x34#8, 0x35#8].contains (opField w))
    || rsvdField w != 0#16
    || (opField w == 0x32#8 && (argField w).extractLsb' 1 7 != 0#7)
    || (!([0x32#8, 0x33#8].contains (opField w)) && argField w != 0#8)

end Sys2Proof.Machine
end

