-- ==== Sys2Proof/Machine/Flags.lean ====
section
/-!
DEFINITION. The flags: the STATUS bits (10_state.md R26), the numbers of ERR_CODE (R27,
60_exceptions.md R260), and the IRQ output (R267), each computed from the state that decides it.
-/

namespace Sys2Proof.Machine

/-- The code numbers of R260. -/
def ErrCode.number : ErrCode → BitVec 4
  | .none => 0#4
  | .emptyInput => 1#4
  | .invalidMode => 2#4
  | .endOfStream => 3#4
  | .unknownSymbol => 4#4
  | .sentinelCollision => 5#4
  | .illegalCmd => 6#4
  | .sequence => 7#4
  | .countOverflow => 8#4
  | .treeMalformed => 9#4

/-- STATUS.BB_MODE: 0b00 CLOSED, 0b01 WRITE, 0b10 READ (R26). -/
def BBMode.bits : BBMode → BitVec 2
  | .closed => 0b00#2
  | .write => 0b01#2
  | .read => 0b10#2

namespace State

/-- STATUS.BUSY: a command is running (R21, R26, R100). -/
def busy (s : State) : Bool := !s.todo.isEmpty

/-- STATUS.ERR = `ERR_CODE.CODE != 0` (R26). -/
def err (s : State) : Bool := s.errCode.number != 0#4

/-- The IRQ output: `CTRL.IRQ_EN AND STATUS.DONE`, at every moment (R267). -/
def irq (s : State) : Bool := s.irqEn && s.done

/-- One of the valid flags (R47). -/
def flag (s : State) : ValidFlag → Bool
  | .freq => s.freqValid
  | .tree => s.treeValid
  | .table => s.tableValid

/-- STATUS[9:4]: DEGENERATE, TABLE_VALID, TREE_VALID, FREQ_VALID, BB_MODE (R26). -/
def statusHigh (s : State) : BitVec 6 :=
  BitVec.ofBool s.degenerate ++ (BitVec.ofBool s.tableValid ++ (BitVec.ofBool s.treeValid
    ++ (BitVec.ofBool s.freqValid ++ s.bbMode.bits)))

/-- STATUS[3:0]: CMD_DROPPED, ERR, DONE, BUSY (R26). -/
def statusLow (s : State) : BitVec 4 :=
  BitVec.ofBool s.dropped ++ (BitVec.ofBool s.err ++ (BitVec.ofBool s.done ++ BitVec.ofBool s.busy))

/-- ERR_CODE: OP in bits [15:8], CODE in bits [3:0], the others 0 (R27). -/
def errWord (s : State) : Word := 0#16 ++ (s.errOp ++ (0#4 ++ s.errCode.number))

/-- CFG: COLL_CHK in bit 8, SENTINEL in bits [7:0], the others 0 (R28). -/
def cfgWord (s : State) : Word := 0#23 ++ (BitVec.ofBool s.collChk ++ s.sentinel)

/-- CTRL: IRQ_EN in bit 1, the others 0 (R24). -/
def ctrlWord (s : State) : Word := 0#30 ++ (BitVec.ofBool s.irqEn ++ 0#1)

end State

end Sys2Proof.Machine
end

