-- ==== Sys2Proof/Machine/Ops.lean ====
section
/-!
DEFINITION. The named operations over registers, memories, streams and the progress state, and the ONE
shared error completion `raise(e)` (60_exceptions.md R261). No return from an error exists (R264).
-/

namespace Sys2Proof.Machine

namespace State

/-- BUF_BITS / 8 (00_scope.md R5). -/
def bufBytes (s : State) : Nat := s.extraBytes + 1

/-- BUF_BITS (00_scope.md R5): a multiple of 8, at least 8. -/
def bufBits (s : State) : Nat := 8 * s.bufBytes

/-- The statements `l` run before what the command still has to run. -/
def push (s : State) (l : List Stmt) : State := { s with todo := l ++ s.todo }

/-- `raise(e)`, first half (R261): the rest of the command body, and of a compound command, is abandoned;
the bit buffer is released by `bbClose()`, and then the atomic step `fail e` ends the command. -/
def raise (s : State) (e : ErrCode) : State := { s with todo := [.bbClose, .fail e] }

/-- `raise(e)`, second half, one atomic step (R261). ERR_CODE.OP is the OP field as written for
ILLEGAL_CMD, and otherwise the opcode of the command or phase that raised the error. -/
def failStep (s : State) (e : ErrCode) : State :=
  { s with
    errCode := e
    errOp := if e = .illegalCmd then opField s.cmdw else s.phase
    done := true
    todo := [] }

/-- `complete()`, one atomic step (40_control.md R103). -/
def completeStep (s : State) : State :=
  { s with
    errCode := .none
    errOp := opField s.cmdw
    done := true
    todo := [] }

/-- Acceptance of the command word `w`, one atomic step (40_control.md R100); `body` is what runs next. -/
def accept (s : State) (w : Word) (body : List Stmt) : State :=
  { s with
    cmdw := w
    done := false
    errCode := .none
    errOp := 0#8
    inCount := 0#32
    outCount := 0#32
    todo := body }

/-- `InByte()` (20_memory.md R64): the source's next byte and the state after it, or a hold. -/
def inByte (s : State) : Option (Byte × State) :=
  match s.env.sIn with
  | [] => none
  | v :: rest => some (v, { s with inCount := s.inCount + 1#32, env := { s.env with sIn := rest } })

/-- `OutByte(v)` (20_memory.md R65): the state after the sink has accepted `v`, or a hold. -/
def outByte (s : State) (v : Byte) : Option State :=
  match s.env.sink with
  | some 0 => none
  | k => some { s with
      outCount := s.outCount + 1#32
      env := { s.env with sOut := s.env.sOut ++ [v], sink := k.map (· - 1) } }

/-- The byte the core offers on S_OUT, if it offers one (R65). -/
def offered (s : State) : Option Byte :=
  match s.todo with
  | .outByte v :: _ => some v
  | _ => none

/-- NODE[i] (10_state.md R41); an index outside the store reads as a free value (log 7). -/
def nodeAt (s : State) (i : NodeIdx) : Node :=
  if h : i.toNat < 511 then s.node[i.toNat] else Config.absentNode

/-- `NODE[i] <- n`; an index outside the store names no entry. -/
def setNode (s : State) (i : NodeIdx) (n : Node) : State :=
  { s with node := s.node.setIfInBounds i.toNat n }

/-- The index NCNT names, u10 to u9 (R41). -/
def nextIdx (s : State) : NodeIdx := s.ncnt.setWidth 9

/-- FREQ[v] (R40). -/
def freqAt (s : State) (v : Byte) : Word := s.freq[v.toNat]

/-- `FREQ[v] <- FREQ[v] + 1` (42_encoder.md R155). -/
def bumpFreq (s : State) (v : Byte) : State :=
  { s with freq := s.freq.set v.toNat (s.freqAt v + 1#32) }

/-- CT[v].code, whose length is CT[v].len (R43). -/
def codeAt (s : State) (v : Byte) : List Bool := s.ct[v.toNat]

/-- `CT[v].code <- p; CT[v].len <- len(p)` (42_encoder.md R161). -/
def setCode (s : State) (v : Byte) (p : List Bool) : State :=
  { s with ct := s.ct.set v.toNat p }

/-- The heap key (NODE[i].freq, i), compared lexicographically: is `i`'s key below `j`'s
(42_encoder.md R150)? -/
def keyLt (s : State) (i j : NodeIdx) : Bool :=
  decide ((s.nodeAt i).freq.toNat < (s.nodeAt j).freq.toNat)
    || (decide ((s.nodeAt i).freq.toNat = (s.nodeAt j).freq.toNat) && decide (i.toNat < j.toNat))

/-- The entry with the least key of a list of entries, `best` among them. -/
def leastKey (s : State) (best : NodeIdx) : List NodeIdx → NodeIdx
  | [] => best
  | i :: rest => s.leastKey (if s.keyLt i best then i else best) rest

/-- `heapInsert(i)`: HEAP ∪ {i}, kept in ascending order (42_encoder.md R151). -/
def heapInsert (s : State) (i : NodeIdx) : State :=
  { s with heap := if s.heap.contains i then s.heap
                   else s.heap.takeWhile (fun j => j.toNat < i.toNat)
                     ++ i :: s.heap.dropWhile (fun j => j.toNat < i.toNat) }

/-- `heapExtractMin()` (42_encoder.md R152): the entry with the least key, and the state without it. -/
def heapExtractMin (s : State) : NodeIdx × State :=
  match s.heap with
  | [] => (Config.emptyHeapEntry, s)
  | i :: rest =>
    let m := s.leastKey i rest
    (m, { s with heap := s.heap.erase m })

/-- `heapSize()` (42_encoder.md R153). -/
def heapSize (s : State) : Nat := s.heap.length

/-- A reset, by `rst` or by CTRL.SRST (70_reset_and_hazards.md R290 to R292): every item of R291 to its
reset value, nothing flushed, nothing drained; what the source and the sink hold stays. BUF_BITS is a
parameter of the block and no state of it. -/
def resetBlock (s : State) : State :=
  { State.reset with extraBytes := s.extraBytes, env := s.env }

end State

end Sys2Proof.Machine
end

