-- ==== Sys2Proof/Machine/BitBufferUnit.lean ====
section
/-!
DEFINITION. The bit-buffer controller's micro-operations (41_bitbuffer.md R121 to R126). Each function is
one core step; its statement has already been taken off `todo`. `none` is a hold (60_exceptions.md R276).
-/

namespace Sys2Proof.Machine

/-- `bbOpen(m)` (R121); every caller has checked that BB_MODE = CLOSED. -/
def stepBbOpen (m : BBMode) (s : State) : State :=
  { s with
    bbMode := m
    bbBits := []
    bbRemain := if m = .read then s.srcLen else 0#32 }

/-- `writeBit(b)` (R122): when the buffer becomes full, its BUF_BITS/8 bytes `streamByte(BB_BITS, n)` go
out one by one, and only then is it cleared (R123). -/
def stepWriteBit (b : Bool) (s : State) : State :=
  if s.bbMode ≠ .write then s.raise .invalidMode
  else
    let bits := s.bbBits ++ [b]
    if bits.length = s.bufBits then
      { s with bbBits := bits }.push ((packBits bits).map Stmt.outByte ++ [Stmt.clearBits])
    else { s with bbBits := bits }

/-- `writeByte(v)` (R124): the mode check, then all eight bits, most significant first. -/
def stepWriteByte (v : Byte) (s : State) : State :=
  if s.bbMode ≠ .write then s.raise .invalidMode
  else s.push ((bitsOfByte v).map Stmt.writeBit)

/-- `BB_BITS <- []` (R122). -/
def stepClearBits (s : State) : State := { s with bbBits := [] }

/-- `bbClose()` (R126): in WRITE mode the partial group goes out first, its missing bits 0. -/
def stepBbClose (s : State) : State :=
  s.push ((if s.bbMode = .write then (packBits s.bbBits).map Stmt.outByte else []) ++ [Stmt.bbShut])

/-- The last assignments of `bbClose()` (R126). -/
def stepBbShut (s : State) : State :=
  { s with bbBits := [], bbRemain := 0#32, bbMode := .closed }

/-- One iteration of the refill loop of `readBit()` (R125). -/
def stepFetch (n : Nat) (s : State) : Option State :=
  match n with
  | 0 => some s
  | n + 1 =>
    match s.inByte with
    | none => none
    | some (v, s) =>
      some ({ s with bbBits := s.bbBits ++ bitsOfByte v, bbRemain := s.bbRemain - 1#32 }.push [.fetch n])

/-- `readBit()` (R125), with `deliver` the use of the bit it returns: an empty buffer is refilled with
min(BUF_BITS/8, BB_REMAIN) bytes first, or the stream has ended. -/
def stepReadBit (u : BitUse) (deliver : BitUse → Bool → State → State) (s : State) : State :=
  if s.bbMode ≠ .read then s.raise .invalidMode
  else
    match s.bbBits with
    | b :: rest => deliver u b { s with bbBits := rest }
    | [] =>
      if s.bbRemain = 0#32 then s.raise .endOfStream
      else s.push [.fetch (min s.bufBytes s.bbRemain.toNat), .readBit u]

end Sys2Proof.Machine
end

