-- ==== Sys2Proof/Machine/DecoderUnit.lean ====
section
/-!
DEFINITION. The decoder's statements (43_decoder.md R200 to R208): tree deserializer, descent FSM, symbol
emitter and drain. Each function is one core step; its statement has already been taken off `todo`.
`none` is a hold (60_exceptions.md R276).
-/

namespace Sys2Proof.Machine

/-- DEC_TREE's flag clears (R207). -/
def stepClearTreeFlags (s : State) : State :=
  { s with treeValid := false, tableValid := false, degenerate := false }

/-- `NCNT <- 0`, and an empty stack of nodes being read (R207). -/
def stepTreeReadStart (s : State) : State := { s with ncnt := 0#10, stack := [] }

/-- The statements of `readNode()` after its tag bit (R200): the node limit, the node's index, and then
the symbol of a leaf or the left subtree of an internal node. -/
def useTag (t : Bool) (s : State) : State :=
  if s.ncnt.toNat = Config.nodeCap then s.raise .treeMalformed
  else
    let i := s.nextIdx
    let s := { s with ncnt := s.ncnt + 1#10 }
    if t then s.push [.readBit (.symbol i 0#8 7)]
    else { s with stack := .needLeft i :: s.stack }.push [.readBit .tag]

/-- One bit of a leaf's symbol, most significant first; after the eighth the leaf is written (R200, R202). -/
def useSymbolBit (i : NodeIdx) (acc : Byte) (more : Nat) (b : Bool) (s : State) : State :=
  match more with
  | 0 => (s.setNode i (.leaf (shiftIn acc b) Config.decodedFreq)).push [.nodeDone i]
  | k + 1 => s.push [.readBit (.symbol i (shiftIn acc b) k)]

/-- One move of the descent: 0 goes left, 1 goes right (R203). -/
def useDescentBit (b : Bool) (s : State) : State :=
  match s.nodeAt s.cur with
  | .internal l r _ => { s with cur := if b then r else l }
  | .leaf _ _ => s

/-- Where the bit a `readBit()` returned goes. -/
def deliverBit (u : BitUse) (b : Bool) (s : State) : State :=
  match u with
  | .result => { s with result := b }
  | .tag => useTag b s
  | .symbol i acc more => useSymbolBit i acc more b s
  | .descent => useDescentBit b s

/-- `readNode()` returns index `i` (R200): a left child, a right child, which completes its parent, or
the root. -/
def stepNodeDone (i : NodeIdx) (s : State) : State :=
  match s.stack with
  | .needLeft j :: st => { s with stack := .needRight j i :: st }.push [.readBit .tag]
  | .needRight j l :: st =>
    ({ s with stack := st }.setNode j (.internal l i Config.decodedFreq)).push [.nodeDone j]
  | _ => s.push [.rootRead i]

/-- A root leaf is malformed (R201); otherwise `ROOT <- r; TREE_VALID <- 1` (R207). -/
def stepRootRead (r : NodeIdx) (s : State) : State :=
  if (s.nodeAt r).isLeaf then s.raise .treeMalformed
  else { s with root := r, treeValid := true }

/-- `DSENT <- CFG.SENTINEL` (R208). -/
def stepSampleSentinel (s : State) : State := { s with dsent := s.sentinel }

/-- `CUR <- ROOT` (R203). -/
def stepDescendStart (s : State) : State := { s with cur := s.root }

/-- The FSM (R203, R204): AT_INTERNAL reads a bit and moves; AT_LEAF ends the message at DSENT, or emits
the symbol and restarts the descent from the root. -/
def stepSymbolLoop (s : State) : State :=
  match s.nodeAt s.cur with
  | .internal _ _ _ => s.push [.readBit .descent, .symbolLoop]
  | .leaf sym _ =>
    if sym = s.dsent then s
    else s.push [.outByte sym, .descendStart, .symbolLoop]

/-- One iteration of the drain (R205). -/
def stepDrain (s : State) : Option State :=
  if s.bbRemain = 0#32 then some s
  else
    match s.inByte with
    | none => none
    | some (_, s) => some ({ s with bbRemain := s.bbRemain - 1#32 }.push [.drain])

end Sys2Proof.Machine
end

