-- ==== Sys2Proof/Machine/EncoderUnit.lean ====
section
/-!
DEFINITION. The encoder's statements (42_encoder.md R155 to R170): frequency counter, tree builder,
code-table generator and bit-packer. Each function is one core step; its statement has already been taken
off `todo`. `none` is a hold (60_exceptions.md R276).
-/

namespace Sys2Proof.Machine

/-- ENC_COUNT's flag clears and latches (R168), one step (R166: "in the same step"). -/
def stepEncLatch (s : State) : State :=
  { s with
    freqValid := false
    treeValid := false
    tableValid := false
    degenerate := false
    encSent := s.sentinel
    encColl := s.collChk }

/-- `if SRC_LEN == 0: raise EMPTY_INPUT` (R168, R170). -/
def stepNeedSource (s : State) : State :=
  if s.srcLen = 0#32 then s.raise .emptyInput else s

/-- `if SRC_LEN > MAX_LEN: raise COUNT_OVERFLOW` (R168). -/
def stepNeedCountable (s : State) : State :=
  if Config.maxLen.toNat < s.srcLen.toNat then s.raise .countOverflow else s

/-- `for s in 0 .. 255: FREQ[s] <- 0` (R155). -/
def stepClearFreq (s : State) : State := { s with freq := Vector.replicate 256 0#32 }

/-- The loop of the count pass, `n` iterations left: take a byte, then run the body on it (R155). -/
def stepCount (n : Nat) (s : State) : Option State :=
  match n with
  | 0 => some s
  | n + 1 =>
    match s.inByte with
    | none => none
    | some (v, s) => some (s.push [.tally v, .count n])

/-- The body of the count pass for byte `v` (R155): with ENC_COLL = 1 a byte equal to ENC_SENT raises
SENTINEL_COLLISION and is not counted. -/
def stepTally (v : Byte) (s : State) : State :=
  if s.encColl ∧ v = s.encSent then s.raise .sentinelCollision else s.bumpFreq v

/-- `FREQ[ENC_SENT] <- FREQ[ENC_SENT] + 1`, the appended sentinel (R155). -/
def stepCountSentinel (s : State) : State := s.bumpFreq s.encSent

/-- `FREQ_VALID <- 1` (R168). -/
def stepSetFreqValid (s : State) : State := { s with freqValid := true }

/-- `deg <- 0` and `NCNT <- 0` (R156, R169), with an empty heap (10_state.md R42; log 6). -/
def stepBuildStart (s : State) : State := { s with deg := false, ncnt := 0#10, heap := [] }

/-- Put a node at NODE[NCNT], insert its index into HEAP and count it (R156, R157). -/
def addNode (n : Node) (s : State) : State :=
  let i := s.nextIdx
  let s := (s.setNode i n).heapInsert i
  { s with ncnt := s.ncnt + 1#10 }

/-- One iteration of the leaf loop, in ascending symbol order (R156). -/
def stepMakeLeaves (k : Nat) (s : State) : State :=
  if k < 256 then
    let f := s.freqAt (BitVec.ofNat 8 k)
    let s := if 0 < f.toNat then addNode (.leaf (BitVec.ofNat 8 k) f) s else s
    s.push [.makeLeaves (k + 1)]
  else s

/-- `if L == 1: wrapSingle() else: mergeLoop()`, where L is NCNT after the leaf loop (R156, R169). -/
def stepShape (s : State) : State :=
  s.push [if s.ncnt = 1#10 then .wrapSingle else .mergeLoop]

/-- `wrapSingle()`, the degenerate case (R158). -/
def stepWrapSingle (s : State) : State :=
  let (a, s) := s.heapExtractMin
  let s := s.setNode 1#9 (.leaf s.encSent 0#32)
  let s := s.setNode 2#9 (.internal a 1#9 ((s.nodeAt a).freq + 0#32))
  { s with ncnt := 3#10, root := 2#9, deg := true }

/-- One iteration of the merge loop, or its end (R157): the entry extracted first is the left child. -/
def stepMergeLoop (s : State) : State :=
  if 2 ≤ s.heapSize then
    let (a, s) := s.heapExtractMin
    let (b, s) := s.heapExtractMin
    let s := addNode (.internal a b ((s.nodeAt a).freq + (s.nodeAt b).freq)) s
    s.push [.mergeLoop]
  else
    let (r, s) := s.heapExtractMin
    { s with root := r }

/-- `for s in 0 .. 255: CT[s].len <- 0` (R160). -/
def stepClearTable (s : State) : State := { s with ct := Vector.replicate 256 [] }

/-- The walk's first visit is ROOT with the empty path (R161, R164). -/
def stepWalkStart (s : State) : State := { s with stack := [.visit s.root []] }

/-- One visit of the table walk, on the explicit stack (R161): the first leaf of a symbol in preorder
defines its code (R162). -/
def stepWalkTable (s : State) : State :=
  match s.stack with
  | .visit n p :: st =>
    let s := { s with path := p, stack := st }
    match s.nodeAt n with
    | .leaf sym _ =>
      let s := if (s.codeAt sym).length = 0 then s.setCode sym s.path else s
      s.push [.walkTable]
    | .internal l r _ =>
      { s with stack := .visit l (p ++ [false]) :: .visit r (p ++ [true]) :: st }.push [.walkTable]
  | _ => s

/-- `TREE_VALID <- 1; TABLE_VALID <- 1; DEGENERATE <- deg` (R169). -/
def stepSetBuilt (s : State) : State :=
  { s with treeValid := true, tableValid := true, degenerate := s.deg }

/-- One record of the tree write, on the explicit stack (R164). -/
def stepTreeWrite (s : State) : State :=
  match s.stack with
  | .visit n p :: st =>
    match s.nodeAt n with
    | .leaf sym _ =>
      { s with stack := st }.push [.writeBit true, .writeByte sym, .treeWrite]
    | .internal l r _ =>
      { s with stack := .visit l (p ++ [false]) :: .visit r (p ++ [true]) :: st }.push
        [.writeBit false, .treeWrite]
  | _ => s

/-- The loop of the payload pass, `n` iterations left (R165). -/
def stepEmit (n : Nat) (s : State) : Option State :=
  match n with
  | 0 => some s
  | n + 1 =>
    match s.inByte with
    | none => none
    | some (v, s) => some (s.push [.emitSym v, .emit n])

/-- The body of the payload pass for byte `v` (R165): the collision check, the table check, then the
bits of the code. -/
def stepEmitSym (v : Byte) (s : State) : State :=
  if s.encColl ∧ v = s.encSent then s.raise .sentinelCollision
  else if (s.codeAt v).length = 0 then s.raise .unknownSymbol
  else s.push ((s.codeAt v).map Stmt.writeBit)

/-- `sentinelCode()` (R166). -/
def stepSentinelCode (s : State) : State :=
  s.push ((s.codeAt s.encSent).map Stmt.writeBit)

end Sys2Proof.Machine
end

