-- ==== Sys2Proof/Machine/Sequencer.lean ====
section
/-!
DEFINITION. The command sequencer (40_control.md R100 to R106): one core step per statement, the core's
turn of a step, and the acceptance or the dropping of a command word.
-/

namespace Sys2Proof.Machine

/-- Run one statement, already taken off `todo`: the state after this core step, or `none` for a hold. -/
def runStmt (st : Stmt) (s : State) : Option State :=
  match st with
  | .legality => some (if illegalWord s.cmdw then s.raise .illegalCmd else s)
  | .phase op => some { s with phase := op }
  | .complete => some s.completeStep
  | .fail e => some (s.failStep e)
  | .needFlag f => some (if s.flag f then s else s.raise .sequence)
  | .needMode m => some (if s.bbMode = m then s else s.raise .invalidMode)
  | .bbOpen m => some (stepBbOpen m s)
  | .writeBit b => some (stepWriteBit b s)
  | .writeByte v => some (stepWriteByte v s)
  | .clearBits => some (stepClearBits s)
  | .readBit u => some (stepReadBit u deliverBit s)
  | .fetch n => stepFetch n s
  | .bbClose => some (stepBbClose s)
  | .bbShut => some (stepBbShut s)
  | .outByte v => s.outByte v
  | .encLatch => some (stepEncLatch s)
  | .needSource => some (stepNeedSource s)
  | .needCountable => some (stepNeedCountable s)
  | .clearFreq => some (stepClearFreq s)
  | .countPass => some (s.push [.count s.srcLen.toNat])
  | .count n => stepCount n s
  | .tally v => some (stepTally v s)
  | .countSentinel => some (stepCountSentinel s)
  | .setFreqValid => some (stepSetFreqValid s)
  | .buildStart => some (stepBuildStart s)
  | .makeLeaves k => some (stepMakeLeaves k s)
  | .shape => some (stepShape s)
  | .wrapSingle => some (stepWrapSingle s)
  | .mergeLoop => some (stepMergeLoop s)
  | .clearTable => some (stepClearTable s)
  | .walkStart => some (stepWalkStart s)
  | .walkTable => some (stepWalkTable s)
  | .setBuilt => some (stepSetBuilt s)
  | .treeWrite => some (stepTreeWrite s)
  | .payloadPass => some (s.push [.emit s.srcLen.toNat])
  | .emit n => stepEmit n s
  | .emitSym v => some (stepEmitSym v s)
  | .sentinelCode => some (stepSentinelCode s)
  | .clearTreeFlags => some (stepClearTreeFlags s)
  | .treeReadStart => some (stepTreeReadStart s)
  | .nodeDone i => some (stepNodeDone i s)
  | .rootRead r => some (stepRootRead r s)
  | .sampleSentinel => some (stepSampleSentinel s)
  | .descendStart => some (stepDescendStart s)
  | .symbolLoop => some (stepSymbolLoop s)
  | .drain => stepDrain s

/-- One step of the core (40_control.md R104): the next statement of the running command. `none`: the
core is idle, or it holds for the source or the sink (60_exceptions.md R274, R276). -/
def coreStep (s : State) : Option State :=
  match s.todo with
  | [] => none
  | st :: rest => runStmt st { s with todo := rest }

/-- At most `n` core steps, stopping where the core is idle or holds. Stopping short is no error: the
command stays BUSY, and the next turn goes on (log 1). -/
def runCore : Nat → State → State
  | 0, s => s
  | n + 1, s =>
    match coreStep s with
    | none => s
    | some s' => runCore n s'

/-- How many core steps a turn takes when nothing interrupts it: more than any command needs
(70_reset_and_hazards.md R304; log 1). -/
def runOn (s : State) : Nat := 2 ^ 64 * ((s.bufBytes + 1) * (s.bbBits.length + 1))

/-- The number of core steps of this turn: what the schedule grants, or as many as the command needs. -/
def quota (s : State) : Nat :=
  match s.env.sched with
  | [] => runOn s
  | q :: _ => q

/-- Has the core a step to take in this turn? -/
def coreMoves (s : State) : Bool := quota s != 0 && (coreStep s).isSome

/-- The schedule's next entry is used up. -/
def popSched (s : State) : State := { s with env := { s.env with sched := s.env.sched.tail } }

/-- An agent has taken a step, so the unspecified reads may change (20_memory.md R63; log 3). -/
def tick (s : State) : State := { s with env := { s.env with epoch := s.env.epoch + 1 } }

/-- The core's turn: it runs until it has taken its quota of steps, is idle or holds. -/
def coreTurn (s : State) : State :=
  runCore (quota s) (if coreMoves s then tick (popSched s) else popSched s)

/-- A write of `w` to CMD (40_control.md R100, R101): while BUSY = 1 it is dropped and sets CMD_DROPPED;
otherwise it is accepted and its body starts. Then the core has its turn. -/
def issue (w : Word) (body : List Stmt) (s : State) : State :=
  coreTurn (tick (if s.busy then { s with dropped := true } else s.accept w body))

end Sys2Proof.Machine
end

