-- ==== Sys2Proof/Machine/BitBuffer.lean ====
section
/-!
DEFINITION. The six raw bit-buffer commands (41_bitbuffer.md R129 to R134).
-/

namespace Sys2Proof.Machine

/-- BB_OPEN_W (R129). -/
def execBbOpenW (s : State) : Host.Outcome State Fault Refusal :=
  .next (issue (encodeWord .bbOpenW)
    [.legality, .phase 0x30#8, .needMode .closed, .bbOpen .write, .complete] s)

/-- BB_OPEN_R (R130). -/
def execBbOpenR (s : State) : Host.Outcome State Fault Refusal :=
  .next (issue (encodeWord .bbOpenR)
    [.legality, .phase 0x31#8, .needMode .closed, .bbOpen .read, .complete] s)

/-- BB_WRITE_BIT (R131): the bit is ARG[0]; with ARG[7:1] ≠ 0 the legality check raises ILLEGAL_CMD. -/
def execBbWriteBit (arg : Byte) (s : State) : Host.Outcome State Fault Refusal :=
  .next (issue (encodeWord (.bbWriteBit arg))
    [.legality, .phase 0x32#8, .writeBit (argBit arg), .complete] s)

/-- BB_WRITE_BYTE (R132). -/
def execBbWriteByte (arg : Byte) (s : State) : Host.Outcome State Fault Refusal :=
  .next (issue (encodeWord (.bbWriteByte arg))
    [.legality, .phase 0x33#8, .writeByte arg, .complete] s)

/-- BB_READ_BIT (R133). -/
def execBbReadBit (s : State) : Host.Outcome State Fault Refusal :=
  .next (issue (encodeWord .bbReadBit)
    [.legality, .phase 0x34#8, .readBit .result, .complete] s)

/-- BB_CLOSE (R134). -/
def execBbClose (s : State) : Host.Outcome State Fault Refusal :=
  .next (issue (encodeWord .bbClose)
    [.legality, .phase 0x35#8, .bbClose, .complete] s)

end Sys2Proof.Machine
end

