-- ==== Sys2Proof/Machine/Control.lean ====
section
/-!
DEFINITION. Command control: NOP (40_control.md R105), and what an illegal word does (R102).
-/

namespace Sys2Proof.Machine

/-- NOP: the legality check, then completion (R105). -/
def execNop (s : State) : Host.Outcome State Fault Refusal :=
  .next (issue (encodeWord .nop) [.legality, .phase 0x00#8, .complete] s)

/-- An illegal word is accepted too, and its body is only the legality check (R100, R102), which raises
ILLEGAL_CMD. -/
def execIllegal (w : Word) (s : State) : Host.Outcome State Fault Refusal :=
  .next (issue w [.legality] s)

end Sys2Proof.Machine
end

