-- ==== Sys2Proof/Machine/Decoder.lean ====
section
/-!
DEFINITION. The three decoder commands (43_decoder.md R207 to R209). A body is a command's statements
after its legality check and before `complete()`; DECODE runs the two bodies in turn (40_control.md R106).
-/

namespace Sys2Proof.Machine

/-- The body of DEC_TREE (R207, R200). -/
def bodyDecTree : List Stmt :=
  [.phase 0x20#8, .needMode .closed, .clearTreeFlags, .bbOpen .read, .treeReadStart, .readBit .tag]

/-- The body of DEC_PAYLOAD (R208, R203 to R205). -/
def bodyDecPayload : List Stmt :=
  [.phase 0x21#8, .needFlag .tree, .needMode .read, .sampleSentinel, .descendStart, .symbolLoop,
    .drain, .bbClose]

/-- DEC_TREE (R207). -/
def execDecTree (s : State) : Host.Outcome State Fault Refusal :=
  .next (issue (encodeWord .decTree) (.legality :: bodyDecTree ++ [.complete]) s)

/-- DEC_PAYLOAD (R208). -/
def execDecPayload (s : State) : Host.Outcome State Fault Refusal :=
  .next (issue (encodeWord .decPayload) (.legality :: bodyDecPayload ++ [.complete]) s)

/-- DECODE (R209). -/
def execDecode (s : State) : Host.Outcome State Fault Refusal :=
  .next (issue (encodeWord .decode) (.legality :: bodyDecTree ++ bodyDecPayload ++ [.complete]) s)

end Sys2Proof.Machine
end

