-- ==== Sys2Proof/Machine/Encoder.lean ====
section
/-!
DEFINITION. The four encoder commands (42_encoder.md R168 to R171). A body is a command's statements
after its legality check and before `complete()`; ENCODE runs the three bodies in turn (40_control.md R106).
-/

namespace Sys2Proof.Machine

/-- The body of ENC_COUNT (R168, R155). -/
def bodyEncCount : List Stmt :=
  [.phase 0x10#8, .encLatch, .needSource, .needCountable, .clearFreq, .countPass, .countSentinel,
    .setFreqValid]

/-- The body of ENC_BUILD (R169, R156 to R161). -/
def bodyEncBuild : List Stmt :=
  [.phase 0x11#8, .needFlag .freq, .buildStart, .makeLeaves 0, .shape, .clearTable, .walkStart,
    .walkTable, .setBuilt]

/-- The body of ENC_EMIT (R170, R164 to R167). -/
def bodyEncEmit : List Stmt :=
  [.phase 0x12#8, .needFlag .table, .needMode .closed, .needSource, .bbOpen .write, .walkStart,
    .treeWrite, .payloadPass, .sentinelCode, .bbClose]

/-- ENC_COUNT (R168). -/
def execEncCount (s : State) : Host.Outcome State Fault Refusal :=
  .next (issue (encodeWord .encCount) (.legality :: bodyEncCount ++ [.complete]) s)

/-- ENC_BUILD (R169). -/
def execEncBuild (s : State) : Host.Outcome State Fault Refusal :=
  .next (issue (encodeWord .encBuild) (.legality :: bodyEncBuild ++ [.complete]) s)

/-- ENC_EMIT (R170). -/
def execEncEmit (s : State) : Host.Outcome State Fault Refusal :=
  .next (issue (encodeWord .encEmit) (.legality :: bodyEncEmit ++ [.complete]) s)

/-- ENCODE (R171). -/
def execEncode (s : State) : Host.Outcome State Fault Refusal :=
  .next (issue (encodeWord .encode)
    (.legality :: bodyEncCount ++ bodyEncBuild ++ bodyEncEmit ++ [.complete]) s)

end Sys2Proof.Machine
end

