-- ==== Sys2Proof/Machine/Dispatch.lean ====
section
/-!
DEFINITION. One arm per constructor of Instr.
-/

namespace Sys2Proof.Machine

def exec (i : Instr) (s : State) : Host.Outcome State Fault Refusal :=
  match i with
  | .nop => Sys2Proof.Machine.execNop s
  | .encCount => Sys2Proof.Machine.execEncCount s
  | .encBuild => Sys2Proof.Machine.execEncBuild s
  | .encEmit => Sys2Proof.Machine.execEncEmit s
  | .encode => Sys2Proof.Machine.execEncode s
  | .decTree => Sys2Proof.Machine.execDecTree s
  | .decPayload => Sys2Proof.Machine.execDecPayload s
  | .decode => Sys2Proof.Machine.execDecode s
  | .bbOpenW => Sys2Proof.Machine.execBbOpenW s
  | .bbOpenR => Sys2Proof.Machine.execBbOpenR s
  | .bbWriteBit arg => Sys2Proof.Machine.execBbWriteBit arg s
  | .bbWriteByte arg => Sys2Proof.Machine.execBbWriteByte arg s
  | .bbReadBit => Sys2Proof.Machine.execBbReadBit s
  | .bbClose => Sys2Proof.Machine.execBbClose s

end Sys2Proof.Machine
end

