-- ==== Sys2Proof/Machine/HostPort.lean ====
section
/-!
DEFINITION. The register port (20_memory.md R61, R63; 10_state.md R22 to R38) and the other actions of
the agents outside the core (00_scope.md R10).
-/

namespace Sys2Proof.Machine

/-- The word number of an offset: bits [11:2]; bits [1:0] are ignored (R61). -/
def wordIndex (off : Offset) : Nat := (off.extractLsb' 2 10).toNat

/-- An unspecified register read (R49): a free value of the register and the step (log 3). -/
def freeWord (s : State) (n : Nat) : Word := Config.freeRead s.env.epoch n

/-- STATUS (R26): bits [31:10] read 0; while BUSY = 1 bits [9:4] are unspecified. -/
def statusWord (s : State) : Word :=
  0#22 ++ ((if s.busy then (freeWord s 3).extractLsb' 4 6 else s.statusHigh) ++ s.statusLow)

/-- What a read of word `n` of the window returns (R22 to R38). -/
def readWord (s : State) (n : Nat) : Word :=
  match n with
  | 0 => Config.idValue
  | 1 => s.ctrlWord
  | 2 => 0#32
  | 3 => statusWord s
  | 4 => s.errWord
  | 5 => s.cfgWord
  | 6 => s.srcLen
  | 7 => s.inCount
  | 8 => s.outCount
  | 9 => if s.busy then freeWord s 9 else (BitVec.ofBool s.result).setWidth 32
  | 10 => s.tblIdx.setWidth 32
  | 11 => if !s.busy && s.freqValid then s.freqAt s.tblIdx else freeWord s 11
  | 12 => if !s.busy && s.tableValid then BitVec.ofNat 32 ((s.codeAt s.tblIdx).length % 256) else freeWord s 12
  | 21 => if !s.busy && s.treeValid then s.ncnt.setWidth 32 else freeWord s 21
  | n =>
    if 13 ≤ n ∧ n ≤ 20 then
      if !s.busy && s.tableValid then codeWindow (s.codeAt s.tblIdx) (n - 13) else freeWord s n
    else 0#32

/-- What a read of the register at byte offset `off` returns (R61). -/
def readReg (s : State) (off : Offset) : Word := readWord s (wordIndex off)

/-- A host read: the port returns the data; no register changes (R63). -/
def hostRead (off : Offset) (s : State) : State :=
  { s with env := { s.env with readData := readReg s off } }

/-- A host write of CTRL (R24): SRST = 1 is a reset, and the value of bit 1 is then discarded. -/
def writeCtrl (v : Word) (s : State) : State :=
  if v.getLsbD 0 then s.resetBlock else { s with irqEn := v.getLsbD 1 }

/-- A host write of STATUS (R26): 1 in bit 1 clears DONE, 1 in bit 3 clears CMD_DROPPED. -/
def writeStatus (v : Word) (s : State) : State :=
  { s with done := s.done && !v.getLsbD 1, dropped := s.dropped && !v.getLsbD 3 }

/-- A host write of CFG (R28), ignored while BUSY = 1. -/
def writeCfg (v : Word) (s : State) : State :=
  if s.busy then s else { s with sentinel := v.extractLsb' 0 8, collChk := v.getLsbD 8 }

/-- A host write of SRC_LEN (R29), ignored while BUSY = 1. -/
def writeSrcLen (v : Word) (s : State) : State :=
  if s.busy then s else { s with srcLen := v }

/-- A host write of TBL_IDX (R33), at any time. -/
def writeTblIdx (v : Word) (s : State) : State := { s with tblIdx := v.extractLsb' 0 8 }

/-- A host write of `v` to word `n`, CMD apart (R22): a write to a read-only or unmapped word has no
effect (R22, R38). -/
def writeWord (n : Nat) (v : Word) (s : State) : State :=
  match n with
  | 1 => writeCtrl v s
  | 3 => writeStatus v s
  | 5 => writeCfg v s
  | 6 => writeSrcLen v s
  | 10 => writeTblIdx v s
  | _ => s

/-- A host write of `w` to CMD (R25, R80): the decoded command's meaning, or the illegal word's. -/
def writeCmd (w : Word) (s : State) : Host.Outcome State Fault Refusal :=
  match decode w with
  | .ok i => exec i s
  | .error _ => execIllegal w s

/-- The source offers `bytes` after those it already offers (30_encoding.md R93). -/
def offerBytes (bytes : List Byte) (s : State) : State :=
  { s with env := { s.env with sIn := s.env.sIn ++ bytes } }

/-- The source withdraws the first `n` bytes not yet taken (70_reset_and_hazards.md R296). -/
def withdrawBytes (n : Nat) (s : State) : State :=
  { s with env := { s.env with sIn := s.env.sIn.drop n } }

/-- The sink's readiness changes (20_memory.md R65). -/
def setSink (n : Option Nat) (s : State) : State := { s with env := { s.env with sink := n } }


/-- One action of an agent outside the core, and the core's turn after it. -/
def perform (e : Event) (s : State) : Host.Outcome State Fault Refusal :=
  match e with
  | .write off v =>
    if wordIndex off = 2 then writeCmd v s else .next (coreTurn (tick (writeWord (wordIndex off) v s)))
  | .read off => .next (coreTurn (hostRead off s))
  | .offer bytes => .next (coreTurn (tick (offerBytes bytes s)))
  | .withdraw n => .next (coreTurn (tick (withdrawBytes n s)))
  | .sinkReady n => .next (coreTurn (tick (setSink n s)))
  | .rst => .next (coreTurn (tick s.resetBlock))

end Sys2Proof.Machine
end

