-- ==== Sys2Proof/Machine/Step.lean ====
section
/-!
DEFINITION. One step of the machine: the oldest coming action of an agent outside the core, if there is
one, and then the core's turn (00_scope.md R10, 20_memory.md R72).
-/

namespace Sys2Proof.Machine

/-- One step. With no coming action only the core moves; an idle or holding core stays as it is. -/
def step (s : State) : Host.Outcome State Fault Refusal :=
  match s.env.events with
  | [] => .next (coreTurn s)
  | e :: rest => perform e { s with env := { s.env with events := rest } }

/-- `s` with the CMD word `w` as the next host write. A running command, which would make the write a
dropped one (40_control.md R101), is set aside (log 10). -/
def State.withFetchWord (s : State) (nbits w : Nat) : State :=
  { s with
    todo := []
    env := { s.env with events := .write 0x008#12 (BitVec.ofNat 32 (w % 2 ^ nbits)) :: s.env.events } }

end Sys2Proof.Machine
end

