-- ==== Sys2Proof/Format.lean ====
section
/-!
DEFINITION. The compressed stream as mathematics, for statements to compare the machine with: code trees
and their wire format (30_encoding.md R86 to R90), the code table of a tree (42_encoder.md R161, R162),
Huffman's construction with ties broken by insertion order (42_encoder.md R150, R156 to R158), and the
symbols a bit sequence spells (43_decoder.md R203, R204). No definition of the machine uses this file.
-/

namespace Sys2Proof.Format

/-- A code tree: a leaf holds a symbol, an internal node exactly two subtrees (10_state.md R41). -/
inductive Tree where
  | leaf (sym : Byte)
  | node (left right : Tree)
  deriving DecidableEq, Repr

namespace Tree

/-- Is the tree a single leaf? -/
def isLeaf : Tree → Bool
  | .leaf _ => true
  | .node _ _ => false

/-- The number of nodes. -/
def nodes : Tree → Nat
  | .leaf _ => 1
  | .node l r => 1 + l.nodes + r.nodes

/-- The symbols of the leaves in preorder. -/
def symbols : Tree → List Byte
  | .leaf s => [s]
  | .node l r => l.symbols ++ r.symbols

/-- The length of the longest path from the root to a leaf. -/
def depth : Tree → Nat
  | .leaf _ => 0
  | .node l r => 1 + max l.depth r.depth

/-- The tree section (30_encoding.md R87): a leaf is 1 and its symbol, most significant bit first; an
internal node is 0, its left subtree and its right subtree. -/
def serialize : Tree → List Bool
  | .leaf s => true :: Machine.bitsOfByte s
  | .node l r => false :: (l.serialize ++ r.serialize)

/-- The records of the tree section in order, one for each node in preorder (R87): a leaf's 9 bits, an
internal node's 1 bit. -/
def records : Tree → List (List Bool)
  | .leaf s => [true :: Machine.bitsOfByte s]
  | .node l r => [false] :: (l.records ++ r.records)

/-- The bits of the first `n` records of the tree section (43_decoder.md R200: NODE_CAP counts records). -/
def firstRecords (t : Tree) (n : Nat) : List Bool := (t.records.take n).flatten

/-- The leaves in preorder, each with its path from the root, 0 for left and 1 for right (R88). -/
def codes : Tree → List (Byte × List Bool)
  | .leaf s => [(s, [])]
  | .node l r =>
    l.codes.map (fun c => (c.1, false :: c.2)) ++ r.codes.map (fun c => (c.1, true :: c.2))

/-- The code of a symbol: the path of its first leaf in preorder; [] if it has no leaf (42_encoder.md
R160 to R162). -/
def code (t : Tree) (s : Byte) : List Bool :=
  match t.codes.find? (fun c => c.1 == s) with
  | some c => c.2
  | none => []

/-- The child a bit leads to (43_decoder.md R203). -/
def child (b : Bool) : Tree → Tree
  | .leaf s => .leaf s
  | .node l r => if b then r else l

/-- What the bits spell from position `cur` of the tree `root` on (43_decoder.md R203, R204): the symbols
before the first `sentinel`, and whether the sentinel was reached. -/
def spell (root : Tree) (sentinel : Byte) (cur : Tree) : List Bool → List Byte × Bool
  | [] => ([], false)
  | b :: bits =>
    match cur.child b with
    | .leaf s =>
      if s = sentinel then ([], true)
      else
        let rest := spell root sentinel root bits
        (s :: rest.1, rest.2)
    | .node l r => spell root sentinel (.node l r) bits

end Tree

/-- The 256 symbols in ascending order. -/
def allSymbols : List Byte := (List.range 256).map (BitVec.ofNat 8)

/-- The first entry of least weight of the list `x :: l`, and the other entries in their order. Entries
stand in the order in which they were inserted, so this is the stable tie-break (R150). -/
def takeLeast (x : Nat × Tree) : List (Nat × Tree) → (Nat × Tree) × List (Nat × Tree)
  | [] => (x, [])
  | y :: rest =>
    let m := takeLeast y rest
    if x.1 ≤ m.1.1 then (x, y :: rest) else (m.1, x :: m.2)

/-- Huffman's merging (R157): while two entries are left, join the two of least weight, the one taken
first on the left, and insert the result last. `fuel` is the number of merges allowed. -/
def mergeForest : Nat → List (Nat × Tree) → Option Tree
  | _, [] => none
  | _, [x] => some x.2
  | 0, _ :: _ :: _ => none
  | fuel + 1, x :: y :: rest =>
    let a := takeLeast x (y :: rest)
    match a.2 with
    | [] => none
    | z :: others =>
      let b := takeLeast z others
      mergeForest fuel (b.2 ++ [(a.1.1 + b.1.1, .node a.1.2 b.1.2)])

/-- The weighted leaves, in ascending symbol order (R156). -/
def leafForest (weight : Byte → Nat) : List (Nat × Tree) :=
  (allSymbols.filter (fun s => 0 < weight s)).map (fun s => (weight s, .leaf s))

/-- The tree of a weight function (R156 to R158): a single symbol is wrapped with the sentinel. -/
def huffman (weight : Byte → Nat) (sentinel : Byte) : Tree :=
  match leafForest weight with
  | [x] => .node x.2 (.leaf sentinel)
  | forest => (mergeForest forest.length forest).getD (.leaf sentinel)

/-- The counts of the source bytes and of one sentinel (R155). -/
def counts (source : List Byte) (sentinel s : Byte) : Nat :=
  source.count s + if s = sentinel then 1 else 0

/-- Tree section and payload section (30_encoding.md R86, R88): the tree, the codes of the source bytes
in order, the sentinel's code. -/
def streamBits (t : Tree) (source : List Byte) (sentinel : Byte) : List Bool :=
  t.serialize ++ (source.flatMap t.code ++ t.code sentinel)

/-- The encoded stream (R86, R90): its bits packed into bytes, the last byte padded with 0 bits. -/
def encodedStream (source : List Byte) (sentinel : Byte) : List Byte :=
  Machine.packBits (streamBits (huffman (counts source sentinel) sentinel) source sentinel)

end Sys2Proof.Format
end

