-- ==== Sys2Proof/Safety.lean ====
section
/-!
DEFINITION. The terms in which claims speak of runs: a quiet machine, a tree and a table held by the
memories, what a command keeps, and the invariants.
-/

namespace Sys2Proof.Machine

open Sys2Proof.Format (Tree)

/-! ### Premises of completion -/

/-- The core is idle, nothing will interrupt the next command, and the sink accepts every byte
(30_encoding.md R93, SINK). -/
def State.Quiet (s : State) : Prop := s.todo = [] ∧ s.env.sched = [] ∧ s.env.sink = none

/-- The bits an open read session can still return: those in the buffer, then those of the session's
bytes not yet taken (41_bitbuffer.md R128). -/
def avail (s : State) : List Bool :=
  s.bbBits ++ (s.env.sIn.take s.bbRemain.toNat).flatMap bitsOfByte

/-- The source offers every byte of the open read session (70_reset_and_hazards.md R295). -/
def Supplied (s : State) : Prop := s.bbRemain.toNat ≤ s.env.sIn.length

/-- The next `n` bytes the source offers. -/
def nextBytes (s : State) (n : Nat) : List Byte := s.env.sIn.take n

/-- The bits of one pass of SRC_LEN bytes over the source, in stream order (20_memory.md R66). -/
def streamOf (s : State) : List Bool := (nextBytes s s.srcLen.toNat).flatMap bitsOfByte

/-- The source offers at least `n` bytes (70_reset_and_hazards.md R295). -/
def Offers (s : State) (n : Nat) : Prop := n ≤ s.env.sIn.length

/-- The bytes a read session of `n0` bytes has taken once `r` of its bits have been read
(41_bitbuffer.md R128). -/
def readAhead (s : State) (n0 r : Nat) : Nat := min n0 (s.bufBytes * ((r + s.bufBits - 1) / s.bufBits))

/-- The core takes no step in the coming turn: it is idle, or the schedule grants it none. -/
def Paused (s : State) : Prop := s.todo = [] ∨ ∃ q, s.env.sched = 0 :: q

/-- The bits a raw write command writes (41_bitbuffer.md R131, R132). -/
def writtenBits : Instr → List Bool
  | .bbWriteBit arg => [arg.getLsbD 0]
  | .bbWriteByte arg => bitsOfByte arg
  | .nop => []
  | .encCount => []
  | .encBuild => []
  | .encEmit => []
  | .encode => []
  | .decTree => []
  | .decPayload => []
  | .decode => []
  | .bbOpenW => []
  | .bbOpenR => []
  | .bbReadBit => []
  | .bbClose => []

/-- `n` steps. -/
def stepMany : Nat → State → Option State
  | 0, s => some s
  | n + 1, s =>
    match step s with
    | .next t => stepMany n t
    | .fault _ => none
    | .refused _ => none

/-! ### What the memories hold -/

/-- NODE holds the tree at index `i` (10_state.md R41, R47). -/
def HoldsTree (s : State) (i : NodeIdx) : Tree → Prop
  | .leaf sym => ∃ f, s.nodeAt i = .leaf sym f
  | .node l r => ∃ a b f, s.nodeAt i = .internal a b f ∧ HoldsTree s a l ∧ HoldsTree s b r

/-- NODE holds the tree at index `i`, all its entries below index `n` and every child below its parent
(42_encoder.md R159 (c)). -/
def HoldsBelow (n : Nat) (s : State) (i : NodeIdx) : Tree → Prop
  | .leaf sym => i.toNat < n ∧ ∃ f, s.nodeAt i = .leaf sym f
  | .node l r => i.toNat < n ∧ ∃ a b f, s.nodeAt i = .internal a b f ∧ a.toNat < i.toNat ∧
      b.toNat < i.toNat ∧ HoldsBelow n s a l ∧ HoldsBelow n s b r

/-- CT holds the codes of the tree (10_state.md R43, R47). -/
def HoldsTable (s : State) (t : Tree) : Prop := ∀ v, s.codeAt v = t.code v

/-- NODE holds the tree from index `i` on in preorder, as DEC_TREE fills it (43_decoder.md R200, R202). -/
def HoldsPreorder (s : State) (i : Nat) : Tree → Prop
  | .leaf sym => s.nodeAt (BitVec.ofNat 9 i) = .leaf sym Config.decodedFreq
  | .node l r =>
    s.nodeAt (BitVec.ofNat 9 i)
        = .internal (BitVec.ofNat 9 (i + 1)) (BitVec.ofNat 9 (i + 1 + l.nodes)) Config.decodedFreq ∧
      HoldsPreorder s (i + 1) l ∧ HoldsPreorder s (i + 1 + l.nodes) r

/-- The weight function FREQ holds (10_state.md R40). -/
def weightOf (s : State) (v : Byte) : Nat := (s.freqAt v).toNat

/-! ### How a command ends, and what it keeps -/

/-- The command `i` has completed successfully (40_control.md R103). -/
def Completed (i : Instr) (t : State) : Prop :=
  t.busy = false ∧ t.done = true ∧ t.errCode = .none ∧ t.errOp = i.opcode ∧ t.cmdw = encodeWord i

/-- The command word `w` has ended with error `e` of the command or phase with opcode `op`
(60_exceptions.md R261): the bit buffer is released. -/
def Failed (e : ErrCode) (op : Byte) (w : Word) (t : State) : Prop :=
  t.busy = false ∧ t.done = true ∧ t.errCode = e ∧ t.errOp = op ∧ t.cmdw = w ∧
    t.bbMode = .closed ∧ t.bbBits = [] ∧ t.bbRemain = 0#32

/-- The commands of a list, one after the other, each as a CMD write to a machine that has completed the
one before; all of them complete successfully, and `t` is the state after the last. -/
def AllComplete : List Instr → State → State → Prop
  | [], s, t => t = s
  | i :: rest, s, t => ∃ u, exec i s = .next u ∧ Completed i u ∧ AllComplete rest u t

/-- What no command writes: the host's registers (10_state.md R24, R26, R28, R29, R33), BUF_BITS, and what
the agents outside hold apart from the streams. -/
def KeepsHost (s t : State) : Prop :=
  t.extraBytes = s.extraBytes ∧ t.irqEn = s.irqEn ∧ t.dropped = s.dropped ∧
    t.sentinel = s.sentinel ∧ t.collChk = s.collChk ∧ t.srcLen = s.srcLen ∧ t.tblIdx = s.tblIdx ∧
    t.env.events = s.env.events ∧ t.env.sink = s.env.sink ∧ t.env.sched = s.env.sched ∧
    t.env.readData = s.env.readData

/-- The valid flags (10_state.md R47). -/
def KeepsFlags (s t : State) : Prop :=
  t.freqValid = s.freqValid ∧ t.treeValid = s.treeValid ∧ t.tableValid = s.tableValid ∧
    t.degenerate = s.degenerate

/-- FREQ and the encoder's latches (10_state.md R40, R45). -/
def KeepsFreq (s t : State) : Prop :=
  t.freq = s.freq ∧ t.encSent = s.encSent ∧ t.encColl = s.encColl

/-- The tree store (10_state.md R41). -/
def KeepsTree (s t : State) : Prop := t.node = s.node ∧ t.ncnt = s.ncnt ∧ t.root = s.root

/-- All internal memories (10_state.md R40 to R43, R45). -/
def KeepsMemories (s t : State) : Prop := KeepsFreq s t ∧ KeepsTree s t ∧ t.ct = s.ct ∧ t.heap = s.heap

/-- The bit buffer (10_state.md R39). -/
def KeepsBuffer (s t : State) : Prop :=
  t.bbMode = s.bbMode ∧ t.bbBits = s.bbBits ∧ t.bbRemain = s.bbRemain

/-- The source: no byte taken (20_memory.md R64). -/
def TakesNothing (s t : State) : Prop := t.env.sIn = s.env.sIn ∧ t.inCount = 0#32

/-- The command has taken exactly the source's first `n` bytes. -/
def Takes (n : Nat) (s t : State) : Prop :=
  t.env.sIn = s.env.sIn.drop n ∧ t.inCount = BitVec.ofNat 32 n

/-- The command has sent exactly the bytes `l` to the sink (20_memory.md R65). -/
def Sends (l : List Byte) (s t : State) : Prop :=
  t.env.sOut = s.env.sOut ++ l ∧ t.outCount = BitVec.ofNat 32 l.length

/-- The bytes the release of an error sends (60_exceptions.md R261): the pending bits of a write session,
padded. -/
def releaseBytes (s : State) : List Byte := if s.bbMode = .write then packBits s.bbBits else []

/-- The values a reset sets (70_reset_and_hazards.md R291), the unspecified ones apart. HEAP, ENC_SENT and ENC_COLL
are among them as R291 says, where I8 says any value: DEDUCED (log 15). -/
def AtReset (t : State) : Prop :=
  t.busy = false ∧ t.irqEn = false ∧ t.done = false ∧ t.dropped = false ∧ t.errCode = .none ∧
    t.errOp = 0#8 ∧ t.sentinel = 0x03#8 ∧ t.collChk = true ∧ t.srcLen = 0#32 ∧ t.inCount = 0#32 ∧
    t.outCount = 0#32 ∧ t.result = false ∧ t.tblIdx = 0#8 ∧ t.freqValid = false ∧ t.treeValid = false ∧
    t.tableValid = false ∧ t.degenerate = false ∧ t.bbMode = .closed ∧ t.bbBits = [] ∧
    t.bbRemain = 0#32 ∧ t.ncnt = 0#10 ∧ t.heap = [] ∧ t.encSent = 0x03#8 ∧ t.encColl = true ∧
    t.irq = false

/-- What the registers read after a reset (10_state.md R22, 70_reset_and_hazards.md R291), the unspecified
reads apart. -/
def ReadsAtReset (t : State) : Prop :=
  readReg t 0x000#12 = 0x48554601#32 ∧ readReg t 0x004#12 = 0#32 ∧ readReg t 0x008#12 = 0#32 ∧
    readReg t 0x00C#12 = 0#32 ∧ readReg t 0x010#12 = 0#32 ∧ readReg t 0x014#12 = 0x00000103#32 ∧
    readReg t 0x018#12 = 0#32 ∧ readReg t 0x01C#12 = 0#32 ∧ readReg t 0x020#12 = 0#32 ∧
    readReg t 0x024#12 = 0#32 ∧ readReg t 0x028#12 = 0#32

/-! ### Invariants -/

/-- Is the statement a refill loop? -/
def Stmt.isFetch : Stmt → Bool
  | .fetch _ => true
  | _ => false

/-- The invariant of the channel and of completion, which every step keeps:
- while BUSY = 1, DONE and ERR_CODE read 0 (10_state.md R27, 40_control.md R100);
- a CLOSED buffer holds nothing (41_bitbuffer.md R126; I9 says any value: DEDUCED, log 15), and only a read
  session has bytes to take (R121);
- BB_BITS never exceeds BUF_BITS (10_state.md R39); a refill fits into it, and a full write buffer is
  being sent (R122, R123);
- after an error completion the buffer is CLOSED (60_exceptions.md R264). -/
structure State.Inv (s : State) : Prop where
  busyClear : s.busy = true → s.done = false ∧ s.errCode = .none ∧ s.errOp = 0#8
  closedEmpty : s.bbMode = .closed → s.bbBits = [] ∧ s.bbRemain = 0#32
  writeNoRemain : s.bbMode = .write → s.bbRemain = 0#32
  bitsFit : s.bbBits.length ≤ s.bufBits
  fetchFits : ∀ n, .fetch n ∈ s.todo → s.bbMode = .read ∧ s.bbBits.length + 8 * n ≤ s.bufBits
  fetchFirst : ∀ st ∈ s.todo.tail, st.isFetch = false
  fullIsSent : s.bbMode = .write → s.bbBits.length = s.bufBits →
    ∃ (l : List Byte) (k : List Stmt), s.todo = l.map Stmt.outByte ++ .clearBits :: k
  failReleases : ∀ e, .fail e ∈ s.todo →
    s.todo = [.bbClose, .fail e] ∨ (∃ l : List Byte, s.todo = l.map Stmt.outByte ++ [.bbShut, .fail e]) ∨
      (s.todo = [.fail e] ∧ s.bbMode = .closed)
  errorClosed : s.errCode ≠ .none → s.bbMode = .closed

/-- What the valid flags promise (10_state.md R47, 42_encoder.md R155, R156, R159, R166). -/
structure State.Promise (s : State) : Prop where
  freq : s.freqValid = true → 0 < weightOf s s.encSent ∧
    (Format.allSymbols.map (weightOf s)).sum < 2 ^ 32
  tree : s.treeValid = true → ∃ t : Tree, HoldsTree s s.root t ∧ t.isLeaf = false ∧ t.nodes ≤ 511
  table : s.tableValid = true → ∃ t : Tree, HoldsTree s s.root t ∧ HoldsTable s t ∧ t.isLeaf = false ∧
    t.nodes ≤ 511 ∧ s.encSent ∈ t.symbols

end Sys2Proof.Machine
end

