-- ==== Sys2Proof/Certificates/Slice0/Obligations.lean ====
section
/-!
DEFINITION. The statements for the provers, in the order of the spec's files. `OBLIGATIONS.json` lists them.
-/

open Sys2Proof Sys2Proof.Machine

/-! ### 30_encoding.md -/

/-- 30_encoding.md R80, R81, R84: a word decodes to a command exactly when the command is well formed and
the word is its encoding. So decoding is total, every operand bit survives, and no two rows overlap. -/
def Obligations.DecodeInvertsEncode : Prop :=
  ∀ (i : Instr) (w : Word), decode w = .ok i ↔ i.wellFormed = true ∧ encodeWord i = w

/-- 30_encoding.md R83, 40_control.md R102, 60_exceptions.md R261: a word that is illegal in one of the three
ways is accepted, and completes at once with ILLEGAL_CMD and OP as written. That its release closes and
flushes an open session is the model's reading of the spec (log 14, DEDUCED). Nothing else changes. The second
clause says the same of the one command term that is not well formed, whose meaning is the model's choice
(log 11, DESIGN CHOICE). -/
def Obligations.IllegalCommandEndsAtOnce : Prop :=
  (∀ (s : State) (w : Word), s.Quiet →
    (opField w ∉ [0x00#8, 0x10#8, 0x11#8, 0x12#8, 0x13#8, 0x20#8, 0x21#8, 0x22#8, 0x30#8, 0x31#8,
        0x32#8, 0x33#8, 0x34#8, 0x35#8] ∨
      rsvdField w ≠ 0#16 ∨
      (opField w = 0x32#8 ∧ (argField w).extractLsb' 1 7 ≠ 0#7) ∨
      (opField w ≠ 0x32#8 ∧ opField w ≠ 0x33#8 ∧ argField w ≠ 0#8)) →
    ∃ t, writeCmd w s = .next t ∧ Failed .illegalCmd (opField w) w t ∧
      TakesNothing s t ∧ Sends (releaseBytes s) s t ∧
      KeepsHost s t ∧ KeepsFlags s t ∧ KeepsMemories s t ∧ t.result = s.result) ∧
  (∀ (s : State) (arg : Byte), s.Quiet → arg.extractLsb' 1 7 ≠ 0#7 →
    ∃ t, exec (.bbWriteBit arg) s = .next t ∧
      Failed .illegalCmd 0x32#8 (encodeWord (.bbWriteBit arg)) t ∧
      TakesNothing s t ∧ Sends (releaseBytes s) s t ∧
      KeepsHost s t ∧ KeepsFlags s t ∧ KeepsMemories s t ∧ t.result = s.result)

/-- 30_encoding.md R80, R81: words written out from the opcode map decode to their commands. -/
def Obligations.SampleWordsDecode : Prop :=
  decode 0x00000000#32 = .ok .nop ∧ decode 0x00000013#32 = .ok .encode ∧
    decode 0x00000021#32 = .ok .decPayload ∧ decode 0x00000132#32 = .ok (.bbWriteBit 0x01#8) ∧
    decode 0x0000A533#32 = .ok (.bbWriteByte 0xA5#8) ∧ decode 0x00000232#32 = .error .badArg ∧
    decode 0x00010000#32 = .error .rsvdNonzero ∧ decode 0x00000014#32 = .error .unassignedOp

/-! ### 40_control.md -/

/-- 20_memory.md R61, 40_control.md R100: a step whose host action is a write of a word that decodes to `i`
to CMD is `exec i`, at the state with that action taken from the coming ones. Nothing else is added. -/
def Obligations.StepRunsTheWrittenCommand : Prop :=
  ∀ (s : State) (off : Offset) (w : Word) (i : Instr) (rest : List Event),
    s.env.events = .write off w :: rest → off.extractLsb' 2 10 = 2#10 → decode w = .ok i →
    step s = exec i { s with env := { s.env with events := rest } }

/-- 40_control.md R100: what acceptance does to an idle core, shown by a turn in which the core takes no
step of the body; the body starts with the legality check, and is nothing else for an illegal word. -/
def Obligations.AcceptanceClears : Prop :=
  ∀ (s : State) (w : Word) (q : List Nat), s.todo = [] → s.env.sched = 0 :: q →
    ∃ t, writeCmd w s = .next t ∧ t.busy = true ∧ t.todo.head? = some .legality ∧
      (∀ e, decode w = .error e → t.todo = [.legality]) ∧
      t = { s with
        cmdw := w, done := false, errCode := .none, errOp := 0#8, inCount := 0#32, outCount := 0#32
        todo := t.todo
        env := { s.env with sched := q, epoch := s.env.epoch + 1 } }

/-- 40_control.md R101: a CMD write to a busy core sets CMD_DROPPED. The running command goes on exactly as
in a step without the write (the free-value index `epoch` apart, which is the model's own). -/
def Obligations.BusyCommandIsDropped : Prop :=
  ∀ (s : State) (w : Word), s.busy = true →
    ∃ t u, writeCmd w s = .next t ∧
      step { s with env := { s.env with events := [] } } = .next u ∧
      t = { u with
        dropped := true
        env := { u.env with events := s.env.events, epoch := t.env.epoch } }

/-- 40_control.md R105: NOP clears DONE's predecessors, the error code and the counters, and leaves the bit
buffer, every valid flag and every memory as it found them. -/
def Obligations.NopOnlyClears : Prop :=
  ∀ s : State, s.Quiet →
    ∃ t, exec .nop s = .next t ∧ Completed .nop t ∧ TakesNothing s t ∧ Sends [] s t ∧
      KeepsHost s t ∧ KeepsFlags s t ∧ KeepsMemories s t ∧ KeepsBuffer s t ∧ t.result = s.result

/-- 40_control.md R104, 00_scope.md R10, 20_memory.md R72: how the schedule cuts a command into turns is of no
consequence. If a step with an empty schedule ends the running command, or brings it to a hold, in `u`, then
there is a number of core steps such that the steps under any schedule do so exactly when they grant at least
that number, and then in `u` too, the free-value index apart (log 1, log 3: the model's own). -/
def Obligations.ScheduleIsInvisible : Prop :=
  ∀ s u : State, s.env.events = [] → s.env.sched = [] → step s = .next u → coreStep u = none →
    ∃ enough, ∀ grants : List Nat, ∃ t,
      stepMany grants.length { s with env := { s.env with sched := grants } } = some t ∧
      (coreStep t = none ↔ enough ≤ grants.sum) ∧
      (enough ≤ grants.sum → t = { u with env := { u.env with epoch := t.env.epoch } })

/-- 20_memory.md R64, R65, 30_encoding.md R92: a core step does not depend on when the source offers its
later bytes, nor on how many more bytes the sink will accept. -/
def Obligations.StreamTimingIsInvisible : Prop :=
  ∀ s s' : State, coreStep s = some s' →
    (∀ bytes, coreStep (offerBytes bytes s) = some (offerBytes bytes s')) ∧
      coreStep (setSink none s) = some (setSink none s')

/-- 60_exceptions.md R274, R276, 20_memory.md R64, R65: the core takes no step exactly when it is idle or waits
for the sink to accept a byte or for the source to offer one. The second clause, that a step of such a machine
without an action changes nothing but the schedule, is the model's choice (log 12, DESIGN CHOICE). -/
def Obligations.HoldsOnlyForStreams : Prop :=
  (∀ s : State, coreStep s = none ↔
    s.todo = [] ∨ (s.env.sink = some 0 ∧ ∃ v k, s.todo = .outByte v :: k) ∨
      (s.env.sIn = [] ∧ ∃ k, (∃ n, s.todo = .fetch (n + 1) :: k ∨ s.todo = .count (n + 1) :: k ∨
        s.todo = .emit (n + 1) :: k) ∨ (s.todo = .drain :: k ∧ s.bbRemain ≠ 0#32))) ∧
  (∀ s : State, s.env.events = [] → coreStep s = none →
    step s = .next { s with env := { s.env with sched := s.env.sched.tail } })

/-! ### 41_bitbuffer.md -/

/-- 41_bitbuffer.md R129, R121. -/
def Obligations.OpenForWriting : Prop :=
  ∀ s : State, s.Quiet → s.bbMode = .closed →
    ∃ t, exec .bbOpenW s = .next t ∧ Completed .bbOpenW t ∧
      t.bbMode = .write ∧ t.bbBits = [] ∧ t.bbRemain = 0#32 ∧ TakesNothing s t ∧ Sends [] s t ∧
      KeepsHost s t ∧ KeepsFlags s t ∧ KeepsMemories s t ∧ t.result = s.result

/-- 41_bitbuffer.md R130, R121. -/
def Obligations.OpenForReading : Prop :=
  ∀ s : State, s.Quiet → s.bbMode = .closed →
    ∃ t, exec .bbOpenR s = .next t ∧ Completed .bbOpenR t ∧
      t.bbMode = .read ∧ t.bbBits = [] ∧ t.bbRemain = s.srcLen ∧ TakesNothing s t ∧ Sends [] s t ∧
      KeepsHost s t ∧ KeepsFlags s t ∧ KeepsMemories s t ∧ t.result = s.result

/-- 41_bitbuffer.md R129, R130, R135, 43_decoder.md R209, 40_control.md R106: with a session open, the two
opens, ENC_EMIT with a table, DEC_TREE, and DECODE in its phase 0x20 raise INVALID_MODE, and the release closes
and flushes that session. -/
def Obligations.OpenSessionIsRefused : Prop :=
  ∀ (s : State) (i : Instr), s.Quiet → s.bbMode ≠ .closed →
    (i = .bbOpenW ∨ i = .bbOpenR ∨ (i = .encEmit ∧ s.tableValid = true) ∨ i = .decTree ∨ i = .decode) →
    ∃ t, exec i s = .next t ∧
      Failed .invalidMode (if i = .decode then 0x20#8 else i.opcode) (encodeWord i) t ∧
      TakesNothing s t ∧ Sends (releaseBytes s) s t ∧
      KeepsHost s t ∧ KeepsFlags s t ∧ KeepsMemories s t ∧ t.result = s.result

/-- 41_bitbuffer.md R131, R122: in WRITE mode one bit joins the buffer; the bit that fills it sends
BUF_BITS/8 bytes and leaves it empty. -/
def Obligations.WriteBitAppends : Prop :=
  ∀ (s : State) (arg : Byte), s.Quiet → s.bbMode = .write → s.bbBits.length < s.bufBits →
    arg.extractLsb' 1 7 = 0#7 →
    ∃ t, exec (.bbWriteBit arg) s = .next t ∧ Completed (.bbWriteBit arg) t ∧
      t.bbMode = .write ∧ t.bbRemain = s.bbRemain ∧
      (if s.bbBits.length + 1 = s.bufBits then
        t.bbBits = [] ∧ Sends (packBits (s.bbBits ++ [arg.getLsbD 0])) s t
      else t.bbBits = s.bbBits ++ [arg.getLsbD 0] ∧ Sends [] s t) ∧
      TakesNothing s t ∧ KeepsHost s t ∧ KeepsFlags s t ∧ KeepsMemories s t ∧ t.result = s.result

/-- 41_bitbuffer.md R132, R124: all eight bits, most significant first, at any bit offset; the buffer is
flushed part-way where it becomes full. -/
def Obligations.WriteByteAppends : Prop :=
  ∀ (s : State) (arg : Byte), s.Quiet → s.bbMode = .write → s.bbBits.length < s.bufBits →
    ∃ t, exec (.bbWriteByte arg) s = .next t ∧ Completed (.bbWriteByte arg) t ∧
      t.bbMode = .write ∧ t.bbRemain = s.bbRemain ∧
      (if s.bbBits.length + 8 < s.bufBits then
        t.bbBits = s.bbBits ++ bitsOfByte arg ∧ Sends [] s t
      else
        t.bbBits = (s.bbBits ++ bitsOfByte arg).drop s.bufBits ∧
          Sends (packBits ((s.bbBits ++ bitsOfByte arg).take s.bufBits)) s t) ∧
      TakesNothing s t ∧ KeepsHost s t ∧ KeepsFlags s t ∧ KeepsMemories s t ∧ t.result = s.result

/-- 41_bitbuffer.md R131, R132: a write in READ or CLOSED mode writes nothing, raises INVALID_MODE and
closes a read session. -/
def Obligations.WriteNeedsWriteMode : Prop :=
  ∀ (s : State) (i : Instr), s.Quiet → s.bbMode ≠ .write → i.wellFormed = true →
    ((∃ arg, i = .bbWriteBit arg) ∨ ∃ arg, i = .bbWriteByte arg) →
    ∃ t, exec i s = .next t ∧ Failed .invalidMode i.opcode (encodeWord i) t ∧
      TakesNothing s t ∧ Sends [] s t ∧
      KeepsHost s t ∧ KeepsFlags s t ∧ KeepsMemories s t ∧ t.result = s.result

/-- 41_bitbuffer.md R133, R125: in READ mode the next bit of the session goes to RESULT; an empty buffer
takes min(BUF_BITS/8, BB_REMAIN) bytes first. -/
def Obligations.ReadBitReturns : Prop :=
  ∀ (s : State) (b : Bool) (rest : List Bool), s.Quiet → s.bbMode = .read → Supplied s →
    avail s = b :: rest →
    ∃ t, exec .bbReadBit s = .next t ∧ Completed .bbReadBit t ∧ t.result = b ∧
      t.bbMode = .read ∧ avail t = rest ∧
      (if s.bbBits = [] then
        Takes (min s.bufBytes s.bbRemain.toNat) s t ∧
          t.bbRemain.toNat = s.bbRemain.toNat - min s.bufBytes s.bbRemain.toNat
      else TakesNothing s t ∧ t.bbRemain = s.bbRemain) ∧
      Sends [] s t ∧ KeepsHost s t ∧ KeepsFlags s t ∧ KeepsMemories s t

/-- 41_bitbuffer.md R133, R125, 60_exceptions.md R261: BB_READ_BIT outside READ mode raises INVALID_MODE,
and at the end of the session END_OF_STREAM; RESULT is unchanged and the session is closed. -/
def Obligations.ReadBitErrors : Prop :=
  ∀ (s : State) (e : ErrCode), s.Quiet →
    ((s.bbMode ≠ .read ∧ e = .invalidMode) ∨
      (s.bbMode = .read ∧ s.bbBits = [] ∧ s.bbRemain = 0#32 ∧ e = .endOfStream)) →
    ∃ t, exec .bbReadBit s = .next t ∧ Failed e 0x34#8 (encodeWord .bbReadBit) t ∧
      t.result = s.result ∧ TakesNothing s t ∧ Sends (releaseBytes s) s t ∧
      KeepsHost s t ∧ KeepsFlags s t ∧ KeepsMemories s t

/-- 41_bitbuffer.md R134, R126: BB_CLOSE succeeds in every mode; in WRITE mode it sends the pending bits
padded with 0 bits. -/
def Obligations.CloseReleases : Prop :=
  ∀ s : State, s.Quiet →
    ∃ t, exec .bbClose s = .next t ∧ Completed .bbClose t ∧
      t.bbMode = .closed ∧ t.bbBits = [] ∧ t.bbRemain = 0#32 ∧
      TakesNothing s t ∧ Sends (if s.bbMode = .write then packBits s.bbBits else []) s t ∧
      KeepsHost s t ∧ KeepsFlags s t ∧ KeepsMemories s t ∧ t.result = s.result

/-- 41_bitbuffer.md R127: a session of raw writes, all of whose commands complete, sends exactly the bits
written, packed, for every BUF_BITS; the close sends what the flushes have not, so nothing if their number is a
multiple of BUF_BITS. -/
def Obligations.WriteSessionSendsItsBits : Prop :=
  ∀ (s : State) (ws : List Instr), s.Quiet → s.bbMode = .closed →
    (∀ i ∈ ws, i.wellFormed = true ∧ ((∃ arg, i = .bbWriteBit arg) ∨ ∃ arg, i = .bbWriteByte arg)) →
    ∃ t, AllComplete (.bbOpenW :: (ws ++ [.bbClose])) s t ∧
      t.env.sOut = s.env.sOut ++ packBits (ws.flatMap writtenBits) ∧
      t.outCount = BitVec.ofNat 32 (ceilDiv8 ((ws.flatMap writtenBits).length % s.bufBits)) ∧
      t.bbMode = .closed

/-- 41_bitbuffer.md R128: the reads of a session complete and return the bits of its bytes in order, and have
taken min(n0, (BUF_BITS/8) * ceil(r / BUF_BITS)) bytes; the read after the last bit raises END_OF_STREAM. -/
def Obligations.ReadSessionReturnsItsBits : Prop :=
  ∀ (s : State), s.Quiet → s.bbMode = .closed → Offers s s.srcLen.toNat →
    (∀ r, 1 ≤ r → r ≤ 8 * s.srcLen.toNat →
      ∃ t, AllComplete (.bbOpenR :: List.replicate r .bbReadBit) s t ∧
        (streamOf s)[r - 1]? = some t.result ∧
        t.env.sIn = s.env.sIn.drop (readAhead s s.srcLen.toNat r)) ∧
    ∃ t u, AllComplete (.bbOpenR :: List.replicate (8 * s.srcLen.toNat) .bbReadBit) s t ∧
      exec .bbReadBit t = .next u ∧ Failed .endOfStream 0x34#8 (encodeWord .bbReadBit) u

/-! ### 42_encoder.md -/

/-- 42_encoder.md R168, R155: FREQ holds the counts of the source bytes and of one sentinel; the sentinel
and the collision check are latched; only FREQ_VALID is left set. -/
def Obligations.EncCountCounts : Prop :=
  ∀ s : State, s.Quiet → 0 < s.srcLen.toNat → s.srcLen.toNat ≤ 0xFFFFFFFE → Offers s s.srcLen.toNat →
    (s.collChk = true → s.sentinel ∉ nextBytes s s.srcLen.toNat) →
    ∃ t, exec .encCount s = .next t ∧ Completed .encCount t ∧
      (∀ v, (t.freqAt v).toNat = Format.counts (nextBytes s s.srcLen.toNat) s.sentinel v) ∧
      t.encSent = s.sentinel ∧ t.encColl = s.collChk ∧
      t.freqValid = true ∧ t.treeValid = false ∧ t.tableValid = false ∧ t.degenerate = false ∧
      Takes s.srcLen.toNat s t ∧ Sends [] s t ∧
      KeepsHost s t ∧ KeepsTree s t ∧ t.ct = s.ct ∧ t.heap = s.heap ∧ KeepsBuffer s t ∧
      t.result = s.result

/-- 42_encoder.md R168, R171, 40_control.md R106: SRC_LEN = 0 raises EMPTY_INPUT and SRC_LEN = 0xFFFFFFFF
COUNT_OVERFLOW, with no byte taken, after the flag clears and the latches; in ENCODE as the error of phase
0x10. -/
def Obligations.EncCountRejectsLength : Prop :=
  ∀ (s : State) (i : Instr) (e : ErrCode), s.Quiet → (i = .encCount ∨ i = .encode) →
    ((s.srcLen = 0#32 ∧ e = .emptyInput) ∨ (s.srcLen = 0xFFFFFFFF#32 ∧ e = .countOverflow)) →
    ∃ t, exec i s = .next t ∧ Failed e 0x10#8 (encodeWord i) t ∧
      t.encSent = s.sentinel ∧ t.encColl = s.collChk ∧
      t.freqValid = false ∧ t.treeValid = false ∧ t.tableValid = false ∧ t.degenerate = false ∧
      TakesNothing s t ∧ Sends (releaseBytes s) s t ∧
      KeepsHost s t ∧ t.freq = s.freq ∧ KeepsTree s t ∧ t.ct = s.ct ∧ t.heap = s.heap ∧
      t.result = s.result

/-- 42_encoder.md R155, R168, R171, 40_control.md R106: with COLL_CHK = 1 the first byte equal to the sentinel is
taken but not counted, and raises SENTINEL_COLLISION; in ENCODE as the error of phase 0x10. -/
def Obligations.EncCountFindsCollision : Prop :=
  ∀ (s : State) (i : Instr) (before after : List Byte), s.Quiet → (i = .encCount ∨ i = .encode) →
    s.collChk = true → s.env.sIn = before ++ s.sentinel :: after → s.sentinel ∉ before →
    before.length < s.srcLen.toNat → s.srcLen.toNat ≤ 0xFFFFFFFE →
    ∃ t, exec i s = .next t ∧ Failed .sentinelCollision 0x10#8 (encodeWord i) t ∧
      (∀ v, (t.freqAt v).toNat = before.count v) ∧
      t.encSent = s.sentinel ∧ t.encColl = true ∧
      t.freqValid = false ∧ t.treeValid = false ∧ t.tableValid = false ∧ t.degenerate = false ∧
      Takes (before.length + 1) s t ∧ Sends (releaseBytes s) s t ∧
      KeepsHost s t ∧ KeepsTree s t ∧ t.ct = s.ct ∧ t.heap = s.heap ∧ t.result = s.result

/-- 42_encoder.md R169, R150, R156 to R162: from counts with a sentinel whose total fits 32 bits (what
FREQ_VALID promises, 10_state.md R47), ENC_BUILD leaves Huffman's tree, ties broken by insertion order, and
its code table. -/
def Obligations.EncBuildBuildsHuffman : Prop :=
  ∀ s : State, s.Quiet → s.freqValid = true → 0 < weightOf s s.encSent →
    (Format.allSymbols.map (weightOf s)).sum < 2 ^ 32 →
    ∃ t, exec .encBuild s = .next t ∧ Completed .encBuild t ∧
      HoldsTree t t.root (Format.huffman (weightOf s) s.encSent) ∧
      HoldsTable t (Format.huffman (weightOf s) s.encSent) ∧
      t.ncnt.toNat = (Format.huffman (weightOf s) s.encSent).nodes ∧ t.heap = [] ∧
      t.freqValid = true ∧ t.treeValid = true ∧ t.tableValid = true ∧
      t.degenerate = decide ((Format.leafForest (weightOf s)).length = 1) ∧
      TakesNothing s t ∧ Sends [] s t ∧
      KeepsHost s t ∧ KeepsFreq s t ∧ KeepsBuffer s t ∧ t.result = s.result

/-- 42_encoder.md R159 (a) to (f): the shape of the tree ENC_BUILD builds, with `L` the number of symbols
counted. -/
def Obligations.EncBuildTreeShape : Prop :=
  ∀ (s : State) (L : Nat), s.Quiet → s.freqValid = true → 0 < weightOf s s.encSent →
    (Format.allSymbols.map (weightOf s)).sum < 2 ^ 32 →
    L = (Format.allSymbols.filter (fun v => 0 < weightOf s v)).length →
    ∃ t T, exec .encBuild s = .next t ∧ HoldsBelow t.ncnt.toNat t t.root T ∧
      (t.nodeAt t.root).isLeaf = false ∧
      t.ncnt.toNat = (if L = 1 then 3 else 2 * L - 1) ∧ t.ncnt.toNat ≤ 511 ∧
      (t.nodeAt t.root).freq.toNat = (Format.allSymbols.map (weightOf s)).sum ∧
      (if L = 1 then T.depth = 1 else T.depth ≤ L - 1) ∧ T.depth ≤ 255 ∧
      (2 ≤ L → T.symbols.Nodup ∧ ∀ v, v ∈ T.symbols ↔ 0 < weightOf s v)

/-- 42_encoder.md R163: the codes ENC_BUILD leaves in CT are prefix-free, and each has 1 to 255 bits. -/
def Obligations.CodesArePrefixFree : Prop :=
  ∀ s : State, s.Quiet → s.freqValid = true → 0 < weightOf s s.encSent →
    (Format.allSymbols.map (weightOf s)).sum < 2 ^ 32 →
    ∃ t, exec .encBuild s = .next t ∧
      (∀ u v, u ≠ v → t.codeAt u ≠ [] → t.codeAt v ≠ [] → ¬ t.codeAt u <+: t.codeAt v) ∧
      (∀ v, t.codeAt v ≠ [] ↔ 0 < weightOf s v) ∧
      ∀ v, t.codeAt v ≠ [] → 1 ≤ (t.codeAt v).length ∧ (t.codeAt v).length ≤ 255

/-- 70_reset_and_hazards.md R300, 60_exceptions.md R260, R261: without its flag ENC_BUILD, ENC_EMIT or
DEC_PAYLOAD raises SEQUENCE before any other check, and changes nothing but by the release. -/
def Obligations.SequenceIsChecked : Prop :=
  ∀ (s : State) (i : Instr), s.Quiet →
    ((i = .encBuild ∧ s.freqValid = false) ∨ (i = .encEmit ∧ s.tableValid = false) ∨
      (i = .decPayload ∧ s.treeValid = false)) →
    ∃ t, exec i s = .next t ∧ Failed .sequence i.opcode (encodeWord i) t ∧
      TakesNothing s t ∧ Sends (releaseBytes s) s t ∧
      KeepsHost s t ∧ KeepsFlags s t ∧ KeepsMemories s t ∧ t.result = s.result

/-- 42_encoder.md R170, R164 to R167: with the tree `T` in NODE and its codes in CT, ENC_EMIT sends the tree
section, the codes of the source bytes and the sentinel's code, packed (30_encoding.md R86). -/
def Obligations.EncEmitWritesStream : Prop :=
  ∀ (s : State) (T : Format.Tree), s.Quiet → s.tableValid = true → s.bbMode = .closed →
    HoldsTree s s.root T → HoldsTable s T → T.isLeaf = false → T.nodes ≤ 511 →
    0 < s.srcLen.toNat → Offers s s.srcLen.toNat →
    (∀ v ∈ nextBytes s s.srcLen.toNat, v ∈ T.symbols ∧ (s.encColl = true → v ≠ s.encSent)) →
    ∃ t, exec .encEmit s = .next t ∧ Completed .encEmit t ∧
      Sends (packBits (Format.streamBits T (nextBytes s s.srcLen.toNat) s.encSent)) s t ∧
      Takes s.srcLen.toNat s t ∧ t.bbMode = .closed ∧ t.bbBits = [] ∧ t.bbRemain = 0#32 ∧
      KeepsHost s t ∧ KeepsFlags s t ∧ KeepsMemories s t ∧ t.result = s.result

/-- 42_encoder.md R170: ENC_EMIT with SRC_LEN = 0 raises EMPTY_INPUT after its mode check, with nothing taken
or sent. -/
def Obligations.EncEmitNeedsSource : Prop :=
  ∀ s : State, s.Quiet → s.tableValid = true → s.bbMode = .closed → s.srcLen = 0#32 →
    ∃ t, exec .encEmit s = .next t ∧ Failed .emptyInput 0x12#8 (encodeWord .encEmit) t ∧
      TakesNothing s t ∧ Sends [] s t ∧
      KeepsHost s t ∧ KeepsFlags s t ∧ KeepsMemories s t ∧ t.result = s.result

/-- 42_encoder.md R165, R170, 60_exceptions.md R263, R265: the first byte of the second pass that is a
collision, or else has no code, is taken, writes none of its bits and ends ENC_EMIT; the release sends what
was written before it. -/
def Obligations.EncEmitStopsAtBadByte : Prop :=
  ∀ (s : State) (T : Format.Tree) (before after : List Byte) (v : Byte), s.Quiet →
    s.tableValid = true → s.bbMode = .closed → HoldsTree s s.root T → HoldsTable s T →
    T.isLeaf = false → T.nodes ≤ 511 → s.env.sIn = before ++ v :: after →
    before.length < s.srcLen.toNat →
    (∀ u ∈ before, u ∈ T.symbols ∧ (s.encColl = true → u ≠ s.encSent)) →
    ((s.encColl = true ∧ v = s.encSent) ∨ v ∉ T.symbols) →
    ∃ t, exec .encEmit s = .next t ∧
      Failed (if s.encColl = true ∧ v = s.encSent then .sentinelCollision else .unknownSymbol) 0x12#8
        (encodeWord .encEmit) t ∧
      Sends (packBits (T.serialize ++ before.flatMap T.code)) s t ∧ Takes (before.length + 1) s t ∧
      KeepsHost s t ∧ KeepsFlags s t ∧ KeepsMemories s t ∧ t.result = s.result

/-- 42_encoder.md R171, R172, R165, 30_encoding.md R86: the whole encoder. ENCODE sends the Huffman tree of the
first pass and the codes of the second pass, each of whose bytes must have one; with the source offered twice,
that is the encoded stream, a function of the source and the sentinel alone. -/
def Obligations.EncodeSendsTheStream : Prop :=
  ∀ (s : State) (first second more : List Byte), s.Quiet → s.bbMode = .closed →
    first.length = s.srcLen.toNat → second.length = s.srcLen.toNat →
    0 < s.srcLen.toNat → s.srcLen.toNat ≤ 0xFFFFFFFE → s.env.sIn = first ++ (second ++ more) →
    (s.collChk = true → s.sentinel ∉ first) →
    (∀ v ∈ second, 0 < Format.counts first s.sentinel v ∧ (s.collChk = true → v ≠ s.sentinel)) →
    ∃ t T, T = Format.huffman (Format.counts first s.sentinel) s.sentinel ∧
      exec .encode s = .next t ∧ Completed .encode t ∧
      Sends (packBits (Format.streamBits T second s.sentinel)) s t ∧
      (second = first → Sends (Format.encodedStream first s.sentinel) s t) ∧
      Takes (2 * s.srcLen.toNat) s t ∧
      (∀ v, (t.freqAt v).toNat = Format.counts first s.sentinel v) ∧
      HoldsTree t t.root T ∧ HoldsTable t T ∧ t.ncnt.toNat = T.nodes ∧ t.heap = [] ∧
      t.encSent = s.sentinel ∧ t.encColl = s.collChk ∧
      t.freqValid = true ∧ t.treeValid = true ∧ t.tableValid = true ∧
      t.degenerate = decide ((Format.leafForest (Format.counts first s.sentinel)).length = 1) ∧
      t.bbMode = .closed ∧ t.bbBits = [] ∧ t.bbRemain = 0#32 ∧ KeepsHost s t ∧ t.result = s.result

/-- 42_encoder.md R171, 40_control.md R106: with a session open ENCODE still counts and builds, and then phase
0x12 raises INVALID_MODE. -/
def Obligations.EncodeFindsOpenSession : Prop :=
  ∀ s : State, s.Quiet → s.bbMode ≠ .closed → 0 < s.srcLen.toNat → s.srcLen.toNat ≤ 0xFFFFFFFE →
    Offers s s.srcLen.toNat → (s.collChk = true → s.sentinel ∉ nextBytes s s.srcLen.toNat) →
    ∃ t T, T = Format.huffman (Format.counts (nextBytes s s.srcLen.toNat) s.sentinel) s.sentinel ∧
      exec .encode s = .next t ∧ Failed .invalidMode 0x12#8 (encodeWord .encode) t ∧
      Takes s.srcLen.toNat s t ∧ Sends (releaseBytes s) s t ∧
      (∀ v, (t.freqAt v).toNat = Format.counts (nextBytes s s.srcLen.toNat) s.sentinel v) ∧
      HoldsTree t t.root T ∧ HoldsTable t T ∧ t.ncnt.toNat = T.nodes ∧ t.heap = [] ∧
      t.encSent = s.sentinel ∧ t.encColl = s.collChk ∧
      t.freqValid = true ∧ t.treeValid = true ∧ t.tableValid = true ∧
      t.degenerate = decide
        ((Format.leafForest (Format.counts (nextBytes s s.srcLen.toNat) s.sentinel)).length = 1) ∧
      KeepsHost s t ∧ t.result = s.result

/-- 42_encoder.md R165, R171, 40_control.md R106, 60_exceptions.md R263: a byte of ENCODE's second pass that is a
collision, or else has no code, ends ENCODE as the error of phase 0x12. It is taken and writes none of its bits;
the release sends what was written before it, and the tree and the table stay. -/
def Obligations.EncodeStopsAtBadByte : Prop :=
  ∀ (s : State) (first before after : List Byte) (v : Byte), s.Quiet → s.bbMode = .closed →
    first.length = s.srcLen.toNat → s.srcLen.toNat ≤ 0xFFFFFFFE →
    (s.collChk = true → s.sentinel ∉ first) → s.env.sIn = first ++ (before ++ v :: after) →
    before.length < s.srcLen.toNat →
    (∀ u ∈ before, 0 < Format.counts first s.sentinel u ∧ (s.collChk = true → u ≠ s.sentinel)) →
    ((s.collChk = true ∧ v = s.sentinel) ∨ Format.counts first s.sentinel v = 0) →
    ∃ t T, T = Format.huffman (Format.counts first s.sentinel) s.sentinel ∧ exec .encode s = .next t ∧
      Failed (if s.collChk = true ∧ v = s.sentinel then .sentinelCollision else .unknownSymbol) 0x12#8
        (encodeWord .encode) t ∧
      Sends (packBits (T.serialize ++ before.flatMap T.code)) s t ∧
      Takes (s.srcLen.toNat + before.length + 1) s t ∧
      (∀ u, (t.freqAt u).toNat = Format.counts first s.sentinel u) ∧
      HoldsTree t t.root T ∧ HoldsTable t T ∧ t.ncnt.toNat = T.nodes ∧ t.heap = [] ∧
      t.encSent = s.sentinel ∧ t.encColl = s.collChk ∧
      t.freqValid = true ∧ t.treeValid = true ∧ t.tableValid = true ∧
      t.degenerate = decide ((Format.leafForest (Format.counts first s.sentinel)).length = 1) ∧
      KeepsHost s t ∧ t.result = s.result

/-- 42_encoder.md R173: the length of the stream of a successful ENCODE, from NCNT, FREQ and CT; a tree of
NCNT nodes has (NCNT + 1) / 2 leaves. -/
def Obligations.StreamLength : Prop :=
  ∀ s : State, s.Quiet → s.bbMode = .closed → 0 < s.srcLen.toNat → s.srcLen.toNat ≤ 0xFFFFFFFE →
    nextBytes s (2 * s.srcLen.toNat) = nextBytes s s.srcLen.toNat ++ nextBytes s s.srcLen.toNat →
    Offers s (2 * s.srcLen.toNat) →
    (s.collChk = true → s.sentinel ∉ nextBytes s s.srcLen.toNat) →
    ∃ t, exec .encode s = .next t ∧
      t.env.sOut.length = s.env.sOut.length + ceilDiv8 (t.ncnt.toNat + 8 * ((t.ncnt.toNat + 1) / 2)
        + (Format.allSymbols.map (fun v => (t.freqAt v).toNat * (t.codeAt v).length)).sum)

/-- 00_scope.md R6, 30_encoding.md R92: what ENCODE sends depends on the bytes offered, SENTINEL and COLL_CHK
alone: two machines that agree on these, and on SRC_LEN, send the same bytes and end with the same error
code and the same counters, whatever their BUF_BITS, memories and flags. -/
def Obligations.EncodeDependsOnInputAlone : Prop :=
  ∀ s s' : State, s.Quiet → s'.Quiet → s.bbMode = .closed → s'.bbMode = .closed →
    s.srcLen = s'.srcLen → s.sentinel = s'.sentinel → s.collChk = s'.collChk →
    Offers s (2 * s.srcLen.toNat) → Offers s' (2 * s.srcLen.toNat) →
    nextBytes s (2 * s.srcLen.toNat) = nextBytes s' (2 * s.srcLen.toNat) →
    ∃ t t' sent, exec .encode s = .next t ∧ exec .encode s' = .next t' ∧
      t.env.sOut = s.env.sOut ++ sent ∧ t'.env.sOut = s'.env.sOut ++ sent ∧
      t.errCode = t'.errCode ∧ t.errOp = t'.errOp ∧ t.inCount = t'.inCount ∧
      t.outCount = t'.outCount ∧ t.busy = false ∧ t'.busy = false

/-! ### 43_decoder.md -/

/-- 43_decoder.md R200, R202, R207: a stream that begins with the section of a tree with an internal root and
at most 511 nodes puts that tree in NODE in preorder, and leaves the session open after its bits. -/
def Obligations.DecTreeReadsTree : Prop :=
  ∀ (s : State) (T : Format.Tree) (rest : List Bool), s.Quiet → s.bbMode = .closed →
    Offers s s.srcLen.toNat → streamOf s = T.serialize ++ rest → T.isLeaf = false → T.nodes ≤ 511 →
    ∃ t, exec .decTree s = .next t ∧ Completed .decTree t ∧
      HoldsPreorder t 0 T ∧ t.root = 0#9 ∧ t.ncnt.toNat = T.nodes ∧
      t.treeValid = true ∧ t.tableValid = false ∧ t.degenerate = false ∧ t.freqValid = s.freqValid ∧
      t.bbMode = .read ∧ avail t = rest ∧ Supplied t ∧
      Takes (readAhead s s.srcLen.toNat T.serialize.length) s t ∧ Sends [] s t ∧
      KeepsHost s t ∧ KeepsFreq s t ∧ t.ct = s.ct ∧ t.heap = s.heap ∧ t.result = s.result

/-- 43_decoder.md R200, R201, R209, 40_control.md R106, 70_reset_and_hazards.md R295: a root leaf after its 9
bits, and the tag bit after 511 records of an unfinished tree, whatever its value, end DEC_TREE, and DECODE in
its phase 0x20, with TREE_MALFORMED. -/
def Obligations.DecTreeMalformed : Prop :=
  ∀ (s : State) (i : Instr) (n : Nat), s.Quiet → (i = .decTree ∨ i = .decode) → s.bbMode = .closed →
    Offers s s.srcLen.toNat →
    ((n = 9 ∧ ∃ sym rest, streamOf s = (Format.Tree.leaf sym).serialize ++ rest) ∨
      ∃ (T : Format.Tree) (tag : Bool) (rest : List Bool), 511 < T.nodes ∧
        n = (T.firstRecords 511).length + 1 ∧ streamOf s = T.firstRecords 511 ++ tag :: rest) →
    ∃ t, exec i s = .next t ∧ Failed .treeMalformed 0x20#8 (encodeWord i) t ∧
      t.treeValid = false ∧ t.tableValid = false ∧ t.degenerate = false ∧ t.freqValid = s.freqValid ∧
      Takes (readAhead s s.srcLen.toNat n) s t ∧ Sends [] s t ∧
      KeepsHost s t ∧ KeepsFreq s t ∧ t.ct = s.ct ∧ t.heap = s.heap ∧ t.result = s.result

/-- 43_decoder.md R200, R206, R207, R209, 40_control.md R106: a stream that ends inside its tree section, before
the tag bit after 511 records, ends DEC_TREE, and DECODE in its phase 0x20, with END_OF_STREAM, all its bytes
taken. -/
def Obligations.DecTreeEndOfStream : Prop :=
  ∀ (s : State) (i : Instr) (T : Format.Tree) (missing : List Bool), s.Quiet →
    (i = .decTree ∨ i = .decode) → s.bbMode = .closed → Offers s s.srcLen.toNat →
    T.serialize = streamOf s ++ missing → missing ≠ [] →
    (streamOf s).length ≤ (T.firstRecords 511).length →
    ∃ t, exec i s = .next t ∧ Failed .endOfStream 0x20#8 (encodeWord i) t ∧
      t.treeValid = false ∧ t.tableValid = false ∧ t.degenerate = false ∧ t.freqValid = s.freqValid ∧
      Takes s.srcLen.toNat s t ∧ Sends [] s t ∧
      KeepsHost s t ∧ KeepsFreq s t ∧ t.ct = s.ct ∧ t.heap = s.heap ∧ t.result = s.result

/-- 43_decoder.md R203, R204, R205, R206, R208: DEC_PAYLOAD emits the symbols the session's bits spell in the
tree before the first leaf of the sentinel, and takes every byte of the session; without the sentinel it
ends with END_OF_STREAM. -/
def Obligations.DecPayloadEmitsSymbols : Prop :=
  ∀ (s : State) (T : Format.Tree) (out : List Byte) (found : Bool), s.Quiet → s.treeValid = true →
    s.bbMode = .read → Supplied s → HoldsTree s s.root T → T.isLeaf = false →
    T.spell s.sentinel T (avail s) = (out, found) →
    ∃ t, exec .decPayload s = .next t ∧
      (if found then Completed .decPayload t
        else Failed .endOfStream 0x21#8 (encodeWord .decPayload) t) ∧
      Sends out s t ∧ Takes s.bbRemain.toNat s t ∧
      t.bbMode = .closed ∧ t.bbBits = [] ∧ t.bbRemain = 0#32 ∧
      KeepsHost s t ∧ KeepsFlags s t ∧ KeepsMemories s t ∧ t.result = s.result

/-- 43_decoder.md R208: DEC_PAYLOAD with a tree but without a READ session raises INVALID_MODE; a write
session is flushed by the release. -/
def Obligations.DecPayloadNeedsReadSession : Prop :=
  ∀ s : State, s.Quiet → s.treeValid = true → s.bbMode ≠ .read →
    ∃ t, exec .decPayload s = .next t ∧ Failed .invalidMode 0x21#8 (encodeWord .decPayload) t ∧
      TakesNothing s t ∧ Sends (releaseBytes s) s t ∧
      KeepsHost s t ∧ KeepsFlags s t ∧ KeepsMemories s t ∧ t.result = s.result

/-- 43_decoder.md R209, R205, R206: the whole decoder on a stream with a tree section: it emits what the rest
spells, and has taken exactly SRC_LEN bytes. -/
def Obligations.DecodeEmitsMessage : Prop :=
  ∀ (s : State) (T : Format.Tree) (rest : List Bool) (out : List Byte) (found : Bool), s.Quiet →
    s.bbMode = .closed → Offers s s.srcLen.toNat → streamOf s = T.serialize ++ rest →
    T.isLeaf = false → T.nodes ≤ 511 → T.spell s.sentinel T rest = (out, found) →
    ∃ t, exec .decode s = .next t ∧
      (if found then Completed .decode t else Failed .endOfStream 0x21#8 (encodeWord .decode) t) ∧
      Sends out s t ∧ Takes s.srcLen.toNat s t ∧ HoldsPreorder t 0 T ∧ t.root = 0#9 ∧
      t.treeValid = true ∧ t.tableValid = false ∧ t.degenerate = false ∧ t.freqValid = s.freqValid ∧
      t.bbMode = .closed ∧ t.bbBits = [] ∧ t.bbRemain = 0#32 ∧
      KeepsHost s t ∧ KeepsFreq s t ∧ t.ct = s.ct ∧ t.heap = s.heap ∧ t.result = s.result

/-- 43_decoder.md R210: if ENCODE succeeds on the bytes `b`, then DECODE of what it sent, with the same
sentinel, succeeds and sends the prefix of `b` before the first sentinel; with COLL_CHK = 1 that is `b`. -/
def Obligations.RoundTrip : Prop :=
  ∀ (s t : State) (b more : List Byte), s.Quiet → b.length = s.srcLen.toNat →
    s.env.sIn = b ++ (b ++ more) → exec .encode s = .next t → Completed .encode t →
    (s.collChk = true → s.sentinel ∉ b) ∧
    ∃ stream, t.env.sOut = s.env.sOut ++ stream ∧
      ∀ (u : State) (after : List Byte), u.Quiet → u.bbMode = .closed → u.sentinel = s.sentinel →
        u.srcLen.toNat = stream.length → u.env.sIn = stream ++ after →
        ∃ v, exec .decode u = .next v ∧ Completed .decode v ∧
          Sends (b.takeWhile (fun x => x != s.sentinel)) u v ∧ v.env.sIn = after

/-- 43_decoder.md R212: the stream of a source without the sentinel, with its last byte removed, ends DECODE
with END_OF_STREAM, after a prefix of the source has been emitted. -/
def Obligations.TruncationIsReported : Prop :=
  ∀ (s t : State) (b more : List Byte), s.Quiet → b.length = s.srcLen.toNat →
    s.env.sIn = b ++ (b ++ more) → exec .encode s = .next t → Completed .encode t → s.sentinel ∉ b →
    ∃ stream, t.env.sOut = s.env.sOut ++ stream ∧
      ∀ (u : State) (after : List Byte), u.Quiet → u.bbMode = .closed → u.sentinel = s.sentinel →
        u.srcLen.toNat = stream.length - 1 → u.env.sIn = stream.dropLast ++ after →
        ∃ v k, exec .decode u = .next v ∧
          (Failed .endOfStream 0x20#8 (encodeWord .decode) v ∨
            Failed .endOfStream 0x21#8 (encodeWord .decode) v) ∧
          Sends (b.take k) u v

/-! ### The machine -/

/-- The invariant of the channel and of completion (`State.Inv` names its rules) is kept by every step.
That a CLOSED buffer holds nothing is R126 where I9 says any value (log 15, DEDUCED). -/
def Obligations.InvariantKept : Prop :=
  ∀ s t : State, s.Inv → step s = .next t → t.Inv

/-- The invariant holds after reset. -/
def Obligations.InvariantAtReset : Prop := State.reset.Inv

/-- 40_control.md R104, 43_decoder.md R211, 10_state.md R47: once the source offers two passes of SRC_LEN
bytes and the bytes of an open read session, every command, well formed or not, ends, and the valid flags it
leaves promise only what is true. What the term that is not well formed means is the model's choice (log 11,
DESIGN CHOICE). -/
def Obligations.EveryCommandEnds : Prop :=
  ∀ (s : State) (i : Instr), s.Quiet → s.Inv → s.Promise → Offers s (2 * s.srcLen.toNat) → Supplied s →
    ∃ t, exec i s = .next t ∧ t.busy = false ∧ t.done = true ∧ t.Promise

/-- 10_state.md R47: no flag is set after reset, so the flags' promise holds there. -/
def Obligations.PromiseAtReset : Prop := State.reset.Promise

/-- 70_reset_and_hazards.md R291: the values after reset, in the state and as the registers read. HEAP empty,
ENC_SENT = 0x03 and ENC_COLL = 1 follow R42, R45 and R291 where I8 calls them unspecified (log 15, DEDUCED). -/
def Obligations.ResetValues : Prop := AtReset State.reset ∧ ReadsAtReset State.reset

/-- 70_reset_and_hazards.md R290, R291, R292: the reset input, and a write of 1 to CTRL.SRST whatever its
other bits, set every item of R291 in one step and abandon any command; nothing is flushed or drained. That
HEAP, ENC_SENT and ENC_COLL are among the items is log 15 (DEDUCED); that BUF_BITS and the sink's readiness stay is
the model's (log 4, DESIGN CHOICE, and log 16, DEDUCED). -/
def Obligations.ResetAbandons : Prop :=
  ∀ (s : State) (rest : List Event),
    (s.env.events = .rst :: rest ∨
      ∃ off v, off.extractLsb' 2 10 = 1#10 ∧ v.getLsbD 0 = true ∧
        s.env.events = .write off v :: rest) →
    ∃ t, step s = .next t ∧ AtReset t ∧ ReadsAtReset t ∧ t.extraBytes = s.extraBytes ∧
      t.env.sIn = s.env.sIn ∧
      t.env.sOut = s.env.sOut ∧ t.env.sink = s.env.sink ∧ t.env.events = rest

/-- 10_state.md R26: a write to STATUS clears DONE if bit 1 is 1 and CMD_DROPPED if bit 3 is 1, and changes
nothing else, busy or idle. -/
def Obligations.StatusWriteClears : Prop :=
  ∀ (s : State) (off : Offset) (v : Word) (rest : List Event), Paused s →
    s.env.events = .write off v :: rest → off.extractLsb' 2 10 = 3#10 →
    step s = .next { s with
      done := s.done && !v.getLsbD 1
      dropped := s.dropped && !v.getLsbD 3
      env := { s.env with events := rest, sched := s.env.sched.tail, epoch := s.env.epoch + 1 } }

/-- 10_state.md R24, 60_exceptions.md R267: a write to CTRL with SRST = 0 sets IRQ_EN, and IRQ is then IRQ_EN
AND DONE. -/
def Obligations.CtrlWriteSetsIrq : Prop :=
  ∀ (s : State) (off : Offset) (v : Word) (rest : List Event), Paused s →
    s.env.events = .write off v :: rest → off.extractLsb' 2 10 = 1#10 → v.getLsbD 0 = false →
    ∃ t, step s = .next t ∧ t.irq = (v.getLsbD 1 && s.done) ∧
      t = { s with
        irqEn := v.getLsbD 1
        env := { s.env with events := rest, sched := s.env.sched.tail, epoch := s.env.epoch + 1 } }

/-- 10_state.md R28, R29, 70_reset_and_hazards.md R297: writes to CFG and SRC_LEN take effect while idle and
are ignored entirely while BUSY = 1. -/
def Obligations.ConfigurationIsStable : Prop :=
  ∀ (s : State) (off : Offset) (v : Word) (rest : List Event), Paused s →
    s.env.events = .write off v :: rest →
    (off.extractLsb' 2 10 = 5#10 → step s = .next { s with
      sentinel := if s.busy then s.sentinel else v.extractLsb' 0 8
      collChk := if s.busy then s.collChk else v.getLsbD 8
      env := { s.env with events := rest, sched := s.env.sched.tail, epoch := s.env.epoch + 1 } }) ∧
    (off.extractLsb' 2 10 = 6#10 → step s = .next { s with
      srcLen := if s.busy then s.srcLen else v
      env := { s.env with events := rest, sched := s.env.sched.tail, epoch := s.env.epoch + 1 } })

/-- 10_state.md R22, R33, R38: TBL_IDX is written at any time; a write to a read-only or unmapped word has no
effect. -/
def Obligations.OtherWrites : Prop :=
  ∀ (s : State) (off : Offset) (v : Word) (rest : List Event), Paused s →
    s.env.events = .write off v :: rest →
    (off.extractLsb' 2 10 = 10#10 → step s = .next { s with
      tblIdx := v.extractLsb' 0 8
      env := { s.env with events := rest, sched := s.env.sched.tail, epoch := s.env.epoch + 1 } }) ∧
    (off.extractLsb' 2 10 ∉ [1#10, 2#10, 3#10, 5#10, 6#10, 10#10] → step s = .next { s with
      env := { s.env with events := rest, sched := s.env.sched.tail, epoch := s.env.epoch + 1 } })

/-- 10_state.md R22 to R35, R37, R38, R49: what each register reads. Some parts hold at all times, the others
while BUSY = 0 and the flag that guards the register is set. A code has at most 255 bits (R43). -/
def Obligations.RegisterReads : Prop :=
  ∀ (s : State) (off : Offset),
    (off.extractLsb' 2 10 = 0#10 → readReg s off = 0x48554601#32) ∧
    (off.extractLsb' 2 10 = 1#10 → readReg s off = if s.irqEn then 2#32 else 0#32) ∧
    (off.extractLsb' 2 10 = 2#10 → readReg s off = 0#32) ∧
    (off.extractLsb' 2 10 = 3#10 →
      (readReg s off).getLsbD 0 = s.busy ∧ (readReg s off).getLsbD 1 = s.done ∧
      (readReg s off).getLsbD 2 = decide (s.errCode ≠ .none) ∧
      (readReg s off).getLsbD 3 = s.dropped ∧ (readReg s off).extractLsb' 10 22 = 0#22 ∧
      (s.busy = false →
        (readReg s off).extractLsb' 4 2
          = (match s.bbMode with | .closed => 0b00#2 | .write => 0b01#2 | .read => 0b10#2) ∧
        (readReg s off).getLsbD 6 = s.freqValid ∧ (readReg s off).getLsbD 7 = s.treeValid ∧
        (readReg s off).getLsbD 8 = s.tableValid ∧ (readReg s off).getLsbD 9 = s.degenerate)) ∧
    (off.extractLsb' 2 10 = 4#10 →
      (readReg s off).extractLsb' 0 4 = s.errCode.number ∧ (readReg s off).extractLsb' 4 4 = 0#4 ∧
      (readReg s off).extractLsb' 8 8 = s.errOp ∧ (readReg s off).extractLsb' 16 16 = 0#16) ∧
    (off.extractLsb' 2 10 = 5#10 →
      (readReg s off).extractLsb' 0 8 = s.sentinel ∧ (readReg s off).getLsbD 8 = s.collChk ∧
      (readReg s off).extractLsb' 9 23 = 0#23) ∧
    (off.extractLsb' 2 10 = 6#10 → readReg s off = s.srcLen) ∧
    (off.extractLsb' 2 10 = 7#10 → readReg s off = s.inCount) ∧
    (off.extractLsb' 2 10 = 8#10 → readReg s off = s.outCount) ∧
    (off.extractLsb' 2 10 = 9#10 → s.busy = false → readReg s off = if s.result then 1#32 else 0#32) ∧
    (off.extractLsb' 2 10 = 10#10 → readReg s off = s.tblIdx.setWidth 32) ∧
    (off.extractLsb' 2 10 = 11#10 → s.busy = false → s.freqValid = true →
      readReg s off = s.freq[s.tblIdx.toNat]) ∧
    (off.extractLsb' 2 10 = 12#10 → s.busy = false → s.tableValid = true →
      s.ct[s.tblIdx.toNat].length ≤ 255 →
      (readReg s off).toNat = s.ct[s.tblIdx.toNat].length) ∧
    (off.extractLsb' 2 10 = 21#10 → s.busy = false → s.treeValid = true →
      readReg s off = s.ncnt.setWidth 32) ∧
    (22 ≤ (off.extractLsb' 2 10).toNat → readReg s off = 0#32)

/-- 10_state.md R36: bit j of CODE_BITSk is code bit 32k + j of the selected symbol, and 0 past the code's
end. -/
def Obligations.CodeWindowBits : Prop :=
  ∀ (s : State) (off : Offset) (k j : Nat), s.busy = false → s.tableValid = true → k < 8 → j < 32 →
    (off.extractLsb' 2 10).toNat = 13 + k →
    (readReg s off).getLsbD j = (s.ct[s.tblIdx.toNat]).getD (32 * k + j) false

/-- 20_memory.md R63: a register read changes no register and no stream, and a second read with no core step
between gives the same value. -/
def Obligations.ReadsChangeNothing : Prop :=
  ∀ (s : State) (off : Offset) (rest : List Event),
    (s.todo = [] ∨ ∃ q, s.env.sched = 0 :: 0 :: q) → s.env.events = .read off :: .read off :: rest →
    ∃ t u, step s = .next t ∧ step t = .next u ∧
      t = { s with env := { s.env with
        events := .read off :: rest, sched := s.env.sched.tail, readData := readReg s off } } ∧
      u = { s with env := { s.env with
        events := rest, sched := s.env.sched.tail.tail, readData := readReg s off } }
end

