-- ==== Sys2Proof/Laws/Bits.lean ====
section
/-!
SUPPORT. Bit order: a byte's bits in stream order and back, and packing a bit sequence into bytes piece
by piece (20_memory.md R66, R67; 41_bitbuffer.md R127).
-/

namespace Sys2Proof.Machine

@[simp] theorem length_bitsOfByte (v : Byte) : (bitsOfByte v).length = 8 := rfl

@[simp] theorem length_packBits (bits : List Bool) :
    (packBits bits).length = ceilDiv8 bits.length := by simp [packBits]

@[simp] theorem packBits_nil : packBits [] = [] := rfl

/-- The eight bits of a byte pack into that byte (R66). -/
theorem streamByte_bitsOfByte (v : Byte) : streamByte (bitsOfByte v) 0 = v := by
  revert v; decide +kernel

theorem bitValue_append_left {a b : List Bool} {i : Nat} (h : i < a.length) :
    bitValue (a ++ b) i = bitValue a i := by
  simp [bitValue, List.getElem?_append, h]

theorem bitValue_append_right {a b : List Bool} {i : Nat} (h : a.length ≤ i) :
    bitValue (a ++ b) i = bitValue b (i - a.length) := by
  have : ¬ i < a.length := by omega
  simp [bitValue, List.getElem?_append, this]

theorem streamByte_append_left {a b : List Bool} {n : Nat} (h : 8 * n + 8 ≤ a.length) :
    streamByte (a ++ b) n = streamByte a n := by
  simp only [streamByte]
  repeat rw [bitValue_append_left (by omega)]

theorem streamByte_append_right {a b : List Bool} {m n : Nat} (h : a.length = 8 * m) :
    streamByte (a ++ b) (m + n) = streamByte b n := by
  simp only [streamByte]
  repeat rw [bitValue_append_right (by omega)]
  have e (j : Nat) : 8 * (m + n) + j - a.length = 8 * n + j := by omega
  have e0 : 8 * (m + n) - a.length = 8 * n := by omega
  simp only [e, e0]

/-- Whole bytes may be packed first: the rest packs as if it stood alone. -/
theorem packBits_append {a b : List Bool} {m : Nat} (h : a.length = 8 * m) :
    packBits (a ++ b) = packBits a ++ packBits b := by
  have ha : ceilDiv8 a.length = m := by simp only [ceilDiv8]; omega
  have hab : ceilDiv8 (a ++ b).length = m + ceilDiv8 b.length := by
    simp only [ceilDiv8, List.length_append]; omega
  simp only [packBits, ha, hab, List.range_add, List.map_append, List.map_map]
  congr 1
  · apply List.map_congr_left
    intro n hn
    rw [List.mem_range] at hn
    exact streamByte_append_left (by omega)
  · apply List.map_congr_left
    intro n _
    exact streamByte_append_right h

theorem packBits_bitsOfByte (v : Byte) : packBits (bitsOfByte v) = [v] := by
  have : List.range (ceilDiv8 8) = [0] := by decide
  simp only [packBits, length_bitsOfByte, this, List.map_cons, List.map_nil, streamByte_bitsOfByte]

/-- Bytes unpacked into bits pack into the same bytes. -/
theorem packBits_flatMap_bitsOfByte (l : List Byte) : packBits (l.flatMap bitsOfByte) = l := by
  induction l with
  | nil => rfl
  | cons v l ih =>
    rw [List.flatMap_cons, packBits_append (m := 1) (by simp), packBits_bitsOfByte, ih]; rfl

theorem length_flatMap_bitsOfByte (l : List Byte) : (l.flatMap bitsOfByte).length = 8 * l.length := by
  induction l with
  | nil => rfl
  | cons v l ih => simp [List.flatMap_cons, ih]; omega

/-- A byte packed from eight bits unpacks into them. -/
theorem bitsOfByte_streamByte (b0 b1 b2 b3 b4 b5 b6 b7 : Bool) (rest : List Bool) :
    bitsOfByte (streamByte (b0 :: b1 :: b2 :: b3 :: b4 :: b5 :: b6 :: b7 :: rest) 0)
      = [b0, b1, b2, b3, b4, b5, b6, b7] := by
  simp only [streamByte, bitValue]
  simp only [List.getD_eq_getElem?_getD, Nat.mul_zero, Nat.zero_add, List.getElem?_cons_zero,
    Option.getD_some, List.getElem?_cons_succ]
  revert b0 b1 b2 b3 b4 b5 b6 b7
  decide

/-- The bytes of a packed bit sequence, unpacked again, are the sequence and 0 to 7 padding bits that are
0 (30_encoding.md R90). -/
theorem flatMap_bitsOfByte_packBits (bits : List Bool) :
    ∃ pad, (packBits bits).flatMap bitsOfByte = bits ++ List.replicate pad false ∧ pad < 8
      ∧ 8 * ceilDiv8 bits.length = bits.length + pad := by
  refine ⟨8 * ceilDiv8 bits.length - bits.length, ?_, by simp only [ceilDiv8]; omega,
    by simp only [ceilDiv8]; omega⟩
  induction h : bits.length using Nat.strong_induction_on generalizing bits with
  | _ len ih =>
    match bits, h with
    | [], h => subst h; rfl
    | [b0], h => subst h; clear * -; revert b0; decide
    | [b0, b1], h => subst h; clear * -; revert b0 b1; decide
    | [b0, b1, b2], h => subst h; clear * -; revert b0 b1 b2; decide
    | [b0, b1, b2, b3], h => subst h; clear * -; revert b0 b1 b2 b3; decide
    | [b0, b1, b2, b3, b4], h => subst h; clear * -; revert b0 b1 b2 b3 b4; decide
    | [b0, b1, b2, b3, b4, b5], h => subst h; clear * -; revert b0 b1 b2 b3 b4 b5; decide
    | [b0, b1, b2, b3, b4, b5, b6], h => subst h; clear * -; revert b0 b1 b2 b3 b4 b5 b6; decide
    | b0 :: b1 :: b2 :: b3 :: b4 :: b5 :: b6 :: b7 :: rest, h =>
      have h8 : packBits (b0 :: b1 :: b2 :: b3 :: b4 :: b5 :: b6 :: b7 :: rest)
          = packBits [b0, b1, b2, b3, b4, b5, b6, b7] ++ packBits rest :=
        packBits_append (a := [b0, b1, b2, b3, b4, b5, b6, b7]) (b := rest) (m := 1) rfl
      have h1 : packBits [b0, b1, b2, b3, b4, b5, b6, b7]
          = [streamByte [b0, b1, b2, b3, b4, b5, b6, b7] 0] := by
        have : List.range (ceilDiv8 8) = [0] := by decide
        simp only [packBits, List.length_cons, List.length_nil, Nat.zero_add, Nat.reduceAdd, this,
          List.map_cons, List.map_nil]
      have hr := ih rest.length (by rw [← h]; simp; omega) rest rfl
      have hp : 8 * ceilDiv8 len - len = 8 * ceilDiv8 rest.length - rest.length := by
        rw [← h]; simp only [ceilDiv8, List.length_cons]; omega
      rw [h8, h1, List.flatMap_append, hr, hp]
      simp only [List.flatMap_cons, List.flatMap_nil, List.append_nil, bitsOfByte_streamByte,
        List.cons_append, List.nil_append]

end Sys2Proof.Machine
end

