-- ==== Sys2Proof/Laws/Run.lean ====
section
/-!
SUPPORT. Running the core: chains of core steps, how they compose, and what `runCore` and `issue` make of
a chain that ends where the core is idle or holds.
-/

namespace Sys2Proof.Machine

/-- `Runs n s t`: the core goes from `s` to `t` in exactly `n` steps. -/
inductive Runs : Nat → State → State → Prop where
  | refl (s : State) : Runs 0 s s
  | step {n : Nat} {s s' t : State} (h : coreStep s = some s') (r : Runs n s' t) : Runs (n + 1) s t

/-- `RunsIn b s t`: the core goes from `s` to `t` in at most `b` steps. -/
def RunsIn (b : Nat) (s t : State) : Prop := ∃ n, n ≤ b ∧ Runs n s t

theorem Runs.one {s t : State} (h : coreStep s = some t) : Runs 1 s t := .step h (.refl t)

theorem Runs.trans {a b : Nat} {s t u : State} (h : Runs a s t) (g : Runs b t u) : Runs (a + b) s u := by
  induction h with
  | refl s => simpa using g
  | step hs _ ih => rw [Nat.add_right_comm]; exact .step hs (ih g)

theorem RunsIn.refl (b : Nat) (s : State) : RunsIn b s s := ⟨0, Nat.zero_le b, .refl s⟩

theorem RunsIn.one {s t : State} (h : coreStep s = some t) : RunsIn 1 s t := ⟨1, le_rfl, .one h⟩

theorem RunsIn.mono {a b : Nat} {s t : State} (h : RunsIn a s t) (hab : a ≤ b) : RunsIn b s t :=
  let ⟨n, hn, r⟩ := h
  ⟨n, hn.trans hab, r⟩

theorem RunsIn.trans {a b : Nat} {s t u : State} (h : RunsIn a s t) (g : RunsIn b t u) :
    RunsIn (a + b) s u :=
  let ⟨n, hn, r⟩ := h
  let ⟨m, hm, q⟩ := g
  ⟨n + m, Nat.add_le_add hn hm, r.trans q⟩

theorem RunsIn.step {b : Nat} {s s' t : State} (h : coreStep s = some s') (g : RunsIn b s' t) :
    RunsIn (b + 1) s t := by
  rw [Nat.add_comm]; exact (RunsIn.one h).trans g

theorem runCore_stopped {t : State} (h : coreStep t = none) (q : Nat) : runCore q t = t := by
  cases q with
  | zero => rfl
  | succ q => simp [runCore, h]

theorem runCore_of_runs {n : Nat} {s t : State} (h : Runs n s t) :
    ∀ q, n ≤ q → runCore q s = runCore (q - n) t := by
  induction h with
  | refl s => intro q _; rfl
  | @step n s s' t hs _ ih =>
    intro q hq
    obtain ⟨q, rfl⟩ : ∃ p, q = p + 1 := ⟨q - 1, by omega⟩
    have : q + 1 - (n + 1) = q - n := by omega
    simp only [runCore, hs, this]
    exact ih q (by omega)

/-- A chain of at most `b` steps that ends where the core stops is what `b` or more steps make. -/
theorem runCore_eq_of_runsIn {b q : Nat} {s t : State} (h : RunsIn b s t) (hb : b ≤ q)
    (ht : coreStep t = none) : runCore q s = t := by
  obtain ⟨n, hn, r⟩ := h
  rw [runCore_of_runs r q (by omega), runCore_stopped ht]

/-- Running `a + b` steps is running `a` and then `b`: where the schedule cuts a command is of no
consequence. -/
theorem runCore_add (a b : Nat) (s : State) : runCore (a + b) s = runCore b (runCore a s) := by
  induction a generalizing s with
  | zero => simp [runCore]
  | succ a ih =>
    rw [Nat.add_right_comm]
    simp only [runCore]
    cases h : coreStep s with
    | none => simp [runCore_stopped h]
    | some s' => exact ih s'

/-- `runCore` is some chain of core steps. -/
theorem runs_runCore (q : Nat) (s : State) : ∃ n, n ≤ q ∧ Runs n s (runCore q s) := by
  induction q generalizing s with
  | zero => exact ⟨0, le_rfl, .refl s⟩
  | succ q ih =>
    simp only [runCore]
    cases h : coreStep s with
    | none => exact ⟨0, Nat.zero_le _, .refl s⟩
    | some s' =>
      obtain ⟨n, hn, r⟩ := ih s'
      exact ⟨n + 1, by omega, .step h r⟩

/-- What every core step keeps, `runCore` keeps. -/
theorem runCore_keeps {P : State → Prop} (hstep : ∀ s s', coreStep s = some s' → P s → P s')
    (q : Nat) (s : State) (h : P s) : P (runCore q s) := by
  induction q generalizing s with
  | zero => exact h
  | succ q ih =>
    simp only [runCore]
    cases hs : coreStep s with
    | none => exact h
    | some s' => exact ih s' (hstep s s' hs h)

/-- One core step runs the first statement on the state without it. -/
theorem coreStep_cons {s : State} {st : Stmt} {k : List Stmt} (h : s.todo = st :: k) :
    coreStep s = runStmt st { s with todo := k } := by
  simp [coreStep, h]

theorem coreStep_mk (s : State) (st : Stmt) (k : List Stmt) :
    coreStep { s with todo := st :: k } = runStmt st { s with todo := k } := rfl

theorem coreStep_idle {s : State} (h : s.todo = []) : coreStep s = none := by
  simp [coreStep, h]

/-- The state in which an accepted command word begins to run: accepted, the step counter advanced. -/
def started (s : State) (w : Word) (body : List Stmt) : State := tick (tick (s.accept w body))

/-- An idle core with no scheduled interruption runs an accepted command as far as it goes. -/
theorem issue_idle {s : State} {w : Word} {st : Stmt} {body : List Stmt} (hidle : s.todo = [])
    (hsched : s.env.sched = []) (hmove : (coreStep (tick (s.accept w (st :: body)))).isSome) :
    issue w (st :: body) s = runCore (runOn s) (started s w (st :: body)) := by
  have hb : s.busy = false := by simp [State.busy, hidle]
  have hq : quota (tick (s.accept w (st :: body))) = runOn s := by
    simp [quota, tick, State.accept, hsched, runOn, State.bufBytes]
  have hp : popSched (tick (s.accept w (st :: body))) = tick (s.accept w (st :: body)) := by
    simp [popSched, tick, State.accept, hsched]
  have hpos : runOn s ≠ 0 := by simp [runOn]
  simp [issue, hb, coreTurn, coreMoves, hq, hmove, hp, hpos, started]

end Sys2Proof.Machine
end

