-- ==== Sys2Proof/Laws/State.lean ====
section
/-!
SUPPORT. One lemma per field per named update of State, true by rfl, and the three updates the run lemmas
speak of: other statements to run, bytes sent to the sink, and a moved read position.
-/

namespace Sys2Proof.Machine

/-- `s` with other statements to run. -/
def State.withTodo (s : State) (k : List Stmt) : State := { s with todo := k }

/-- `s` after a willing sink has accepted the bytes `l`. -/
def State.sent (s : State) (l : List Byte) : State :=
  { s with
    outCount := s.outCount + BitVec.ofNat 32 l.length
    env := { s.env with sOut := s.env.sOut ++ l } }

/-- `s` with other bits in the bit buffer. -/
def State.withBits (s : State) (bits : List Bool) : State := { s with bbBits := bits }

/-- `s` with another position in the stream being read. -/
def State.reseat (s : State) (bits : List Bool) (remain count : Word) (sIn : List Byte) : State :=
  { s with
    bbBits := bits
    bbRemain := remain
    inCount := count
    env := { s.env with sIn := sIn } }


/-! ### `withTodo` -/

@[simp] theorem withTodo_extraBytes (s : State) (k : List Stmt) : (s.withTodo k).extraBytes = s.extraBytes := rfl
@[simp] theorem withTodo_irqEn (s : State) (k : List Stmt) : (s.withTodo k).irqEn = s.irqEn := rfl
@[simp] theorem withTodo_done (s : State) (k : List Stmt) : (s.withTodo k).done = s.done := rfl
@[simp] theorem withTodo_dropped (s : State) (k : List Stmt) : (s.withTodo k).dropped = s.dropped := rfl
@[simp] theorem withTodo_errCode (s : State) (k : List Stmt) : (s.withTodo k).errCode = s.errCode := rfl
@[simp] theorem withTodo_errOp (s : State) (k : List Stmt) : (s.withTodo k).errOp = s.errOp := rfl
@[simp] theorem withTodo_sentinel (s : State) (k : List Stmt) : (s.withTodo k).sentinel = s.sentinel := rfl
@[simp] theorem withTodo_collChk (s : State) (k : List Stmt) : (s.withTodo k).collChk = s.collChk := rfl
@[simp] theorem withTodo_srcLen (s : State) (k : List Stmt) : (s.withTodo k).srcLen = s.srcLen := rfl
@[simp] theorem withTodo_inCount (s : State) (k : List Stmt) : (s.withTodo k).inCount = s.inCount := rfl
@[simp] theorem withTodo_outCount (s : State) (k : List Stmt) : (s.withTodo k).outCount = s.outCount := rfl
@[simp] theorem withTodo_result (s : State) (k : List Stmt) : (s.withTodo k).result = s.result := rfl
@[simp] theorem withTodo_tblIdx (s : State) (k : List Stmt) : (s.withTodo k).tblIdx = s.tblIdx := rfl
@[simp] theorem withTodo_freqValid (s : State) (k : List Stmt) : (s.withTodo k).freqValid = s.freqValid := rfl
@[simp] theorem withTodo_treeValid (s : State) (k : List Stmt) : (s.withTodo k).treeValid = s.treeValid := rfl
@[simp] theorem withTodo_tableValid (s : State) (k : List Stmt) : (s.withTodo k).tableValid = s.tableValid := rfl
@[simp] theorem withTodo_degenerate (s : State) (k : List Stmt) : (s.withTodo k).degenerate = s.degenerate := rfl
@[simp] theorem withTodo_bbMode (s : State) (k : List Stmt) : (s.withTodo k).bbMode = s.bbMode := rfl
@[simp] theorem withTodo_bbBits (s : State) (k : List Stmt) : (s.withTodo k).bbBits = s.bbBits := rfl
@[simp] theorem withTodo_bbRemain (s : State) (k : List Stmt) : (s.withTodo k).bbRemain = s.bbRemain := rfl
@[simp] theorem withTodo_freq (s : State) (k : List Stmt) : (s.withTodo k).freq = s.freq := rfl
@[simp] theorem withTodo_node (s : State) (k : List Stmt) : (s.withTodo k).node = s.node := rfl
@[simp] theorem withTodo_ncnt (s : State) (k : List Stmt) : (s.withTodo k).ncnt = s.ncnt := rfl
@[simp] theorem withTodo_root (s : State) (k : List Stmt) : (s.withTodo k).root = s.root := rfl
@[simp] theorem withTodo_heap (s : State) (k : List Stmt) : (s.withTodo k).heap = s.heap := rfl
@[simp] theorem withTodo_ct (s : State) (k : List Stmt) : (s.withTodo k).ct = s.ct := rfl
@[simp] theorem withTodo_stack (s : State) (k : List Stmt) : (s.withTodo k).stack = s.stack := rfl
@[simp] theorem withTodo_path (s : State) (k : List Stmt) : (s.withTodo k).path = s.path := rfl
@[simp] theorem withTodo_cur (s : State) (k : List Stmt) : (s.withTodo k).cur = s.cur := rfl
@[simp] theorem withTodo_dsent (s : State) (k : List Stmt) : (s.withTodo k).dsent = s.dsent := rfl
@[simp] theorem withTodo_deg (s : State) (k : List Stmt) : (s.withTodo k).deg = s.deg := rfl
@[simp] theorem withTodo_encSent (s : State) (k : List Stmt) : (s.withTodo k).encSent = s.encSent := rfl
@[simp] theorem withTodo_encColl (s : State) (k : List Stmt) : (s.withTodo k).encColl = s.encColl := rfl
@[simp] theorem withTodo_cmdw (s : State) (k : List Stmt) : (s.withTodo k).cmdw = s.cmdw := rfl
@[simp] theorem withTodo_phase (s : State) (k : List Stmt) : (s.withTodo k).phase = s.phase := rfl
@[simp] theorem withTodo_todo (s : State) (k : List Stmt) : (s.withTodo k).todo = k := rfl
@[simp] theorem withTodo_env (s : State) (k : List Stmt) : (s.withTodo k).env = s.env := rfl

/-! ### `push` -/

@[simp] theorem push_extraBytes (s : State) (l : List Stmt) : (s.push l).extraBytes = s.extraBytes := rfl
@[simp] theorem push_irqEn (s : State) (l : List Stmt) : (s.push l).irqEn = s.irqEn := rfl
@[simp] theorem push_done (s : State) (l : List Stmt) : (s.push l).done = s.done := rfl
@[simp] theorem push_dropped (s : State) (l : List Stmt) : (s.push l).dropped = s.dropped := rfl
@[simp] theorem push_errCode (s : State) (l : List Stmt) : (s.push l).errCode = s.errCode := rfl
@[simp] theorem push_errOp (s : State) (l : List Stmt) : (s.push l).errOp = s.errOp := rfl
@[simp] theorem push_sentinel (s : State) (l : List Stmt) : (s.push l).sentinel = s.sentinel := rfl
@[simp] theorem push_collChk (s : State) (l : List Stmt) : (s.push l).collChk = s.collChk := rfl
@[simp] theorem push_srcLen (s : State) (l : List Stmt) : (s.push l).srcLen = s.srcLen := rfl
@[simp] theorem push_inCount (s : State) (l : List Stmt) : (s.push l).inCount = s.inCount := rfl
@[simp] theorem push_outCount (s : State) (l : List Stmt) : (s.push l).outCount = s.outCount := rfl
@[simp] theorem push_result (s : State) (l : List Stmt) : (s.push l).result = s.result := rfl
@[simp] theorem push_tblIdx (s : State) (l : List Stmt) : (s.push l).tblIdx = s.tblIdx := rfl
@[simp] theorem push_freqValid (s : State) (l : List Stmt) : (s.push l).freqValid = s.freqValid := rfl
@[simp] theorem push_treeValid (s : State) (l : List Stmt) : (s.push l).treeValid = s.treeValid := rfl
@[simp] theorem push_tableValid (s : State) (l : List Stmt) : (s.push l).tableValid = s.tableValid := rfl
@[simp] theorem push_degenerate (s : State) (l : List Stmt) : (s.push l).degenerate = s.degenerate := rfl
@[simp] theorem push_bbMode (s : State) (l : List Stmt) : (s.push l).bbMode = s.bbMode := rfl
@[simp] theorem push_bbBits (s : State) (l : List Stmt) : (s.push l).bbBits = s.bbBits := rfl
@[simp] theorem push_bbRemain (s : State) (l : List Stmt) : (s.push l).bbRemain = s.bbRemain := rfl
@[simp] theorem push_freq (s : State) (l : List Stmt) : (s.push l).freq = s.freq := rfl
@[simp] theorem push_node (s : State) (l : List Stmt) : (s.push l).node = s.node := rfl
@[simp] theorem push_ncnt (s : State) (l : List Stmt) : (s.push l).ncnt = s.ncnt := rfl
@[simp] theorem push_root (s : State) (l : List Stmt) : (s.push l).root = s.root := rfl
@[simp] theorem push_heap (s : State) (l : List Stmt) : (s.push l).heap = s.heap := rfl
@[simp] theorem push_ct (s : State) (l : List Stmt) : (s.push l).ct = s.ct := rfl
@[simp] theorem push_stack (s : State) (l : List Stmt) : (s.push l).stack = s.stack := rfl
@[simp] theorem push_path (s : State) (l : List Stmt) : (s.push l).path = s.path := rfl
@[simp] theorem push_cur (s : State) (l : List Stmt) : (s.push l).cur = s.cur := rfl
@[simp] theorem push_dsent (s : State) (l : List Stmt) : (s.push l).dsent = s.dsent := rfl
@[simp] theorem push_deg (s : State) (l : List Stmt) : (s.push l).deg = s.deg := rfl
@[simp] theorem push_encSent (s : State) (l : List Stmt) : (s.push l).encSent = s.encSent := rfl
@[simp] theorem push_encColl (s : State) (l : List Stmt) : (s.push l).encColl = s.encColl := rfl
@[simp] theorem push_cmdw (s : State) (l : List Stmt) : (s.push l).cmdw = s.cmdw := rfl
@[simp] theorem push_phase (s : State) (l : List Stmt) : (s.push l).phase = s.phase := rfl
@[simp] theorem push_todo (s : State) (l : List Stmt) : (s.push l).todo = l ++ s.todo := rfl
@[simp] theorem push_env (s : State) (l : List Stmt) : (s.push l).env = s.env := rfl

/-! ### `raise` (60_exceptions.md R261) -/

@[simp] theorem raise_extraBytes (s : State) (e : ErrCode) : (s.raise e).extraBytes = s.extraBytes := rfl
@[simp] theorem raise_irqEn (s : State) (e : ErrCode) : (s.raise e).irqEn = s.irqEn := rfl
@[simp] theorem raise_done (s : State) (e : ErrCode) : (s.raise e).done = s.done := rfl
@[simp] theorem raise_dropped (s : State) (e : ErrCode) : (s.raise e).dropped = s.dropped := rfl
@[simp] theorem raise_errCode (s : State) (e : ErrCode) : (s.raise e).errCode = s.errCode := rfl
@[simp] theorem raise_errOp (s : State) (e : ErrCode) : (s.raise e).errOp = s.errOp := rfl
@[simp] theorem raise_sentinel (s : State) (e : ErrCode) : (s.raise e).sentinel = s.sentinel := rfl
@[simp] theorem raise_collChk (s : State) (e : ErrCode) : (s.raise e).collChk = s.collChk := rfl
@[simp] theorem raise_srcLen (s : State) (e : ErrCode) : (s.raise e).srcLen = s.srcLen := rfl
@[simp] theorem raise_inCount (s : State) (e : ErrCode) : (s.raise e).inCount = s.inCount := rfl
@[simp] theorem raise_outCount (s : State) (e : ErrCode) : (s.raise e).outCount = s.outCount := rfl
@[simp] theorem raise_result (s : State) (e : ErrCode) : (s.raise e).result = s.result := rfl
@[simp] theorem raise_tblIdx (s : State) (e : ErrCode) : (s.raise e).tblIdx = s.tblIdx := rfl
@[simp] theorem raise_freqValid (s : State) (e : ErrCode) : (s.raise e).freqValid = s.freqValid := rfl
@[simp] theorem raise_treeValid (s : State) (e : ErrCode) : (s.raise e).treeValid = s.treeValid := rfl
@[simp] theorem raise_tableValid (s : State) (e : ErrCode) : (s.raise e).tableValid = s.tableValid := rfl
@[simp] theorem raise_degenerate (s : State) (e : ErrCode) : (s.raise e).degenerate = s.degenerate := rfl
@[simp] theorem raise_bbMode (s : State) (e : ErrCode) : (s.raise e).bbMode = s.bbMode := rfl
@[simp] theorem raise_bbBits (s : State) (e : ErrCode) : (s.raise e).bbBits = s.bbBits := rfl
@[simp] theorem raise_bbRemain (s : State) (e : ErrCode) : (s.raise e).bbRemain = s.bbRemain := rfl
@[simp] theorem raise_freq (s : State) (e : ErrCode) : (s.raise e).freq = s.freq := rfl
@[simp] theorem raise_node (s : State) (e : ErrCode) : (s.raise e).node = s.node := rfl
@[simp] theorem raise_ncnt (s : State) (e : ErrCode) : (s.raise e).ncnt = s.ncnt := rfl
@[simp] theorem raise_root (s : State) (e : ErrCode) : (s.raise e).root = s.root := rfl
@[simp] theorem raise_heap (s : State) (e : ErrCode) : (s.raise e).heap = s.heap := rfl
@[simp] theorem raise_ct (s : State) (e : ErrCode) : (s.raise e).ct = s.ct := rfl
@[simp] theorem raise_stack (s : State) (e : ErrCode) : (s.raise e).stack = s.stack := rfl
@[simp] theorem raise_path (s : State) (e : ErrCode) : (s.raise e).path = s.path := rfl
@[simp] theorem raise_cur (s : State) (e : ErrCode) : (s.raise e).cur = s.cur := rfl
@[simp] theorem raise_dsent (s : State) (e : ErrCode) : (s.raise e).dsent = s.dsent := rfl
@[simp] theorem raise_deg (s : State) (e : ErrCode) : (s.raise e).deg = s.deg := rfl
@[simp] theorem raise_encSent (s : State) (e : ErrCode) : (s.raise e).encSent = s.encSent := rfl
@[simp] theorem raise_encColl (s : State) (e : ErrCode) : (s.raise e).encColl = s.encColl := rfl
@[simp] theorem raise_cmdw (s : State) (e : ErrCode) : (s.raise e).cmdw = s.cmdw := rfl
@[simp] theorem raise_phase (s : State) (e : ErrCode) : (s.raise e).phase = s.phase := rfl
@[simp] theorem raise_todo (s : State) (e : ErrCode) : (s.raise e).todo = [.bbClose, .fail e] := rfl
@[simp] theorem raise_env (s : State) (e : ErrCode) : (s.raise e).env = s.env := rfl

/-! ### `failStep` (60_exceptions.md R261) -/

@[simp] theorem failStep_extraBytes (s : State) (e : ErrCode) : (s.failStep e).extraBytes = s.extraBytes := rfl
@[simp] theorem failStep_irqEn (s : State) (e : ErrCode) : (s.failStep e).irqEn = s.irqEn := rfl
@[simp] theorem failStep_done (s : State) (e : ErrCode) : (s.failStep e).done = true := rfl
@[simp] theorem failStep_dropped (s : State) (e : ErrCode) : (s.failStep e).dropped = s.dropped := rfl
@[simp] theorem failStep_errCode (s : State) (e : ErrCode) : (s.failStep e).errCode = e := rfl
@[simp] theorem failStep_errOp (s : State) (e : ErrCode) : (s.failStep e).errOp = (if e = .illegalCmd then opField s.cmdw else s.phase) := rfl
@[simp] theorem failStep_sentinel (s : State) (e : ErrCode) : (s.failStep e).sentinel = s.sentinel := rfl
@[simp] theorem failStep_collChk (s : State) (e : ErrCode) : (s.failStep e).collChk = s.collChk := rfl
@[simp] theorem failStep_srcLen (s : State) (e : ErrCode) : (s.failStep e).srcLen = s.srcLen := rfl
@[simp] theorem failStep_inCount (s : State) (e : ErrCode) : (s.failStep e).inCount = s.inCount := rfl
@[simp] theorem failStep_outCount (s : State) (e : ErrCode) : (s.failStep e).outCount = s.outCount := rfl
@[simp] theorem failStep_result (s : State) (e : ErrCode) : (s.failStep e).result = s.result := rfl
@[simp] theorem failStep_tblIdx (s : State) (e : ErrCode) : (s.failStep e).tblIdx = s.tblIdx := rfl
@[simp] theorem failStep_freqValid (s : State) (e : ErrCode) : (s.failStep e).freqValid = s.freqValid := rfl
@[simp] theorem failStep_treeValid (s : State) (e : ErrCode) : (s.failStep e).treeValid = s.treeValid := rfl
@[simp] theorem failStep_tableValid (s : State) (e : ErrCode) : (s.failStep e).tableValid = s.tableValid := rfl
@[simp] theorem failStep_degenerate (s : State) (e : ErrCode) : (s.failStep e).degenerate = s.degenerate := rfl
@[simp] theorem failStep_bbMode (s : State) (e : ErrCode) : (s.failStep e).bbMode = s.bbMode := rfl
@[simp] theorem failStep_bbBits (s : State) (e : ErrCode) : (s.failStep e).bbBits = s.bbBits := rfl
@[simp] theorem failStep_bbRemain (s : State) (e : ErrCode) : (s.failStep e).bbRemain = s.bbRemain := rfl
@[simp] theorem failStep_freq (s : State) (e : ErrCode) : (s.failStep e).freq = s.freq := rfl
@[simp] theorem failStep_node (s : State) (e : ErrCode) : (s.failStep e).node = s.node := rfl
@[simp] theorem failStep_ncnt (s : State) (e : ErrCode) : (s.failStep e).ncnt = s.ncnt := rfl
@[simp] theorem failStep_root (s : State) (e : ErrCode) : (s.failStep e).root = s.root := rfl
@[simp] theorem failStep_heap (s : State) (e : ErrCode) : (s.failStep e).heap = s.heap := rfl
@[simp] theorem failStep_ct (s : State) (e : ErrCode) : (s.failStep e).ct = s.ct := rfl
@[simp] theorem failStep_stack (s : State) (e : ErrCode) : (s.failStep e).stack = s.stack := rfl
@[simp] theorem failStep_path (s : State) (e : ErrCode) : (s.failStep e).path = s.path := rfl
@[simp] theorem failStep_cur (s : State) (e : ErrCode) : (s.failStep e).cur = s.cur := rfl
@[simp] theorem failStep_dsent (s : State) (e : ErrCode) : (s.failStep e).dsent = s.dsent := rfl
@[simp] theorem failStep_deg (s : State) (e : ErrCode) : (s.failStep e).deg = s.deg := rfl
@[simp] theorem failStep_encSent (s : State) (e : ErrCode) : (s.failStep e).encSent = s.encSent := rfl
@[simp] theorem failStep_encColl (s : State) (e : ErrCode) : (s.failStep e).encColl = s.encColl := rfl
@[simp] theorem failStep_cmdw (s : State) (e : ErrCode) : (s.failStep e).cmdw = s.cmdw := rfl
@[simp] theorem failStep_phase (s : State) (e : ErrCode) : (s.failStep e).phase = s.phase := rfl
@[simp] theorem failStep_todo (s : State) (e : ErrCode) : (s.failStep e).todo = [] := rfl
@[simp] theorem failStep_env (s : State) (e : ErrCode) : (s.failStep e).env = s.env := rfl

/-! ### `completeStep` (40_control.md R103) -/

@[simp] theorem completeStep_extraBytes (s : State) : (s.completeStep).extraBytes = s.extraBytes := rfl
@[simp] theorem completeStep_irqEn (s : State) : (s.completeStep).irqEn = s.irqEn := rfl
@[simp] theorem completeStep_done (s : State) : (s.completeStep).done = true := rfl
@[simp] theorem completeStep_dropped (s : State) : (s.completeStep).dropped = s.dropped := rfl
@[simp] theorem completeStep_errCode (s : State) : (s.completeStep).errCode = .none := rfl
@[simp] theorem completeStep_errOp (s : State) : (s.completeStep).errOp = opField s.cmdw := rfl
@[simp] theorem completeStep_sentinel (s : State) : (s.completeStep).sentinel = s.sentinel := rfl
@[simp] theorem completeStep_collChk (s : State) : (s.completeStep).collChk = s.collChk := rfl
@[simp] theorem completeStep_srcLen (s : State) : (s.completeStep).srcLen = s.srcLen := rfl
@[simp] theorem completeStep_inCount (s : State) : (s.completeStep).inCount = s.inCount := rfl
@[simp] theorem completeStep_outCount (s : State) : (s.completeStep).outCount = s.outCount := rfl
@[simp] theorem completeStep_result (s : State) : (s.completeStep).result = s.result := rfl
@[simp] theorem completeStep_tblIdx (s : State) : (s.completeStep).tblIdx = s.tblIdx := rfl
@[simp] theorem completeStep_freqValid (s : State) : (s.completeStep).freqValid = s.freqValid := rfl
@[simp] theorem completeStep_treeValid (s : State) : (s.completeStep).treeValid = s.treeValid := rfl
@[simp] theorem completeStep_tableValid (s : State) : (s.completeStep).tableValid = s.tableValid := rfl
@[simp] theorem completeStep_degenerate (s : State) : (s.completeStep).degenerate = s.degenerate := rfl
@[simp] theorem completeStep_bbMode (s : State) : (s.completeStep).bbMode = s.bbMode := rfl
@[simp] theorem completeStep_bbBits (s : State) : (s.completeStep).bbBits = s.bbBits := rfl
@[simp] theorem completeStep_bbRemain (s : State) : (s.completeStep).bbRemain = s.bbRemain := rfl
@[simp] theorem completeStep_freq (s : State) : (s.completeStep).freq = s.freq := rfl
@[simp] theorem completeStep_node (s : State) : (s.completeStep).node = s.node := rfl
@[simp] theorem completeStep_ncnt (s : State) : (s.completeStep).ncnt = s.ncnt := rfl
@[simp] theorem completeStep_root (s : State) : (s.completeStep).root = s.root := rfl
@[simp] theorem completeStep_heap (s : State) : (s.completeStep).heap = s.heap := rfl
@[simp] theorem completeStep_ct (s : State) : (s.completeStep).ct = s.ct := rfl
@[simp] theorem completeStep_stack (s : State) : (s.completeStep).stack = s.stack := rfl
@[simp] theorem completeStep_path (s : State) : (s.completeStep).path = s.path := rfl
@[simp] theorem completeStep_cur (s : State) : (s.completeStep).cur = s.cur := rfl
@[simp] theorem completeStep_dsent (s : State) : (s.completeStep).dsent = s.dsent := rfl
@[simp] theorem completeStep_deg (s : State) : (s.completeStep).deg = s.deg := rfl
@[simp] theorem completeStep_encSent (s : State) : (s.completeStep).encSent = s.encSent := rfl
@[simp] theorem completeStep_encColl (s : State) : (s.completeStep).encColl = s.encColl := rfl
@[simp] theorem completeStep_cmdw (s : State) : (s.completeStep).cmdw = s.cmdw := rfl
@[simp] theorem completeStep_phase (s : State) : (s.completeStep).phase = s.phase := rfl
@[simp] theorem completeStep_todo (s : State) : (s.completeStep).todo = [] := rfl
@[simp] theorem completeStep_env (s : State) : (s.completeStep).env = s.env := rfl

/-! ### `accept` (40_control.md R100) -/

@[simp] theorem accept_extraBytes (s : State) (w : Word) (b : List Stmt) : (s.accept w b).extraBytes = s.extraBytes := rfl
@[simp] theorem accept_irqEn (s : State) (w : Word) (b : List Stmt) : (s.accept w b).irqEn = s.irqEn := rfl
@[simp] theorem accept_done (s : State) (w : Word) (b : List Stmt) : (s.accept w b).done = false := rfl
@[simp] theorem accept_dropped (s : State) (w : Word) (b : List Stmt) : (s.accept w b).dropped = s.dropped := rfl
@[simp] theorem accept_errCode (s : State) (w : Word) (b : List Stmt) : (s.accept w b).errCode = .none := rfl
@[simp] theorem accept_errOp (s : State) (w : Word) (b : List Stmt) : (s.accept w b).errOp = 0#8 := rfl
@[simp] theorem accept_sentinel (s : State) (w : Word) (b : List Stmt) : (s.accept w b).sentinel = s.sentinel := rfl
@[simp] theorem accept_collChk (s : State) (w : Word) (b : List Stmt) : (s.accept w b).collChk = s.collChk := rfl
@[simp] theorem accept_srcLen (s : State) (w : Word) (b : List Stmt) : (s.accept w b).srcLen = s.srcLen := rfl
@[simp] theorem accept_inCount (s : State) (w : Word) (b : List Stmt) : (s.accept w b).inCount = 0#32 := rfl
@[simp] theorem accept_outCount (s : State) (w : Word) (b : List Stmt) : (s.accept w b).outCount = 0#32 := rfl
@[simp] theorem accept_result (s : State) (w : Word) (b : List Stmt) : (s.accept w b).result = s.result := rfl
@[simp] theorem accept_tblIdx (s : State) (w : Word) (b : List Stmt) : (s.accept w b).tblIdx = s.tblIdx := rfl
@[simp] theorem accept_freqValid (s : State) (w : Word) (b : List Stmt) : (s.accept w b).freqValid = s.freqValid := rfl
@[simp] theorem accept_treeValid (s : State) (w : Word) (b : List Stmt) : (s.accept w b).treeValid = s.treeValid := rfl
@[simp] theorem accept_tableValid (s : State) (w : Word) (b : List Stmt) : (s.accept w b).tableValid = s.tableValid := rfl
@[simp] theorem accept_degenerate (s : State) (w : Word) (b : List Stmt) : (s.accept w b).degenerate = s.degenerate := rfl
@[simp] theorem accept_bbMode (s : State) (w : Word) (b : List Stmt) : (s.accept w b).bbMode = s.bbMode := rfl
@[simp] theorem accept_bbBits (s : State) (w : Word) (b : List Stmt) : (s.accept w b).bbBits = s.bbBits := rfl
@[simp] theorem accept_bbRemain (s : State) (w : Word) (b : List Stmt) : (s.accept w b).bbRemain = s.bbRemain := rfl
@[simp] theorem accept_freq (s : State) (w : Word) (b : List Stmt) : (s.accept w b).freq = s.freq := rfl
@[simp] theorem accept_node (s : State) (w : Word) (b : List Stmt) : (s.accept w b).node = s.node := rfl
@[simp] theorem accept_ncnt (s : State) (w : Word) (b : List Stmt) : (s.accept w b).ncnt = s.ncnt := rfl
@[simp] theorem accept_root (s : State) (w : Word) (b : List Stmt) : (s.accept w b).root = s.root := rfl
@[simp] theorem accept_heap (s : State) (w : Word) (b : List Stmt) : (s.accept w b).heap = s.heap := rfl
@[simp] theorem accept_ct (s : State) (w : Word) (b : List Stmt) : (s.accept w b).ct = s.ct := rfl
@[simp] theorem accept_stack (s : State) (w : Word) (b : List Stmt) : (s.accept w b).stack = s.stack := rfl
@[simp] theorem accept_path (s : State) (w : Word) (b : List Stmt) : (s.accept w b).path = s.path := rfl
@[simp] theorem accept_cur (s : State) (w : Word) (b : List Stmt) : (s.accept w b).cur = s.cur := rfl
@[simp] theorem accept_dsent (s : State) (w : Word) (b : List Stmt) : (s.accept w b).dsent = s.dsent := rfl
@[simp] theorem accept_deg (s : State) (w : Word) (b : List Stmt) : (s.accept w b).deg = s.deg := rfl
@[simp] theorem accept_encSent (s : State) (w : Word) (b : List Stmt) : (s.accept w b).encSent = s.encSent := rfl
@[simp] theorem accept_encColl (s : State) (w : Word) (b : List Stmt) : (s.accept w b).encColl = s.encColl := rfl
@[simp] theorem accept_cmdw (s : State) (w : Word) (b : List Stmt) : (s.accept w b).cmdw = w := rfl
@[simp] theorem accept_phase (s : State) (w : Word) (b : List Stmt) : (s.accept w b).phase = s.phase := rfl
@[simp] theorem accept_todo (s : State) (w : Word) (b : List Stmt) : (s.accept w b).todo = b := rfl
@[simp] theorem accept_env (s : State) (w : Word) (b : List Stmt) : (s.accept w b).env = s.env := rfl

/-! ### `setNode` (10_state.md R41) -/

@[simp] theorem setNode_extraBytes (s : State) (i : NodeIdx) (n : Node) : (s.setNode i n).extraBytes = s.extraBytes := rfl
@[simp] theorem setNode_irqEn (s : State) (i : NodeIdx) (n : Node) : (s.setNode i n).irqEn = s.irqEn := rfl
@[simp] theorem setNode_done (s : State) (i : NodeIdx) (n : Node) : (s.setNode i n).done = s.done := rfl
@[simp] theorem setNode_dropped (s : State) (i : NodeIdx) (n : Node) : (s.setNode i n).dropped = s.dropped := rfl
@[simp] theorem setNode_errCode (s : State) (i : NodeIdx) (n : Node) : (s.setNode i n).errCode = s.errCode := rfl
@[simp] theorem setNode_errOp (s : State) (i : NodeIdx) (n : Node) : (s.setNode i n).errOp = s.errOp := rfl
@[simp] theorem setNode_sentinel (s : State) (i : NodeIdx) (n : Node) : (s.setNode i n).sentinel = s.sentinel := rfl
@[simp] theorem setNode_collChk (s : State) (i : NodeIdx) (n : Node) : (s.setNode i n).collChk = s.collChk := rfl
@[simp] theorem setNode_srcLen (s : State) (i : NodeIdx) (n : Node) : (s.setNode i n).srcLen = s.srcLen := rfl
@[simp] theorem setNode_inCount (s : State) (i : NodeIdx) (n : Node) : (s.setNode i n).inCount = s.inCount := rfl
@[simp] theorem setNode_outCount (s : State) (i : NodeIdx) (n : Node) : (s.setNode i n).outCount = s.outCount := rfl
@[simp] theorem setNode_result (s : State) (i : NodeIdx) (n : Node) : (s.setNode i n).result = s.result := rfl
@[simp] theorem setNode_tblIdx (s : State) (i : NodeIdx) (n : Node) : (s.setNode i n).tblIdx = s.tblIdx := rfl
@[simp] theorem setNode_freqValid (s : State) (i : NodeIdx) (n : Node) : (s.setNode i n).freqValid = s.freqValid := rfl
@[simp] theorem setNode_treeValid (s : State) (i : NodeIdx) (n : Node) : (s.setNode i n).treeValid = s.treeValid := rfl
@[simp] theorem setNode_tableValid (s : State) (i : NodeIdx) (n : Node) : (s.setNode i n).tableValid = s.tableValid := rfl
@[simp] theorem setNode_degenerate (s : State) (i : NodeIdx) (n : Node) : (s.setNode i n).degenerate = s.degenerate := rfl
@[simp] theorem setNode_bbMode (s : State) (i : NodeIdx) (n : Node) : (s.setNode i n).bbMode = s.bbMode := rfl
@[simp] theorem setNode_bbBits (s : State) (i : NodeIdx) (n : Node) : (s.setNode i n).bbBits = s.bbBits := rfl
@[simp] theorem setNode_bbRemain (s : State) (i : NodeIdx) (n : Node) : (s.setNode i n).bbRemain = s.bbRemain := rfl
@[simp] theorem setNode_freq (s : State) (i : NodeIdx) (n : Node) : (s.setNode i n).freq = s.freq := rfl
@[simp] theorem setNode_node (s : State) (i : NodeIdx) (n : Node) : (s.setNode i n).node = s.node.setIfInBounds i.toNat n := rfl
@[simp] theorem setNode_ncnt (s : State) (i : NodeIdx) (n : Node) : (s.setNode i n).ncnt = s.ncnt := rfl
@[simp] theorem setNode_root (s : State) (i : NodeIdx) (n : Node) : (s.setNode i n).root = s.root := rfl
@[simp] theorem setNode_heap (s : State) (i : NodeIdx) (n : Node) : (s.setNode i n).heap = s.heap := rfl
@[simp] theorem setNode_ct (s : State) (i : NodeIdx) (n : Node) : (s.setNode i n).ct = s.ct := rfl
@[simp] theorem setNode_stack (s : State) (i : NodeIdx) (n : Node) : (s.setNode i n).stack = s.stack := rfl
@[simp] theorem setNode_path (s : State) (i : NodeIdx) (n : Node) : (s.setNode i n).path = s.path := rfl
@[simp] theorem setNode_cur (s : State) (i : NodeIdx) (n : Node) : (s.setNode i n).cur = s.cur := rfl
@[simp] theorem setNode_dsent (s : State) (i : NodeIdx) (n : Node) : (s.setNode i n).dsent = s.dsent := rfl
@[simp] theorem setNode_deg (s : State) (i : NodeIdx) (n : Node) : (s.setNode i n).deg = s.deg := rfl
@[simp] theorem setNode_encSent (s : State) (i : NodeIdx) (n : Node) : (s.setNode i n).encSent = s.encSent := rfl
@[simp] theorem setNode_encColl (s : State) (i : NodeIdx) (n : Node) : (s.setNode i n).encColl = s.encColl := rfl
@[simp] theorem setNode_cmdw (s : State) (i : NodeIdx) (n : Node) : (s.setNode i n).cmdw = s.cmdw := rfl
@[simp] theorem setNode_phase (s : State) (i : NodeIdx) (n : Node) : (s.setNode i n).phase = s.phase := rfl
@[simp] theorem setNode_todo (s : State) (i : NodeIdx) (n : Node) : (s.setNode i n).todo = s.todo := rfl
@[simp] theorem setNode_env (s : State) (i : NodeIdx) (n : Node) : (s.setNode i n).env = s.env := rfl

/-! ### `bumpFreq` (42_encoder.md R155) -/

@[simp] theorem bumpFreq_extraBytes (s : State) (v : Byte) : (s.bumpFreq v).extraBytes = s.extraBytes := rfl
@[simp] theorem bumpFreq_irqEn (s : State) (v : Byte) : (s.bumpFreq v).irqEn = s.irqEn := rfl
@[simp] theorem bumpFreq_done (s : State) (v : Byte) : (s.bumpFreq v).done = s.done := rfl
@[simp] theorem bumpFreq_dropped (s : State) (v : Byte) : (s.bumpFreq v).dropped = s.dropped := rfl
@[simp] theorem bumpFreq_errCode (s : State) (v : Byte) : (s.bumpFreq v).errCode = s.errCode := rfl
@[simp] theorem bumpFreq_errOp (s : State) (v : Byte) : (s.bumpFreq v).errOp = s.errOp := rfl
@[simp] theorem bumpFreq_sentinel (s : State) (v : Byte) : (s.bumpFreq v).sentinel = s.sentinel := rfl
@[simp] theorem bumpFreq_collChk (s : State) (v : Byte) : (s.bumpFreq v).collChk = s.collChk := rfl
@[simp] theorem bumpFreq_srcLen (s : State) (v : Byte) : (s.bumpFreq v).srcLen = s.srcLen := rfl
@[simp] theorem bumpFreq_inCount (s : State) (v : Byte) : (s.bumpFreq v).inCount = s.inCount := rfl
@[simp] theorem bumpFreq_outCount (s : State) (v : Byte) : (s.bumpFreq v).outCount = s.outCount := rfl
@[simp] theorem bumpFreq_result (s : State) (v : Byte) : (s.bumpFreq v).result = s.result := rfl
@[simp] theorem bumpFreq_tblIdx (s : State) (v : Byte) : (s.bumpFreq v).tblIdx = s.tblIdx := rfl
@[simp] theorem bumpFreq_freqValid (s : State) (v : Byte) : (s.bumpFreq v).freqValid = s.freqValid := rfl
@[simp] theorem bumpFreq_treeValid (s : State) (v : Byte) : (s.bumpFreq v).treeValid = s.treeValid := rfl
@[simp] theorem bumpFreq_tableValid (s : State) (v : Byte) : (s.bumpFreq v).tableValid = s.tableValid := rfl
@[simp] theorem bumpFreq_degenerate (s : State) (v : Byte) : (s.bumpFreq v).degenerate = s.degenerate := rfl
@[simp] theorem bumpFreq_bbMode (s : State) (v : Byte) : (s.bumpFreq v).bbMode = s.bbMode := rfl
@[simp] theorem bumpFreq_bbBits (s : State) (v : Byte) : (s.bumpFreq v).bbBits = s.bbBits := rfl
@[simp] theorem bumpFreq_bbRemain (s : State) (v : Byte) : (s.bumpFreq v).bbRemain = s.bbRemain := rfl
@[simp] theorem bumpFreq_freq (s : State) (v : Byte) : (s.bumpFreq v).freq = s.freq.set v.toNat (s.freqAt v + 1#32) := rfl
@[simp] theorem bumpFreq_node (s : State) (v : Byte) : (s.bumpFreq v).node = s.node := rfl
@[simp] theorem bumpFreq_ncnt (s : State) (v : Byte) : (s.bumpFreq v).ncnt = s.ncnt := rfl
@[simp] theorem bumpFreq_root (s : State) (v : Byte) : (s.bumpFreq v).root = s.root := rfl
@[simp] theorem bumpFreq_heap (s : State) (v : Byte) : (s.bumpFreq v).heap = s.heap := rfl
@[simp] theorem bumpFreq_ct (s : State) (v : Byte) : (s.bumpFreq v).ct = s.ct := rfl
@[simp] theorem bumpFreq_stack (s : State) (v : Byte) : (s.bumpFreq v).stack = s.stack := rfl
@[simp] theorem bumpFreq_path (s : State) (v : Byte) : (s.bumpFreq v).path = s.path := rfl
@[simp] theorem bumpFreq_cur (s : State) (v : Byte) : (s.bumpFreq v).cur = s.cur := rfl
@[simp] theorem bumpFreq_dsent (s : State) (v : Byte) : (s.bumpFreq v).dsent = s.dsent := rfl
@[simp] theorem bumpFreq_deg (s : State) (v : Byte) : (s.bumpFreq v).deg = s.deg := rfl
@[simp] theorem bumpFreq_encSent (s : State) (v : Byte) : (s.bumpFreq v).encSent = s.encSent := rfl
@[simp] theorem bumpFreq_encColl (s : State) (v : Byte) : (s.bumpFreq v).encColl = s.encColl := rfl
@[simp] theorem bumpFreq_cmdw (s : State) (v : Byte) : (s.bumpFreq v).cmdw = s.cmdw := rfl
@[simp] theorem bumpFreq_phase (s : State) (v : Byte) : (s.bumpFreq v).phase = s.phase := rfl
@[simp] theorem bumpFreq_todo (s : State) (v : Byte) : (s.bumpFreq v).todo = s.todo := rfl
@[simp] theorem bumpFreq_env (s : State) (v : Byte) : (s.bumpFreq v).env = s.env := rfl

/-! ### `setCode` (42_encoder.md R161) -/

@[simp] theorem setCode_extraBytes (s : State) (v : Byte) (p : List Bool) : (s.setCode v p).extraBytes = s.extraBytes := rfl
@[simp] theorem setCode_irqEn (s : State) (v : Byte) (p : List Bool) : (s.setCode v p).irqEn = s.irqEn := rfl
@[simp] theorem setCode_done (s : State) (v : Byte) (p : List Bool) : (s.setCode v p).done = s.done := rfl
@[simp] theorem setCode_dropped (s : State) (v : Byte) (p : List Bool) : (s.setCode v p).dropped = s.dropped := rfl
@[simp] theorem setCode_errCode (s : State) (v : Byte) (p : List Bool) : (s.setCode v p).errCode = s.errCode := rfl
@[simp] theorem setCode_errOp (s : State) (v : Byte) (p : List Bool) : (s.setCode v p).errOp = s.errOp := rfl
@[simp] theorem setCode_sentinel (s : State) (v : Byte) (p : List Bool) : (s.setCode v p).sentinel = s.sentinel := rfl
@[simp] theorem setCode_collChk (s : State) (v : Byte) (p : List Bool) : (s.setCode v p).collChk = s.collChk := rfl
@[simp] theorem setCode_srcLen (s : State) (v : Byte) (p : List Bool) : (s.setCode v p).srcLen = s.srcLen := rfl
@[simp] theorem setCode_inCount (s : State) (v : Byte) (p : List Bool) : (s.setCode v p).inCount = s.inCount := rfl
@[simp] theorem setCode_outCount (s : State) (v : Byte) (p : List Bool) : (s.setCode v p).outCount = s.outCount := rfl
@[simp] theorem setCode_result (s : State) (v : Byte) (p : List Bool) : (s.setCode v p).result = s.result := rfl
@[simp] theorem setCode_tblIdx (s : State) (v : Byte) (p : List Bool) : (s.setCode v p).tblIdx = s.tblIdx := rfl
@[simp] theorem setCode_freqValid (s : State) (v : Byte) (p : List Bool) : (s.setCode v p).freqValid = s.freqValid := rfl
@[simp] theorem setCode_treeValid (s : State) (v : Byte) (p : List Bool) : (s.setCode v p).treeValid = s.treeValid := rfl
@[simp] theorem setCode_tableValid (s : State) (v : Byte) (p : List Bool) : (s.setCode v p).tableValid = s.tableValid := rfl
@[simp] theorem setCode_degenerate (s : State) (v : Byte) (p : List Bool) : (s.setCode v p).degenerate = s.degenerate := rfl
@[simp] theorem setCode_bbMode (s : State) (v : Byte) (p : List Bool) : (s.setCode v p).bbMode = s.bbMode := rfl
@[simp] theorem setCode_bbBits (s : State) (v : Byte) (p : List Bool) : (s.setCode v p).bbBits = s.bbBits := rfl
@[simp] theorem setCode_bbRemain (s : State) (v : Byte) (p : List Bool) : (s.setCode v p).bbRemain = s.bbRemain := rfl
@[simp] theorem setCode_freq (s : State) (v : Byte) (p : List Bool) : (s.setCode v p).freq = s.freq := rfl
@[simp] theorem setCode_node (s : State) (v : Byte) (p : List Bool) : (s.setCode v p).node = s.node := rfl
@[simp] theorem setCode_ncnt (s : State) (v : Byte) (p : List Bool) : (s.setCode v p).ncnt = s.ncnt := rfl
@[simp] theorem setCode_root (s : State) (v : Byte) (p : List Bool) : (s.setCode v p).root = s.root := rfl
@[simp] theorem setCode_heap (s : State) (v : Byte) (p : List Bool) : (s.setCode v p).heap = s.heap := rfl
@[simp] theorem setCode_ct (s : State) (v : Byte) (p : List Bool) : (s.setCode v p).ct = s.ct.set v.toNat p := rfl
@[simp] theorem setCode_stack (s : State) (v : Byte) (p : List Bool) : (s.setCode v p).stack = s.stack := rfl
@[simp] theorem setCode_path (s : State) (v : Byte) (p : List Bool) : (s.setCode v p).path = s.path := rfl
@[simp] theorem setCode_cur (s : State) (v : Byte) (p : List Bool) : (s.setCode v p).cur = s.cur := rfl
@[simp] theorem setCode_dsent (s : State) (v : Byte) (p : List Bool) : (s.setCode v p).dsent = s.dsent := rfl
@[simp] theorem setCode_deg (s : State) (v : Byte) (p : List Bool) : (s.setCode v p).deg = s.deg := rfl
@[simp] theorem setCode_encSent (s : State) (v : Byte) (p : List Bool) : (s.setCode v p).encSent = s.encSent := rfl
@[simp] theorem setCode_encColl (s : State) (v : Byte) (p : List Bool) : (s.setCode v p).encColl = s.encColl := rfl
@[simp] theorem setCode_cmdw (s : State) (v : Byte) (p : List Bool) : (s.setCode v p).cmdw = s.cmdw := rfl
@[simp] theorem setCode_phase (s : State) (v : Byte) (p : List Bool) : (s.setCode v p).phase = s.phase := rfl
@[simp] theorem setCode_todo (s : State) (v : Byte) (p : List Bool) : (s.setCode v p).todo = s.todo := rfl
@[simp] theorem setCode_env (s : State) (v : Byte) (p : List Bool) : (s.setCode v p).env = s.env := rfl

/-! ### `tick` and `popSched` -/

@[simp] theorem tick_extraBytes (s : State) : (tick s).extraBytes = s.extraBytes := rfl
@[simp] theorem tick_irqEn (s : State) : (tick s).irqEn = s.irqEn := rfl
@[simp] theorem tick_done (s : State) : (tick s).done = s.done := rfl
@[simp] theorem tick_dropped (s : State) : (tick s).dropped = s.dropped := rfl
@[simp] theorem tick_errCode (s : State) : (tick s).errCode = s.errCode := rfl
@[simp] theorem tick_errOp (s : State) : (tick s).errOp = s.errOp := rfl
@[simp] theorem tick_sentinel (s : State) : (tick s).sentinel = s.sentinel := rfl
@[simp] theorem tick_collChk (s : State) : (tick s).collChk = s.collChk := rfl
@[simp] theorem tick_srcLen (s : State) : (tick s).srcLen = s.srcLen := rfl
@[simp] theorem tick_inCount (s : State) : (tick s).inCount = s.inCount := rfl
@[simp] theorem tick_outCount (s : State) : (tick s).outCount = s.outCount := rfl
@[simp] theorem tick_result (s : State) : (tick s).result = s.result := rfl
@[simp] theorem tick_tblIdx (s : State) : (tick s).tblIdx = s.tblIdx := rfl
@[simp] theorem tick_freqValid (s : State) : (tick s).freqValid = s.freqValid := rfl
@[simp] theorem tick_treeValid (s : State) : (tick s).treeValid = s.treeValid := rfl
@[simp] theorem tick_tableValid (s : State) : (tick s).tableValid = s.tableValid := rfl
@[simp] theorem tick_degenerate (s : State) : (tick s).degenerate = s.degenerate := rfl
@[simp] theorem tick_bbMode (s : State) : (tick s).bbMode = s.bbMode := rfl
@[simp] theorem tick_bbBits (s : State) : (tick s).bbBits = s.bbBits := rfl
@[simp] theorem tick_bbRemain (s : State) : (tick s).bbRemain = s.bbRemain := rfl
@[simp] theorem tick_freq (s : State) : (tick s).freq = s.freq := rfl
@[simp] theorem tick_node (s : State) : (tick s).node = s.node := rfl
@[simp] theorem tick_ncnt (s : State) : (tick s).ncnt = s.ncnt := rfl
@[simp] theorem tick_root (s : State) : (tick s).root = s.root := rfl
@[simp] theorem tick_heap (s : State) : (tick s).heap = s.heap := rfl
@[simp] theorem tick_ct (s : State) : (tick s).ct = s.ct := rfl
@[simp] theorem tick_stack (s : State) : (tick s).stack = s.stack := rfl
@[simp] theorem tick_path (s : State) : (tick s).path = s.path := rfl
@[simp] theorem tick_cur (s : State) : (tick s).cur = s.cur := rfl
@[simp] theorem tick_dsent (s : State) : (tick s).dsent = s.dsent := rfl
@[simp] theorem tick_deg (s : State) : (tick s).deg = s.deg := rfl
@[simp] theorem tick_encSent (s : State) : (tick s).encSent = s.encSent := rfl
@[simp] theorem tick_encColl (s : State) : (tick s).encColl = s.encColl := rfl
@[simp] theorem tick_cmdw (s : State) : (tick s).cmdw = s.cmdw := rfl
@[simp] theorem tick_phase (s : State) : (tick s).phase = s.phase := rfl
@[simp] theorem tick_todo (s : State) : (tick s).todo = s.todo := rfl
@[simp] theorem tick_env (s : State) : (tick s).env = { s.env with epoch := s.env.epoch + 1 } := rfl

@[simp] theorem popSched_extraBytes (s : State) : (popSched s).extraBytes = s.extraBytes := rfl
@[simp] theorem popSched_irqEn (s : State) : (popSched s).irqEn = s.irqEn := rfl
@[simp] theorem popSched_done (s : State) : (popSched s).done = s.done := rfl
@[simp] theorem popSched_dropped (s : State) : (popSched s).dropped = s.dropped := rfl
@[simp] theorem popSched_errCode (s : State) : (popSched s).errCode = s.errCode := rfl
@[simp] theorem popSched_errOp (s : State) : (popSched s).errOp = s.errOp := rfl
@[simp] theorem popSched_sentinel (s : State) : (popSched s).sentinel = s.sentinel := rfl
@[simp] theorem popSched_collChk (s : State) : (popSched s).collChk = s.collChk := rfl
@[simp] theorem popSched_srcLen (s : State) : (popSched s).srcLen = s.srcLen := rfl
@[simp] theorem popSched_inCount (s : State) : (popSched s).inCount = s.inCount := rfl
@[simp] theorem popSched_outCount (s : State) : (popSched s).outCount = s.outCount := rfl
@[simp] theorem popSched_result (s : State) : (popSched s).result = s.result := rfl
@[simp] theorem popSched_tblIdx (s : State) : (popSched s).tblIdx = s.tblIdx := rfl
@[simp] theorem popSched_freqValid (s : State) : (popSched s).freqValid = s.freqValid := rfl
@[simp] theorem popSched_treeValid (s : State) : (popSched s).treeValid = s.treeValid := rfl
@[simp] theorem popSched_tableValid (s : State) : (popSched s).tableValid = s.tableValid := rfl
@[simp] theorem popSched_degenerate (s : State) : (popSched s).degenerate = s.degenerate := rfl
@[simp] theorem popSched_bbMode (s : State) : (popSched s).bbMode = s.bbMode := rfl
@[simp] theorem popSched_bbBits (s : State) : (popSched s).bbBits = s.bbBits := rfl
@[simp] theorem popSched_bbRemain (s : State) : (popSched s).bbRemain = s.bbRemain := rfl
@[simp] theorem popSched_freq (s : State) : (popSched s).freq = s.freq := rfl
@[simp] theorem popSched_node (s : State) : (popSched s).node = s.node := rfl
@[simp] theorem popSched_ncnt (s : State) : (popSched s).ncnt = s.ncnt := rfl
@[simp] theorem popSched_root (s : State) : (popSched s).root = s.root := rfl
@[simp] theorem popSched_heap (s : State) : (popSched s).heap = s.heap := rfl
@[simp] theorem popSched_ct (s : State) : (popSched s).ct = s.ct := rfl
@[simp] theorem popSched_stack (s : State) : (popSched s).stack = s.stack := rfl
@[simp] theorem popSched_path (s : State) : (popSched s).path = s.path := rfl
@[simp] theorem popSched_cur (s : State) : (popSched s).cur = s.cur := rfl
@[simp] theorem popSched_dsent (s : State) : (popSched s).dsent = s.dsent := rfl
@[simp] theorem popSched_deg (s : State) : (popSched s).deg = s.deg := rfl
@[simp] theorem popSched_encSent (s : State) : (popSched s).encSent = s.encSent := rfl
@[simp] theorem popSched_encColl (s : State) : (popSched s).encColl = s.encColl := rfl
@[simp] theorem popSched_cmdw (s : State) : (popSched s).cmdw = s.cmdw := rfl
@[simp] theorem popSched_phase (s : State) : (popSched s).phase = s.phase := rfl
@[simp] theorem popSched_todo (s : State) : (popSched s).todo = s.todo := rfl
@[simp] theorem popSched_env (s : State) : (popSched s).env = { s.env with sched := s.env.sched.tail } := rfl

/-! ### `sent` and `reseat` -/

@[simp] theorem sent_extraBytes (s : State) (l : List Byte) : (s.sent l).extraBytes = s.extraBytes := rfl
@[simp] theorem sent_irqEn (s : State) (l : List Byte) : (s.sent l).irqEn = s.irqEn := rfl
@[simp] theorem sent_done (s : State) (l : List Byte) : (s.sent l).done = s.done := rfl
@[simp] theorem sent_dropped (s : State) (l : List Byte) : (s.sent l).dropped = s.dropped := rfl
@[simp] theorem sent_errCode (s : State) (l : List Byte) : (s.sent l).errCode = s.errCode := rfl
@[simp] theorem sent_errOp (s : State) (l : List Byte) : (s.sent l).errOp = s.errOp := rfl
@[simp] theorem sent_sentinel (s : State) (l : List Byte) : (s.sent l).sentinel = s.sentinel := rfl
@[simp] theorem sent_collChk (s : State) (l : List Byte) : (s.sent l).collChk = s.collChk := rfl
@[simp] theorem sent_srcLen (s : State) (l : List Byte) : (s.sent l).srcLen = s.srcLen := rfl
@[simp] theorem sent_inCount (s : State) (l : List Byte) : (s.sent l).inCount = s.inCount := rfl
@[simp] theorem sent_outCount (s : State) (l : List Byte) : (s.sent l).outCount = s.outCount + BitVec.ofNat 32 l.length := rfl
@[simp] theorem sent_result (s : State) (l : List Byte) : (s.sent l).result = s.result := rfl
@[simp] theorem sent_tblIdx (s : State) (l : List Byte) : (s.sent l).tblIdx = s.tblIdx := rfl
@[simp] theorem sent_freqValid (s : State) (l : List Byte) : (s.sent l).freqValid = s.freqValid := rfl
@[simp] theorem sent_treeValid (s : State) (l : List Byte) : (s.sent l).treeValid = s.treeValid := rfl
@[simp] theorem sent_tableValid (s : State) (l : List Byte) : (s.sent l).tableValid = s.tableValid := rfl
@[simp] theorem sent_degenerate (s : State) (l : List Byte) : (s.sent l).degenerate = s.degenerate := rfl
@[simp] theorem sent_bbMode (s : State) (l : List Byte) : (s.sent l).bbMode = s.bbMode := rfl
@[simp] theorem sent_bbBits (s : State) (l : List Byte) : (s.sent l).bbBits = s.bbBits := rfl
@[simp] theorem sent_bbRemain (s : State) (l : List Byte) : (s.sent l).bbRemain = s.bbRemain := rfl
@[simp] theorem sent_freq (s : State) (l : List Byte) : (s.sent l).freq = s.freq := rfl
@[simp] theorem sent_node (s : State) (l : List Byte) : (s.sent l).node = s.node := rfl
@[simp] theorem sent_ncnt (s : State) (l : List Byte) : (s.sent l).ncnt = s.ncnt := rfl
@[simp] theorem sent_root (s : State) (l : List Byte) : (s.sent l).root = s.root := rfl
@[simp] theorem sent_heap (s : State) (l : List Byte) : (s.sent l).heap = s.heap := rfl
@[simp] theorem sent_ct (s : State) (l : List Byte) : (s.sent l).ct = s.ct := rfl
@[simp] theorem sent_stack (s : State) (l : List Byte) : (s.sent l).stack = s.stack := rfl
@[simp] theorem sent_path (s : State) (l : List Byte) : (s.sent l).path = s.path := rfl
@[simp] theorem sent_cur (s : State) (l : List Byte) : (s.sent l).cur = s.cur := rfl
@[simp] theorem sent_dsent (s : State) (l : List Byte) : (s.sent l).dsent = s.dsent := rfl
@[simp] theorem sent_deg (s : State) (l : List Byte) : (s.sent l).deg = s.deg := rfl
@[simp] theorem sent_encSent (s : State) (l : List Byte) : (s.sent l).encSent = s.encSent := rfl
@[simp] theorem sent_encColl (s : State) (l : List Byte) : (s.sent l).encColl = s.encColl := rfl
@[simp] theorem sent_cmdw (s : State) (l : List Byte) : (s.sent l).cmdw = s.cmdw := rfl
@[simp] theorem sent_phase (s : State) (l : List Byte) : (s.sent l).phase = s.phase := rfl
@[simp] theorem sent_todo (s : State) (l : List Byte) : (s.sent l).todo = s.todo := rfl
@[simp] theorem sent_env (s : State) (l : List Byte) : (s.sent l).env = { s.env with sOut := s.env.sOut ++ l } := rfl

@[simp] theorem withBits_extraBytes (s : State) (b : List Bool) : (s.withBits b).extraBytes = s.extraBytes := rfl
@[simp] theorem withBits_irqEn (s : State) (b : List Bool) : (s.withBits b).irqEn = s.irqEn := rfl
@[simp] theorem withBits_done (s : State) (b : List Bool) : (s.withBits b).done = s.done := rfl
@[simp] theorem withBits_dropped (s : State) (b : List Bool) : (s.withBits b).dropped = s.dropped := rfl
@[simp] theorem withBits_errCode (s : State) (b : List Bool) : (s.withBits b).errCode = s.errCode := rfl
@[simp] theorem withBits_errOp (s : State) (b : List Bool) : (s.withBits b).errOp = s.errOp := rfl
@[simp] theorem withBits_sentinel (s : State) (b : List Bool) : (s.withBits b).sentinel = s.sentinel := rfl
@[simp] theorem withBits_collChk (s : State) (b : List Bool) : (s.withBits b).collChk = s.collChk := rfl
@[simp] theorem withBits_srcLen (s : State) (b : List Bool) : (s.withBits b).srcLen = s.srcLen := rfl
@[simp] theorem withBits_inCount (s : State) (b : List Bool) : (s.withBits b).inCount = s.inCount := rfl
@[simp] theorem withBits_outCount (s : State) (b : List Bool) : (s.withBits b).outCount = s.outCount := rfl
@[simp] theorem withBits_result (s : State) (b : List Bool) : (s.withBits b).result = s.result := rfl
@[simp] theorem withBits_tblIdx (s : State) (b : List Bool) : (s.withBits b).tblIdx = s.tblIdx := rfl
@[simp] theorem withBits_freqValid (s : State) (b : List Bool) : (s.withBits b).freqValid = s.freqValid := rfl
@[simp] theorem withBits_treeValid (s : State) (b : List Bool) : (s.withBits b).treeValid = s.treeValid := rfl
@[simp] theorem withBits_tableValid (s : State) (b : List Bool) : (s.withBits b).tableValid = s.tableValid := rfl
@[simp] theorem withBits_degenerate (s : State) (b : List Bool) : (s.withBits b).degenerate = s.degenerate := rfl
@[simp] theorem withBits_bbMode (s : State) (b : List Bool) : (s.withBits b).bbMode = s.bbMode := rfl
@[simp] theorem withBits_bbBits (s : State) (b : List Bool) : (s.withBits b).bbBits = b := rfl
@[simp] theorem withBits_bbRemain (s : State) (b : List Bool) : (s.withBits b).bbRemain = s.bbRemain := rfl
@[simp] theorem withBits_freq (s : State) (b : List Bool) : (s.withBits b).freq = s.freq := rfl
@[simp] theorem withBits_node (s : State) (b : List Bool) : (s.withBits b).node = s.node := rfl
@[simp] theorem withBits_ncnt (s : State) (b : List Bool) : (s.withBits b).ncnt = s.ncnt := rfl
@[simp] theorem withBits_root (s : State) (b : List Bool) : (s.withBits b).root = s.root := rfl
@[simp] theorem withBits_heap (s : State) (b : List Bool) : (s.withBits b).heap = s.heap := rfl
@[simp] theorem withBits_ct (s : State) (b : List Bool) : (s.withBits b).ct = s.ct := rfl
@[simp] theorem withBits_stack (s : State) (b : List Bool) : (s.withBits b).stack = s.stack := rfl
@[simp] theorem withBits_path (s : State) (b : List Bool) : (s.withBits b).path = s.path := rfl
@[simp] theorem withBits_cur (s : State) (b : List Bool) : (s.withBits b).cur = s.cur := rfl
@[simp] theorem withBits_dsent (s : State) (b : List Bool) : (s.withBits b).dsent = s.dsent := rfl
@[simp] theorem withBits_deg (s : State) (b : List Bool) : (s.withBits b).deg = s.deg := rfl
@[simp] theorem withBits_encSent (s : State) (b : List Bool) : (s.withBits b).encSent = s.encSent := rfl
@[simp] theorem withBits_encColl (s : State) (b : List Bool) : (s.withBits b).encColl = s.encColl := rfl
@[simp] theorem withBits_cmdw (s : State) (b : List Bool) : (s.withBits b).cmdw = s.cmdw := rfl
@[simp] theorem withBits_phase (s : State) (b : List Bool) : (s.withBits b).phase = s.phase := rfl
@[simp] theorem withBits_todo (s : State) (b : List Bool) : (s.withBits b).todo = s.todo := rfl
@[simp] theorem withBits_env (s : State) (b : List Bool) : (s.withBits b).env = s.env := rfl

@[simp] theorem reseat_extraBytes (s : State) (b : List Bool) (r c : Word) (i : List Byte) : (s.reseat b r c i).extraBytes = s.extraBytes := rfl
@[simp] theorem reseat_irqEn (s : State) (b : List Bool) (r c : Word) (i : List Byte) : (s.reseat b r c i).irqEn = s.irqEn := rfl
@[simp] theorem reseat_done (s : State) (b : List Bool) (r c : Word) (i : List Byte) : (s.reseat b r c i).done = s.done := rfl
@[simp] theorem reseat_dropped (s : State) (b : List Bool) (r c : Word) (i : List Byte) : (s.reseat b r c i).dropped = s.dropped := rfl
@[simp] theorem reseat_errCode (s : State) (b : List Bool) (r c : Word) (i : List Byte) : (s.reseat b r c i).errCode = s.errCode := rfl
@[simp] theorem reseat_errOp (s : State) (b : List Bool) (r c : Word) (i : List Byte) : (s.reseat b r c i).errOp = s.errOp := rfl
@[simp] theorem reseat_sentinel (s : State) (b : List Bool) (r c : Word) (i : List Byte) : (s.reseat b r c i).sentinel = s.sentinel := rfl
@[simp] theorem reseat_collChk (s : State) (b : List Bool) (r c : Word) (i : List Byte) : (s.reseat b r c i).collChk = s.collChk := rfl
@[simp] theorem reseat_srcLen (s : State) (b : List Bool) (r c : Word) (i : List Byte) : (s.reseat b r c i).srcLen = s.srcLen := rfl
@[simp] theorem reseat_inCount (s : State) (b : List Bool) (r c : Word) (i : List Byte) : (s.reseat b r c i).inCount = c := rfl
@[simp] theorem reseat_outCount (s : State) (b : List Bool) (r c : Word) (i : List Byte) : (s.reseat b r c i).outCount = s.outCount := rfl
@[simp] theorem reseat_result (s : State) (b : List Bool) (r c : Word) (i : List Byte) : (s.reseat b r c i).result = s.result := rfl
@[simp] theorem reseat_tblIdx (s : State) (b : List Bool) (r c : Word) (i : List Byte) : (s.reseat b r c i).tblIdx = s.tblIdx := rfl
@[simp] theorem reseat_freqValid (s : State) (b : List Bool) (r c : Word) (i : List Byte) : (s.reseat b r c i).freqValid = s.freqValid := rfl
@[simp] theorem reseat_treeValid (s : State) (b : List Bool) (r c : Word) (i : List Byte) : (s.reseat b r c i).treeValid = s.treeValid := rfl
@[simp] theorem reseat_tableValid (s : State) (b : List Bool) (r c : Word) (i : List Byte) : (s.reseat b r c i).tableValid = s.tableValid := rfl
@[simp] theorem reseat_degenerate (s : State) (b : List Bool) (r c : Word) (i : List Byte) : (s.reseat b r c i).degenerate = s.degenerate := rfl
@[simp] theorem reseat_bbMode (s : State) (b : List Bool) (r c : Word) (i : List Byte) : (s.reseat b r c i).bbMode = s.bbMode := rfl
@[simp] theorem reseat_bbBits (s : State) (b : List Bool) (r c : Word) (i : List Byte) : (s.reseat b r c i).bbBits = b := rfl
@[simp] theorem reseat_bbRemain (s : State) (b : List Bool) (r c : Word) (i : List Byte) : (s.reseat b r c i).bbRemain = r := rfl
@[simp] theorem reseat_freq (s : State) (b : List Bool) (r c : Word) (i : List Byte) : (s.reseat b r c i).freq = s.freq := rfl
@[simp] theorem reseat_node (s : State) (b : List Bool) (r c : Word) (i : List Byte) : (s.reseat b r c i).node = s.node := rfl
@[simp] theorem reseat_ncnt (s : State) (b : List Bool) (r c : Word) (i : List Byte) : (s.reseat b r c i).ncnt = s.ncnt := rfl
@[simp] theorem reseat_root (s : State) (b : List Bool) (r c : Word) (i : List Byte) : (s.reseat b r c i).root = s.root := rfl
@[simp] theorem reseat_heap (s : State) (b : List Bool) (r c : Word) (i : List Byte) : (s.reseat b r c i).heap = s.heap := rfl
@[simp] theorem reseat_ct (s : State) (b : List Bool) (r c : Word) (i : List Byte) : (s.reseat b r c i).ct = s.ct := rfl
@[simp] theorem reseat_stack (s : State) (b : List Bool) (r c : Word) (i : List Byte) : (s.reseat b r c i).stack = s.stack := rfl
@[simp] theorem reseat_path (s : State) (b : List Bool) (r c : Word) (i : List Byte) : (s.reseat b r c i).path = s.path := rfl
@[simp] theorem reseat_cur (s : State) (b : List Bool) (r c : Word) (i : List Byte) : (s.reseat b r c i).cur = s.cur := rfl
@[simp] theorem reseat_dsent (s : State) (b : List Bool) (r c : Word) (i : List Byte) : (s.reseat b r c i).dsent = s.dsent := rfl
@[simp] theorem reseat_deg (s : State) (b : List Bool) (r c : Word) (i : List Byte) : (s.reseat b r c i).deg = s.deg := rfl
@[simp] theorem reseat_encSent (s : State) (b : List Bool) (r c : Word) (i : List Byte) : (s.reseat b r c i).encSent = s.encSent := rfl
@[simp] theorem reseat_encColl (s : State) (b : List Bool) (r c : Word) (i : List Byte) : (s.reseat b r c i).encColl = s.encColl := rfl
@[simp] theorem reseat_cmdw (s : State) (b : List Bool) (r c : Word) (i : List Byte) : (s.reseat b r c i).cmdw = s.cmdw := rfl
@[simp] theorem reseat_phase (s : State) (b : List Bool) (r c : Word) (i : List Byte) : (s.reseat b r c i).phase = s.phase := rfl
@[simp] theorem reseat_todo (s : State) (b : List Bool) (r c : Word) (i : List Byte) : (s.reseat b r c i).todo = s.todo := rfl
@[simp] theorem reseat_env (s : State) (b : List Bool) (r c : Word) (i : List Byte) : (s.reseat b r c i).env = { s.env with sIn := i } := rfl

/-! ### How the updates combine -/

@[simp] theorem withTodo_withTodo (s : State) (k l : List Stmt) :
    (s.withTodo k).withTodo l = s.withTodo l := rfl

theorem withTodo_self (s : State) : s.withTodo s.todo = s := rfl

theorem withTodo_eq {s : State} {k : List Stmt} (h : s.todo = k) : s.withTodo k = s := by
  subst h; rfl

@[simp] theorem push_withTodo (s : State) (k l : List Stmt) :
    (s.withTodo k).push l = s.withTodo (l ++ k) := rfl

theorem push_eq (s : State) (l : List Stmt) : s.push l = s.withTodo (l ++ s.todo) := rfl

theorem raise_eq (s : State) (e : ErrCode) : s.raise e = s.withTodo [.bbClose, .fail e] := rfl

@[simp] theorem raise_withTodo (s : State) (k : List Stmt) (e : ErrCode) :
    (s.withTodo k).raise e = s.withTodo [.bbClose, .fail e] := rfl

@[simp] theorem completeStep_withTodo (s : State) (k : List Stmt) :
    (s.withTodo k).completeStep = s.completeStep := rfl

@[simp] theorem failStep_withTodo (s : State) (k : List Stmt) (e : ErrCode) :
    (s.withTodo k).failStep e = s.failStep e := rfl

@[simp] theorem sent_withTodo (s : State) (k : List Stmt) (l : List Byte) :
    (s.withTodo k).sent l = (s.sent l).withTodo k := rfl

@[simp] theorem reseat_withTodo (s : State) (k : List Stmt) (b : List Bool) (r c : Word)
    (i : List Byte) : (s.withTodo k).reseat b r c i = (s.reseat b r c i).withTodo k := rfl

@[simp] theorem withBits_withTodo (s : State) (k : List Stmt) (b : List Bool) :
    (s.withTodo k).withBits b = (s.withBits b).withTodo k := rfl

@[simp] theorem withBits_withBits (s : State) (a b : List Bool) :
    (s.withBits a).withBits b = s.withBits b := rfl

theorem withBits_self (s : State) : s.withBits s.bbBits = s := rfl

@[simp] theorem sent_withBits (s : State) (b : List Bool) (l : List Byte) :
    (s.withBits b).sent l = (s.sent l).withBits b := rfl

@[simp] theorem sent_nil (s : State) : s.sent [] = s := by simp [State.sent]

@[simp] theorem sent_sent (s : State) (a b : List Byte) : (s.sent a).sent b = s.sent (a ++ b) := by
  simp [State.sent, BitVec.ofNat_add, BitVec.add_assoc]

@[simp] theorem reseat_reseat (s : State) (b b' : List Bool) (r r' c c' : Word) (i i' : List Byte) :
    (s.reseat b r c i).reseat b' r' c' i' = s.reseat b' r' c' i' := rfl

theorem reseat_self (s : State) : s.reseat s.bbBits s.bbRemain s.inCount s.env.sIn = s := rfl

@[simp] theorem bufBytes_withTodo (s : State) (k : List Stmt) : (s.withTodo k).bufBytes = s.bufBytes := rfl

@[simp] theorem bufBits_withTodo (s : State) (k : List Stmt) : (s.withTodo k).bufBits = s.bufBits := rfl

/-- One core step runs the first of the statements. -/
theorem coreStep_withTodo (s : State) (st : Stmt) (k : List Stmt) :
    coreStep (s.withTodo (st :: k)) = runStmt st (s.withTodo k) := rfl

end Sys2Proof.Machine
end

