-- ==== Sys2Proof/Laws/BitBuffer.lean ====
section
/-!
SUPPORT. What the bit buffer's micro-operations do in whole runs, with a sink that accepts every byte:
sending bytes, writing bits, closing, raising an error (41_bitbuffer.md R122 to R128,
60_exceptions.md R261).
-/

namespace Sys2Proof.Machine

/-! ### Sending -/

theorem runs_outBytes (l : List Byte) (k : List Stmt) (s : State) (h : s.env.sink = none) :
    Runs l.length (s.withTodo (l.map Stmt.outByte ++ k)) ((s.sent l).withTodo k) := by
  induction l generalizing s with
  | nil => simpa using Runs.refl (s.withTodo k)
  | cons v l ih =>
    have h1 : coreStep (s.withTodo ((v :: l).map Stmt.outByte ++ k))
        = some ((s.sent [v]).withTodo (l.map Stmt.outByte ++ k)) := by
      simp [State.withTodo, coreStep, runStmt, State.outByte, h, State.sent]
    have h2 := ih (s.sent [v]) (by simpa [State.sent] using h)
    rw [sent_sent] at h2
    exact .step h1 h2

/-! ### Writing bits -/

/-- The effect of one `writeBit(b)` in WRITE mode with a willing sink (R122). -/
@[irreducible] def writeOne (b : Bool) (s : State) : State :=
  if (s.bbBits ++ [b]).length = s.bufBits then (s.sent (packBits (s.bbBits ++ [b]))).withBits []
  else (s.withBits (s.bbBits ++ [b]))

/-- The effect of writing the bits `bs` in order. -/
@[irreducible] def writeAll (bs : List Bool) (s : State) : State := bs.foldl (fun s b => writeOne b s) s

@[simp] theorem writeAll_nil (s : State) : writeAll [] s = s := by unfold writeAll; rfl

@[simp] theorem writeAll_cons (b : Bool) (bs : List Bool) (s : State) :
    writeAll (b :: bs) s = writeAll bs (writeOne b s) := by unfold writeAll; rfl

theorem writeAll_append (a b : List Bool) (s : State) :
    writeAll (a ++ b) s = writeAll b (writeAll a s) := by
  simp [writeAll, List.foldl_append]

theorem writeOne_mode (b : Bool) (s : State) : (writeOne b s).bbMode = s.bbMode := by
  unfold writeOne; split <;> rfl

theorem writeOne_sink (b : Bool) (s : State) : (writeOne b s).env.sink = s.env.sink := by
  unfold writeOne; split <;> rfl

theorem writeOne_bufBytes (b : Bool) (s : State) : (writeOne b s).bufBytes = s.bufBytes := by
  unfold writeOne; split <;> rfl

theorem runs_writeBit (b : Bool) (k : List Stmt) (s : State) (hm : s.bbMode = .write)
    (hs : s.env.sink = none) :
    RunsIn (s.bufBytes + 2) (s.withTodo (.writeBit b :: k)) ((writeOne b s).withTodo k) := by
  have h1 : coreStep (s.withTodo (.writeBit b :: k)) = some (stepWriteBit b (s.withTodo k)) := rfl
  by_cases hfull : (s.bbBits ++ [b]).length = s.bufBits
  · have h2 : stepWriteBit b (s.withTodo k) = (s.withBits (s.bbBits ++ [b])).withTodo
        ((packBits (s.bbBits ++ [b])).map Stmt.outByte ++ ([Stmt.clearBits] ++ k)) := by
      rw [← List.append_assoc]
      unfold stepWriteBit
      exact (if_neg (not_not.mpr hm)).trans (if_pos hfull)
    rw [h2] at h1
    have h3 := runs_outBytes (packBits (s.bbBits ++ [b])) ([Stmt.clearBits] ++ k)
      (s.withBits (s.bbBits ++ [b])) hs
    have hlen : (packBits (s.bbBits ++ [b])).length = s.bufBytes := by
      rw [length_packBits, hfull]; simp only [State.bufBits, ceilDiv8]; omega
    rw [hlen] at h3
    have h4 : coreStep (((s.withBits (s.bbBits ++ [b])).sent
        (packBits (s.bbBits ++ [b]))).withTodo ([Stmt.clearBits] ++ k))
        = some ((writeOne b s).withTodo k) := by
      simp only [writeOne, hfull, if_true]; rfl
    exact ⟨_, by omega, .step h1 (h3.trans (.one h4))⟩
  · have h2 : stepWriteBit b (s.withTodo k) = (writeOne b s).withTodo k := by
      rw [writeOne, if_neg hfull]
      unfold stepWriteBit
      exact (if_neg (not_not.mpr hm)).trans (if_neg hfull)
    rw [h2] at h1
    exact (RunsIn.one h1).mono (by omega)

theorem runs_writeBits (bs : List Bool) (k : List Stmt) (s : State) (hm : s.bbMode = .write)
    (hs : s.env.sink = none) :
    RunsIn (bs.length * (s.bufBytes + 2)) (s.withTodo (bs.map Stmt.writeBit ++ k))
      ((writeAll bs s).withTodo k) := by
  induction bs generalizing s with
  | nil => rw [writeAll_nil]; exact RunsIn.refl _ _
  | cons b bs ih =>
    have h1 := runs_writeBit b (bs.map Stmt.writeBit ++ k) s hm hs
    have h2 := ih (writeOne b s) ((writeOne_mode b s).trans hm) ((writeOne_sink b s).trans hs)
    rw [writeOne_bufBytes] at h2
    rw [← writeAll_cons] at h2
    exact (h1.trans h2).mono (by simp only [List.length_cons]; ring_nf; omega)

/-- What writing bits has done in all (R127): the whole bytes that went out are the first of the bits in
the buffer and the bits written, packed; the rest stays in the buffer, which is not full. -/
theorem writeAll_session (bs : List Bool) (s : State) (h : s.bbBits.length < s.bufBits) :
    ∃ m, 8 * m ≤ (s.bbBits ++ bs).length ∧ ((s.bbBits ++ bs).drop (8 * m)).length < s.bufBits ∧
      writeAll bs s = (s.sent (packBits ((s.bbBits ++ bs).take (8 * m)))).withBits
        ((s.bbBits ++ bs).drop (8 * m)) := by
  induction bs generalizing s with
  | nil => exact ⟨0, by simp, by simpa using h, by simp [withBits_self]⟩
  | cons b bs ih =>
    have happ : s.bbBits ++ b :: bs = (s.bbBits ++ [b]) ++ bs := by simp
    by_cases hfull : (s.bbBits ++ [b]).length = s.bufBits
    · have hw : writeOne b s = (s.sent (packBits (s.bbBits ++ [b]))).withBits [] := by
        simp [writeOne, hfull]
      have hb : (writeOne b s).bbBits = [] := by rw [hw]; rfl
      obtain ⟨m, hm1, hm2, hm3⟩ := ih (writeOne b s) (by
        rw [hb, State.bufBits, writeOne_bufBytes]; simp [State.bufBytes])
      rw [hb, List.nil_append] at hm1 hm2 hm3
      have hlen : (s.bbBits ++ [b]).length = 8 * s.bufBytes := hfull
      refine ⟨s.bufBytes + m, ?_, ?_, ?_⟩
      · rw [happ, List.length_append, hlen]; omega
      · rw [happ, Nat.mul_add, ← hlen, List.drop_append]
        simpa [List.drop_eq_nil_of_le, State.bufBits, writeOne_bufBytes] using hm2
      · rw [writeAll_cons, hm3, hw, happ]
        have ht : ((s.bbBits ++ [b]) ++ bs).take (8 * (s.bufBytes + m))
            = (s.bbBits ++ [b]) ++ bs.take (8 * m) := by
          rw [Nat.mul_add, ← hlen, List.take_length_add_append]
        have hd : ((s.bbBits ++ [b]) ++ bs).drop (8 * (s.bufBytes + m)) = bs.drop (8 * m) := by
          rw [Nat.mul_add, ← hlen, List.drop_length_add_append]
        rw [ht, hd, packBits_append hlen, ← sent_sent]
        rfl
    · have hw : writeOne b s = (s.withBits (s.bbBits ++ [b])) := by rw [writeOne, if_neg hfull]
      have hb : (writeOne b s).bbBits = s.bbBits ++ [b] := by rw [hw]; rfl
      have hlt : (writeOne b s).bbBits.length < (writeOne b s).bufBits := by
        rw [hb, State.bufBits, writeOne_bufBytes, ← State.bufBits]
        have : (s.bbBits ++ [b]).length = s.bbBits.length + 1 := by simp
        omega
      obtain ⟨m, hm1, hm2, hm3⟩ := ih (writeOne b s) hlt
      rw [hb] at hm1 hm2 hm3
      refine ⟨m, by rw [happ]; exact hm1, ?_, ?_⟩
      · rw [happ]; simpa [State.bufBits, writeOne_bufBytes] using hm2
      · rw [writeAll_cons, hm3, hw, happ]; rfl

/-! ### Closing and raising -/

/-- The effect of `bbClose()` with a willing sink (R126). -/
def closeAll (s : State) : State :=
  { (if s.bbMode = .write then s.sent (packBits s.bbBits) else s) with
    bbBits := []
    bbRemain := 0#32
    bbMode := .closed }

theorem runs_bbClose (k : List Stmt) (s : State) (hs : s.env.sink = none) :
    RunsIn (s.bbBits.length + 3) (s.withTodo (.bbClose :: k)) ((closeAll s).withTodo k) := by
  have h1 : coreStep (s.withTodo (.bbClose :: k)) = some (stepBbClose (s.withTodo k)) := rfl
  by_cases hm : s.bbMode = .write
  · have h2 : stepBbClose (s.withTodo k)
        = s.withTodo ((packBits s.bbBits).map Stmt.outByte ++ ([Stmt.bbShut] ++ k)) := by
      simp [stepBbClose, hm]
    rw [h2] at h1
    have h3 := runs_outBytes (packBits s.bbBits) ([Stmt.bbShut] ++ k) s hs
    have h4 : coreStep ((s.sent (packBits s.bbBits)).withTodo ([Stmt.bbShut] ++ k))
        = some ((closeAll s).withTodo k) := by
      simp only [closeAll, hm, if_true]; rfl
    have hlen : (packBits s.bbBits).length ≤ s.bbBits.length + 1 := by
      rw [length_packBits]; simp only [ceilDiv8]; omega
    exact ⟨_, by omega, .step h1 (h3.trans (.one h4))⟩
  · have h2 : stepBbClose (s.withTodo k) = s.withTodo (Stmt.bbShut :: k) := by
      simp [stepBbClose, hm]
    rw [h2] at h1
    have h4 : coreStep (s.withTodo (Stmt.bbShut :: k)) = some ((closeAll s).withTodo k) := by
      simp only [closeAll, hm, if_false]; rfl
    exact ⟨2, by omega, .step h1 (.one h4)⟩

/-- The effect of `raise(e)` with a willing sink (60_exceptions.md R261). -/
def raised (s : State) (e : ErrCode) : State := (closeAll s).failStep e

theorem runs_raise (s : State) (e : ErrCode) (k : List Stmt) (hs : s.env.sink = none) :
    RunsIn (s.bbBits.length + 4) ((s.withTodo k).raise e) (raised s e) := by
  rw [raise_withTodo]
  exact (runs_bbClose [.fail e] s hs).trans (.one rfl)

theorem raised_idle (s : State) (e : ErrCode) : coreStep (raised s e) = none := rfl

/-! ### Reading -/

/-- The effect of the refill loop over `n` bytes that the source offers (R125). -/
def refilled (s : State) (n : Nat) : State :=
  s.reseat (s.bbBits ++ (s.env.sIn.take n).flatMap bitsOfByte) (s.bbRemain - BitVec.ofNat 32 n)
    (s.inCount + BitVec.ofNat 32 n) (s.env.sIn.drop n)

theorem runs_fetch (n : Nat) (k : List Stmt) (s : State) (h : n ≤ s.env.sIn.length) :
    Runs (n + 1) (s.withTodo (.fetch n :: k)) ((refilled s n).withTodo k) := by
  induction n generalizing s with
  | zero =>
    refine .one ?_
    simp [coreStep_withTodo, runStmt, stepFetch, refilled, State.reseat]
  | succ n ih =>
    obtain ⟨v, rest, hv⟩ : ∃ v rest, s.env.sIn = v :: rest := by
      cases hx : s.env.sIn with
      | nil => simp [hx] at h
      | cons v rest => exact ⟨v, rest, rfl⟩
    have h1 : coreStep (s.withTodo (.fetch (n + 1) :: k)) = some ((s.reseat
        (s.bbBits ++ bitsOfByte v) (s.bbRemain - 1#32) (s.inCount + 1#32) rest).withTodo
          (.fetch n :: k)) := by
      rw [coreStep_withTodo]
      simp [runStmt, stepFetch, State.inByte, hv, State.reseat, State.push, State.withTodo]
    have h2 := ih (s.reseat (s.bbBits ++ bitsOfByte v) (s.bbRemain - 1#32) (s.inCount + 1#32) rest)
      (by simp [hv] at h ⊢; omega)
    have h3 : refilled (s.reseat (s.bbBits ++ bitsOfByte v) (s.bbRemain - 1#32) (s.inCount + 1#32)
        rest) n = refilled s (n + 1) := by
      have e1 : BitVec.ofNat 32 (n + 1) = 1#32 + BitVec.ofNat 32 n := by
        rw [Nat.add_comm, BitVec.ofNat_add]
      simp only [refilled, reseat_reseat, reseat_bbBits, reseat_bbRemain, reseat_inCount, reseat_env,
        hv, List.take_succ_cons, List.flatMap_cons, List.drop_succ_cons, e1, List.append_assoc]
      congr 1
      · exact (sub_add_eq_sub_sub _ _ _).symm
      · rw [BitVec.add_assoc]
    rw [h3] at h2
    exact .step h1 h2

/-- One `readBit()` of a supplied session returns the next of its bits; only the read position moves, and
the bytes taken are counted (R125, R128). -/
theorem runs_readBit (u : BitUse) (k : List Stmt) (s : State) (b : Bool) (rest : List Bool)
    (hm : s.bbMode = .read) (hs : Supplied s) (ha : avail s = b :: rest) :
    ∃ B R n, n ≤ s.bbRemain.toNat ∧ R = s.bbRemain - BitVec.ofNat 32 n ∧
      let t := s.reseat B R (s.inCount + BitVec.ofNat 32 n) (s.env.sIn.drop n)
      Supplied t ∧ avail t = rest ∧
      (if s.bbBits = [] then n = min s.bufBytes s.bbRemain.toNat else n = 0) ∧
      RunsIn (s.bufBytes + 3) (s.withTodo (.readBit u :: k)) (deliverBit u b (t.withTodo k)) := by
  have h1 : coreStep (s.withTodo (.readBit u :: k))
      = some (stepReadBit u deliverBit (s.withTodo k)) := rfl
  cases hb : s.bbBits with
  | cons b' bits =>
    have hb' : b' = b ∧ bits ++ (s.env.sIn.take s.bbRemain.toNat).flatMap bitsOfByte = rest := by
      simpa [avail, hb] using ha
    obtain ⟨rfl, hrest⟩ := hb'
    refine ⟨bits, s.bbRemain, 0, Nat.zero_le _, by simp, ?_, ?_, by simp, ?_⟩
    · simpa [Supplied] using hs
    · simpa [avail] using hrest
    · have h2 : stepReadBit u deliverBit (s.withTodo k) = deliverBit u b' ((s.reseat bits s.bbRemain
          (s.inCount + BitVec.ofNat 32 0) (s.env.sIn.drop 0)).withTodo k) := by
        simp [stepReadBit, hm, hb, State.reseat, State.withTodo]
      rw [h2] at h1
      exact (RunsIn.one h1).mono (by omega)
  | nil =>
    have hr : s.bbRemain ≠ 0#32 := by
      intro h0; simp [avail, hb, h0] at ha
    have hr' : 0 < s.bbRemain.toNat := by
      rcases Nat.eq_zero_or_pos s.bbRemain.toNat with h | h
      · exact absurd (BitVec.eq_of_toNat_eq (by simpa using h)) hr
      · exact h
    let n := min s.bufBytes s.bbRemain.toNat
    have hn1 : n ≤ s.bbRemain.toNat := Nat.min_le_right _ _
    have hn0 : 0 < n := by simp only [n, State.bufBytes]; omega
    have hn2 : n ≤ s.env.sIn.length := hn1.trans hs
    have hrem : (s.bbRemain - BitVec.ofNat 32 n).toNat = s.bbRemain.toNat - n := by
      have := s.bbRemain.isLt
      rw [BitVec.toNat_sub_of_le]
      · simp only [BitVec.toNat_ofNat]; congr 1; omega
      · rw [BitVec.le_def, BitVec.toNat_ofNat]; omega
    have hsplit : (s.env.sIn.take s.bbRemain.toNat)
        = s.env.sIn.take n ++ (s.env.sIn.drop n).take (s.bbRemain.toNat - n) := by
      rw [← List.take_add, Nat.add_sub_of_le hn1]
    obtain ⟨bits, hbits⟩ : ∃ bits, (s.env.sIn.take n).flatMap bitsOfByte = b :: bits := by
      rw [avail, hb, hsplit, List.nil_append, List.flatMap_append] at ha
      cases hx : (s.env.sIn.take n).flatMap bitsOfByte with
      | nil =>
        have := length_flatMap_bitsOfByte (s.env.sIn.take n)
        rw [hx, List.length_take, Nat.min_eq_left hn2, List.length_nil] at this; omega
      | cons c bits => rw [hx] at ha; simp at ha; exact ⟨bits, by rw [ha.1]⟩
    refine ⟨bits, s.bbRemain - BitVec.ofNat 32 n, n, hn1, rfl, ?_, ?_, by simp [n], ?_⟩
    · simp only [Supplied, reseat_bbRemain, reseat_env, hrem, List.length_drop]
      exact Nat.sub_le_sub_right hs n
    · simp only [avail, reseat_bbBits, reseat_bbRemain, reseat_env, hrem]
      rw [avail, hb, hsplit, List.nil_append, List.flatMap_append, hbits] at ha
      simpa using ha
    · have h2 : stepReadBit u deliverBit (s.withTodo k) = s.withTodo (.fetch n :: .readBit u :: k) := by
        simp [stepReadBit, hm, hb, hr, n]
      rw [h2] at h1
      have h3 := runs_fetch n (.readBit u :: k) s hn2
      have h4 : coreStep ((refilled s n).withTodo (.readBit u :: k)) = some (deliverBit u b ((s.reseat
          bits (s.bbRemain - BitVec.ofNat 32 n) (s.inCount + BitVec.ofNat 32 n)
          (s.env.sIn.drop n)).withTodo k)) := by
        rw [coreStep_withTodo]
        simp [runStmt, stepReadBit, refilled, hm, hb, hbits, State.reseat, State.withTodo]
      have hle : n ≤ s.bufBytes := Nat.min_le_left _ _
      exact ⟨_, by omega, .step h1 (h3.trans (.one h4))⟩

/-- A `readBit()` that finds the session used up raises END_OF_STREAM (R125, 43_decoder.md R206). -/
theorem step_readBit_end (u : BitUse) (k : List Stmt) (s : State) (hm : s.bbMode = .read)
    (hb : s.bbBits = []) (hr : s.bbRemain = 0#32) :
    coreStep (s.withTodo (.readBit u :: k)) = some ((s.withTodo k).raise .endOfStream) := by
  simp [coreStep_withTodo, runStmt, stepReadBit, hm, hb, hr]

end Sys2Proof.Machine
end

