-- ==== Sys2Proof/Laws/CoreStep.lean ====
section
/-!
SUPPORT. What the statements that do not touch the bit buffer can do: they leave it and the completion
fields alone, and go on with statements that neither refill it nor end the command, or raise an error.
-/

namespace Sys2Proof.Machine

/-- The bit buffer and the completion fields are the same. -/
def SameBuffer (s t : State) : Prop :=
  t.bbMode = s.bbMode ∧ t.bbBits = s.bbBits ∧ t.bbRemain = s.bbRemain ∧ t.done = s.done ∧
    t.errCode = s.errCode ∧ t.errOp = s.errOp ∧ t.extraBytes = s.extraBytes

/-- The statement neither refills the buffer nor ends the command with an error. -/
def Plain (st : Stmt) : Prop := st.isFetch = false ∧ ∀ e, st ≠ .fail e

/-- The command goes on with plain statements before its rest, or raises an error. -/
def Continues (s t : State) : Prop :=
  (∃ l, t.todo = l ++ s.todo ∧ ∀ st ∈ l, Plain st) ∨ ∃ e, t.todo = [.bbClose, .fail e]

/-- The statements that write the bit buffer's fields or end a command. -/
def Stmt.usesBuffer : Stmt → Bool
  | .bbOpen _ => true
  | .writeBit _ => true
  | .clearBits => true
  | .readBit _ => true
  | .fetch _ => true
  | .bbShut => true
  | .complete => true
  | .fail _ => true
  | .drain => true
  | _ => false

theorem continues_push (s : State) (l : List Stmt) (h : ∀ st ∈ l, Plain st) : Continues s (s.push l) :=
  .inl ⟨l, rfl, h⟩

theorem continues_raise (s : State) (e : ErrCode) : Continues s (s.raise e) := .inr ⟨e, rfl⟩

theorem continues_refl (s : State) : Continues s s := .inl ⟨[], rfl, by simp⟩

theorem SameBuffer.refl (s : State) : SameBuffer s s := ⟨rfl, rfl, rfl, rfl, rfl, rfl, rfl⟩

theorem inByte_same {s t : State} {v} (h : s.inByte = some (v, t)) : SameBuffer s t ∧ t.todo = s.todo := by
  unfold State.inByte at h
  split at h
  · simp at h
  · simp at h; obtain ⟨_, rfl⟩ := h; exact ⟨⟨rfl, rfl, rfl, rfl, rfl, rfl, rfl⟩, rfl⟩

theorem heapExtractMin_same (s : State) :
    SameBuffer s s.heapExtractMin.2 ∧ s.heapExtractMin.2.todo = s.todo := by
  unfold State.heapExtractMin
  split <;> exact ⟨⟨rfl, rfl, rfl, rfl, rfl, rfl, rfl⟩, rfl⟩

theorem SameBuffer.trans {a b c : State} (h : SameBuffer a b) (g : SameBuffer b c) : SameBuffer a c := by
  obtain ⟨h1, h2, h3, h4, h5, h6, h7⟩ := h; obtain ⟨g1, g2, g3, g4, g5, g6, g7⟩ := g
  exact ⟨g1.trans h1, g2.trans h2, g3.trans h3, g4.trans h4, g5.trans h5, g6.trans h6, g7.trans h7⟩

theorem Continues.congr {a b c : State} (h : b.todo = a.todo) (g : Continues b c) : Continues a c := by
  unfold Continues at *; rw [← h]; exact g

theorem addNode_same (n : Node) (s : State) :
    SameBuffer s (addNode n s) ∧ (addNode n s).todo = s.todo := ⟨⟨rfl, rfl, rfl, rfl, rfl, rfl, rfl⟩, rfl⟩

theorem stepWrapSingle_same (s : State) : SameBuffer s (stepWrapSingle s) ∧ Continues s (stepWrapSingle s) := by
  have h1 := heapExtractMin_same s
  unfold stepWrapSingle
  generalize s.heapExtractMin = p at *
  obtain ⟨a, s1⟩ := p
  refine ⟨h1.1.trans ⟨rfl, rfl, rfl, rfl, rfl, rfl, rfl⟩, Continues.congr h1.2 (.inl ⟨[], rfl, by simp⟩)⟩

theorem stepMergeLoop_same (s : State) : SameBuffer s (stepMergeLoop s) ∧ Continues s (stepMergeLoop s) := by
  have h1 := heapExtractMin_same s
  unfold stepMergeLoop
  generalize s.heapExtractMin = p at *
  obtain ⟨a, s1⟩ := p
  dsimp only at h1 ⊢
  have h2 := heapExtractMin_same s1
  generalize s1.heapExtractMin = q at *
  obtain ⟨b, s2⟩ := q
  dsimp only at h2 ⊢
  split
  · generalize Node.internal a b _ = n
    have h3 := addNode_same n s2
    generalize addNode n s2 = s3 at *
    exact ⟨((h1.1.trans h2.1).trans h3.1).trans ⟨rfl, rfl, rfl, rfl, rfl, rfl, rfl⟩,
      Continues.congr (h3.2.trans (h2.2.trans h1.2)) (continues_push _ _ (by simp [Plain, Stmt.isFetch]))⟩
  · exact ⟨h1.1.trans ⟨rfl, rfl, rfl, rfl, rfl, rfl, rfl⟩, Continues.congr h1.2 (.inl ⟨[], rfl, by simp⟩)⟩

theorem keeps {s t : State} (h : SameBuffer s t) (ht : t.todo = s.todo) :
    SameBuffer s t ∧ Continues s t := ⟨h, .inl ⟨[], ht, by simp⟩⟩

theorem stays (s : State) : SameBuffer s s ∧ Continues s s := keeps (.refl s) rfl

theorem raises (s : State) (e : ErrCode) : SameBuffer s (s.raise e) ∧ Continues s (s.raise e) :=
  ⟨⟨rfl, rfl, rfl, rfl, rfl, rfl, rfl⟩, continues_raise s e⟩

theorem pushes (s : State) (l : List Stmt) (h : ∀ st ∈ l, Plain st) :
    SameBuffer s (s.push l) ∧ Continues s (s.push l) :=
  ⟨⟨rfl, rfl, rfl, rfl, rfl, rfl, rfl⟩, continues_push s l h⟩

theorem plain_map_writeBit (l : List Bool) : ∀ st ∈ l.map Stmt.writeBit, Plain st := by
  intro st h
  rw [List.mem_map] at h
  obtain ⟨a, _, rfl⟩ := h
  simp [Plain, Stmt.isFetch]

/-- Every statement that does not use the buffer leaves it alone and continues or raises an error. -/
theorem runStmt_plain (st : Stmt) (hst : Stmt.usesBuffer st = false) (s t : State)
    (h : runStmt st s = some t) : SameBuffer s t ∧ Continues s t := by
  cases st <;> simp only [Stmt.usesBuffer, Bool.true_eq_false] at hst <;>
    simp only [runStmt, Option.some.injEq] at h
  case legality =>
    subst h; split
    · exact raises _ _
    · exact stays _
  case phase op => subst h; exact keeps ⟨rfl, rfl, rfl, rfl, rfl, rfl, rfl⟩ rfl
  case needFlag f =>
    subst h; split
    · exact stays _
    · exact raises _ _
  case needMode f =>
    subst h; split
    · exact stays _
    · exact raises _ _
  case writeByte v =>
    subst h; unfold stepWriteByte; split
    · exact raises _ _
    · exact pushes _ _ (by simp [Plain, Stmt.isFetch, bitsOfByte])
  case bbClose =>
    subst h
    refine pushes _ _ ?_
    split
    · intro st h
      rw [List.mem_append, List.mem_map, List.mem_singleton] at h
      rcases h with ⟨a, _, rfl⟩ | rfl <;> simp [Plain, Stmt.isFetch]
    · simp [Plain, Stmt.isFetch]
  case outByte v =>
    unfold State.outByte at h
    split at h
    · simp at h
    · simp at h; subst h; exact keeps ⟨rfl, rfl, rfl, rfl, rfl, rfl, rfl⟩ rfl
  case encLatch => subst h; exact keeps ⟨rfl, rfl, rfl, rfl, rfl, rfl, rfl⟩ rfl
  case needSource =>
    subst h; unfold stepNeedSource; split
    · exact raises _ _
    · exact stays _
  case needCountable =>
    subst h; unfold stepNeedCountable; split
    · exact raises _ _
    · exact stays _
  case clearFreq => subst h; exact keeps ⟨rfl, rfl, rfl, rfl, rfl, rfl, rfl⟩ rfl
  case countPass => subst h; exact pushes _ _ (by simp [Plain, Stmt.isFetch])
  case count n =>
    cases n with
    | zero => simp [stepCount] at h; subst h; exact stays _
    | succ n =>
      simp only [stepCount] at h
      split at h
      · simp at h
      · rename_i hi; simp at h; subst h
        have := inByte_same hi
        exact ⟨this.1.trans ⟨rfl, rfl, rfl, rfl, rfl, rfl, rfl⟩,
          Continues.congr this.2 (continues_push _ _ (by simp [Plain, Stmt.isFetch]))⟩
  case tally v =>
    subst h; unfold stepTally; split
    · exact raises _ _
    · exact keeps ⟨rfl, rfl, rfl, rfl, rfl, rfl, rfl⟩ rfl
  case countSentinel => subst h; exact keeps ⟨rfl, rfl, rfl, rfl, rfl, rfl, rfl⟩ rfl
  case setFreqValid => subst h; exact keeps ⟨rfl, rfl, rfl, rfl, rfl, rfl, rfl⟩ rfl
  case buildStart => subst h; exact keeps ⟨rfl, rfl, rfl, rfl, rfl, rfl, rfl⟩ rfl
  case makeLeaves k =>
    subst h
    have e : stepMakeLeaves k s = if k < 256 then
        (if 0 < (s.freqAt (BitVec.ofNat 8 k)).toNat then
          addNode (.leaf (BitVec.ofNat 8 k) (s.freqAt (BitVec.ofNat 8 k))) s else s).push [.makeLeaves (k + 1)]
      else s := rfl
    rw [e]
    split
    · split
      · have := addNode_same (.leaf (BitVec.ofNat 8 k) (s.freqAt (BitVec.ofNat 8 k))) s
        exact ⟨this.1.trans ⟨rfl, rfl, rfl, rfl, rfl, rfl, rfl⟩,
          Continues.congr this.2 (continues_push _ _ (by simp [Plain, Stmt.isFetch]))⟩
      · exact pushes _ _ (by simp [Plain, Stmt.isFetch])
    · exact stays _
  case shape => subst h; exact pushes _ _ (by split <;> simp [Plain, Stmt.isFetch])
  case wrapSingle =>
    subst h
    exact stepWrapSingle_same s
  case mergeLoop =>
    subst h
    exact stepMergeLoop_same s
  case clearTable => subst h; exact keeps ⟨rfl, rfl, rfl, rfl, rfl, rfl, rfl⟩ rfl
  case walkStart => subst h; exact keeps ⟨rfl, rfl, rfl, rfl, rfl, rfl, rfl⟩ rfl
  case walkTable =>
    subst h; unfold stepWalkTable
    split
    · dsimp only; split
      · split <;> exact ⟨⟨rfl, rfl, rfl, rfl, rfl, rfl, rfl⟩, .inl ⟨[_], rfl, by simp [Plain, Stmt.isFetch]⟩⟩
      · exact ⟨⟨rfl, rfl, rfl, rfl, rfl, rfl, rfl⟩, .inl ⟨[_], rfl, by simp [Plain, Stmt.isFetch]⟩⟩
    · exact stays _
  case setBuilt => subst h; exact keeps ⟨rfl, rfl, rfl, rfl, rfl, rfl, rfl⟩ rfl
  case treeWrite =>
    subst h; unfold stepTreeWrite
    split
    · split
      · exact ⟨⟨rfl, rfl, rfl, rfl, rfl, rfl, rfl⟩, .inl ⟨[_, _, _], rfl, by simp [Plain, Stmt.isFetch]⟩⟩
      · exact ⟨⟨rfl, rfl, rfl, rfl, rfl, rfl, rfl⟩, .inl ⟨[_, _], rfl, by simp [Plain, Stmt.isFetch]⟩⟩
    · exact stays _
  case payloadPass => subst h; exact pushes _ _ (by simp [Plain, Stmt.isFetch])
  case emit n =>
    cases n with
    | zero => simp [stepEmit] at h; subst h; exact stays _
    | succ n =>
      simp only [stepEmit] at h
      split at h
      · simp at h
      · rename_i hi; simp at h; subst h
        have := inByte_same hi
        exact ⟨this.1.trans ⟨rfl, rfl, rfl, rfl, rfl, rfl, rfl⟩,
          Continues.congr this.2 (continues_push _ _ (by simp [Plain, Stmt.isFetch]))⟩
  case emitSym v =>
    subst h; unfold stepEmitSym; split
    · exact raises _ _
    · split
      · exact raises _ _
      · exact pushes _ _ (plain_map_writeBit _)
  case sentinelCode => subst h; exact pushes _ _ (plain_map_writeBit _)
  case clearTreeFlags => subst h; exact keeps ⟨rfl, rfl, rfl, rfl, rfl, rfl, rfl⟩ rfl
  case treeReadStart => subst h; exact keeps ⟨rfl, rfl, rfl, rfl, rfl, rfl, rfl⟩ rfl
  case nodeDone i =>
    subst h; unfold stepNodeDone
    split <;> exact ⟨⟨rfl, rfl, rfl, rfl, rfl, rfl, rfl⟩, .inl ⟨[_], rfl, by simp [Plain, Stmt.isFetch]⟩⟩
  case rootRead i =>
    subst h; unfold stepRootRead; split
    · exact raises _ _
    · exact keeps ⟨rfl, rfl, rfl, rfl, rfl, rfl, rfl⟩ rfl
  case sampleSentinel => subst h; exact keeps ⟨rfl, rfl, rfl, rfl, rfl, rfl, rfl⟩ rfl
  case descendStart => subst h; exact keeps ⟨rfl, rfl, rfl, rfl, rfl, rfl, rfl⟩ rfl
  case symbolLoop =>
    subst h; unfold stepSymbolLoop; split
    · exact pushes _ _ (by simp [Plain, Stmt.isFetch])
    · split
      · exact stays _
      · exact pushes _ _ (by simp [Plain, Stmt.isFetch])

end Sys2Proof.Machine
end

