-- ==== Sys2Proof/Laws/Format.lean ====
section
/-!
SUPPORT. Facts about code trees, their wire format and Huffman's construction, without the machine.
-/

namespace Sys2Proof.Format

namespace Tree

theorem nodes_pos (t : Tree) : 0 < t.nodes := by cases t <;> simp [nodes]

theorem nodes_eq (t : Tree) : t.nodes + 1 = 2 * t.symbols.length := by
  induction t with
  | leaf s => rfl
  | node l r hl hr => simp only [nodes, symbols, List.length_append]; omega

theorem length_serialize (t : Tree) : t.serialize.length = t.nodes + 8 * t.symbols.length := by
  induction t with
  | leaf s => rfl
  | node l r hl hr =>
    simp only [serialize, nodes, symbols, List.length_cons, List.length_append, hl, hr]; omega

theorem map_fst_codes (t : Tree) : t.codes.map Prod.fst = t.symbols := by
  induction t with
  | leaf s => rfl
  | node l r hl hr => simp [codes, symbols, ← hl, ← hr, Function.comp_def]

theorem length_code_le_depth (t : Tree) (c : Byte × List Bool) (h : c ∈ t.codes) :
    c.2.length ≤ t.depth := by
  induction t generalizing c with
  | leaf s => simp [codes] at h; simp [h]
  | node l r hl hr =>
    simp only [codes, List.mem_append, List.mem_map] at h
    rcases h with ⟨d, hd, rfl⟩ | ⟨d, hd, rfl⟩
    · have := hl d hd; simp only [depth, List.length_cons]; omega
    · have := hr d hd; simp only [depth, List.length_cons]; omega

theorem length_records (t : Tree) : t.records.length = t.nodes := by
  induction t with
  | leaf s => rfl
  | node l r hl hr => simp only [records, nodes, List.length_cons, List.length_append, hl, hr]; omega

theorem flatten_records (t : Tree) : t.records.flatten = t.serialize := by
  induction t with
  | leaf s => simp [records, serialize]
  | node l r hl hr => simp [records, serialize, hl, hr]

@[simp] theorem firstRecords_zero (t : Tree) : t.firstRecords 0 = [] := by simp [firstRecords]

/-- All records of the tree are its serialisation. -/
theorem firstRecords_all (t : Tree) {n : Nat} (h : t.nodes ≤ n) : t.firstRecords n = t.serialize := by
  rw [firstRecords, List.take_of_length_le (by rw [length_records]; exact h), flatten_records]

/-- The first records of an internal node: its own, the left subtree's, and, past them, the right's. -/
theorem firstRecords_node (l r : Tree) (n : Nat) :
    (Tree.node l r).firstRecords (n + 1)
      = false :: (l.firstRecords n ++ r.firstRecords (n - l.nodes)) := by
  simp [firstRecords, records, List.take_append, length_records]

/-- The first records begin the serialisation; if there are fewer of them than nodes, it goes on. -/
theorem serialize_eq_firstRecords (t : Tree) (n : Nat) :
    ∃ more, t.serialize = t.firstRecords n ++ more ∧ (n < t.nodes → more ≠ []) := by
  refine ⟨(t.records.drop n).flatten, ?_, fun h => ?_⟩
  · rw [firstRecords, ← List.flatten_append, List.take_append_drop, flatten_records]
  · have hne : ∀ (u : Tree), ∀ x ∈ u.records, x ≠ [] := by
      intro u
      induction u with
      | leaf s => simp [records]
      | node l r hl hr =>
        intro x hx
        simp only [records, List.mem_cons, List.mem_append] at hx
        rcases hx with rfl | hx | hx
        · simp
        · exact hl x hx
        · exact hr x hx
    rw [← length_records] at h
    rw [List.drop_eq_getElem_cons h, List.flatten_cons]
    exact fun he => hne t _ (List.getElem_mem h) (List.append_eq_nil_iff.mp he).1

theorem depth_lt_nodes (t : Tree) : t.depth < t.nodes := by
  induction t with
  | leaf s => simp [depth, nodes]
  | node l r hl hr => simp only [depth, nodes]; omega

theorem depth_lt_symbols (t : Tree) : t.depth < t.symbols.length := by
  induction t with
  | leaf s => simp [depth, symbols]
  | node l r hl hr => simp only [depth, symbols, List.length_append]; omega

theorem length_code_lt_nodes (t : Tree) (s : Byte) : (t.code s).length < t.nodes := by
  unfold code
  cases h : t.codes.find? (fun c => c.1 == s) with
  | none => simpa using t.nodes_pos
  | some c =>
    have := t.length_code_le_depth c (List.mem_of_find?_eq_some h)
    have := t.depth_lt_nodes
    simp; omega

theorem mem_codes_of_code (t : Tree) (s : Byte) (h : s ∈ t.symbols) : (s, t.code s) ∈ t.codes := by
  unfold code
  cases hf : t.codes.find? (fun c => c.1 == s) with
  | none =>
    rw [← map_fst_codes, List.mem_map] at h
    obtain ⟨c, hc, rfl⟩ := h
    have := List.find?_eq_none.mp hf c hc
    simp at this
  | some c =>
    have h1 := List.mem_of_find?_eq_some hf
    have h2 := List.find?_some hf
    simp at h2
    rw [← h2]; exact h1

theorem code_eq_nil_of_not_mem (t : Tree) (s : Byte) (h : s ∉ t.symbols) : t.code s = [] := by
  unfold code
  have : t.codes.find? (fun c => c.1 == s) = none := by
    rw [List.find?_eq_none]
    intro c hc he
    simp at he
    exact h (by rw [← map_fst_codes, List.mem_map]; exact ⟨c, hc, he⟩)
  rw [this]

/-- In a tree with an internal root every leaf's path has at least one bit (42_encoder.md R161). -/
theorem codes_ne_nil (l r : Tree) (c : Byte × List Bool) (h : c ∈ (node l r).codes) : c.2 ≠ [] := by
  simp only [codes, List.mem_append, List.mem_map] at h
  rcases h with ⟨d, _, rfl⟩ | ⟨d, _, rfl⟩ <;> simp

theorem code_ne_nil (l r : Tree) (s : Byte) (h : s ∈ (node l r).symbols) : (node l r).code s ≠ [] :=
  codes_ne_nil l r _ (mem_codes_of_code _ s h)

/-- Following a leaf's path spells its symbol, and the rest is spelt from the root. -/
theorem spell_path (root : Tree) (σ : Byte) (t : Tree) (ht : t.isLeaf = false)
    (c : Byte × List Bool) (h : c ∈ t.codes) (bits : List Bool) :
    spell root σ t (c.2 ++ bits) = if c.1 = σ then ([], true)
      else (c.1 :: (spell root σ root bits).1, (spell root σ root bits).2) := by
  induction t generalizing c with
  | leaf s => simp [isLeaf] at ht
  | node l r hl hr =>
    simp only [codes, List.mem_append, List.mem_map] at h
    rcases h with ⟨d, hd, rfl⟩ | ⟨d, hd, rfl⟩
    · cases l with
      | leaf s =>
        simp only [codes, List.mem_singleton] at hd
        subst hd; simp [spell, child]
      | node a b => simpa [spell, child] using hl rfl d hd
    · cases r with
      | leaf s =>
        simp only [codes, List.mem_singleton] at hd
        subst hd; simp [spell, child]
      | node a b => simpa [spell, child] using hr rfl d hd

/-- A proper part of a leaf's path spells nothing. -/
theorem spell_path_part (root : Tree) (σ : Byte) (t : Tree) (ht : t.isLeaf = false)
    (c : Byte × List Bool) (h : c ∈ t.codes) (p x : List Bool) (hx : x ≠ []) (hp : c.2 = p ++ x) :
    spell root σ t p = ([], false) := by
  induction t generalizing c p with
  | leaf s => simp [isLeaf] at ht
  | node l r hl hr =>
    cases p with
    | nil => rfl
    | cons b p =>
      simp only [codes, List.mem_append, List.mem_map] at h
      rcases h with ⟨d, hd, rfl⟩ | ⟨d, hd, rfl⟩
      · simp only [List.cons_append, List.cons.injEq] at hp
        obtain ⟨rfl, hp⟩ := hp
        cases l with
        | leaf s =>
          simp only [codes, List.mem_singleton] at hd
          subst hd; simp at hp; exact absurd hp.2 hx
        | node a b => simpa [spell, child] using hl rfl d hd p hp
      · simp only [List.cons_append, List.cons.injEq] at hp
        obtain ⟨rfl, hp⟩ := hp
        cases r with
        | leaf s =>
          simp only [codes, List.mem_singleton] at hd
          subst hd; simp at hp; exact absurd hp.2 hx
        | node a b => simpa [spell, child] using hr rfl d hd p hp

/-- The payload of a message without the sentinel spells the message (43_decoder.md R210). -/
theorem spell_payload (l r : Tree) (σ : Byte) (source : List Byte) (rest : List Bool)
    (hmem : ∀ s ∈ source, s ∈ (node l r).symbols) (hσ : σ ∈ (node l r).symbols) :
    spell (node l r) σ (node l r) (source.flatMap (node l r).code ++ ((node l r).code σ ++ rest))
      = (source.takeWhile (fun s => s != σ), true) := by
  induction source with
  | nil =>
    have := spell_path (node l r) σ (node l r) rfl (σ, _) (mem_codes_of_code _ σ hσ) rest
    simpa using this
  | cons s source ih =>
    have hs := mem_codes_of_code (node l r) s (hmem s (by simp))
    have := spell_path (node l r) σ (node l r) rfl (s, _) hs
      (source.flatMap (node l r).code ++ ((node l r).code σ ++ rest))
    rw [List.flatMap_cons, List.append_assoc, this, ih (fun x hx => hmem x (by simp [hx]))]
    by_cases h : s = σ
    · subst h; simp
    · have : (s != σ) = true := by simpa using h
      simp [h]

/-- The tree section is self-delimiting (30_encoding.md R89). -/
theorem serialize_inj (t u : Tree) (a b : List Bool) (h : t.serialize ++ a = u.serialize ++ b) :
    t = u ∧ a = b := by
  induction t generalizing u a b with
  | leaf s =>
    cases u with
    | leaf s' =>
      simp only [serialize, List.cons_append, List.cons.injEq, true_and] at h
      have h1 := List.append_inj h (by simp)
      have h2 : Machine.streamByte (Machine.bitsOfByte s) 0
          = Machine.streamByte (Machine.bitsOfByte s') 0 := by rw [h1.1]
      rw [Machine.streamByte_bitsOfByte, Machine.streamByte_bitsOfByte] at h2
      exact ⟨by rw [h2], h1.2⟩
    | node l r => simp [serialize] at h
  | node l r hl hr =>
    cases u with
    | leaf s' => simp [serialize] at h
    | node l' r' =>
      simp only [serialize, List.cons_append, List.cons.injEq, true_and, List.append_assoc] at h
      obtain ⟨rfl, h1⟩ := hl _ _ _ h
      obtain ⟨rfl, h2⟩ := hr _ _ _ h1
      exact ⟨rfl, h2⟩

/-- No leaf's path goes through another leaf: of two leaves whose paths extend one another, one path is
the other, and so is the leaf (42_encoder.md R163). -/
theorem codes_unique (t : Tree) (c d : Byte × List Bool) (hc : c ∈ t.codes) (hd : d ∈ t.codes)
    (ext : List Bool) (h : c.2 ++ ext = d.2) : c = d := by
  induction t generalizing c d with
  | leaf s =>
    simp only [codes, List.mem_singleton] at hc hd
    rw [hc, hd]
  | node l r hl hr =>
    simp only [codes, List.mem_append, List.mem_map] at hc hd
    rcases hc with ⟨c', hc, rfl⟩ | ⟨c', hc, rfl⟩ <;> rcases hd with ⟨d', hd, rfl⟩ | ⟨d', hd, rfl⟩ <;>
      simp only [List.cons_append, List.cons.injEq, true_and, reduceCtorEq, false_and] at h
    · rw [hl c' d' hc hd h]
    · rw [hr c' d' hc hd h]

end Tree

/-! ### Huffman's construction -/

theorem takeLeast_perm (x : Nat × Tree) (l : List (Nat × Tree)) :
    ((takeLeast x l).1 :: (takeLeast x l).2).Perm (x :: l) := by
  induction l generalizing x with
  | nil => exact List.Perm.refl _
  | cons y rest ih =>
    simp only [takeLeast]
    split
    · exact List.Perm.refl _
    · exact (List.Perm.swap _ _ _).trans ((ih y).cons x)

theorem takeLeast_length (x : Nat × Tree) (l : List (Nat × Tree)) :
    (takeLeast x l).2.length = l.length := by
  have := (takeLeast_perm x l).length_eq
  simpa using this

/-- All the symbols of a forest. -/
def forestSymbols (f : List (Nat × Tree)) : List Byte := f.flatMap (fun x => x.2.symbols)

/-- The total weight of a forest. -/
def forestWeight (f : List (Nat × Tree)) : Nat := (f.map Prod.fst).sum

theorem forestSymbols_perm {f g : List (Nat × Tree)} (h : f.Perm g) :
    (forestSymbols f).Perm (forestSymbols g) := h.flatMap_right _

theorem forestWeight_perm {f g : List (Nat × Tree)} (h : f.Perm g) : forestWeight f = forestWeight g :=
  (h.map Prod.fst).sum_eq

/-- With enough fuel the merging ends in one tree, with all the symbols, each as often as before; a
forest of two or more trees gives an internal root. -/
theorem mergeForest_spec (fuel : Nat) (f : List (Nat × Tree)) (h0 : f ≠ []) (h : f.length ≤ fuel + 1) :
    ∃ t, mergeForest fuel f = some t ∧ t.symbols.Perm (forestSymbols f) ∧
      (2 ≤ f.length → t.isLeaf = false) := by
  induction fuel generalizing f with
  | zero =>
    match f, h0, h with
    | [x], _, _ => exact ⟨x.2, rfl, by simp [forestSymbols], by simp⟩
    | _ :: _ :: _, _, h => simp at h
  | succ fuel ih =>
    match f, h0, h with
    | [x], _, _ => exact ⟨x.2, rfl, by simp [forestSymbols], by simp⟩
    | x :: y :: rest, _, h =>
      simp only [mergeForest]
      have hp := takeLeast_perm x (y :: rest)
      have hl := takeLeast_length x (y :: rest)
      cases ha : (takeLeast x (y :: rest)).2 with
      | nil => rw [ha] at hl; simp at hl
      | cons z others =>
        rw [ha] at hp hl
        have hp2 := takeLeast_perm z others
        have hl2 := takeLeast_length z others
        simp only [List.length_cons] at hl h
        set a := (takeLeast x (y :: rest)).1
        set b := (takeLeast z others).1
        set g := (takeLeast z others).2
        have hperm : (forestSymbols (g ++ [(a.1 + b.1, Tree.node a.2 b.2)])).Perm
            (forestSymbols (x :: y :: rest)) := by
          refine List.Perm.trans ?_ (forestSymbols_perm ((hp2.cons a).trans hp))
          simp only [forestSymbols, List.flatMap_append, List.flatMap_cons, List.flatMap_nil,
            List.append_nil, Tree.symbols]
          rw [← List.append_assoc (as := a.2.symbols)]
          exact List.perm_append_comm
        obtain ⟨t, ht, hs, hleaf⟩ := ih (g ++ [(a.1 + b.1, Tree.node a.2 b.2)]) (by simp)
          (by simp; omega)
        refine ⟨t, ht, hs.trans hperm, fun _ => ?_⟩
        by_cases hg : g = []
        · rw [hg] at ht
          have : t = Tree.node a.2 b.2 := by
            cases fuel <;> simpa [mergeForest] using ht.symm
          rw [this]; rfl
        · apply hleaf
          have := List.length_pos_of_ne_nil hg
          simp; omega

theorem leafForest_length (w : Byte → Nat) :
    (leafForest w).length = (allSymbols.filter (fun s => 0 < w s)).length := by simp [leafForest]

theorem forestSymbols_leafForest (w : Byte → Nat) :
    forestSymbols (leafForest w) = allSymbols.filter (fun s => 0 < w s) := by
  simp only [forestSymbols, leafForest]
  generalize allSymbols.filter (fun s => 0 < w s) = l
  induction l with
  | nil => rfl
  | cons s l ih => simp [List.flatMap_cons, Tree.symbols] at ih ⊢; exact ih

theorem mem_allSymbols (s : Byte) : s ∈ allSymbols := by
  simp only [allSymbols, List.mem_map, List.mem_range]
  exact ⟨s.toNat, s.isLt, by simp⟩

theorem nodup_allSymbols : allSymbols.Nodup := by
  unfold allSymbols
  rw [List.nodup_map_iff_inj_on List.nodup_range]
  intro a ha b hb h
  rw [List.mem_range] at ha hb
  have := congrArg BitVec.toNat h
  simpa [Nat.mod_eq_of_lt ha, Nat.mod_eq_of_lt hb] using this

theorem length_allSymbols : allSymbols.length = 256 := by simp [allSymbols]

/-- Huffman's tree has an internal root and leaves for exactly the symbols of positive weight (R159). -/
theorem huffman_spec (w : Byte → Nat) (σ : Byte) (hσ : 0 < w σ) :
    (huffman w σ).isLeaf = false ∧ (∀ s, s ∈ (huffman w σ).symbols ↔ 0 < w s) ∧
      (2 ≤ (leafForest w).length →
        (huffman w σ).symbols.Perm (allSymbols.filter (fun s => 0 < w s))) := by
  have hsym := forestSymbols_leafForest w
  have hσm : σ ∈ forestSymbols (leafForest w) := by
    rw [hsym]; simp [mem_allSymbols, hσ]
  unfold huffman
  match hf : leafForest w, hσm with
  | [], h => simp [forestSymbols] at h
  | [x], h =>
    have hx : x.2.symbols = allSymbols.filter (fun s => 0 < w s) := by
      rw [← hsym, hf]; simp [forestSymbols]
    refine ⟨rfl, fun s => ?_, by simp⟩
    simp only [Tree.symbols, List.mem_append, hx, List.mem_filter, mem_allSymbols, true_and,
      decide_eq_true_eq, List.mem_singleton]
    constructor
    · rintro (h | rfl)
      · exact h
      · exact hσ
    · exact Or.inl
  | x :: y :: rest, h =>
    obtain ⟨t, ht, hs, hleaf⟩ := mergeForest_spec (x :: y :: rest).length (x :: y :: rest) (by simp)
      (by omega)
    rw [← hf, hsym] at hs
    simp only [ht, Option.getD_some]
    refine ⟨hleaf (by simp), fun s => ?_, fun _ => hs⟩
    rw [hs.mem_iff]; simp [mem_allSymbols]

theorem huffman_nodes_le (w : Byte → Nat) (σ : Byte) (hσ : 0 < w σ) : (huffman w σ).nodes ≤ 511 := by
  by_cases h : 2 ≤ (leafForest w).length
  · have h1 := ((huffman_spec w σ hσ).2.2 h).length_eq
    have h2 := (huffman w σ).nodes_eq
    have h3 : (allSymbols.filter (fun s => 0 < w s)).length ≤ 256 := by
      rw [← length_allSymbols]; exact List.length_filter_le _ _
    omega
  · unfold huffman
    match hf : leafForest w with
    | [] => simp [mergeForest, Tree.nodes]
    | [x] =>
      have hx : x ∈ leafForest w := by rw [hf]; simp
      simp only [leafForest, List.mem_map] at hx
      obtain ⟨s, _, rfl⟩ := hx
      simp [Tree.nodes]
    | x :: y :: rest => rw [hf] at h; simp at h

end Sys2Proof.Format
end

