-- ==== Sys2Proof/Laws/Sequence.lean ====
section
/-!
SUPPORT. One core step for each checking and closing statement of a command body, and what a whole
command makes of a run of its body (40_control.md R100 to R103, 60_exceptions.md R261).
-/

namespace Sys2Proof.Machine

/-- `s` in the phase with opcode `op` (R106). -/
def State.withPhase (s : State) (op : Byte) : State := { s with phase := op }

theorem step_phase (op : Byte) (k : List Stmt) (s : State) :
    coreStep (s.withTodo (.phase op :: k)) = some ((s.withPhase op).withTodo k) := rfl

theorem step_needMode {m : BBMode} (k : List Stmt) {s : State} (h : s.bbMode = m) :
    coreStep (s.withTodo (.needMode m :: k)) = some (s.withTodo k) := by
  simp [coreStep_withTodo, runStmt, h]

theorem step_needMode_not {m : BBMode} (k : List Stmt) {s : State} (h : s.bbMode ≠ m) :
    coreStep (s.withTodo (.needMode m :: k)) = some (s.withTodo [.bbClose, .fail .invalidMode]) := by
  simp [coreStep_withTodo, runStmt, h]

theorem flag_withTodo (s : State) (k : List Stmt) (f : ValidFlag) : (s.withTodo k).flag f = s.flag f := by
  cases f <;> rfl

theorem step_needFlag {f : ValidFlag} (k : List Stmt) {s : State} (h : s.flag f = true) :
    coreStep (s.withTodo (.needFlag f :: k)) = some (s.withTodo k) := by
  simp [coreStep_withTodo, runStmt, flag_withTodo, h]

theorem step_needFlag_not {f : ValidFlag} (k : List Stmt) {s : State} (h : s.flag f = false) :
    coreStep (s.withTodo (.needFlag f :: k)) = some (s.withTodo [.bbClose, .fail .sequence]) := by
  simp [coreStep_withTodo, runStmt, flag_withTodo, h]

theorem step_needSource (k : List Stmt) {s : State} (h : s.srcLen ≠ 0#32) :
    coreStep (s.withTodo (.needSource :: k)) = some (s.withTodo k) := by
  simp [coreStep_withTodo, runStmt, stepNeedSource, h]

theorem step_needSource_not (k : List Stmt) {s : State} (h : s.srcLen = 0#32) :
    coreStep (s.withTodo (.needSource :: k)) = some (s.withTodo [.bbClose, .fail .emptyInput]) := by
  simp [coreStep_withTodo, runStmt, stepNeedSource, h]

theorem step_writeBit_not {b : Bool} (k : List Stmt) {s : State} (h : s.bbMode ≠ .write) :
    coreStep (s.withTodo (.writeBit b :: k)) = some (s.withTodo [.bbClose, .fail .invalidMode]) := by
  simp [coreStep_withTodo, runStmt, stepWriteBit, h]

theorem step_writeByte_not {v : Byte} (k : List Stmt) {s : State} (h : s.bbMode ≠ .write) :
    coreStep (s.withTodo (.writeByte v :: k)) = some (s.withTodo [.bbClose, .fail .invalidMode]) := by
  simp [coreStep_withTodo, runStmt, stepWriteByte, h]

theorem step_readBit_not {u : BitUse} (k : List Stmt) {s : State} (h : s.bbMode ≠ .read) :
    coreStep (s.withTodo (.readBit u :: k)) = some (s.withTodo [.bbClose, .fail .invalidMode]) := by
  simp [coreStep_withTodo, runStmt, stepReadBit, h]

theorem step_bbOpen (m : BBMode) (k : List Stmt) (s : State) :
    coreStep (s.withTodo (.bbOpen m :: k)) = some ((stepBbOpen m s).withTodo k) := rfl

theorem step_complete (k : List Stmt) (s : State) :
    coreStep (s.withTodo (.complete :: k)) = some s.completeStep := rfl

theorem step_legality (k : List Stmt) {s : State} (h : illegalWord s.cmdw = false) :
    coreStep (s.withTodo (.legality :: k)) = some (s.withTodo k) := by
  simp [coreStep_withTodo, runStmt, h]

theorem step_legality_not (k : List Stmt) {s : State} (h : illegalWord s.cmdw = true) :
    coreStep (s.withTodo (.legality :: k)) = some (s.withTodo [.bbClose, .fail .illegalCmd]) := by
  simp [coreStep_withTodo, runStmt, h]

/-- A raised error's statements close the buffer and end the command (R261). -/
theorem runs_fail (e : ErrCode) (s : State) (hs : s.env.sink = none) :
    RunsIn (s.bbBits.length + 4) (s.withTodo [.bbClose, .fail e]) (raised s e) :=
  (runs_bbClose [.fail e] s hs).trans (.one rfl)

/-- `s` after an error completion whose release has sent the bytes `o` (R261). -/
def State.failedWith (s : State) (e : ErrCode) (o : List Byte) : State :=
  { s with
    errCode := e, errOp := if e = .illegalCmd then opField s.cmdw else s.phase, done := true, todo := []
    bbBits := [], bbRemain := 0#32, bbMode := .closed
    outCount := s.outCount + BitVec.ofNat 32 o.length
    env := { s.env with sOut := s.env.sOut ++ o } }

/-- An error completion, written out (R261). -/
theorem raised_eq (s : State) (e : ErrCode) : raised s e = s.failedWith e (releaseBytes s) := by
  unfold raised closeAll releaseBytes
  by_cases h : s.bbMode = .write
  · rw [if_pos h, if_pos h]; rfl
  · rw [if_neg h, if_neg h]; simp [State.failedWith, State.failStep]

/-- The state of an accepted command before its body, without the body. -/
def accepted (s : State) (w : Word) : State := started s w []

theorem started_eq (s : State) (w : Word) (body : List Stmt) :
    started s w body = (accepted s w).withTodo body := rfl

/-- A quiet core runs an accepted command to where its body's run stops. -/
theorem issue_of_runs {s t : State} {w : Word} {body : List Stmt} {b : Nat} (hq : s.Quiet)
    (h : RunsIn b ((accepted s w).withTodo (.legality :: body)) t) (hb : b ≤ runOn s)
    (ht : coreStep t = none) : issue w (.legality :: body) s = t := by
  rw [issue_idle hq.1 hq.2.1 rfl, started_eq]
  exact runCore_eq_of_runsIn h hb ht

/-- The legality check passes on the encoder's words of well-formed commands (R102). -/
theorem legal_encodeWord {i : Instr} (h : i.wellFormed = true) : illegalWord (encodeWord i) = false := by
  cases i
  case bbWriteBit arg => revert arg; decide +kernel
  case bbWriteByte arg => clear h; revert arg; decide +kernel
  all_goals decide

theorem runOn_ge (s : State) {b : Nat} (h : b ≤ 2 ^ 64 * ((s.bufBytes + 1) * (s.bbBits.length + 1))) :
    b ≤ runOn s := h

/-- A turn is longer than any command that takes `c` times a buffer's length of steps (log 1). -/
theorem runOn_mul (s : State) (c : Nat) (hc : c ≤ 2 ^ 60) :
    c * (s.bufBytes + 8) + s.bbBits.length + s.bufBytes + 2 ^ 60 ≤ runOn s := by
  have h0 : runOn s = 2 ^ 63 * (s.bufBytes + 1) * (s.bbBits.length + 1)
      + 2 ^ 63 * (s.bufBytes + 1) * (s.bbBits.length + 1) := by
    unfold runOn; ring
  have h1 : c * (s.bufBytes + 8) ≤ 2 ^ 63 * (s.bufBytes + 1) := by
    calc c * (s.bufBytes + 8) ≤ 2 ^ 60 * (8 * (s.bufBytes + 1)) := Nat.mul_le_mul hc (by omega)
      _ = 2 ^ 63 * (s.bufBytes + 1) := by ring
  have h2 : 2 ^ 63 * (s.bufBytes + 1) * (s.bbBits.length + 1)
      = 2 ^ 63 * (s.bufBytes + 1) + 2 ^ 63 * (s.bufBytes + 1) * s.bbBits.length := by ring
  have h3 : s.bbBits.length ≤ 2 ^ 63 * (s.bufBytes + 1) * s.bbBits.length :=
    Nat.le_mul_of_pos_left _ (by positivity)
  omega

/-- The same for a command that reads the bits of the buffer first. -/
theorem runOn_bits (s : State) (c : Nat) (hc : c ≤ 2 ^ 40) :
    (2 * s.bbBits.length + c) * (s.bufBytes + 8) + s.bbBits.length + s.bufBytes + 2 ^ 60 ≤ runOn s := by
  have h1 := runOn_mul s (2 ^ 41) (by norm_num)
  have h2 : (2 * s.bbBits.length + c) * (s.bufBytes + 8)
      ≤ 2 ^ 44 * ((s.bufBytes + 1) * (s.bbBits.length + 1)) := by
    calc (2 * s.bbBits.length + c) * (s.bufBytes + 8)
        ≤ (2 ^ 40 * (s.bbBits.length + 1)) * (8 * (s.bufBytes + 1)) :=
          Nat.mul_le_mul (by omega) (by omega)
      _ = 2 ^ 43 * ((s.bufBytes + 1) * (s.bbBits.length + 1)) := by ring
      _ ≤ _ := Nat.mul_le_mul_right _ (by norm_num)
  have h3 : s.bbBits.length + s.bufBytes + 1 ≤ (s.bufBytes + 1) * (s.bbBits.length + 1) := by
    nlinarith [Nat.zero_le (s.bufBytes * s.bbBits.length)]
  unfold runOn
  omega

/-- A command that ends with `complete()` (R103). -/
theorem issue_completes {s t : State} {i : Instr} {body : List Stmt} {b : Nat} (hi : i.wellFormed = true)
    (hq : s.Quiet)
    (h : RunsIn b ((accepted s (encodeWord i)).withTodo (body ++ [.complete])) (t.withTodo [.complete]))
    (hb : b + 2 ≤ runOn s) :
    issue (encodeWord i) (.legality :: body ++ [.complete]) s = t.completeStep := by
  refine issue_of_runs (b := b + 2) hq ?_ hb rfl
  exact .step (step_legality _ (legal_encodeWord hi)) (h.trans (.one (step_complete [] t)))

/-- A command that ends with an error (R261). -/
theorem issue_fails {s t : State} {i : Instr} {body : List Stmt} {b : Nat} {e : ErrCode}
    (hi : i.wellFormed = true) (hq : s.Quiet) (ht : t.env.sink = none)
    (h : RunsIn b ((accepted s (encodeWord i)).withTodo (body ++ [.complete]))
      (t.withTodo [.bbClose, .fail e]))
    (hb : b + (t.bbBits.length + 5) ≤ runOn s) :
    issue (encodeWord i) (.legality :: body ++ [.complete]) s = raised t e := by
  refine issue_of_runs (b := b + (t.bbBits.length + 5)) hq ?_ hb rfl
  exact .step (step_legality _ (legal_encodeWord hi)) (h.trans (runs_fail e t ht))

end Sys2Proof.Machine
end

