-- ==== Sys2Proof/Laws/Store.lean ====
section
/-!
SUPPORT. The tree store: reading an entry after writing one, the next index, and trees that an update
elsewhere leaves alone (10_state.md R41).
-/

namespace Sys2Proof.Machine

open Sys2Proof.Format (Tree)

theorem nodeAt_congr {s t : State} (h : s.node = t.node) (i : NodeIdx) : s.nodeAt i = t.nodeAt i := by
  simp [State.nodeAt, h]

theorem nodeAt_setNode_ne {s : State} {i j : NodeIdx} (n : Node) (h : i.toNat ≠ j.toNat) :
    (s.setNode i n).nodeAt j = s.nodeAt j := by
  unfold State.nodeAt
  split
  · rename_i hj
    rw [show (s.setNode i n).node = s.node.setIfInBounds i.toNat n from rfl,
      Vector.getElem_setIfInBounds_ne hj h]
  · rfl

theorem nodeAt_setNode_self {s : State} {i : NodeIdx} (n : Node) (h : i.toNat < 511) :
    (s.setNode i n).nodeAt i = n := by
  simp [State.nodeAt, h, State.setNode]

theorem toNat_ofNat9 {j : Nat} (h : j < 512) : (BitVec.ofNat 9 j).toNat = j := by
  rw [BitVec.toNat_ofNat]; omega

/-- The index of the next node, for a count within the store. -/
theorem nextIdx_eq {s : State} (h : s.ncnt.toNat < 511) :
    s.nextIdx = BitVec.ofNat 9 s.ncnt.toNat ∧ s.nextIdx.toNat = s.ncnt.toNat := by
  have : s.nextIdx.toNat = s.ncnt.toNat := by
    simp [State.nextIdx]; omega
  refine ⟨BitVec.eq_of_toNat_eq ?_, this⟩
  rw [this, BitVec.toNat_ofNat]; omega

theorem ncnt_succ {c : BitVec 10} (h : c.toNat < 511) : (c + 1#10).toNat = c.toNat + 1 := by
  rw [BitVec.toNat_add]; simp; omega

theorem HoldsTree.congr {s t : State} {T : Tree} {i : NodeIdx} (h : HoldsTree s i T)
    (hn : t.node = s.node) : HoldsTree t i T := by
  induction T generalizing i with
  | leaf sym => obtain ⟨f, hf⟩ := h; exact ⟨f, by rw [nodeAt_congr hn]; exact hf⟩
  | node l r hl hr =>
    obtain ⟨a, b, f, hf, h1, h2⟩ := h
    exact ⟨a, b, f, by rw [nodeAt_congr hn]; exact hf, hl h1, hr h2⟩

end Sys2Proof.Machine
end

