-- ==== Sys2Proof/Laws/Decoder.lean ====
section
/-!
SUPPORT. Whole runs of the decoder's statements on a supplied read session: one bit, a tree record, a
tree, a payload (41_bitbuffer.md R128; 43_decoder.md R200 to R206).
-/

namespace Sys2Proof.Machine

open Sys2Proof.Format (Tree)

/-! ### The position in a read session -/

/-- `p` bits of a session of `n0` bytes have been read: the bytes taken are those of R128. -/
def Session (n0 p : Nat) (s : State) : Prop :=
  s.bbRemain.toNat ≤ n0 ∧ 8 * (n0 - s.bbRemain.toNat) = p + s.bbBits.length ∧
    n0 - s.bbRemain.toNat = min n0 (s.bufBytes * ((p + s.bufBits - 1) / s.bufBits))

/-- `t` is `s` with `r` more bits of the session read: only the read position has moved. -/
def Advanced (r : Nat) (s t : State) : Prop :=
  (∃ B n, n ≤ s.bbRemain.toNat ∧
    t = s.reseat B (s.bbRemain - BitVec.ofNat 32 n) (s.inCount + BitVec.ofNat 32 n)
      (s.env.sIn.drop n)) ∧
    Supplied t ∧ avail t = (avail s).drop r ∧ (∀ n0 p, Session n0 p s → Session n0 (p + r) t)

theorem remain_sub {w : Word} {n : Nat} (h : n ≤ w.toNat) :
    (w - BitVec.ofNat 32 n).toNat = w.toNat - n := by
  have := w.isLt
  rw [BitVec.toNat_sub_of_le]
  · simp only [BitVec.toNat_ofNat]; congr 1; omega
  · rw [BitVec.le_def, BitVec.toNat_ofNat]; omega

theorem Advanced.refl {s : State} (h : Supplied s) : Advanced 0 s s :=
  ⟨⟨s.bbBits, 0, Nat.zero_le _, by simp [State.reseat]⟩, h, by simp, fun _ _ hs => hs⟩

theorem Advanced.trans {a b : Nat} {s t u : State} (h : Advanced a s t) (g : Advanced b t u) :
    Advanced (a + b) s u := by
  obtain ⟨⟨B, n, hn, rfl⟩, _, hav, hses⟩ := h
  obtain ⟨⟨B', m, hm, rfl⟩, hsup, hav', hses'⟩ := g
  simp only [reseat_bbRemain, remain_sub hn] at hm
  refine ⟨⟨B', n + m, by omega, ?_⟩, hsup, ?_, fun n0 p hs => ?_⟩
  · simp only [reseat_reseat, reseat_bbRemain, reseat_inCount, reseat_env, List.drop_drop,
      BitVec.ofNat_add, BitVec.add_assoc]
    congr 1
    exact (sub_add_eq_sub_sub _ _ _).symm
  · rw [hav', hav, List.drop_drop]
  · rw [← Nat.add_assoc]; exact hses' _ _ (hses _ _ hs)

/-- Reading one bit keeps R128's account of the bytes taken. -/
theorem session_next {s t : State} {n0 p n : Nat} {bits : List Bool} {c : Word} {i : List Byte}
    (hs : Session n0 p s) (ht : t = s.reseat bits (s.bbRemain - BitVec.ofNat 32 n) c i)
    (hn : n ≤ s.bbRemain.toNat) (hlen : bits.length + 1 = s.bbBits.length + 8 * n)
    (hcase : if s.bbBits = [] then n = min s.bufBytes s.bbRemain.toNat else n = 0) :
    Session n0 (p + 1) t := by
  obtain ⟨h1, h2, h3⟩ := hs
  have hr : t.bbRemain.toNat = s.bbRemain.toNat - n := by rw [ht]; exact remain_sub hn
  have hb : t.bbBits.length = bits.length := by rw [ht]; rfl
  have hB : t.bufBytes = s.bufBytes := by rw [ht]; rfl
  have hBB : t.bufBits = s.bufBits := by rw [ht]; rfl
  have hpos : 0 < s.bufBytes := by simp [State.bufBytes]
  have hbits : s.bufBits = 8 * s.bufBytes := rfl
  refine ⟨by omega, by rw [hr, hb]; omega, ?_⟩
  rw [hr, hB, hBB]
  split at hcase
  · rename_i hnil
    rw [hnil, List.length_nil] at h2 hlen
    have hpos' : 0 < s.bbRemain.toNat := by
      rcases Nat.eq_zero_or_pos s.bbRemain.toNat with h0 | h0
      · rw [h0] at hcase; omega
      · exact h0
    obtain ⟨q, hq⟩ : ∃ q, (p + s.bufBits - 1) / s.bufBits = q := ⟨_, rfl⟩
    rw [hq] at h3
    have htaken : n0 - s.bbRemain.toNat = s.bufBytes * q := by
      rcases Nat.le_total n0 (s.bufBytes * q) with h | h
      · rw [Nat.min_eq_left h] at h3; omega
      · rw [Nat.min_eq_right h] at h3; exact h3
    have hp : p = s.bufBits * q := by rw [hbits, Nat.mul_assoc, ← htaken]; omega
    have hq' : (p + 1 + s.bufBits - 1) / s.bufBits = q + 1 := by
      rw [hp, show s.bufBits * q + 1 + s.bufBits - 1 = s.bufBits * q + s.bufBits by omega,
        ← Nat.mul_succ, Nat.mul_div_cancel_left _ (by omega)]
    rw [hq', Nat.mul_succ, ← htaken, hcase]
    omega
  · rename_i hne
    have hlen' : 0 < s.bbBits.length := List.length_pos_of_ne_nil hne
    obtain ⟨q, hq⟩ : ∃ q, (p + s.bufBits - 1) / s.bufBits = q := ⟨_, rfl⟩
    rw [hq] at h3
    have hlt : p < s.bufBits * q := by
      have : n0 - s.bbRemain.toNat ≤ s.bufBytes * q := h3 ▸ Nat.min_le_right _ _
      have h8 : 8 * (n0 - s.bbRemain.toNat) ≤ 8 * (s.bufBytes * q) := Nat.mul_le_mul_left _ this
      rw [← Nat.mul_assoc, ← hbits] at h8
      omega
    have hge : s.bufBits * q < p + s.bufBits := by
      have := Nat.div_mul_le_self (p + s.bufBits - 1) s.bufBits
      rw [hq, Nat.mul_comm] at this; omega
    have hq' : (p + 1 + s.bufBits - 1) / s.bufBits = q := by
      apply Nat.div_eq_of_lt_le
      · rw [Nat.mul_comm]; omega
      · rw [Nat.mul_comm, Nat.mul_succ]; omega
    rw [hq', hcase, Nat.sub_zero]
    exact h3

/-- One `readBit()` (R125): the next bit of the session is delivered. -/
theorem runs_bit (u : BitUse) (k : List Stmt) (s : State) (b : Bool) (rest : List Bool)
    (hm : s.bbMode = .read) (hs : Supplied s) (ha : avail s = b :: rest) :
    ∃ t, Advanced 1 s t ∧
      RunsIn (s.bufBytes + 3) (s.withTodo (.readBit u :: k)) (deliverBit u b (t.withTodo k)) := by
  obtain ⟨B, R, n, hn, rfl, hsup, hav, hcase, hrun⟩ := runs_readBit u k s b rest hm hs ha
  refine ⟨_, ⟨⟨B, n, hn, rfl⟩, hsup, by rw [hav, ha]; rfl, fun n0 p hses => ?_⟩, hrun⟩
  refine session_next hses rfl hn ?_ hcase
  have h1 : (avail s).length = rest.length + 1 := by rw [ha]; rfl
  have h2 := congrArg List.length hav
  simp only [avail, List.length_append, length_flatMap_bitsOfByte, List.length_take, reseat_bbBits,
    reseat_bbRemain, reseat_env, remain_sub hn, List.length_drop] at h1 h2
  simp only [Supplied] at hs
  omega

theorem Advanced.mode {r : Nat} {s t : State} (h : Advanced r s t) : t.bbMode = s.bbMode := by
  obtain ⟨⟨B, n, _, rfl⟩, _⟩ := h; rfl

theorem Advanced.bufBytes {r : Nat} {s t : State} (h : Advanced r s t) :
    t.bufBytes = s.bufBytes := by
  obtain ⟨⟨B, n, _, rfl⟩, _⟩ := h; rfl

/-! ### Reading a symbol -/

/-- The byte the bits `bs` complete, shifted in after `acc`. -/
def shiftAll (acc : Byte) (bs : List Bool) : Byte := bs.foldl shiftIn acc

theorem shiftAll_bitsOfByte (v : Byte) : shiftAll 0#8 (bitsOfByte v) = v := by
  revert v; decide +kernel

theorem runs_symbol (i : NodeIdx) (k : List Stmt) (more : Nat) (bs : List Bool)
    (hbs : bs.length = more + 1) (acc : Byte) (s : State) (rest : List Bool) (hm : s.bbMode = .read)
    (hs : Supplied s) (ha : avail s = bs ++ rest) :
    ∃ t, Advanced (more + 1) s t ∧
      RunsIn ((more + 1) * (s.bufBytes + 3)) (s.withTodo (.readBit (.symbol i acc more) :: k))
        ((t.setNode i (.leaf (shiftAll acc bs) Config.decodedFreq)).withTodo (.nodeDone i :: k)) := by
  induction more generalizing bs acc s with
  | zero =>
    match bs, hbs with
    | [b], _ =>
      obtain ⟨t, hadv, hrun⟩ := runs_bit (.symbol i acc 0) k s b rest hm hs (by simpa using ha)
      exact ⟨t, hadv, by rw [Nat.zero_add, Nat.one_mul]; exact hrun⟩
  | succ more ih =>
    match bs, hbs with
    | b :: bs, hbs =>
      obtain ⟨t, hadv, hrun⟩ := runs_bit (.symbol i acc (more + 1)) k s b (bs ++ rest) hm hs
        (by simpa using ha)
      obtain ⟨u, hadv2, hrun2⟩ := ih bs (by simpa using hbs) (shiftIn acc b) t (hadv.mode.trans hm)
        hadv.2.1 (by rw [hadv.2.2.1, ha]; rfl)
      refine ⟨u, by rw [Nat.add_comm (more + 1) 1]; exact hadv.trans hadv2, ?_⟩
      rw [hadv.bufBytes] at hrun2
      exact (hrun.trans hrun2).mono (by ring_nf; omega)

/-! ### Reading a tree -/

/-- `s` with another tree store, node count and stack. -/
def State.withWork (s : State) (node : Vector Node 511) (ncnt : BitVec 10) (stack : List Frame) : State :=
  { s with node := node, ncnt := ncnt, stack := stack }

theorem HoldsPreorder.congr {s t : State} {T : Tree} {i : Nat} (h : HoldsPreorder s i T)
    (heq : ∀ j, i ≤ j → j < i + T.nodes → s.nodeAt (BitVec.ofNat 9 j) = t.nodeAt (BitVec.ofNat 9 j)) :
    HoldsPreorder t i T := by
  induction T generalizing i with
  | leaf sym => rw [HoldsPreorder, ← heq i le_rfl (by simp [Tree.nodes])]; exact h
  | node l r hl hr =>
    obtain ⟨h1, h2, h3⟩ := h
    simp only [Tree.nodes] at heq
    refine ⟨?_, hl h2 fun j hj hj' => heq j (by omega) (by omega),
      hr h3 fun j hj hj' => heq j (by omega) (by omega)⟩
    rw [← heq i le_rfl (by omega)]; exact h1

theorem HoldsPreorder.holdsTree {s : State} {T : Tree} {i : Nat} (h : HoldsPreorder s i T) :
    HoldsTree s (BitVec.ofNat 9 i) T := by
  induction T generalizing i with
  | leaf sym => exact ⟨_, h⟩
  | node l r hl hr => exact ⟨_, _, _, h.1, hl h.2.1, hr h.2.2⟩

theorem advanced_withWork {r : Nat} {s t : State} (h : Advanced r s t) (N : Vector Node 511)
    (C : BitVec 10) (st : List Frame) : Advanced r (s.withWork N C st) (t.withWork N C st) := by
  obtain ⟨⟨B, n, hn, rfl⟩, h2, h3, h4⟩ := h
  exact ⟨⟨B, n, hn, rfl⟩, h2, h3, h4⟩

theorem Advanced.node {r : Nat} {s t : State} (h : Advanced r s t) : t.node = s.node := by
  obtain ⟨⟨B, n, _, rfl⟩, _⟩ := h; rfl

theorem Advanced.ncnt {r : Nat} {s t : State} (h : Advanced r s t) : t.ncnt = s.ncnt := by
  obtain ⟨⟨B, n, _, rfl⟩, _⟩ := h; rfl

theorem Advanced.stack {r : Nat} {s t : State} (h : Advanced r s t) : t.stack = s.stack := by
  obtain ⟨⟨B, n, _, rfl⟩, _⟩ := h; rfl

theorem Advanced.avail {r : Nat} {s t : State} (h : Advanced r s t) : avail t = (avail s).drop r :=
  h.2.2.1

theorem Advanced.supplied {r : Nat} {s t : State} (h : Advanced r s t) : Supplied t := h.2.1

/-- After the tag bit 1 of a record within the store: a new index, and the symbol to read. -/
theorem useTag_leaf {s : State} (k : List Stmt) (h : s.ncnt.toNat < 511) :
    useTag true (s.withTodo k) = (s.withWork s.node (s.ncnt + 1#10) s.stack).withTodo
      (.readBit (.symbol s.nextIdx 0#8 7) :: k) := by
  unfold useTag
  exact if_neg (by simp only [withTodo_ncnt, Config.nodeCap]; omega)

/-- After the tag bit 0 of a record within the store: a new index, and the left subtree to read. -/
theorem useTag_internal {s : State} (k : List Stmt) (h : s.ncnt.toNat < 511) :
    useTag false (s.withTodo k) = (s.withWork s.node (s.ncnt + 1#10)
      (.needLeft s.nextIdx :: s.stack)).withTodo (.readBit .tag :: k) := by
  unfold useTag
  exact if_neg (by simp only [withTodo_ncnt, Config.nodeCap]; omega)

/-- The node limit (R200): with NODE_CAP nodes in use, the next tag bit raises TREE_MALFORMED. -/
theorem useTag_full {s : State} (b : Bool) (k : List Stmt) (h : s.ncnt.toNat = 511) :
    useTag b (s.withTodo k) = (s.withTodo k).raise .treeMalformed := by
  unfold useTag
  exact if_pos h

theorem step_nodeDone_left (i j : NodeIdx) (st : List Frame) (k : List Stmt) (s : State)
    (h : s.stack = .needLeft j :: st) :
    coreStep (s.withTodo (.nodeDone i :: k)) = some ((s.withWork s.node s.ncnt
      (.needRight j i :: st)).withTodo (.readBit .tag :: k)) := by
  rw [coreStep_withTodo]
  simp only [runStmt, stepNodeDone, withTodo_stack, h]
  rfl

theorem step_nodeDone_right (i j l : NodeIdx) (st : List Frame) (k : List Stmt) (s : State)
    (h : s.stack = .needRight j l :: st) :
    coreStep (s.withTodo (.nodeDone i :: k)) = some ((s.withWork
      (s.node.setIfInBounds j.toNat (.internal l i Config.decodedFreq)) s.ncnt st).withTodo
        (.nodeDone j :: k)) := by
  rw [coreStep_withTodo]
  simp only [runStmt, stepNodeDone, withTodo_stack, h]
  rfl

/-- `t` is `s` after `r` bits of the session have been read: beside the read position only the tree store,
NCNT and STACK may have changed. -/
def Moved (r : Nat) (s t : State) : Prop := ∃ N C S, Advanced r (s.withWork N C S) t

theorem Moved.trans {a b : Nat} {s t u : State} (h : Moved a s t) (g : Moved b t u) :
    Moved (a + b) s u := by
  obtain ⟨N, C, S, h⟩ := h
  obtain ⟨N', C', S', g⟩ := g
  exact ⟨N', C', S', (advanced_withWork h N' C' S').trans g⟩

theorem Advanced.moved {r : Nat} {s t : State} (h : Advanced r s t) : Moved r s t :=
  ⟨s.node, s.ncnt, s.stack, h⟩

theorem Moved.withWork {r : Nat} {s t : State} (h : Moved r s t) (N : Vector Node 511) (C : BitVec 10)
    (S : List Frame) : Moved r s (t.withWork N C S) := by
  obtain ⟨_, _, _, h⟩ := h
  exact ⟨N, C, S, advanced_withWork h N C S⟩

theorem Moved.refl {s : State} (h : Supplied s) : Moved 0 s s := (Advanced.refl h).moved

theorem Moved.mode {r : Nat} {s t : State} (h : Moved r s t) : t.bbMode = s.bbMode :=
  let ⟨_, _, _, h⟩ := h
  h.mode

theorem Moved.bufBytes {r : Nat} {s t : State} (h : Moved r s t) : t.bufBytes = s.bufBytes :=
  let ⟨_, _, _, h⟩ := h
  h.bufBytes

theorem Moved.avail {r : Nat} {s t : State} (h : Moved r s t) : avail t = (avail s).drop r :=
  let ⟨_, _, _, h⟩ := h
  h.avail

theorem Moved.supplied {r : Nat} {s t : State} (h : Moved r s t) : Supplied t :=
  let ⟨_, _, _, h⟩ := h
  h.supplied

/-- `t` is `s` after `r` bits and the records of `c` nodes: the read position has moved, STACK is as
before, `c` nodes have been counted, and the entries before them are as before. -/
structure TreeRead (r c : Nat) (s t : State) : Prop where
  moved : Moved r s t
  stack : t.stack = s.stack
  ncnt : t.ncnt.toNat = s.ncnt.toNat + c
  below : ∀ j, j < s.ncnt.toNat → t.nodeAt (BitVec.ofNat 9 j) = s.nodeAt (BitVec.ofNat 9 j)

/-- A tag bit read within the store (R200): what follows, at the state with the bit read. -/
theorem runs_tag (b : Bool) (k : List Stmt) (s : State) (rest : List Bool) (hm : s.bbMode = .read)
    (hs : Supplied s) (ha : Machine.avail s = b :: rest) :
    ∃ t, Advanced 1 s t ∧ t.ncnt = s.ncnt ∧ t.node = s.node ∧ t.stack = s.stack ∧
      RunsIn (s.bufBytes + 3) (s.withTodo (.readBit .tag :: k)) (useTag b (t.withTodo k)) := by
  obtain ⟨t, hadv, hrun⟩ := runs_bit .tag k s b rest hm hs ha
  exact ⟨t, hadv, hadv.ncnt, hadv.node, hadv.stack, hrun⟩

/-- Reading a whole tree section that fits the store (R200): the tree lies in NODE in preorder from the
next index on. -/
theorem runs_readTree (T : Tree) (k : List Stmt) (s : State) (rest : List Bool)
    (hm : s.bbMode = .read) (hs : Supplied s) (ha : avail s = T.serialize ++ rest)
    (hcap : s.ncnt.toNat + T.nodes ≤ 511) :
    ∃ t, TreeRead T.serialize.length T.nodes s t ∧ HoldsPreorder t s.ncnt.toNat T ∧
      RunsIn (T.serialize.length * (s.bufBytes + 3) + 2 * T.nodes) (s.withTodo (.readBit .tag :: k))
        (t.withTodo (.nodeDone (BitVec.ofNat 9 s.ncnt.toNat) :: k)) := by
  induction T generalizing k s rest with
  | leaf sym =>
    simp only [Tree.nodes] at hcap
    have hlt : s.ncnt.toNat < 511 := by omega
    obtain ⟨t, hadv, hn, hnode, hstack, hrun⟩ := runs_tag true k s (bitsOfByte sym ++ rest) hm hs ha
    have hidx := nextIdx_eq (s := t) (by rw [hn]; exact hlt)
    rw [hn] at hidx
    rw [useTag_leaf k (by rw [hn]; exact hlt), hidx.1] at hrun
    have hmov := hadv.moved.withWork t.node (t.ncnt + 1#10) t.stack
    obtain ⟨u, hadv2, hrun2⟩ := runs_symbol (BitVec.ofNat 9 s.ncnt.toNat) k 7 (bitsOfByte sym) rfl 0#8
      (t.withWork t.node (t.ncnt + 1#10) t.stack) rest (hmov.mode.trans hm) hmov.supplied
      (by rw [hmov.avail, ha]; rfl)
    rw [shiftAll_bitsOfByte] at hrun2
    have hi : (BitVec.ofNat 9 s.ncnt.toNat).toNat = s.ncnt.toNat := toNat_ofNat9 (by omega)
    refine ⟨u.setNode (BitVec.ofNat 9 s.ncnt.toNat) (.leaf sym Config.decodedFreq),
      ⟨(hmov.trans hadv2.moved).withWork (u.node.setIfInBounds (BitVec.ofNat 9 s.ncnt.toNat).toNat
        (.leaf sym Config.decodedFreq)) u.ncnt u.stack, ?_, ?_, ?_⟩, ?_, ?_⟩
    · exact hadv2.stack.trans hstack
    · show u.ncnt.toNat = _
      rw [hadv2.ncnt]
      exact (ncnt_succ (by rw [hn]; exact hlt)).trans (by rw [hn]; rfl)
    · intro j hj
      refine (nodeAt_setNode_ne _ (by rw [hi, toNat_ofNat9 (by omega)]; omega)).trans ?_
      exact nodeAt_congr (hadv2.node.trans hnode) _
    · exact nodeAt_setNode_self _ (by rw [hi]; exact hlt)
    · refine (hrun.trans hrun2).mono ?_
      rw [hmov.bufBytes]
      show s.bufBytes + 3 + (7 + 1) * (s.bufBytes + 3) ≤ 9 * (s.bufBytes + 3) + 2 * 1
      omega
  | node l r hl hr =>
    simp only [Tree.nodes] at hcap
    have hlt : s.ncnt.toNat < 511 := by omega
    have hi : (BitVec.ofNat 9 s.ncnt.toNat).toNat = s.ncnt.toNat := toNat_ofNat9 (by omega)
    obtain ⟨t, hadv, hn, hnode, hstack, hrun⟩ := runs_tag false k s (l.serialize ++ r.serialize ++ rest)
      hm hs (by rw [ha]; simp [Tree.serialize])
    have hidx := nextIdx_eq (s := t) (by rw [hn]; exact hlt)
    rw [hn] at hidx
    rw [useTag_internal k (by rw [hn]; exact hlt), hidx.1] at hrun
    have hmov := hadv.moved.withWork t.node (t.ncnt + 1#10)
      (.needLeft (BitVec.ofNat 9 s.ncnt.toNat) :: t.stack)
    have hn1 : (t.withWork t.node (t.ncnt + 1#10)
        (.needLeft (BitVec.ofNat 9 s.ncnt.toNat) :: t.stack)).ncnt.toNat = s.ncnt.toNat + 1 := by
      rw [← hn]; exact ncnt_succ (by rw [hn]; exact hlt)
    obtain ⟨u, hu, hul, hrun2⟩ := hl k _ (r.serialize ++ rest) (hmov.mode.trans hm) hmov.supplied
      (by rw [hmov.avail, ha]; simp [Tree.serialize]) (by rw [hn1]; omega)
    rw [hn1] at hrun2 hul
    have hstep := step_nodeDone_left (BitVec.ofNat 9 (s.ncnt.toNat + 1)) (BitVec.ofNat 9 s.ncnt.toNat)
      t.stack k u hu.stack
    have hmov2 := (hmov.trans hu.moved).withWork u.node u.ncnt
      (.needRight (BitVec.ofNat 9 s.ncnt.toNat) (BitVec.ofNat 9 (s.ncnt.toNat + 1)) :: t.stack)
    have hn2 : u.ncnt.toNat = s.ncnt.toNat + 1 + l.nodes := by rw [hu.ncnt, hn1]
    obtain ⟨v, hv, hvr, hrun3⟩ := hr k _ rest (hmov2.mode.trans hm) hmov2.supplied
      (by rw [hmov2.avail, ha]; simp [Tree.serialize, ← List.drop_drop]) (by
        show u.ncnt.toNat + _ ≤ 511
        rw [hn2]; omega)
    have hw2 : (u.withWork u.node u.ncnt (.needRight (BitVec.ofNat 9 s.ncnt.toNat)
        (BitVec.ofNat 9 (s.ncnt.toNat + 1)) :: t.stack)).ncnt.toNat = s.ncnt.toNat + 1 + l.nodes := hn2
    rw [hw2] at hrun3 hvr
    have hstep2 := step_nodeDone_right (BitVec.ofNat 9 (s.ncnt.toNat + 1 + l.nodes))
      (BitVec.ofNat 9 s.ncnt.toNat) (BitVec.ofNat 9 (s.ncnt.toNat + 1)) t.stack k v hv.stack
    have hchain := ((hrun.trans hrun2).trans (.step hstep hrun3)).trans (.one hstep2)
    have hlow : ∀ j, j < s.ncnt.toNat + 1 → u.nodeAt (BitVec.ofNat 9 j) = t.nodeAt (BitVec.ofNat 9 j) :=
      fun j hj => hu.below j (by rw [hn1]; exact hj)
    have hlow2 : ∀ j, j < s.ncnt.toNat + 1 + l.nodes →
        v.nodeAt (BitVec.ofNat 9 j) = u.nodeAt (BitVec.ofNat 9 j) :=
      fun j hj => hv.below j (by rw [hw2]; exact hj)
    have hset : ∀ j, j ≠ s.ncnt.toNat → j < 511 → (v.withWork (v.node.setIfInBounds
        (BitVec.ofNat 9 s.ncnt.toNat).toNat (.internal (BitVec.ofNat 9 (s.ncnt.toNat + 1))
          (BitVec.ofNat 9 (s.ncnt.toNat + 1 + l.nodes)) Config.decodedFreq)) v.ncnt t.stack).nodeAt
          (BitVec.ofNat 9 j) = v.nodeAt (BitVec.ofNat 9 j) := fun j hj hj2 =>
      nodeAt_setNode_ne (s := v) _ (by rw [hi, toNat_ofNat9 (by omega)]; omega)
    have hlp := l.nodes_pos
    have hrp := r.nodes_pos
    refine ⟨v.withWork (v.node.setIfInBounds (BitVec.ofNat 9 s.ncnt.toNat).toNat
        (.internal (BitVec.ofNat 9 (s.ncnt.toNat + 1)) (BitVec.ofNat 9 (s.ncnt.toNat + 1 + l.nodes))
          Config.decodedFreq)) v.ncnt t.stack, ⟨?_, hstack, ?_, ?_⟩, ⟨?_, ?_, ?_⟩, hchain.mono ?_⟩
    · have := (hmov2.trans hv.moved).withWork (v.node.setIfInBounds
        (BitVec.ofNat 9 s.ncnt.toNat).toNat (.internal (BitVec.ofNat 9 (s.ncnt.toNat + 1))
          (BitVec.ofNat 9 (s.ncnt.toNat + 1 + l.nodes)) Config.decodedFreq)) v.ncnt t.stack
      have e : (Format.Tree.node l r).serialize.length = 1 + l.serialize.length + r.serialize.length := by
        simp [Tree.serialize]; omega
      rw [e]; exact this
    · show v.ncnt.toNat = _
      rw [hv.ncnt, hw2]; simp only [Tree.nodes]; omega
    · intro j hj
      rw [hset j (by omega) (by omega), hlow2 j (by omega), hlow j (by omega), nodeAt_congr hnode]
    · exact nodeAt_setNode_self (s := v) _ (by rw [hi]; exact hlt)
    · refine hul.congr fun j hj hj' => ?_
      rw [hset j (by omega) (by omega), hlow2 j (by omega)]
    · refine hvr.congr fun j hj hj' => ?_
      rw [hset j (by omega) (by omega)]
    · rw [hmov.bufBytes, hmov2.bufBytes]
      simp only [Tree.serialize, Tree.nodes, List.length_cons, List.length_append]
      ring_nf; omega

/-! ### Reading a tree that does not fit the stream or the store -/

theorem avail_nil {s : State} (hs : Supplied s) (h : avail s = []) :
    s.bbBits = [] ∧ s.bbRemain = 0#32 := by
  simp only [avail, List.append_eq_nil_iff] at h
  refine ⟨h.1, BitVec.eq_of_toNat_eq ?_⟩
  have := length_flatMap_bitsOfByte (s.env.sIn.take s.bbRemain.toNat)
  rw [h.2, List.length_take, Nat.min_eq_left hs, List.length_nil] at this
  simp; omega

/-- A `readBit()` after the last bit of the session raises END_OF_STREAM (R206). -/
theorem runs_readBit_end (u : BitUse) (k : List Stmt) (s : State) (hm : s.bbMode = .read)
    (hs : Supplied s) (ha : avail s = []) :
    RunsIn 1 (s.withTodo (.readBit u :: k)) (s.withTodo [.bbClose, .fail .endOfStream]) := by
  obtain ⟨hb, hr⟩ := avail_nil hs ha
  exact .one (step_readBit_end u k s hm hb hr)

/-- A symbol whose bits run out (R200: "Any readBit can raise END_OF_STREAM"). -/
theorem runs_symbol_short (i : NodeIdx) (k : List Stmt) (more : Nat) (acc : Byte) (s : State)
    (hm : s.bbMode = .read) (hs : Supplied s) (hlen : (avail s).length < more + 1) :
    ∃ t, Advanced (avail s).length s t ∧
      RunsIn (((avail s).length + 1) * (s.bufBytes + 3))
        (s.withTodo (.readBit (.symbol i acc more) :: k)) (t.withTodo [.bbClose, .fail .endOfStream]) := by
  induction more generalizing acc s with
  | zero =>
    have ha : avail s = [] := List.length_eq_zero_iff.mp (by omega)
    exact ⟨s, by rw [ha]; exact .refl hs, (runs_readBit_end _ k s hm hs ha).mono (by rw [ha]; simp)⟩
  | succ more ih =>
    match ha : avail s with
    | [] => exact ⟨s, .refl hs, (runs_readBit_end _ k s hm hs ha).mono (by simp)⟩
    | b :: bs =>
      obtain ⟨t, hadv, hrun⟩ := runs_bit (.symbol i acc (more + 1)) k s b bs hm hs ha
      have hat : avail t = bs := by rw [hadv.avail, ha]; rfl
      obtain ⟨u, hadv2, hrun2⟩ := ih (shiftIn acc b) t (hadv.mode.trans hm) hadv.supplied
        (by rw [hat]; rw [ha] at hlen; simpa using hlen)
      rw [hat] at hadv2 hrun2
      refine ⟨u, by rw [List.length_cons, Nat.add_comm]; exact hadv.trans hadv2, ?_⟩
      rw [hadv.bufBytes] at hrun2
      exact (hrun.trans hrun2).mono (by rw [List.length_cons]; ring_nf; omega)

/-- How the bits stop the reading of the tree `T` with `room` store entries free, and after how many bits
(R200): the tag bit after the first `room` records raises TREE_MALFORMED, whatever its value; or the bits
end inside those records. -/
def TreeStops (T : Tree) (bits : List Bool) (room : Nat) (e : ErrCode) (r : Nat) : Prop :=
  (e = .treeMalformed ∧ room < T.nodes ∧ r = (T.firstRecords room).length + 1 ∧
      ∃ b rest, bits = T.firstRecords room ++ b :: rest) ∨
    (e = .endOfStream ∧ r = bits.length ∧ bits.length ≤ (T.firstRecords room).length ∧
      ∃ x, x ≠ [] ∧ T.serialize = bits ++ x)

theorem TreeStops.nil {T : Tree} {room r : Nat} {e : ErrCode} (h : TreeStops T [] room e r) :
    e = .endOfStream ∧ r = 0 := by
  rcases h with ⟨-, -, -, b, rest, h⟩ | ⟨he, hr, -⟩
  · simp at h
  · exact ⟨he, hr⟩

theorem TreeStops.full {T : Tree} {b : Bool} {bs : List Bool} {r : Nat} {e : ErrCode}
    (h : TreeStops T (b :: bs) 0 e r) : e = .treeMalformed ∧ r = 1 := by
  rcases h with ⟨he, -, hr, -⟩ | ⟨-, -, hl, -⟩
  · exact ⟨he, by simpa using hr⟩
  · simp at hl

theorem TreeStops.leaf {sym : Byte} {bits : List Bool} {n r : Nat} {e : ErrCode}
    (h : TreeStops (.leaf sym) bits (n + 1) e r) :
    e = .endOfStream ∧ r = bits.length ∧ ∃ x, x ≠ [] ∧ true :: bitsOfByte sym = bits ++ x := by
  rcases h with ⟨-, h, -⟩ | ⟨he, hr, -, hx⟩
  · simp [Tree.nodes] at h
  · exact ⟨he, hr, hx⟩

/-- A record with a 0 tag: the reading stops in the left subtree, or after it in the right. -/
theorem TreeStops.node {l r : Tree} {b : Bool} {bs : List Bool} {n q : Nat} {e : ErrCode}
    (h : TreeStops (.node l r) (b :: bs) (n + 1) e q) :
    b = false ∧ ((∃ q', q = 1 + q' ∧ TreeStops l bs n e q') ∨
      ∃ rest q', bs = l.serialize ++ rest ∧ l.nodes ≤ n ∧ q = 1 + l.serialize.length + q' ∧
        TreeStops r rest (n - l.nodes) e q') := by
  rcases h with ⟨rfl, hn, rfl, c, rest, h⟩ | ⟨rfl, rfl, hlen, x, hx, h⟩
  · rw [Tree.firstRecords_node, List.cons_append, List.cons.injEq] at h
    rw [Tree.firstRecords_node]
    refine ⟨h.1, ?_⟩
    by_cases hln : l.nodes ≤ n
    · refine .inr ⟨r.firstRecords (n - l.nodes) ++ c :: rest, (r.firstRecords (n - l.nodes)).length + 1,
        ?_, hln, ?_, .inl ⟨rfl, ?_, rfl, c, rest, rfl⟩⟩
      · rw [h.2, l.firstRecords_all hln, List.append_assoc]
      · rw [l.firstRecords_all hln, List.length_cons, List.length_append]; omega
      · simp only [Tree.nodes] at hn; omega
    · have h0 : n - l.nodes = 0 := by omega
      rw [h0, Tree.firstRecords_zero, List.append_nil] at h ⊢
      exact .inl ⟨_, by rw [List.length_cons, Nat.add_comm], .inl ⟨rfl, by omega, rfl, c, rest, h.2⟩⟩
  · rw [Tree.serialize, List.cons_append, List.cons.injEq] at h
    rw [Tree.firstRecords_node, List.length_cons, List.length_cons, List.length_append] at hlen
    refine ⟨h.1.symm, ?_⟩
    by_cases hin : l.nodes ≤ n ∧ l.serialize.length ≤ bs.length
    · obtain ⟨rest, hrest⟩ : ∃ rest, bs = l.serialize ++ rest :=
        (List.prefix_of_prefix_length_le ⟨r.serialize, h.2⟩ ⟨x, rfl⟩ hin.2).imp fun _ h => h.symm
      rw [l.firstRecords_all hin.1, hrest, List.length_append] at hlen
      refine .inr ⟨rest, rest.length, hrest, hin.1, by rw [hrest]; simp; omega,
        .inr ⟨rfl, rfl, by omega, x, hx, ?_⟩⟩
      have h2 := h.2
      rw [hrest, List.append_assoc, List.append_cancel_left_eq] at h2
      exact h2
    · have hlt : bs.length ≤ (l.firstRecords n).length ∧ bs.length < l.serialize.length := by
        obtain ⟨more, hmore, hne⟩ := l.serialize_eq_firstRecords n
        by_cases hln : l.nodes ≤ n
        · have : bs.length < l.serialize.length := by
            by_contra hc; exact hin ⟨hln, by omega⟩
          rw [l.firstRecords_all hln]
          omega
        · have h0 : n - l.nodes = 0 := by omega
          rw [h0, Tree.firstRecords_zero, List.length_nil] at hlen
          have := List.length_pos_of_ne_nil (hne (by omega))
          rw [hmore, List.length_append]
          omega
      obtain ⟨y, hy⟩ : ∃ y, bs ++ y = l.serialize :=
        List.prefix_of_prefix_length_le ⟨x, rfl⟩ ⟨r.serialize, h.2⟩ hlt.2.le
      refine .inl ⟨bs.length, by rw [List.length_cons, Nat.add_comm],
        .inr ⟨rfl, rfl, hlt.1, y, fun hy0 => ?_, hy.symm⟩⟩
      rw [hy0, List.append_nil] at hy
      rw [hy] at hlt
      exact absurd hlt.2 (lt_irrefl _)

/-- The reading stops at once where no bit or no store entry is left. -/
theorem runs_readTree_stop_head (T : Tree) (k : List Stmt) (s : State) (e : ErrCode) (q : Nat)
    (hm : s.bbMode = .read) (hs : Supplied s) (h : TreeStops T (avail s) (511 - s.ncnt.toNat) e q)
    (hhead : avail s = [] ∨ s.ncnt.toNat = 511) :
    ∃ t, Moved q s t ∧ RunsIn ((q + 1) * (s.bufBytes + 4)) (s.withTodo (.readBit .tag :: k))
      (t.withTodo [.bbClose, .fail e]) := by
  have hone : ∀ {N : Nat}, N ≤ s.bufBytes + 4 → N ≤ (q + 1) * (s.bufBytes + 4) := fun hN =>
    hN.trans (Nat.le_mul_of_pos_left _ (by omega))
  match ha : avail s with
  | [] =>
    rw [ha] at h
    obtain ⟨rfl, rfl⟩ := h.nil
    exact ⟨s, .refl hs, (runs_readBit_end .tag k s hm hs ha).mono (hone (by omega))⟩
  | b :: bs =>
    have hfull : s.ncnt.toNat = 511 := hhead.resolve_left (by rw [ha]; simp)
    rw [ha, hfull] at h
    obtain ⟨rfl, rfl⟩ := h.full
    obtain ⟨t, hadv, hn, -, -, hrun⟩ := runs_tag b k s bs hm hs ha
    rw [useTag_full b k (by rw [hn]; exact hfull)] at hrun
    exact ⟨t, hadv.moved, hrun.mono (hone (by omega))⟩

/-- Reading a tree section that does not fit the store or the session stops with an error (R200). -/
theorem runs_readTree_stop (T : Tree) (k : List Stmt) (s : State) (e : ErrCode) (q : Nat)
    (hm : s.bbMode = .read) (hs : Supplied s) (hcap : s.ncnt.toNat ≤ 511)
    (h : TreeStops T (avail s) (511 - s.ncnt.toNat) e q) :
    ∃ t, Moved q s t ∧ RunsIn ((q + 1) * (s.bufBytes + 4)) (s.withTodo (.readBit .tag :: k))
      (t.withTodo [.bbClose, .fail e]) := by
  induction T generalizing k s e q with
  | leaf sym =>
    by_cases hhead : avail s = [] ∨ s.ncnt.toNat = 511
    · exact runs_readTree_stop_head _ k s e q hm hs h hhead
    rw [not_or] at hhead
    match ha : avail s with
    | [] => exact absurd ha hhead.1
    | b :: bs =>
      have hlt : s.ncnt.toNat < 511 := by omega
      rw [ha, show 511 - s.ncnt.toNat = 510 - s.ncnt.toNat + 1 by omega] at h
      obtain ⟨rfl, rfl, x, hx, hbs⟩ := h.leaf
      obtain ⟨rfl, hx'⟩ : true = b ∧ bitsOfByte sym = bs ++ x := by simpa using hbs
      have hl8 : bs.length < 7 + 1 := by
        have h1 := congrArg List.length hx'
        have h2 := List.length_pos_of_ne_nil hx
        simp at h1; omega
      obtain ⟨t, hadv, hn, hnode, hstack, hrun⟩ := runs_tag true k s bs hm hs ha
      rw [useTag_leaf k (by rw [hn]; exact hlt)] at hrun
      have hmov := hadv.moved.withWork t.node (t.ncnt + 1#10) t.stack
      have hat : avail (t.withWork t.node (t.ncnt + 1#10) t.stack) = bs := by rw [hmov.avail, ha]; rfl
      obtain ⟨u, hadv2, hrun2⟩ := runs_symbol_short t.nextIdx k 7 0#8
        (t.withWork t.node (t.ncnt + 1#10) t.stack) (hmov.mode.trans hm) hmov.supplied
        (by rw [hat]; exact hl8)
      rw [hat] at hadv2 hrun2
      refine ⟨u, by rw [List.length_cons, Nat.add_comm]; exact hmov.trans hadv2.moved,
        (hrun.trans hrun2).mono ?_⟩
      rw [hmov.bufBytes, List.length_cons]
      ring_nf; omega
  | node l r hl hr =>
    by_cases hhead : avail s = [] ∨ s.ncnt.toNat = 511
    · exact runs_readTree_stop_head _ k s e q hm hs h hhead
    rw [not_or] at hhead
    match ha : avail s with
    | [] => exact absurd ha hhead.1
    | b :: bs =>
      have hlt : s.ncnt.toNat < 511 := by omega
      rw [ha, show 511 - s.ncnt.toNat = 510 - s.ncnt.toNat + 1 by omega] at h
      obtain ⟨rfl, hsplit⟩ := h.node
      obtain ⟨t, hadv, hn, hnode, hstack, hrun⟩ := runs_tag false k s bs hm hs ha
      rw [useTag_internal k (by rw [hn]; exact hlt)] at hrun
      have hmov := hadv.moved.withWork t.node (t.ncnt + 1#10) (.needLeft t.nextIdx :: t.stack)
      have hn1 : (t.withWork t.node (t.ncnt + 1#10) (.needLeft t.nextIdx :: t.stack)).ncnt.toNat
          = s.ncnt.toNat + 1 := by
        rw [← hn]; exact ncnt_succ (by rw [hn]; exact hlt)
      have hat : avail (t.withWork t.node (t.ncnt + 1#10) (.needLeft t.nextIdx :: t.stack)) = bs := by
        rw [hmov.avail, ha]; rfl
      have hroom : 510 - s.ncnt.toNat = 511 - (s.ncnt.toNat + 1) := by omega
      rcases hsplit with ⟨q', rfl, hstop⟩ | ⟨rest, q', hrest, hln, rfl, hstop⟩
      · obtain ⟨u, hu, hrun2⟩ := hl k _ e q' (hmov.mode.trans hm) hmov.supplied (by rw [hn1]; omega)
          (by rw [hat, hn1, ← hroom]; exact hstop)
        refine ⟨u, hmov.trans hu, (hrun.trans hrun2).mono ?_⟩
        rw [hmov.bufBytes]
        ring_nf; omega
      · obtain ⟨u, hu, hul, hrun2⟩ := runs_readTree l k _ rest (hmov.mode.trans hm) hmov.supplied
          (by rw [hat, hrest]) (by rw [hn1]; omega)
        rw [hn1] at hrun2
        have hstep := step_nodeDone_left (BitVec.ofNat 9 (s.ncnt.toNat + 1)) t.nextIdx t.stack k u hu.stack
        have hmov2 := (hmov.trans hu.moved).withWork u.node u.ncnt
          (.needRight t.nextIdx (BitVec.ofNat 9 (s.ncnt.toNat + 1)) :: t.stack)
        have hn2 : u.ncnt.toNat = s.ncnt.toNat + 1 + l.nodes := by rw [hu.ncnt, hn1]
        have hau : avail (u.withWork u.node u.ncnt
            (.needRight t.nextIdx (BitVec.ofNat 9 (s.ncnt.toNat + 1)) :: t.stack)) = rest := by
          rw [hmov2.avail, ha, Nat.add_comm, List.drop_succ_cons, hrest, List.drop_left]
        obtain ⟨v, hv, hrun3⟩ := hr k (u.withWork u.node u.ncnt
            (.needRight t.nextIdx (BitVec.ofNat 9 (s.ncnt.toNat + 1)) :: t.stack)) e q'
          (hmov2.mode.trans hm) hmov2.supplied (by show u.ncnt.toNat ≤ _; rw [hn2]; omega) (by
            rw [hau]
            show TreeStops r rest (511 - u.ncnt.toNat) e q'
            rw [hn2, show 511 - (s.ncnt.toNat + 1 + l.nodes) = 510 - s.ncnt.toNat - l.nodes by omega]
            exact hstop)
        refine ⟨v, hmov2.trans hv, ((hrun.trans hrun2).trans (.step hstep hrun3)).mono ?_⟩
        rw [hmov.bufBytes, hmov2.bufBytes]
        have hlen : 2 * l.nodes ≤ l.serialize.length := by
          rw [l.length_serialize]; have := l.nodes_eq; omega
        have e1 : (1 + l.serialize.length + q' + 1) * (s.bufBytes + 4)
            = l.serialize.length * (s.bufBytes + 3) + l.serialize.length
              + (q' + 1) * (s.bufBytes + 4) + (s.bufBytes + 4) := by ring
        rw [e1]; omega

/-- Any bits are a whole tree section and more, or end inside one. -/
theorem parse_total (bits : List Bool) :
    (∃ (T : Tree) (rest : List Bool), bits = T.serialize ++ rest) ∨
      (∃ (T : Tree) (x : List Bool), x ≠ [] ∧ T.serialize = bits ++ x) := by
  induction h : bits.length using Nat.strong_induction_on generalizing bits with
  | _ n ih =>
    match bits, h with
    | [], _ => exact .inr ⟨.leaf 0#8, (Tree.leaf 0#8).serialize, by simp [Tree.serialize], rfl⟩
    | true :: bs, _ =>
      by_cases h8 : bs.length < 8
      · have hlen : ∀ y, (bs ++ y).length = 8 → ∃ sym, bitsOfByte sym = bs ++ y := by
          intro y hy
          match hz : bs ++ y, hy with
          | [b0, b1, b2, b3, b4, b5, b6, b7], _ => exact ⟨_, bitsOfByte_streamByte b0 b1 b2 b3 b4 b5 b6 b7 []⟩
        obtain ⟨sym, hsym⟩ := hlen (List.replicate (8 - bs.length) false) (by simp; omega)
        refine .inr ⟨.leaf sym, List.replicate (8 - bs.length) false, ?_, by simp [Tree.serialize, hsym]⟩
        simp; omega
      · match bs, h8 with
        | b0 :: b1 :: b2 :: b3 :: b4 :: b5 :: b6 :: b7 :: rest, _ =>
          exact .inl ⟨.leaf (streamByte (b0 :: b1 :: b2 :: b3 :: b4 :: b5 :: b6 :: b7 :: []) 0), rest,
            by simp [Tree.serialize, bitsOfByte_streamByte]⟩
        | [], h8 => simp at h8
        | [_], h8 => simp at h8
        | [_, _], h8 => simp at h8
        | [_, _, _], h8 => simp at h8
        | [_, _, _, _], h8 => simp at h8
        | [_, _, _, _, _], h8 => simp at h8
        | [_, _, _, _, _, _], h8 => simp at h8
        | [_, _, _, _, _, _, _], h8 => simp at h8
    | false :: bs, hn =>
      rcases ih bs.length (by rw [← hn]; simp) bs rfl with ⟨l, rest, hl⟩ | ⟨l, x, hx, hl⟩
      · have hlp : 0 < l.serialize.length := by rw [l.length_serialize]; have := l.nodes_pos; omega
        rcases ih rest.length (by rw [← hn, hl]; simp) rest rfl with ⟨r, rest', hr⟩ | ⟨r, x, hx, hr⟩
        · exact .inl ⟨.node l r, rest', by rw [hl, hr, Tree.serialize]; simp⟩
        · exact .inr ⟨.node l r, x, hx, by rw [Tree.serialize, hr, hl]; simp⟩
      · exact .inr ⟨.node l (.leaf 0#8), x ++ (Tree.leaf 0#8).serialize, by simp [hx],
          by simp [Tree.serialize, hl]⟩

/-- Any bits are a whole tree section that fits the store, and more; or they stop the reading of some tree
(R200). -/
theorem section_total (bits : List Bool) (room : Nat) :
    (∃ (T : Tree) (rest : List Bool), bits = T.serialize ++ rest ∧ T.nodes ≤ room) ∨
      ∃ (T : Tree) (e : ErrCode) (r : Nat), TreeStops T bits room e r := by
  rcases parse_total bits with ⟨T, rest, hT⟩ | ⟨T, x, hx, hT⟩
  · by_cases hn : T.nodes ≤ room
    · exact .inl ⟨T, rest, hT, hn⟩
    · obtain ⟨more, hmore, hne⟩ := T.serialize_eq_firstRecords room
      obtain ⟨b, more', rfl⟩ := List.exists_cons_of_ne_nil (hne (by omega))
      exact .inr ⟨T, _, _, .inl ⟨rfl, by omega, rfl, b, more' ++ rest, by rw [hT, hmore]; simp⟩⟩
  · obtain ⟨more, hmore, hne⟩ := T.serialize_eq_firstRecords room
    by_cases hlen : bits.length ≤ (T.firstRecords room).length
    · exact .inr ⟨T, _, _, .inr ⟨rfl, rfl, hlen, x, hx, hT⟩⟩
    · obtain ⟨y, hy⟩ : ∃ y, T.firstRecords room ++ y = bits :=
        List.prefix_of_prefix_length_le ⟨more, hmore.symm⟩ ⟨x, hT.symm⟩ (by omega)
      match y, hy with
      | [], hy => exact absurd (by rw [← hy]; simp) hlen
      | b :: y, hy =>
        refine .inr ⟨T, _, _, .inl ⟨rfl, ?_, rfl, b, y, hy.symm⟩⟩
        by_contra hn
        have h1 := congrArg List.length hT
        rw [T.firstRecords_all (by omega)] at hlen
        rw [List.length_append] at h1
        omega

/-! ### What a read leaves alone -/

/-- Only the read position, the tree store, NCNT and STACK can differ. -/
theorem Moved.eq {r : Nat} {s t : State} (h : Moved r s t) :
    t = (s.withWork t.node t.ncnt t.stack).reseat t.bbBits t.bbRemain t.inCount t.env.sIn := by
  obtain ⟨N, C, S, ⟨B, n, _, rfl⟩, _⟩ := h
  rfl

/-- The bytes taken. -/
theorem Moved.taken {r : Nat} {s t : State} (h : Moved r s t) :
    ∃ n, n ≤ s.bbRemain.toNat ∧ t.bbRemain.toNat = s.bbRemain.toNat - n ∧
      t.inCount = s.inCount + BitVec.ofNat 32 n ∧ t.env.sIn = s.env.sIn.drop n := by
  obtain ⟨N, C, S, ⟨B, n, hn, rfl⟩, _⟩ := h
  exact ⟨n, hn, remain_sub hn, rfl, rfl⟩

theorem Moved.session {r : Nat} {s t : State} (h : Moved r s t) {n0 p : Nat} (hs : Session n0 p s) :
    Session n0 (p + r) t := by
  obtain ⟨N, C, S, h⟩ := h
  exact h.2.2.2 n0 p hs

/-- The bytes taken from a session that has just been opened (R128). -/
theorem Moved.taken_fresh {r : Nat} {s t : State} (h : Moved r s t) (hb : s.bbBits = []) :
    t.inCount = s.inCount + BitVec.ofNat 32
        (min s.bbRemain.toNat (s.bufBytes * ((r + s.bufBits - 1) / s.bufBits))) ∧
      t.env.sIn = s.env.sIn.drop (min s.bbRemain.toNat (s.bufBytes * ((r + s.bufBits - 1) / s.bufBits))) ∧
      t.bbRemain.toNat
        = s.bbRemain.toNat - min s.bbRemain.toNat (s.bufBytes * ((r + s.bufBits - 1) / s.bufBits)) := by
  have h0 : Session s.bbRemain.toNat 0 s := by
    refine ⟨le_rfl, by simp [hb], ?_⟩
    have : (0 + s.bufBits - 1) / s.bufBits = 0 := by
      rw [Nat.div_eq_zero_iff]; right; simp only [State.bufBits, State.bufBytes]; omega
    rw [this]; simp
  obtain ⟨_, _, h3⟩ := h.session h0
  obtain ⟨n, hn, hr, hc, hi⟩ := h.taken
  have hB : t.bufBytes = s.bufBytes := h.bufBytes
  have hBB : t.bufBits = s.bufBits := by rw [State.bufBits, hB, State.bufBits]
  rw [hB, hBB, Nat.zero_add, hr, Nat.sub_sub_self hn] at h3
  rw [← h3]
  exact ⟨hc, hi, hr⟩

/-! ### DEC_TREE -/

/-- The state in which DEC_TREE reads its first tag bit (R207). -/
def decTreeStart (s : State) : State :=
  { s with
    phase := 0x20#8
    treeValid := false
    tableValid := false
    degenerate := false
    bbMode := .read
    bbBits := []
    bbRemain := s.srcLen
    ncnt := 0#10
    stack := [] }

theorem decTreeStart_eq (s : State) :
    stepTreeReadStart (stepBbOpen .read (stepClearTreeFlags (s.withPhase 0x20#8))) = decTreeStart s := by
  simp [stepTreeReadStart, stepBbOpen, stepClearTreeFlags, State.withPhase, decTreeStart]

theorem step_clearTreeFlags (k : List Stmt) (s : State) :
    coreStep (s.withTodo (.clearTreeFlags :: k)) = some ((stepClearTreeFlags s).withTodo k) := rfl

theorem step_treeReadStart (k : List Stmt) (s : State) :
    coreStep (s.withTodo (.treeReadStart :: k)) = some ((stepTreeReadStart s).withTodo k) := rfl

theorem runs_decTree_start (k : List Stmt) (s : State) (h : s.bbMode = .closed) :
    RunsIn 5 (s.withTodo (bodyDecTree ++ k)) ((decTreeStart s).withTodo (.readBit .tag :: k)) := by
  rw [← decTreeStart_eq]
  exact .step (step_phase _ _ _) (.step (step_needMode _ h) (.step (step_clearTreeFlags _ _)
    (.step (step_bbOpen _ _ _) (.one (step_treeReadStart _ _)))))

theorem avail_decTreeStart (s : State) :
    avail (decTreeStart s) = (s.env.sIn.take s.srcLen.toNat).flatMap bitsOfByte := rfl

/-- The state after the tree section of a tree with an internal root (R207). -/
def decTreeEnd (t : State) : State := { t with root := 0#9, treeValid := true }

theorem step_rootRead {s : State} {r : NodeIdx} (k : List Stmt) :
    coreStep (s.withTodo (.rootRead r :: k)) = some (if (s.nodeAt r).isLeaf
      then s.withTodo [.bbClose, .fail .treeMalformed]
      else { s with root := r, treeValid := true }.withTodo k) := by
  rw [coreStep_withTodo]
  simp only [runStmt, stepRootRead, nodeAt_congr (s := s.withTodo k) (t := s) rfl]
  split <;> rfl

theorem step_nodeDone_root {s : State} {i : NodeIdx} (k : List Stmt) (h : s.stack = []) :
    coreStep (s.withTodo (.nodeDone i :: k)) = some (s.withTodo (.rootRead i :: k)) := by
  rw [coreStep_withTodo]
  simp only [runStmt, stepNodeDone, withTodo_stack, h]
  rfl

theorem HoldsPreorder.isLeaf {s : State} {T : Tree} {i : Nat} (h : HoldsPreorder s i T) :
    (s.nodeAt (BitVec.ofNat 9 i)).isLeaf = T.isLeaf := by
  cases T with
  | leaf sym => rw [show s.nodeAt (BitVec.ofNat 9 i) = _ from h]; rfl
  | node l r => rw [h.1]; rfl

/-- DEC_TREE on a stream that begins with a tree section that fits the store: the tree is in NODE, and
the root's kind decides (R200, R201, R207). -/
theorem runs_decTree (T : Tree) (k : List Stmt) (s : State) (rest : List Bool)
    (hmode : s.bbMode = .closed) (hsup : s.srcLen.toNat ≤ s.env.sIn.length)
    (hbits : (s.env.sIn.take s.srcLen.toNat).flatMap bitsOfByte = T.serialize ++ rest)
    (hcap : T.nodes ≤ 511) :
    ∃ t, Moved T.serialize.length (decTreeStart s) t ∧ t.ncnt.toNat = T.nodes ∧ HoldsPreorder t 0 T ∧
      RunsIn (5 + (T.serialize.length * (s.bufBytes + 3) + 2 * T.nodes) + 2)
        (s.withTodo (bodyDecTree ++ k))
        (if T.isLeaf then t.withTodo [.bbClose, .fail .treeMalformed] else (decTreeEnd t).withTodo k) := by
  obtain ⟨t, ht, hp, hrun⟩ := runs_readTree T k (decTreeStart s) rest rfl hsup hbits
    (by show 0 + T.nodes ≤ 511; omega)
  refine ⟨t, ht.moved, by rw [ht.ncnt]; exact Nat.zero_add _, hp, ?_⟩
  refine ((runs_decTree_start k s hmode).trans hrun).trans (.step (step_nodeDone_root k ht.stack) (.one ?_))
  rw [step_rootRead]
  change some (if (t.nodeAt (BitVec.ofNat 9 0)).isLeaf then _ else _) = _
  rw [HoldsPreorder.isLeaf (s := t) (i := 0) hp]
  split <;> rfl

/-- DEC_TREE on a stream that begins with no tree section that fits the store (R200). -/
theorem runs_decTree_stop (T : Tree) (k : List Stmt) (s : State) (e : ErrCode) (r : Nat)
    (hmode : s.bbMode = .closed) (hsup : s.srcLen.toNat ≤ s.env.sIn.length)
    (h : TreeStops T ((s.env.sIn.take s.srcLen.toNat).flatMap bitsOfByte) 511 e r) :
    ∃ t, Moved r (decTreeStart s) t ∧ RunsIn (5 + (r + 1) * (s.bufBytes + 4))
      (s.withTodo (bodyDecTree ++ k)) (t.withTodo [.bbClose, .fail e]) := by
  obtain ⟨t, ht, hrun⟩ := runs_readTree_stop T k (decTreeStart s) e r rfl hsup (Nat.zero_le _) h
  exact ⟨t, ht, (runs_decTree_start k s hmode).trans hrun⟩

/-! ### DEC_PAYLOAD -/

/-- `s` with another descent position. -/
def State.withCur (s : State) (c : NodeIdx) : State := { s with cur := c }

/-- `t` is `s` after `r` bits of the session have been read and the symbols `out` emitted. -/
def Spelt (r : Nat) (out : List Byte) (s t : State) : Prop :=
  ∃ c, Advanced r ((s.sent out).withCur c) t

theorem advanced_sent {r : Nat} {s t : State} (h : Advanced r s t) (l : List Byte) (c : NodeIdx) :
    Advanced r ((s.sent l).withCur c) ((t.sent l).withCur c) := by
  obtain ⟨⟨B, n, hn, rfl⟩, h2, h3, h4⟩ := h
  exact ⟨⟨B, n, hn, rfl⟩, h2, h3, h4⟩

theorem Spelt.trans {a b : Nat} {x y : List Byte} {s t u : State} (h : Spelt a x s t)
    (g : Spelt b y t u) : Spelt (a + b) (x ++ y) s u := by
  obtain ⟨c, h⟩ := h
  obtain ⟨d, g⟩ := g
  have h' := advanced_sent h y d
  refine ⟨d, ?_⟩
  have e : (((s.sent x).withCur c).sent y).withCur d = (s.sent (x ++ y)).withCur d := by
    rw [← sent_sent]; rfl
  rw [e] at h'
  exact h'.trans g

theorem Advanced.spelt {r : Nat} {s t : State} (h : Advanced r s t) (c : NodeIdx) :
    Spelt r [] s (t.withCur c) := by
  obtain ⟨⟨B, n, hn, rfl⟩, h2, h3, h4⟩ := h
  exact ⟨c, ⟨B, n, hn, by rw [sent_nil]; rfl⟩, h2, h3, h4⟩

theorem Spelt.eq {r : Nat} {out : List Byte} {s t : State} (h : Spelt r out s t) :
    t = ((s.sent out).withCur t.cur).reseat t.bbBits t.bbRemain t.inCount t.env.sIn := by
  obtain ⟨c, ⟨B, n, _, rfl⟩, _⟩ := h
  rfl

theorem Spelt.taken {r : Nat} {out : List Byte} {s t : State} (h : Spelt r out s t) :
    ∃ n, n ≤ s.bbRemain.toNat ∧ t.bbRemain.toNat = s.bbRemain.toNat - n ∧
      t.inCount = s.inCount + BitVec.ofNat 32 n ∧ t.env.sIn = s.env.sIn.drop n := by
  obtain ⟨c, ⟨B, n, hn, rfl⟩, _⟩ := h
  exact ⟨n, hn, remain_sub hn, rfl, rfl⟩

theorem Spelt.supplied {r : Nat} {out : List Byte} {s t : State} (h : Spelt r out s t) : Supplied t :=
  let ⟨_, h⟩ := h
  h.2.1

theorem Spelt.avail {r : Nat} {out : List Byte} {s t : State} (h : Spelt r out s t) :
    Machine.avail t = (Machine.avail s).drop r :=
  let ⟨_, h⟩ := h
  h.2.2.1

/-- What the symbol loop needs to go on from `s`. -/
structure Descending (root : Tree) (cur : Tree) (s : State) : Prop where
  mode : s.bbMode = .read
  supplied : Supplied s
  sink : s.env.sink = none
  root : HoldsTree s s.root root
  cur : HoldsTree s s.cur cur

theorem HoldsTree.child {s : State} {l r : Tree} {i : NodeIdx} (h : HoldsTree s i (.node l r)) (b : Bool)
    (k : List Stmt) (hi : i = s.cur) : ∃ c, HoldsTree s c ((Format.Tree.node l r).child b) ∧
      useDescentBit b (s.withTodo k) = (s.withCur c).withTodo k := by
  obtain ⟨x, y, f, hf, hl, hr⟩ := h
  subst hi
  refine ⟨if b then y else x, ?_, ?_⟩
  · cases b <;> simpa [Format.Tree.child]
  · simp only [useDescentBit, nodeAt_congr (s := s.withTodo k) (t := s) rfl, withTodo_cur, hf]
    rfl

theorem step_symbolLoop_node {s : State} {l r : Tree} (k : List Stmt) (h : HoldsTree s s.cur (.node l r)) :
    coreStep (s.withTodo (.symbolLoop :: k))
      = some (s.withTodo (.readBit .descent :: .symbolLoop :: k)) := by
  obtain ⟨x, y, f, hf, -, -⟩ := h
  rw [coreStep_withTodo]
  simp only [runStmt, stepSymbolLoop, nodeAt_congr (s := s.withTodo k) (t := s) rfl, withTodo_cur, hf]
  rfl

theorem step_symbolLoop_leaf {s : State} {sym : Byte} (k : List Stmt) (h : HoldsTree s s.cur (.leaf sym)) :
    coreStep (s.withTodo (.symbolLoop :: k)) = if sym = s.dsent then some (s.withTodo k)
      else some (s.withTodo (.outByte sym :: .descendStart :: .symbolLoop :: k)) := by
  obtain ⟨f, hf⟩ := h
  rw [coreStep_withTodo]
  simp only [runStmt, stepSymbolLoop, nodeAt_congr (s := s.withTodo k) (t := s) rfl, withTodo_cur, hf,
    push_withTodo]
  by_cases hσ : sym = s.dsent
  · rw [if_pos (show sym = (s.withTodo k).dsent from hσ), if_pos hσ]
  · rw [if_neg (show ¬ sym = (s.withTodo k).dsent from hσ), if_neg hσ]; rfl

theorem HoldsTree.spelt {r : Nat} {out : List Byte} {s t : State} (h : Spelt r out s t) {T : Tree}
    {i : NodeIdx} (hT : HoldsTree s i T) : HoldsTree t i T :=
  hT.congr ((congrArg State.node h.eq).trans rfl)

/-- The symbol loop (R203, R204): it emits what the bits spell, and ends at the sentinel or by
END_OF_STREAM after the last bit (R206). -/
theorem runs_symbolLoop (l r : Tree) (bits : List Bool) (cl cr : Tree) (k : List Stmt) (s : State)
    (h : Descending (.node l r) (.node cl cr) s) (ha : Machine.avail s = bits) :
    ∃ p t, p ≤ bits.length ∧
      Spelt p (Tree.spell (.node l r) s.dsent (.node cl cr) bits).1 s t ∧
      ((Tree.spell (.node l r) s.dsent (.node cl cr) bits).2 = false → p = bits.length) ∧
      RunsIn ((bits.length + 1) * (s.bufBytes + 8)) (s.withTodo (.symbolLoop :: k))
        (if (Tree.spell (.node l r) s.dsent (.node cl cr) bits).2 then t.withTodo k
          else t.withTodo [.bbClose, .fail .endOfStream]) := by
  induction bits generalizing cl cr s with
  | nil =>
    refine ⟨0, s, Nat.zero_le _, (Advanced.refl h.supplied).spelt s.cur, fun _ => rfl, ?_⟩
    have h1 := runs_readBit_end .descent (.symbolLoop :: k) s h.mode h.supplied ha
    exact (RunsIn.step (step_symbolLoop_node k h.cur) h1).mono (by simp)
  | cons b bits ih =>
    obtain ⟨t, hadv, hrun⟩ := runs_bit .descent (.symbolLoop :: k) s b bits h.mode h.supplied ha
    have hT : HoldsTree t t.cur (.node cl cr) := by
      have hc : t.cur = s.cur := by obtain ⟨⟨B, n, _, rfl⟩, _⟩ := hadv; rfl
      rw [hc]; exact h.cur.congr hadv.node
    obtain ⟨c, hc, hstep⟩ := hT.child b (.symbolLoop :: k) rfl
    rw [show deliverBit .descent b (t.withTodo (.symbolLoop :: k))
      = useDescentBit b (t.withTodo (.symbolLoop :: k)) from rfl, hstep] at hrun
    have hsp : Spelt 1 [] s (t.withCur c) := hadv.spelt c
    have hd : (t.withCur c).dsent = s.dsent := (congrArg State.dsent hsp.eq).trans rfl
    have hroot : HoldsTree (t.withCur c) (t.withCur c).root (.node l r) := by
      rw [show (t.withCur c).root = s.root from (congrArg State.root hsp.eq).trans rfl]
      exact h.root.spelt hsp
    have hmode : (t.withCur c).bbMode = .read := (congrArg State.bbMode hsp.eq).trans h.mode
    have hsink : (t.withCur c).env.sink = none := (congrArg (fun x => x.env.sink) hsp.eq).trans h.sink
    have hB : (t.withCur c).bufBytes = s.bufBytes := (congrArg State.bufBytes hsp.eq).trans rfl
    have hav : Machine.avail (t.withCur c) = bits := by rw [hsp.avail, ha]; rfl
    have hchain := RunsIn.step (step_symbolLoop_node k h.cur) hrun
    have hcc : HoldsTree (t.withCur c) (t.withCur c).cur ((Format.Tree.node cl cr).child b) :=
      hc.congr rfl
    have hmul : (bits.length + 1 + 1) * (s.bufBytes + 8)
        = (bits.length + 1) * (s.bufBytes + 8) + (s.bufBytes + 8) := by ring
    cases hchild : (Format.Tree.node cl cr).child b with
    | leaf sym =>
      rw [hchild] at hcc
      have hleaf := step_symbolLoop_leaf k hcc
      rw [hd] at hleaf
      simp only [Tree.spell, hchild]
      by_cases hσ : sym = s.dsent
      · rw [if_pos hσ] at hleaf
        rw [if_pos hσ]
        refine ⟨1, t.withCur c, by simp, hsp, by simp, ?_⟩
        simp only [if_true]
        exact (hchain.trans (.one hleaf)).mono (by
          simp only [List.length_cons]; rw [hmul]; omega)
      · rw [if_neg hσ] at hleaf
        simp only [if_neg hσ]
        let v := ((t.withCur c).sent [sym]).withCur (t.withCur c).root
        have hv : Spelt (1 + 0) ([] ++ [sym]) s v := by
          refine hsp.trans ⟨(t.withCur c).root, ?_⟩
          have := advanced_sent (Advanced.refl hsp.supplied) [sym] (t.withCur c).root
          exact this
        have h1 : coreStep ((t.withCur c).withTodo (.outByte sym :: .descendStart :: .symbolLoop :: k))
            = some (((t.withCur c).sent [sym]).withTodo (.descendStart :: .symbolLoop :: k)) := by
          simp [State.withTodo, coreStep, runStmt, State.outByte, hsink, State.sent]
        have h2 : coreStep (((t.withCur c).sent [sym]).withTodo (.descendStart :: .symbolLoop :: k))
            = some (v.withTodo (.symbolLoop :: k)) := rfl
        have hvd : v.dsent = s.dsent := (congrArg State.dsent hv.eq).trans rfl
        obtain ⟨p, u, hp, hu, hpe, hrun2⟩ := ih l r v ⟨hmode, hsp.supplied, hsink, hroot.congr rfl,
          hroot.congr rfl⟩ hav
        rw [hvd] at hu hpe hrun2
        refine ⟨1 + p, u, by simp only [List.length_cons]; omega, hv.trans hu,
          fun hf => by rw [hpe hf, List.length_cons, Nat.add_comm], ?_⟩
        have hvB : v.bufBytes = s.bufBytes := hB
        rw [hvB] at hrun2
        exact (hchain.trans (.step hleaf (.step h1 (.step h2 hrun2)))).mono (by
          simp only [List.length_cons]; rw [hmul]; omega)
    | node cl' cr' =>
      rw [hchild] at hcc
      obtain ⟨p, u, hp, hu, hpe, hrun2⟩ := ih cl' cr' (t.withCur c)
        ⟨hmode, hsp.supplied, hsink, hroot, hcc⟩ hav
      rw [hd] at hu hpe hrun2
      simp only [Tree.spell, hchild]
      refine ⟨1 + p, u, by simp only [List.length_cons]; omega, hsp.trans hu,
        fun hf => by rw [hpe hf, List.length_cons, Nat.add_comm], ?_⟩
      rw [hB] at hrun2
      exact (hchain.trans hrun2).mono (by simp only [List.length_cons]; rw [hmul]; omega)

/-- The effect of the drain (R205). -/
def drained (s : State) : State :=
  s.reseat s.bbBits 0#32 (s.inCount + s.bbRemain) (s.env.sIn.drop s.bbRemain.toNat)

theorem runs_drain (n : Nat) (k : List Stmt) (s : State) (hs : Supplied s) (hn : s.bbRemain.toNat = n) :
    RunsIn (n + 1) (s.withTodo (.drain :: k)) ((drained s).withTodo k) := by
  induction n generalizing s with
  | zero =>
    have h0 : s.bbRemain = 0#32 := BitVec.eq_of_toNat_eq (by simpa using hn)
    have hd : drained s = s := by
      have h1 : s.inCount + s.bbRemain = s.inCount := by rw [h0]; simp
      have h2 : s.env.sIn.drop s.bbRemain.toNat = s.env.sIn := by rw [h0]; rfl
      rw [drained, h1, h2, ← h0, reseat_self]
    rw [hd]
    exact .one (by simp [coreStep_withTodo, runStmt, stepDrain, h0])
  | succ n ih =>
    have h0 : s.bbRemain ≠ 0#32 := fun h => by rw [h] at hn; simp at hn
    simp only [Supplied] at hs
    obtain ⟨v, rest, hv⟩ : ∃ v rest, s.env.sIn = v :: rest := by
      cases hx : s.env.sIn with
      | nil => rw [hx] at hs; simp at hs; omega
      | cons v rest => exact ⟨v, rest, rfl⟩
    have h1 : (s.bbRemain - 1#32).toNat = n := by
      rw [show (1#32) = BitVec.ofNat 32 1 from rfl, remain_sub (by omega), hn]; rfl
    have hstep : coreStep (s.withTodo (.drain :: k)) = some ((s.reseat s.bbBits (s.bbRemain - 1#32)
        (s.inCount + 1#32) rest).withTodo (.drain :: k)) := by
      rw [coreStep_withTodo]
      simp [runStmt, stepDrain, State.inByte, hv, h0, State.reseat, State.push, State.withTodo]
    have h2 := ih (s.reseat s.bbBits (s.bbRemain - 1#32) (s.inCount + 1#32) rest)
      (by show (s.bbRemain - 1#32).toNat ≤ rest.length
          rw [h1]; rw [hv, List.length_cons] at hs; omega) h1
    have h3 : drained (s.reseat s.bbBits (s.bbRemain - 1#32) (s.inCount + 1#32) rest) = drained s := by
      simp only [drained, reseat_reseat, reseat_bbBits, reseat_bbRemain, reseat_inCount, reseat_env, h1,
        hn, hv, List.drop_succ_cons]
      congr 1
      rw [BitVec.add_assoc]; congr 1
      exact add_sub_cancel _ _
    rw [h3] at h2
    exact .step hstep h2

/-- The state in which DEC_PAYLOAD's symbol loop starts (R208). -/
def decPayloadStart (s : State) : State :=
  { s with phase := 0x21#8, dsent := s.sentinel, cur := s.root }

theorem decPayloadStart_eq (s : State) :
    stepDescendStart (stepSampleSentinel (s.withPhase 0x21#8)) = decPayloadStart s := by
  simp [stepDescendStart, stepSampleSentinel, State.withPhase, decPayloadStart]

theorem step_sampleSentinel (k : List Stmt) (s : State) :
    coreStep (s.withTodo (.sampleSentinel :: k)) = some ((stepSampleSentinel s).withTodo k) := rfl

theorem step_descendStart (k : List Stmt) (s : State) :
    coreStep (s.withTodo (.descendStart :: k)) = some ((stepDescendStart s).withTodo k) := rfl

theorem runs_decPayload_start (k : List Stmt) (s : State) (hv : s.treeValid = true)
    (hm : s.bbMode = .read) :
    RunsIn 5 (s.withTodo (bodyDecPayload ++ k))
      ((decPayloadStart s).withTodo (.symbolLoop :: .drain :: .bbClose :: k)) := by
  rw [← decPayloadStart_eq]
  exact .step (step_phase _ _ _) (.step (step_needFlag (f := .tree) _ hv) (.step (step_needMode _ hm)
    (.step (step_sampleSentinel _ _) (.one (step_descendStart _ _)))))

/-- The state at the end of DEC_PAYLOAD: the symbols `out` sent, every byte of the session taken, the
buffer closed (R205, R208). -/
def State.paidOut (s : State) (out : List Byte) (c : NodeIdx) : State :=
  { s with
    phase := 0x21#8, dsent := s.sentinel, cur := c, bbMode := .closed, bbBits := [], bbRemain := 0#32
    inCount := s.inCount + s.bbRemain
    outCount := s.outCount + BitVec.ofNat 32 out.length
    env := { s.env with sOut := s.env.sOut ++ out, sIn := s.env.sIn.drop s.bbRemain.toNat } }

/-- The drain and the close after the sentinel (R205). -/
theorem closeAll_drained {s t : State} {p : Nat} {out : List Byte} (hm : s.bbMode = .read)
    (h : Spelt p out (decPayloadStart s) t) : closeAll (drained t) = s.paidOut out t.cur := by
  obtain ⟨c, ⟨B, n, hn, rfl⟩, h2⟩ := h
  have hn' : n ≤ s.bbRemain.toNat := hn
  have e1 : s.inCount + BitVec.ofNat 32 n + (s.bbRemain - BitVec.ofNat 32 n) = s.inCount + s.bbRemain := by
    rw [BitVec.add_assoc]; congr 1; exact add_sub_cancel _ _
  have e2 : (s.env.sIn.drop n).drop (s.bbRemain - BitVec.ofNat 32 n).toNat
      = s.env.sIn.drop s.bbRemain.toNat := by
    rw [remain_sub hn', List.drop_drop]; congr 1; omega
  simp only [closeAll, drained, State.reseat, State.withCur, State.sent, decPayloadStart, State.paidOut,
    hm, e1, e2, reduceCtorEq, if_false]

/-- The error completion at the end of the bits has taken every byte too (R206). -/
theorem raised_spelt {s t : State} {p : Nat} {out : List Byte} (hm : s.bbMode = .read)
    (h : Spelt p out (decPayloadStart s) t) (hp : p = (avail s).length) (e : ErrCode) :
    raised t e = (s.paidOut out t.cur).failStep e := by
  have hav := h.avail
  rw [show avail (decPayloadStart s) = avail s from rfl, hp, List.drop_length] at hav
  obtain ⟨h1, h2⟩ := avail_nil h.supplied hav
  have hd : drained t = t := by
    have h3 : t.inCount + t.bbRemain = t.inCount := by rw [h2]; simp
    have h4 : t.env.sIn.drop t.bbRemain.toNat = t.env.sIn := by rw [h2]; rfl
    rw [drained, h3, h4, ← h2, reseat_self]
  unfold raised
  rw [← hd, closeAll_drained hm h, hd]

/-- DEC_PAYLOAD with a tree in the store and a supplied session (R203 to R206, R208). -/
theorem runs_decPayload (l r : Tree) (k : List Stmt) (s : State) (hv : s.treeValid = true)
    (hm : s.bbMode = .read) (hsup : Supplied s) (hsink : s.env.sink = none)
    (hT : HoldsTree s s.root (.node l r)) :
    ∃ p t, Spelt p (Tree.spell (.node l r) s.sentinel (.node l r) (avail s)).1 (decPayloadStart s) t ∧
      ((Tree.spell (.node l r) s.sentinel (.node l r) (avail s)).2 = false → p = (avail s).length) ∧
      RunsIn (((avail s).length + 1) * (s.bufBytes + 8) + 9 + s.bbRemain.toNat + (avail s).length)
        (s.withTodo (bodyDecPayload ++ k))
        (if (Tree.spell (.node l r) s.sentinel (.node l r) (avail s)).2
          then (closeAll (drained t)).withTodo k
          else t.withTodo [.bbClose, .fail .endOfStream]) := by
  obtain ⟨p, t, hp, ht, hpe, hrun⟩ := runs_symbolLoop l r (avail s) l r (.drain :: .bbClose :: k)
    (decPayloadStart s) ⟨hm, hsup, hsink, hT.congr rfl, hT.congr rfl⟩ rfl
  refine ⟨p, t, ht, hpe, ?_⟩
  have h1 := (runs_decPayload_start k s hv hm).trans hrun
  change RunsIn (5 + ((avail s).length + 1) * (s.bufBytes + 8)) _ _ at h1
  split at h1
  · rename_i hok
    have hok' : (Tree.spell (.node l r) s.sentinel (.node l r) (avail s)).2 = true := hok
    rw [if_pos hok']
    have h2 := runs_drain t.bbRemain.toNat (.bbClose :: k) t ht.supplied rfl
    have hst : (drained t).env.sink = none := (congrArg (fun x => x.env.sink) ht.eq).trans hsink
    have h3 := runs_bbClose k (drained t) hst
    obtain ⟨n, hn, hr, -, -⟩ := ht.taken
    have hav := ht.avail
    have hbl : (drained t).bbBits.length ≤ (avail s).length := by
      have h5 := congrArg List.length hav
      rw [List.length_drop] at h5
      simp only [avail, List.length_append] at h5
      show t.bbBits.length ≤ _
      have : avail (decPayloadStart s) = avail s := rfl
      simp only [avail, List.length_append] at this ⊢
      have e1 : (decPayloadStart s).bbBits = s.bbBits := rfl
      have e2 : (decPayloadStart s).env = s.env := rfl
      have e3 : (decPayloadStart s).bbRemain = s.bbRemain := rfl
      rw [e1, e2, e3] at h5
      omega
    have hr' : t.bbRemain.toNat ≤ s.bbRemain.toNat := by
      rw [hr]; exact Nat.sub_le _ _
    exact ((h1.trans h2).trans h3).mono (by omega)
  · rename_i hok
    have hok' : ¬ (Tree.spell (.node l r) s.sentinel (.node l r) (avail s)).2 = true := hok
    rw [if_neg hok']
    exact h1.mono (by omega)

end Sys2Proof.Machine
end

