-- ==== Sys2Proof/Laws/EncoderCount.lean ====
section
/-!
SUPPORT. Whole runs of the count pass, and what FREQ holds after it (42_encoder.md R155, R168).
-/

namespace Sys2Proof.Machine

open Sys2Proof.Format (counts)

/-- FREQ after the bytes `l` have been counted (R155). -/
def tallyAll (f : Vector Word 256) (l : List Byte) : Vector Word 256 :=
  l.foldl (fun f v => f.set v.toNat (f[v.toNat] + 1#32)) f

/-- `s` after the bytes `l`, the next of the source, have been taken and counted. -/
def counted (s : State) (l : List Byte) : State :=
  { s with
    freq := tallyAll s.freq l
    inCount := s.inCount + BitVec.ofNat 32 l.length
    env := { s.env with sIn := s.env.sIn.drop l.length } }

/-- `s` after one byte has been taken from the source. -/
def tookOne (s : State) (rest : List Byte) : State :=
  { s with inCount := s.inCount + 1#32, env := { s.env with sIn := rest } }

theorem counted_nil (s : State) : counted s [] = s := by
  simp [counted, tallyAll]

theorem inByte_cons {s : State} {v : Byte} {rest : List Byte} (h : s.env.sIn = v :: rest) :
    s.inByte = some (v, tookOne s rest) := by
  simp [State.inByte, h, tookOne]

theorem step_count {s : State} {v : Byte} {rest : List Byte} (n : Nat) (k : List Stmt)
    (h : s.env.sIn = v :: rest) : coreStep (s.withTodo (.count (n + 1) :: k))
      = some ((tookOne s rest).withTodo (.tally v :: .count n :: k)) := by
  rw [coreStep_withTodo]
  simp only [runStmt, stepCount, inByte_cons (s := s.withTodo k) (v := v) (rest := rest) h]
  rfl

theorem step_count_zero (k : List Stmt) (s : State) :
    coreStep (s.withTodo (.count 0 :: k)) = some (s.withTodo k) := rfl

/-- A byte that is no collision is counted (R155). -/
theorem step_tally {s : State} {v : Byte} (k : List Stmt) (h : ¬ (s.encColl = true ∧ v = s.encSent)) :
    coreStep (s.withTodo (.tally v :: k)) = some ((s.bumpFreq v).withTodo k) := by
  rw [coreStep_withTodo]
  simp only [runStmt, stepTally]
  rw [if_neg (show ¬ ((s.withTodo k).encColl = true ∧ v = (s.withTodo k).encSent) from h)]
  rfl

/-- A colliding byte is not counted (R155). -/
theorem step_tally_collision {s : State} {v : Byte} (k : List Stmt) (h : s.encColl = true ∧ v = s.encSent) :
    coreStep (s.withTodo (.tally v :: k)) = some (s.withTodo [.bbClose, .fail .sentinelCollision]) := by
  rw [coreStep_withTodo]
  simp only [runStmt, stepTally]
  rw [if_pos (show (s.withTodo k).encColl = true ∧ v = (s.withTodo k).encSent from h)]
  rfl

/-- The count pass over bytes without a collision. -/
theorem runs_count (l : List Byte) (m : Nat) (k : List Stmt) (s : State) (rest : List Byte)
    (hin : s.env.sIn = l ++ rest) (hok : s.encColl = true → s.encSent ∉ l) :
    RunsIn (2 * l.length) (s.withTodo (.count (l.length + m) :: k))
      ((counted s l).withTodo (.count m :: k)) := by
  induction l generalizing s with
  | nil => rw [counted_nil, List.length_nil, Nat.zero_add]; exact RunsIn.refl _ _
  | cons v l ih =>
    have hne : ¬ (s.encColl = true ∧ v = s.encSent) := fun h => hok h.1 (by rw [h.2]; simp)
    have h1 := step_count (l.length + m) k (s := s) hin
    rw [show l.length + m + 1 = (v :: l).length + m by simp; omega] at h1
    have h2 := step_tally (s := tookOne s (l ++ rest)) (.count (l.length + m) :: k) hne
    have h3 := ih ((tookOne s (l ++ rest)).bumpFreq v) rfl
      (fun h hm => hok h (List.mem_cons_of_mem _ hm))
    have h4 : counted ((tookOne s (l ++ rest)).bumpFreq v) l = counted s (v :: l) := by
      have e1 : s.inCount + BitVec.ofNat 32 (v :: l).length
          = s.inCount + 1#32 + BitVec.ofNat 32 l.length := by
        rw [List.length_cons, Nat.add_comm l.length 1, BitVec.ofNat_add, BitVec.add_assoc]
      have e2 : s.env.sIn.drop (v :: l).length = (l ++ rest).drop l.length := by rw [hin]; rfl
      unfold counted
      rw [e1, e2]
      rfl
    rw [h4] at h3
    exact (RunsIn.step h1 (.step h2 h3)).mono (by simp; omega)

theorem tallyAll_get (f : Vector Word 256) (l : List Byte) (v : Byte) :
    (tallyAll f l)[v.toNat] = f[v.toNat] + BitVec.ofNat 32 (l.count v) := by
  induction l generalizing f with
  | nil => simp [tallyAll]
  | cons u l ih =>
    have h : tallyAll f (u :: l) = tallyAll (f.set u.toNat (f[u.toNat] + 1#32)) l := rfl
    rw [h, ih]
    by_cases huv : u = v
    · subst huv
      rw [Vector.getElem_set_self, List.count_cons_self, BitVec.add_assoc, Nat.add_comm, BitVec.ofNat_add]
    · have hne : u.toNat ≠ v.toNat := fun h => huv (BitVec.eq_of_toNat_eq h)
      rw [Vector.getElem_set_ne _ _ hne, List.count_cons_of_ne huv]

/-! ### ENC_COUNT -/

/-- The state after ENC_COUNT's clears and latches (R168). -/
def encCountStart (s : State) : State :=
  { s with
    phase := 0x10#8
    freqValid := false
    treeValid := false
    tableValid := false
    degenerate := false
    encSent := s.sentinel
    encColl := s.collChk }

theorem encCountStart_eq (s : State) : stepEncLatch (s.withPhase 0x10#8) = encCountStart s := by
  simp [stepEncLatch, State.withPhase, encCountStart]

/-- The state of the count pass after the bytes `l` (R155). -/
def encCounting (s : State) (l : List Byte) : State :=
  { s with
    phase := 0x10#8
    freqValid := false
    treeValid := false
    tableValid := false
    degenerate := false
    encSent := s.sentinel
    encColl := s.collChk
    freq := tallyAll (Vector.replicate 256 0#32) l
    inCount := s.inCount + BitVec.ofNat 32 l.length
    env := { s.env with sIn := s.env.sIn.drop l.length } }

theorem encCounting_eq (s : State) (l : List Byte) :
    counted (stepClearFreq (encCountStart s)) l = encCounting s l := by
  simp [counted, stepClearFreq, encCountStart, encCounting]

/-- FREQ at the end of ENC_COUNT over the source `l` with the sentinel `σ` (R155). -/
def countedFreq (l : List Byte) (σ : Byte) : Vector Word 256 :=
  (tallyAll (Vector.replicate 256 0#32) l).set σ.toNat
    ((tallyAll (Vector.replicate 256 0#32) l)[σ.toNat] + 1#32)

/-- The state at the end of ENC_COUNT over the source `src` (R168). -/
def encCountEnd (s : State) (src : List Byte) : State :=
  { s with
    phase := 0x10#8
    freqValid := true
    treeValid := false
    tableValid := false
    degenerate := false
    encSent := s.sentinel
    encColl := s.collChk
    freq := countedFreq src s.sentinel
    inCount := s.inCount + BitVec.ofNat 32 src.length
    env := { s.env with sIn := s.env.sIn.drop src.length } }

theorem encCountEnd_eq (s : State) (src : List Byte) :
    stepSetFreqValid (stepCountSentinel (encCounting s src)) = encCountEnd s src := by
  simp [stepSetFreqValid, stepCountSentinel, State.bumpFreq, State.freqAt, encCounting, encCountEnd,
    countedFreq]

theorem step_encLatch (k : List Stmt) (s : State) :
    coreStep (s.withTodo (.encLatch :: k)) = some ((stepEncLatch s).withTodo k) := rfl

theorem step_needCountable (k : List Stmt) {s : State} (h : s.srcLen.toNat ≤ Config.maxLen.toNat) :
    coreStep (s.withTodo (.needCountable :: k)) = some (s.withTodo k) := by
  rw [coreStep_withTodo]
  simp only [runStmt, stepNeedCountable]
  rw [if_neg (show ¬ Config.maxLen.toNat < (s.withTodo k).srcLen.toNat from Nat.not_lt.mpr h)]

theorem step_needCountable_not (k : List Stmt) {s : State} (h : Config.maxLen.toNat < s.srcLen.toNat) :
    coreStep (s.withTodo (.needCountable :: k)) = some (s.withTodo [.bbClose, .fail .countOverflow]) := by
  rw [coreStep_withTodo]
  simp only [runStmt, stepNeedCountable]
  rw [if_pos (show Config.maxLen.toNat < (s.withTodo k).srcLen.toNat from h)]
  rfl

theorem step_clearFreq (k : List Stmt) (s : State) :
    coreStep (s.withTodo (.clearFreq :: k)) = some ((stepClearFreq s).withTodo k) := rfl

theorem step_countPass (k : List Stmt) (s : State) :
    coreStep (s.withTodo (.countPass :: k)) = some (s.withTodo (.count s.srcLen.toNat :: k)) := rfl

theorem step_countSentinel (k : List Stmt) (s : State) :
    coreStep (s.withTodo (.countSentinel :: k)) = some ((stepCountSentinel s).withTodo k) := rfl

theorem step_setFreqValid (k : List Stmt) (s : State) :
    coreStep (s.withTodo (.setFreqValid :: k)) = some ((stepSetFreqValid s).withTodo k) := rfl

theorem srcLen_ne_zero {w : Word} (h : 0 < w.toNat) : w ≠ 0#32 := fun h0 => by
  rw [h0] at h; simp at h

/-- ENC_COUNT up to its count pass, for a length it accepts (R168). -/
theorem runs_encCount_start (k : List Stmt) (s : State) (h0 : 0 < s.srcLen.toNat)
    (hmax : s.srcLen.toNat ≤ Config.maxLen.toNat) :
    RunsIn 6 (s.withTodo (bodyEncCount ++ k)) ((stepClearFreq (encCountStart s)).withTodo
      (.count s.srcLen.toNat :: .countSentinel :: .setFreqValid :: k)) := by
  refine .step (step_phase _ _ _) (.step (step_encLatch _ _) ?_)
  rw [encCountStart_eq]
  exact .step (step_needSource _ (s := encCountStart s) (srcLen_ne_zero h0))
    (.step (step_needCountable _ (s := encCountStart s) hmax) (.step (step_clearFreq _ _)
      (.one (step_countPass _ _))))

/-- ENC_COUNT over a source without a collision (R155, R168). -/
theorem runs_encCount (src : List Byte) (k : List Stmt) (s : State) (rest : List Byte)
    (hlen : src.length = s.srcLen.toNat) (h0 : 0 < s.srcLen.toNat)
    (hmax : s.srcLen.toNat ≤ Config.maxLen.toNat) (hin : s.env.sIn = src ++ rest)
    (hok : s.collChk = true → s.sentinel ∉ src) :
    RunsIn (2 * s.srcLen.toNat + 9) (s.withTodo (bodyEncCount ++ k)) ((encCountEnd s src).withTodo k) := by
  have h1 := runs_encCount_start k s h0 hmax
  have h2 := runs_count src 0 (.countSentinel :: .setFreqValid :: k) (stepClearFreq (encCountStart s))
    rest hin hok
  rw [Nat.add_zero, hlen, encCounting_eq] at h2
  have h3 : RunsIn 3 ((encCounting s src).withTodo (.count 0 :: .countSentinel :: .setFreqValid :: k))
      ((encCountEnd s src).withTodo k) := by
    rw [← encCountEnd_eq]
    exact .step (step_count_zero _ _) (.step (step_countSentinel _ _) (.one (step_setFreqValid _ _)))
  exact ((h1.trans h2).trans h3).mono (by omega)

/-- ENC_COUNT over a source whose byte number `pre.length` is the first collision (R155, R168). -/
theorem runs_encCount_collision (pre : List Byte) (k : List Stmt) (s : State) (rest : List Byte)
    (hlen : pre.length < s.srcLen.toNat) (hmax : s.srcLen.toNat ≤ Config.maxLen.toNat)
    (hin : s.env.sIn = pre ++ s.sentinel :: rest) (hcoll : s.collChk = true) (hpre : s.sentinel ∉ pre) :
    RunsIn (2 * s.srcLen.toNat + 9) (s.withTodo (bodyEncCount ++ k))
      ((tookOne (encCounting s pre) rest).withTodo [.bbClose, .fail .sentinelCollision]) := by
  obtain ⟨m, hm⟩ : ∃ m, s.srcLen.toNat = pre.length + (m + 1) := ⟨s.srcLen.toNat - pre.length - 1, by omega⟩
  have h1 := runs_encCount_start k s (by omega) hmax
  have h2 := runs_count pre (m + 1) (.countSentinel :: .setFreqValid :: k)
    (stepClearFreq (encCountStart s)) (s.sentinel :: rest) hin (fun _ => hpre)
  rw [← hm, encCounting_eq] at h2
  have hin' : (encCounting s pre).env.sIn = s.sentinel :: rest := by
    show s.env.sIn.drop pre.length = _
    rw [hin, List.drop_left]
  have h3 := step_count m (.countSentinel :: .setFreqValid :: k) hin'
  have h4 := step_tally_collision (s := tookOne (encCounting s pre) rest) (v := s.sentinel)
    (.count m :: .countSentinel :: .setFreqValid :: k) ⟨hcoll, rfl⟩
  exact ((h1.trans h2).trans (.step h3 (.one h4))).mono (by omega)

/-- ENC_COUNT with SRC_LEN = 0 (R168). -/
theorem runs_encCount_empty (k : List Stmt) (s : State) (h : s.srcLen = 0#32) :
    RunsIn 3 (s.withTodo (bodyEncCount ++ k))
      ((encCountStart s).withTodo [.bbClose, .fail .emptyInput]) := by
  refine .step (step_phase _ _ _) (.step (step_encLatch _ _) ?_)
  rw [encCountStart_eq]
  exact .one (step_needSource_not _ (s := encCountStart s) h)

/-- ENC_COUNT with SRC_LEN above MAX_LEN (R168). -/
theorem runs_encCount_overflow (k : List Stmt) (s : State) (h : Config.maxLen.toNat < s.srcLen.toNat) :
    RunsIn 4 (s.withTodo (bodyEncCount ++ k))
      ((encCountStart s).withTodo [.bbClose, .fail .countOverflow]) := by
  refine .step (step_phase _ _ _) (.step (step_encLatch _ _) ?_)
  rw [encCountStart_eq]
  exact .step (step_needSource _ (s := encCountStart s) (srcLen_ne_zero (by
    show 0 < s.srcLen.toNat; omega))) (.one (step_needCountable_not _ (s := encCountStart s) h))

/-- What FREQ holds after the count pass over `l` (R155). -/
theorem encCounting_freqAt (s : State) (l : List Byte) (v : Byte) :
    (encCounting s l).freqAt v = BitVec.ofNat 32 (l.count v) := by
  have h : (encCounting s l).freqAt v = (tallyAll (Vector.replicate 256 0#32) l)[v.toNat] := rfl
  rw [h, tallyAll_get]; simp

/-- What FREQ holds after ENC_COUNT: the counts of the source and of one sentinel (R155). -/
theorem encCountEnd_freqAt (s : State) (src : List Byte) (v : Byte) :
    (encCountEnd s src).freqAt v = BitVec.ofNat 32 (counts src s.sentinel v) := by
  have h : (encCountEnd s src).freqAt v = (countedFreq src s.sentinel)[v.toNat] := rfl
  have h2 : ∀ u : Byte, (tallyAll (Vector.replicate 256 0#32) src)[u.toNat] = BitVec.ofNat 32 (src.count u) :=
    encCounting_freqAt s src
  rw [h, countedFreq]
  by_cases hv : v = s.sentinel
  · subst hv
    rw [Vector.getElem_set_self, h2, counts, if_pos rfl, BitVec.ofNat_add]
  · have hne : s.sentinel.toNat ≠ v.toNat := fun h => hv (BitVec.eq_of_toNat_eq h).symm
    rw [Vector.getElem_set_ne _ _ hne, counts, if_neg hv, Nat.add_zero]
    exact h2 v

/-- A count of a countable source fits into 32 bits (R155: "No counter can overflow"). -/
theorem counts_lt {src : List Byte} (σ v : Byte) (h : src.length ≤ Config.maxLen.toNat) :
    counts src σ v < 2 ^ 32 := by
  have h1 := List.count_le_length (a := v) (l := src)
  have h2 : Config.maxLen.toNat = 4294967294 := rfl
  unfold counts
  split <;> omega

end Sys2Proof.Machine
end

