-- ==== Sys2Proof/Laws/EncoderBuild.lean ====
section
/-!
SUPPORT. Whole runs of the tree builder: the heap of node indices is a forest of weighted trees, one
extraction is `takeLeast`, and the merge loop is `mergeForest` (42_encoder.md R150 to R158).
-/

namespace Sys2Proof.Machine

open Sys2Proof.Format (Tree takeLeast mergeForest leafForest forestWeight)

/-! ### The tree store -/

theorem HoldsBelow.lt {n : Nat} {s : State} {i : NodeIdx} {T : Tree} (h : HoldsBelow n s i T) :
    i.toNat < n := by cases T <;> exact h.1

theorem HoldsBelow.holdsTree {n : Nat} {s : State} {i : NodeIdx} {T : Tree} (h : HoldsBelow n s i T) :
    HoldsTree s i T := by
  induction T generalizing i with
  | leaf sym => exact h.2
  | node l r hl hr =>
    obtain ⟨-, a, b, f, hf, -, -, h1, h2⟩ := h
    exact ⟨a, b, f, hf, hl h1, hr h2⟩

theorem HoldsBelow.mono {n m : Nat} {s t : State} {i : NodeIdx} {T : Tree} (h : HoldsBelow n s i T)
    (hnm : n ≤ m) (hst : ∀ j : NodeIdx, j.toNat < n → t.nodeAt j = s.nodeAt j) : HoldsBelow m t i T := by
  induction T generalizing i with
  | leaf sym => exact ⟨h.1.trans_le hnm, by rw [hst i h.1]; exact h.2⟩
  | node l r hl hr =>
    obtain ⟨h0, a, b, f, hf, ha, hb, h1, h2⟩ := h
    exact ⟨h0.trans_le hnm, a, b, f, by rw [hst i h0]; exact hf, ha, hb, hl h1, hr h2⟩

/-! ### The heap as a forest -/

/-- HEAP's entry `i` is the root of the weighted tree `x`. -/
def Rooted (s : State) (i : NodeIdx) (x : Nat × Tree) : Prop :=
  HoldsBelow s.ncnt.toNat s i x.2 ∧ (s.nodeAt i).freq.toNat = x.1

/-- HEAP, in ascending order, holds the roots of the forest `f`. -/
structure Forest (s : State) (f : List (Nat × Tree)) : Prop where
  rooted : List.Forall₂ (Rooted s) s.heap f
  sorted : s.heap.Pairwise (fun i j => i.toNat < j.toNat)

theorem Rooted.congr {s t : State} {i : NodeIdx} {x : Nat × Tree} (h : Rooted s i x)
    (hd : t.node = s.node) (hn : t.ncnt = s.ncnt) : Rooted t i x :=
  ⟨by rw [hn]; exact h.1.mono le_rfl fun j _ => nodeAt_congr hd j, by rw [nodeAt_congr hd]; exact h.2⟩

theorem forall₂_mem {α β : Type} {R : α → β → Prop} {a : List α} {b : List β} (h : List.Forall₂ R a b)
    {x : α} (hx : x ∈ a) : ∃ y ∈ b, R x y := by
  induction h with
  | nil => simp at hx
  | cons hab _ ih =>
    rcases List.mem_cons.mp hx with rfl | hx
    · exact ⟨_, List.mem_cons_self .., hab⟩
    · obtain ⟨y, hy, hr⟩ := ih hx
      exact ⟨y, List.mem_cons_of_mem _ hy, hr⟩

theorem keyLt_iff {s : State} {i j : NodeIdx} (h : j.toNat < i.toNat) :
    s.keyLt i j = decide ((s.nodeAt i).freq.toNat < (s.nodeAt j).freq.toNat) := by
  have : ¬ i.toNat < j.toNat := by omega
  simp [State.keyLt, this]

theorem leastKey_cons (s : State) (rest : List NodeIdx) (best i : NodeIdx)
    (h : (best :: i :: rest).Pairwise (fun i j => i.toNat < j.toNat)) :
    s.leastKey best (i :: rest)
      = if (s.nodeAt best).freq.toNat ≤ (s.nodeAt (s.leastKey i rest)).freq.toNat then best
        else s.leastKey i rest := by
  induction rest generalizing best i with
  | nil =>
    have hbi : best.toNat < i.toNat := by simp at h; exact h
    have e0 : s.leastKey best [i] = if s.keyLt i best then i else best := rfl
    rw [e0, show s.leastKey i [] = i from rfl, keyLt_iff hbi]
    by_cases h1 : (s.nodeAt i).freq.toNat < (s.nodeAt best).freq.toNat
    · rw [if_pos (by simpa using h1), if_neg (by omega)]
    · rw [if_neg (by simpa using h1), if_pos (by omega)]
  | cons j rest ih =>
    obtain ⟨hb, hrest⟩ := List.pairwise_cons.mp h
    have hbi : best.toNat < i.toNat := hb i (by simp)
    have hbj : (best :: j :: rest).Pairwise (fun i j => i.toNat < j.toNat) := by
      refine List.pairwise_cons.mpr ⟨fun x hx => hb x (by simp at hx ⊢; tauto), (List.pairwise_cons.mp hrest).2⟩
    have e1 : s.leastKey best (i :: j :: rest)
        = s.leastKey (if s.keyLt i best then i else best) (j :: rest) := rfl
    rw [e1, keyLt_iff hbi, ih i j hrest]
    by_cases h1 : (s.nodeAt i).freq.toNat < (s.nodeAt best).freq.toNat
    · rw [if_pos (by simpa using h1), ih i j hrest]
      split <;> rename_i h2
      · rw [if_neg (by omega)]
      · rw [if_neg (by omega)]
    · rw [if_neg (by simpa using h1), ih best j hbj]
      by_cases h2 : (s.nodeAt i).freq.toNat ≤ (s.nodeAt (s.leastKey j rest)).freq.toNat
      · rw [if_pos (by omega), if_pos h2, if_pos (by omega)]
      · rw [if_neg h2]

theorem leastKey_mem (s : State) (best : NodeIdx) (rest : List NodeIdx) :
    s.leastKey best rest ∈ best :: rest := by
  induction rest generalizing best with
  | nil => simp [State.leastKey]
  | cons i rest ih =>
    have := ih (if s.keyLt i best then i else best)
    simp only [State.leastKey]
    rcases List.mem_cons.mp this with h | h
    · rw [h]; split <;> simp
    · exact List.mem_cons_of_mem _ (List.mem_cons_of_mem _ h)

/-- The entry with the least key is the root of the tree `takeLeast` takes, and the other entries are the
roots of the others (R150, R152). -/
theorem extract_spec (s : State) (rest : List NodeIdx) (fs : List (Nat × Tree)) (i : NodeIdx)
    (x : Nat × Tree) (hs : (i :: rest).Pairwise (fun i j => i.toNat < j.toNat))
    (hf : List.Forall₂ (Rooted s) (i :: rest) (x :: fs)) :
    Rooted s (s.leastKey i rest) (takeLeast x fs).1 ∧
      List.Forall₂ (Rooted s) ((i :: rest).erase (s.leastKey i rest)) (takeLeast x fs).2 := by
  induction rest generalizing i x fs with
  | nil =>
    obtain ⟨hx, hnil⟩ := List.forall₂_cons.mp hf
    cases hnil
    simpa [State.leastKey, takeLeast] using hx
  | cons j rest ih =>
    obtain ⟨hx, htail⟩ := List.forall₂_cons.mp hf
    match fs, htail with
    | y :: fs, htail =>
      have hsj := (List.pairwise_cons.mp hs).2
      obtain ⟨h1, h2⟩ := ih fs j y hsj htail
      rw [leastKey_cons s rest i j hs]
      have hxi : (s.nodeAt i).freq.toNat = x.1 := hx.2
      rw [hxi, h1.2]
      simp only [takeLeast]
      by_cases hle : x.1 ≤ (takeLeast y fs).1.1
      · simp only [if_pos hle, List.erase_cons_head]
        exact ⟨hx, htail⟩
      · simp only [if_neg hle]
        have hne : (i == s.leastKey j rest) = false := by
          have hm := leastKey_mem s j rest
          have := (List.pairwise_cons.mp hs).1 _ hm
          simp only [beq_eq_false_iff_ne]
          intro he; rw [← he] at this; omega
        rw [List.erase_cons_tail (by simpa using hne)]
        exact ⟨h1, List.Forall₂.cons hx h2⟩

theorem heapExtractMin_cons {s : State} {i : NodeIdx} {rest : List NodeIdx} (h : s.heap = i :: rest) :
    s.heapExtractMin = (s.leastKey i rest, { s with heap := (i :: rest).erase (s.leastKey i rest) }) := by
  unfold State.heapExtractMin
  rw [h]

/-- `s` with another tree store, node count, root and heap. -/
def State.withTree (s : State) (node : Vector Node 511) (ncnt : BitVec 10) (root : NodeIdx)
    (heap : List NodeIdx) : State :=
  { s with node := node, ncnt := ncnt, root := root, heap := heap }

/-- A whole extraction from a forest (R152). -/
theorem Forest.extract {s : State} {x : Nat × Tree} {fs : List (Nat × Tree)} (h : Forest s (x :: fs)) :
    Rooted s s.heapExtractMin.1 (takeLeast x fs).1 ∧ Forest s.heapExtractMin.2 (takeLeast x fs).2 ∧
      s.heapExtractMin.2 = s.withTree s.node s.ncnt s.root s.heapExtractMin.2.heap := by
  match hh : s.heap, h.rooted with
  | i :: rest, hr =>
    have hs := h.sorted
    rw [hh] at hs
    obtain ⟨h1, h2⟩ := extract_spec s rest fs i x hs hr
    rw [heapExtractMin_cons hh]
    exact ⟨h1, ⟨h2.imp fun i x hx => hx.congr rfl rfl, hs.sublist List.erase_sublist⟩, rfl⟩

/-- Adding a node puts its tree at the end of the forest (R151, R156, R157). -/
theorem Forest.add {s : State} {f : List (Nat × Tree)} (h : Forest s f) (n : Node) (T : Tree)
    (hcap : s.ncnt.toNat < 511)
    (hn : ∀ t : State, (∀ j : NodeIdx, j.toNat < s.ncnt.toNat → t.nodeAt j = s.nodeAt j) →
      t.nodeAt s.nextIdx = n → HoldsBelow (s.ncnt.toNat + 1) t s.nextIdx T) :
    Forest (addNode n s) (f ++ [(n.freq.toNat, T)]) ∧
      (addNode n s).ncnt.toNat = s.ncnt.toNat + 1 ∧
      addNode n s = s.withTree (addNode n s).node (addNode n s).ncnt s.root (addNode n s).heap := by
  obtain ⟨hi, hi'⟩ := nextIdx_eq hcap
  have hbelow : ∀ j ∈ s.heap, j.toNat < s.ncnt.toNat := by
    intro j hj
    obtain ⟨x, -, hx⟩ := forall₂_mem h.rooted hj
    exact hx.1.lt
  have hncnt : (addNode n s).ncnt.toNat = s.ncnt.toNat + 1 := ncnt_succ hcap
  have hheap : (addNode n s).heap = s.heap ++ [s.nextIdx] := by
    have h1 : s.heap.contains s.nextIdx = false := by
      rw [Bool.eq_false_iff]
      intro hc
      have := hbelow _ (by simpa using hc)
      omega
    have h2 : ∀ j ∈ s.heap, decide (j.toNat < s.nextIdx.toNat) = true := fun j hj => by
      have := hbelow j hj
      rw [hi']; simpa using this
    have h3 : s.heap.takeWhile (fun j => decide (j.toNat < s.nextIdx.toNat)) = s.heap :=
      List.takeWhile_eq_self_iff.mpr h2
    have h4 : s.heap.dropWhile (fun j => decide (j.toNat < s.nextIdx.toNat)) = [] :=
      List.dropWhile_eq_nil_iff.mpr h2
    show ((s.setNode s.nextIdx n).heapInsert s.nextIdx).heap = _
    simp only [State.heapInsert, setNode_heap, h1]
    rw [h3, h4]
    rfl
  have hlow : ∀ j : NodeIdx, j.toNat < s.ncnt.toNat → (addNode n s).nodeAt j = s.nodeAt j := fun j hj => by
    have h1 : (addNode n s).nodeAt j = (s.setNode s.nextIdx n).nodeAt j := nodeAt_congr rfl j
    rw [h1, nodeAt_setNode_ne _ (by omega)]
  have hself : (addNode n s).nodeAt s.nextIdx = n := by
    have h1 : (addNode n s).nodeAt s.nextIdx = (s.setNode s.nextIdx n).nodeAt s.nextIdx :=
      nodeAt_congr rfl _
    rw [h1]; exact nodeAt_setNode_self n (by omega)
  refine ⟨⟨?_, ?_⟩, hncnt, rfl⟩
  · rw [hheap]
    refine List.rel_append (h.rooted.imp fun i x hx => ?_) (List.Forall₂.cons ?_ List.Forall₂.nil)
    · exact ⟨by rw [hncnt]; exact hx.1.mono (by omega) hlow, by rw [hlow i hx.1.lt]; exact hx.2⟩
    · exact ⟨by rw [hncnt]; exact hn _ hlow hself, by rw [hself]⟩
  · rw [hheap]
    refine List.pairwise_append.mpr ⟨h.sorted, List.pairwise_singleton .., fun i hi j hj => ?_⟩
    rw [List.mem_singleton] at hj
    rw [hj, hi']; exact hbelow i hi

/-! ### The merge loop -/

theorem forestWeight_cons (x : Nat × Tree) (l : List (Nat × Tree)) :
    forestWeight (x :: l) = x.1 + forestWeight l := rfl

theorem forestWeight_append (a b : List (Nat × Tree)) :
    forestWeight (a ++ b) = forestWeight a + forestWeight b := by simp [forestWeight]

theorem forall₂_length {α β : Type} {R : α → β → Prop} {a : List α} {b : List β}
    (h : List.Forall₂ R a b) : a.length = b.length := h.length_eq

theorem step_mergeLoop_two {s : State} (k : List Stmt) (h : 2 ≤ s.heap.length) :
    coreStep (s.withTodo (.mergeLoop :: k))
      = some ((addNode (.internal s.heapExtractMin.1 s.heapExtractMin.2.heapExtractMin.1
          ((s.nodeAt s.heapExtractMin.1).freq
            + (s.nodeAt s.heapExtractMin.2.heapExtractMin.1).freq))
          s.heapExtractMin.2.heapExtractMin.2).withTodo (.mergeLoop :: k)) := by
  match hh : s.heap, h with
  | i :: j :: rest, _ =>
    have h1 := heapExtractMin_cons hh
    have h1' := heapExtractMin_cons (s := s.withTodo k) hh
    obtain ⟨a, l, hl⟩ : ∃ a l, (i :: j :: rest).erase (s.leastKey i (j :: rest)) = a :: l := by
      cases hx : (i :: j :: rest).erase (s.leastKey i (j :: rest)) with
      | nil =>
        have := List.length_erase_of_mem (leastKey_mem s i (j :: rest))
        rw [hx] at this; simp at this
      | cons a l => exact ⟨a, l, rfl⟩
    rw [coreStep_withTodo]
    simp only [runStmt, stepMergeLoop, State.heapSize, withTodo_heap, hh, List.length_cons]
    rw [if_pos (by omega)]
    have hlk : (s.withTodo k).leastKey i (j :: rest) = s.leastKey i (j :: rest) := by
      have hk : ∀ (l : List NodeIdx) (b : NodeIdx), (s.withTodo k).leastKey b l = s.leastKey b l := by
        intro l
        induction l with
        | nil => intro b; rfl
        | cons c l ih => intro b; exact ih _
      exact hk _ _
    rw [h1', h1]
    simp only [hlk, hl]
    have h2 : ({ s with heap := a :: l } : State).heapExtractMin
        = (({ s with heap := a :: l } : State).leastKey a l, _) := heapExtractMin_cons rfl
    have h2' : ({ s.withTodo k with heap := a :: l } : State).heapExtractMin
        = (({ s.withTodo k with heap := a :: l } : State).leastKey a l, _) := heapExtractMin_cons rfl
    have hlk2 : ({ s.withTodo k with heap := a :: l } : State).leastKey a l
        = ({ s with heap := a :: l } : State).leastKey a l := by
      have hk : ∀ (l' : List NodeIdx) (b : NodeIdx), ({ s.withTodo k with heap := a :: l } : State).leastKey b l'
          = ({ s with heap := a :: l } : State).leastKey b l' := by
        intro l'
        induction l' with
        | nil => intro b; rfl
        | cons c l' ih => intro b; exact ih _
      exact hk _ _
    rw [h2, h2']
    simp only [hlk2]
    rfl

theorem step_mergeLoop_one {s : State} (k : List Stmt) (i : NodeIdx) (h : s.heap = [i]) :
    coreStep (s.withTodo (.mergeLoop :: k)) = some ((s.withTree s.node s.ncnt i []).withTodo k) := by
  rw [coreStep_withTodo]
  simp only [runStmt, stepMergeLoop, State.heapSize, withTodo_heap, h, List.length_singleton]
  rw [if_neg (by omega)]
  have h1' := heapExtractMin_cons (s := s.withTodo k) h
  rw [h1']
  simp only [State.leastKey, List.erase_cons_head]
  rfl

/-- The merge loop is Huffman's merging of the forest (R157). -/
theorem runs_mergeLoop (fuel : Nat) (f : List (Nat × Tree)) (k : List Stmt) (s : State)
    (hf : Forest s f) (h0 : f ≠ []) (hfuel : f.length ≤ fuel + 1) (hw : forestWeight f < 2 ^ 32)
    (hcap : s.ncnt.toNat + f.length ≤ 512) :
    ∃ t T, mergeForest fuel f = some T ∧
      t = s.withTree t.node t.ncnt t.root [] ∧ t.ncnt.toNat + 1 = s.ncnt.toNat + f.length ∧
      Rooted t t.root (forestWeight f, T) ∧
      RunsIn f.length (s.withTodo (.mergeLoop :: k)) (t.withTodo k) := by
  induction fuel generalizing f s with
  | zero =>
    match f, h0, hfuel with
    | [x], _, _ =>
      obtain ⟨i, hi⟩ : ∃ i, s.heap = [i] := by
        have := forall₂_length hf.rooted
        exact List.length_eq_one_iff.mp this
      have hr := hf.rooted
      rw [hi] at hr
      obtain ⟨hr, -⟩ := List.forall₂_cons.mp hr
      refine ⟨s.withTree s.node s.ncnt i [], x.2, rfl, rfl, rfl, ?_, .one (step_mergeLoop_one k i hi)⟩
      exact ⟨hr.1.mono le_rfl fun _ _ => rfl, hr.2⟩
    | _ :: _ :: _, _, h => simp at h
  | succ fuel ih =>
    match f, h0, hfuel with
    | [x], _, _ =>
      obtain ⟨i, hi⟩ : ∃ i, s.heap = [i] := by
        have := forall₂_length hf.rooted
        exact List.length_eq_one_iff.mp this
      have hr := hf.rooted
      rw [hi] at hr
      obtain ⟨hr, -⟩ := List.forall₂_cons.mp hr
      refine ⟨s.withTree s.node s.ncnt i [], x.2, rfl, rfl, rfl, ?_, .one (step_mergeLoop_one k i hi)⟩
      exact ⟨hr.1.mono le_rfl fun _ _ => rfl, hr.2⟩
    | x :: y :: rest, _, hfuel =>
      simp only [List.length_cons] at hfuel hcap
      have hheap := forall₂_length hf.rooted
      have hstep := step_mergeLoop_two (s := s) k (by rw [hheap]; simp)
      obtain ⟨hr1, hf1, hs1⟩ := hf.extract
      have hl1 := Format.takeLeast_length x (y :: rest)
      have hp1 := Format.forestWeight_perm (Format.takeLeast_perm x (y :: rest))
      obtain ⟨z, others, hzo⟩ : ∃ z others, (takeLeast x (y :: rest)).2 = z :: others := by
        cases hx : (takeLeast x (y :: rest)).2 with
        | nil => rw [hx] at hl1; simp at hl1
        | cons z others => exact ⟨z, others, rfl⟩
      rw [hzo] at hf1 hl1 hp1
      obtain ⟨hr2, hf2, hs2⟩ := hf1.extract
      have hl2 := Format.takeLeast_length z others
      have hp2 := Format.forestWeight_perm (Format.takeLeast_perm z others)
      simp only [mergeForest, hzo]
      set s1 := s.heapExtractMin.2 with hs1d
      set s2 := s1.heapExtractMin.2 with hs2d
      set a := s.heapExtractMin.1
      set b := s1.heapExtractMin.1
      set ta := (takeLeast x (y :: rest)).1
      set tb := (takeLeast z others).1
      have hn1 : s1.ncnt = s.ncnt := (congrArg State.ncnt hs1).trans rfl
      have hn2 : s2.ncnt = s.ncnt := ((congrArg State.ncnt hs2).trans rfl).trans hn1
      have hd1 : s1.node = s.node := (congrArg State.node hs1).trans rfl
      have hd2 : s2.node = s.node := ((congrArg State.node hs2).trans rfl).trans hd1
      have hat1 : ∀ j, s1.nodeAt j = s.nodeAt j := nodeAt_congr hd1
      have hat2 : ∀ j, s2.nodeAt j = s.nodeAt j := nodeAt_congr hd2
      have hwa : ta.1 + (tb.1 + forestWeight (takeLeast z others).2) = forestWeight (x :: y :: rest) := by
        rw [← hp1]; simp only [forestWeight_cons] at hp2 ⊢; omega
      have hsum : ((s.nodeAt a).freq + (s.nodeAt b).freq).toNat = ta.1 + tb.1 := by
        have h1 := hr1.2
        have h2 := hr2.2
        rw [hat1] at h2
        rw [BitVec.toNat_add, h1, h2, Nat.mod_eq_of_lt]
        omega
      have hra : HoldsBelow s.ncnt.toNat s2 a ta.2 := hr1.1.mono le_rfl fun j _ => hat2 j
      have hrb : HoldsBelow s.ncnt.toNat s2 b tb.2 := by
        have := hr2.1
        rw [hn1] at this
        exact this.mono le_rfl fun j _ => (hat2 j).trans (hat1 j).symm
      obtain ⟨hf3, hn3, hs3⟩ := hf2.add (.internal a b ((s.nodeAt a).freq + (s.nodeAt b).freq))
        (.node ta.2 tb.2) (by rw [hn2]; omega) (by
          intro t hlow hself
          rw [hn2] at hlow ⊢
          have hidx := (nextIdx_eq (s := s2) (by rw [hn2]; omega)).2
          rw [hn2] at hidx
          refine ⟨by rw [hidx]; omega, a, b, _, hself, by rw [hidx]; exact hra.lt, by
            rw [hidx]; exact hrb.lt, hra.mono (by omega) hlow, hrb.mono (by omega) hlow⟩)
      set s3 := addNode (.internal a b ((s.nodeAt a).freq + (s.nodeAt b).freq)) s2
      rw [show (Node.internal a b ((s.nodeAt a).freq + (s.nodeAt b).freq)).freq.toNat = ta.1 + tb.1
        from hsum] at hf3
      have hlen3 : ((takeLeast z others).2 ++ [(ta.1 + tb.1, Format.Tree.node ta.2 tb.2)]).length
          = rest.length + 1 := by
        rw [List.length_append, hl2, List.length_singleton]
        simp at hl1; omega
      have hw3 : forestWeight ((takeLeast z others).2 ++ [(ta.1 + tb.1, Format.Tree.node ta.2 tb.2)])
          = forestWeight (x :: y :: rest) := by
        rw [forestWeight_append, ← hwa]
        simp only [forestWeight, List.map_cons, List.map_nil, List.sum_cons, List.sum_nil]
        omega
      obtain ⟨t, T, hT, ht, hnt, hrt, hrun⟩ := ih _ s3 hf3 (by simp) (by rw [hlen3]; omega)
        (by rw [hw3]; exact hw) (by rw [hn3, hn2, hlen3]; omega)
      rw [hn3, hn2, hlen3] at hnt
      rw [hw3] at hrt
      rw [hlen3] at hrun
      refine ⟨t, T, hT, ?_, by simp only [List.length_cons]; omega, hrt, ?_⟩
      · rw [ht, hs3, hs2, hs1]; rfl
      · exact (RunsIn.step hstep hrun).mono (by simp)

/-! ### The leaves -/

/-- The weighted leaves of the first `k` symbols (R156). -/
def leavesUpTo (w : Byte → Nat) (k : Nat) : List (Nat × Tree) :=
  (((List.range k).map (BitVec.ofNat 8)).filter (fun s => 0 < w s)).map (fun s => (w s, .leaf s))

theorem leavesUpTo_succ (w : Byte → Nat) (k : Nat) : leavesUpTo w (k + 1) = leavesUpTo w k
    ++ if 0 < w (BitVec.ofNat 8 k) then [(w (BitVec.ofNat 8 k), .leaf (BitVec.ofNat 8 k))] else [] := by
  simp only [leavesUpTo, List.range_succ, List.map_append, List.map_cons, List.map_nil,
    List.filter_append]
  by_cases h : 0 < w (BitVec.ofNat 8 k)
  · simp [h]
  · simp [h]

theorem leavesUpTo_all (w : Byte → Nat) : leavesUpTo w 256 = leafForest w := rfl

theorem length_leavesUpTo (w : Byte → Nat) (k : Nat) : (leavesUpTo w k).length ≤ k := by
  simp only [leavesUpTo, List.length_map]
  refine (List.length_filter_le _ _).trans ?_
  simp

theorem step_makeLeaves_skip {s : State} (j : Nat) (k : List Stmt) (hj : j < 256)
    (h : weightOf s (BitVec.ofNat 8 j) = 0) :
    coreStep (s.withTodo (.makeLeaves j :: k)) = some (s.withTodo (.makeLeaves (j + 1) :: k)) := by
  rw [coreStep_withTodo]
  simp only [runStmt, stepMakeLeaves]
  rw [if_pos hj, if_neg (show ¬ 0 < ((s.withTodo k).freqAt (BitVec.ofNat 8 j)).toNat from by
    rw [show ((s.withTodo k).freqAt (BitVec.ofNat 8 j)).toNat = 0 from h]; omega)]
  rfl

theorem step_makeLeaves_add {s : State} (j : Nat) (k : List Stmt) (hj : j < 256)
    (h : 0 < weightOf s (BitVec.ofNat 8 j)) :
    coreStep (s.withTodo (.makeLeaves j :: k))
      = some ((addNode (.leaf (BitVec.ofNat 8 j) (s.freqAt (BitVec.ofNat 8 j))) s).withTodo
        (.makeLeaves (j + 1) :: k)) := by
  rw [coreStep_withTodo]
  simp only [runStmt, stepMakeLeaves]
  rw [if_pos hj, if_pos (show 0 < ((s.withTodo k).freqAt (BitVec.ofNat 8 j)).toNat from h)]
  rfl

/-- The leaf loop fills HEAP with the weighted leaves (R156). -/
theorem runs_makeLeaves (w : Byte → Nat) (d j : Nat) (k : List Stmt) (s : State) (hjd : j + d = 256)
    (hw : ∀ v, weightOf s v = w v) (hf : Forest s (leavesUpTo w j))
    (hn : s.ncnt.toNat = (leavesUpTo w j).length) :
    ∃ t, t = s.withTree t.node t.ncnt s.root t.heap ∧ Forest t (leafForest w) ∧
      t.ncnt.toNat = (leafForest w).length ∧
      RunsIn (d + 1) (s.withTodo (.makeLeaves j :: k)) (t.withTodo k) := by
  induction d generalizing j s with
  | zero =>
    have hj : j = 256 := by omega
    subst hj
    exact ⟨s, rfl, hf, hn, .one rfl⟩
  | succ d ih =>
    have hj : j < 256 := by omega
    have hlen := length_leavesUpTo w j
    have hsucc := leavesUpTo_succ w j
    by_cases h0 : 0 < w (BitVec.ofNat 8 j)
    · rw [if_pos h0] at hsucc
      have hstep := step_makeLeaves_add (s := s) j k hj (by rw [hw]; exact h0)
      obtain ⟨hf2, hn2, he2⟩ := hf.add (.leaf (BitVec.ofNat 8 j) (s.freqAt (BitVec.ofNat 8 j)))
        (.leaf (BitVec.ofNat 8 j)) (by omega) (fun t _ hself => ⟨by
          rw [(nextIdx_eq (s := s) (by omega)).2]; omega, _, hself⟩)
      rw [show (Node.leaf (BitVec.ofNat 8 j) (s.freqAt (BitVec.ofNat 8 j))).freq.toNat
        = w (BitVec.ofNat 8 j) from hw _, ← hsucc] at hf2
      set s2 := addNode (.leaf (BitVec.ofNat 8 j) (s.freqAt (BitVec.ofNat 8 j))) s
      obtain ⟨t, ht, hft, hnt, hrun⟩ := ih (j + 1) s2 (by omega)
        (fun v => by rw [← hw v, he2]; rfl) hf2 (by rw [hn2, hsucc, List.length_append, hn]; rfl)
      refine ⟨t, ?_, hft, hnt, (RunsIn.step hstep hrun).mono (by omega)⟩
      rw [ht, he2]; rfl
    · rw [if_neg h0, List.append_nil] at hsucc
      have hstep := step_makeLeaves_skip (s := s) j k hj (by rw [hw]; omega)
      obtain ⟨t, ht, hft, hnt, hrun⟩ := ih (j + 1) s (by omega) hw (by rw [hsucc]; exact hf)
        (by rw [hsucc]; exact hn)
      exact ⟨t, ht, hft, hnt, (RunsIn.step hstep hrun).mono (by omega)⟩

/-! ### The single symbol -/

/-- The tree of a single leaf and the sentinel (R158). -/
theorem runs_wrapSingle (x : Nat × Tree) (k : List Stmt) (s : State) (hf : Forest s [x])
    (hn : s.ncnt.toNat = 1) :
    ∃ t, t = { s.withTree t.node 3#10 2#9 [] with deg := true } ∧
      HoldsBelow 3 t 2#9 (.node x.2 (.leaf s.encSent)) ∧ (t.nodeAt 2#9).freq.toNat = x.1 ∧
      coreStep (s.withTodo (.wrapSingle :: k)) = some (t.withTodo k) := by
  obtain ⟨i, hi⟩ : ∃ i, s.heap = [i] := List.length_eq_one_iff.mp (forall₂_length hf.rooted)
  have hr := hf.rooted
  rw [hi] at hr
  obtain ⟨⟨hb, hfr⟩, -⟩ := List.forall₂_cons.mp hr
  rw [hn] at hb
  have hi0 : i.toNat = 0 := by have := hb.lt; omega
  let s1 := (s.withTree s.node s.ncnt s.root []).setNode 1#9 (.leaf s.encSent 0#32)
  let s2 := s1.setNode 2#9 (.internal i 1#9 ((s1.nodeAt i).freq + 0#32))
  have h1 : ∀ j : NodeIdx, j.toNat < 1 → s1.nodeAt j = s.nodeAt j := fun j hj =>
    (nodeAt_setNode_ne _ (by show (1 : Nat) ≠ _; omega)).trans (nodeAt_congr rfl j)
  have h2 : ∀ j : NodeIdx, j.toNat < 1 → s2.nodeAt j = s.nodeAt j := fun j hj =>
    (nodeAt_setNode_ne _ (by show (2 : Nat) ≠ _; omega)).trans (h1 j hj)
  have h21 : s2.nodeAt 1#9 = .leaf s.encSent 0#32 :=
    (nodeAt_setNode_ne _ (by decide)).trans (nodeAt_setNode_self _ (by decide))
  have h22 : s2.nodeAt 2#9 = .internal i 1#9 ((s1.nodeAt i).freq + 0#32) :=
    nodeAt_setNode_self _ (by decide)
  refine ⟨{ s2 with ncnt := 3#10, root := 2#9, deg := true }, rfl, ?_, ?_, ?_⟩
  · refine HoldsBelow.mono (s := s2) (n := 3) ?_ le_rfl (fun j _ => nodeAt_congr rfl j)
    exact ⟨by decide, i, 1#9, _, h22, by rw [hi0]; decide, by decide,
      hb.mono (by omega) h2, by decide, _, h21⟩
  · rw [nodeAt_congr (s := { s2 with ncnt := 3#10, root := 2#9, deg := true }) (t := s2) rfl, h22]
    show ((s1.nodeAt i).freq + 0#32).toNat = _
    rw [h1 i (by omega), BitVec.add_zero]; exact hfr
  · rw [coreStep_withTodo]
    simp only [runStmt, stepWrapSingle]
    rw [heapExtractMin_cons (s := s.withTodo k) hi]
    simp only [State.leastKey, List.erase_cons_head]
    rfl

end Sys2Proof.Machine
end

