-- ==== Sys2Proof/Laws/EncoderTable.lean ====
section
/-!
SUPPORT. Whole runs of the table walk, and of ENC_BUILD (42_encoder.md R160 to R163, R169).
-/

namespace Sys2Proof.Machine

open Sys2Proof.Format (Tree huffman leafForest forestWeight)

/-! ### The table walk -/

/-- CT after the leaves `l`, each with its path, have been visited (R161, R162). -/
def recordAll (ct : Vector (List Bool) 256) (l : List (Byte × List Bool)) : Vector (List Bool) 256 :=
  l.foldl (fun ct c => if (ct[c.1.toNat]).length = 0 then ct.set c.1.toNat c.2 else ct) ct

theorem recordAll_append (ct : Vector (List Bool) 256) (a b : List (Byte × List Bool)) :
    recordAll ct (a ++ b) = recordAll (recordAll ct a) b := by
  simp [recordAll, List.foldl_append]

/-- `s` with another code table, stack and path. -/
def State.withWalk (s : State) (ct : Vector (List Bool) 256) (stack : List Frame) (path : List Bool) : State :=
  { s with ct := ct, stack := stack, path := path }

theorem step_walkTable_leaf {s : State} {n : NodeIdx} {sym : Byte} {f : Word} {p : List Bool}
    {st : List Frame} (k : List Stmt) (hst : s.stack = .visit n p :: st) (h : s.nodeAt n = .leaf sym f) :
    coreStep (s.withTodo (.walkTable :: k))
      = some ((s.withWalk (recordAll s.ct [(sym, p)]) st p).withTodo (.walkTable :: k)) := by
  rw [coreStep_withTodo]
  simp only [runStmt, stepWalkTable, withTodo_stack, hst]
  have hn : ({ s.withTodo k with path := p, stack := st } : State).nodeAt n = .leaf sym f :=
    (nodeAt_congr rfl n).trans h
  rw [hn]
  by_cases h0 : (s.ct[sym.toNat]).length = 0
  · have e : recordAll s.ct [(sym, p)] = s.ct.set sym.toNat p := if_pos h0
    rw [e]
    simp only
    rw [if_pos (show (({ s.withTodo k with path := p, stack := st } : State).codeAt sym).length = 0 from h0)]
    rfl
  · have e : recordAll s.ct [(sym, p)] = s.ct := if_neg h0
    rw [e]
    simp only
    rw [if_neg (show ¬ (({ s.withTodo k with path := p, stack := st } : State).codeAt sym).length = 0 from h0)]
    rfl

theorem step_walkTable_node {s : State} {n l r : NodeIdx} {f : Word} {p : List Bool} {st : List Frame}
    (k : List Stmt) (hst : s.stack = .visit n p :: st) (h : s.nodeAt n = .internal l r f) :
    coreStep (s.withTodo (.walkTable :: k)) = some ((s.withWalk s.ct
      (.visit l (p ++ [false]) :: .visit r (p ++ [true]) :: st) p).withTodo (.walkTable :: k)) := by
  rw [coreStep_withTodo]
  simp only [runStmt, stepWalkTable, withTodo_stack, hst]
  have hn : ({ s.withTodo k with path := p, stack := st } : State).nodeAt n = .internal l r f :=
    (nodeAt_congr rfl n).trans h
  rw [hn]
  rfl

/-- The walk of one subtree records the codes of its leaves (R161). -/
theorem runs_walkTable (T : Tree) (n : NodeIdx) (p : List Bool) (st : List Frame) (k : List Stmt)
    (s : State) (hst : s.stack = .visit n p :: st) (hT : HoldsTree s n T) :
    ∃ P, RunsIn T.nodes (s.withTodo (.walkTable :: k))
      ((s.withWalk (recordAll s.ct (T.codes.map fun c => (c.1, p ++ c.2))) st P).withTodo
        (.walkTable :: k)) := by
  induction T generalizing n p st s with
  | leaf sym =>
    obtain ⟨f, hf⟩ := hT
    refine ⟨p, .one ?_⟩
    have := step_walkTable_leaf k hst hf
    simpa [Format.Tree.codes] using this
  | node l r hl hr =>
    obtain ⟨a, b, f, hf, h1, h2⟩ := hT
    have hstep := step_walkTable_node k hst hf
    obtain ⟨P, hrun⟩ := hl a (p ++ [false]) (.visit b (p ++ [true]) :: st)
      (s.withWalk s.ct (.visit a (p ++ [false]) :: .visit b (p ++ [true]) :: st) p) rfl (h1.congr rfl)
    obtain ⟨Q, hrun2⟩ := hr b (p ++ [true]) st
      (s.withWalk (recordAll s.ct (l.codes.map fun c => (c.1, p ++ [false] ++ c.2)))
        (.visit b (p ++ [true]) :: st) P) rfl (h2.congr rfl)
    refine ⟨Q, ?_⟩
    have e : recordAll (recordAll s.ct (l.codes.map fun c => (c.1, p ++ [false] ++ c.2)))
          (r.codes.map fun c => (c.1, p ++ [true] ++ c.2))
        = recordAll s.ct ((Format.Tree.node l r).codes.map fun c => (c.1, p ++ c.2)) := by
      rw [← recordAll_append]
      congr 1
      simp [Format.Tree.codes, Function.comp_def]
    have hrun2' : RunsIn r.nodes _ _ := hrun2
    rw [show (s.withWalk (recordAll s.ct (l.codes.map fun c => (c.1, p ++ [false] ++ c.2)))
      (.visit b (p ++ [true]) :: st) P).ct = recordAll s.ct (l.codes.map fun c => (c.1, p ++ [false] ++ c.2))
      from rfl, e] at hrun2'
    exact ((RunsIn.step hstep hrun).trans hrun2').mono (by simp only [Format.Tree.nodes]; omega)

theorem recordAll_get (ct : Vector (List Bool) 256) (l : List (Byte × List Bool)) (v : Byte)
    (hne : ∀ c ∈ l, c.2 ≠ []) :
    (recordAll ct l)[v.toNat] = if ct[v.toNat] = [] then
      ((l.find? (fun c => c.1 == v)).map Prod.snd).getD [] else ct[v.toNat] := by
  induction l generalizing ct with
  | nil => simp [recordAll]
  | cons c l ih =>
    have hcons : recordAll ct (c :: l) = recordAll
        (if (ct[c.1.toNat]).length = 0 then ct.set c.1.toNat c.2 else ct) l := rfl
    have hc := hne c (by simp)
    rw [hcons, ih _ (fun d hd => hne d (by simp [hd]))]
    by_cases hv : c.1 = v
    · subst hv
      by_cases h0 : ct[c.1.toNat] = []
      · simp [h0, hc]
      · have : ¬ (ct[c.1.toNat]).length = 0 := by simpa using h0
        simp [this, h0]
    · have hne' : c.1.toNat ≠ v.toNat := fun h => hv (BitVec.eq_of_toNat_eq h)
      have e : (if (ct[c.1.toNat]).length = 0 then ct.set c.1.toNat c.2 else ct)[v.toNat] = ct[v.toNat] := by
        split
        · exact Vector.getElem_set_ne _ _ hne'
        · rfl
      simp only [e]
      simp [hv]

/-- The table a whole walk records is the code table of the tree (R160 to R162). -/
theorem recordAll_codes (l r : Tree) (v : Byte) :
    (recordAll (Vector.replicate 256 []) (Format.Tree.node l r).codes)[v.toNat]
      = (Format.Tree.node l r).code v := by
  rw [recordAll_get _ _ _ (fun c hc => Format.Tree.codes_ne_nil l r c hc)]
  simp only [Vector.getElem_replicate, if_true, Format.Tree.code]
  cases (Format.Tree.node l r).codes.find? (fun c => c.1 == v) <;> rfl

/-! ### ENC_BUILD -/

/-- The state in which ENC_BUILD starts its leaf loop (R169). -/
def encBuildStart (s : State) : State :=
  { s with phase := 0x11#8, deg := false, ncnt := 0#10, heap := [] }

theorem encBuildStart_eq (s : State) : stepBuildStart (s.withPhase 0x11#8) = encBuildStart s := by
  simp [stepBuildStart, State.withPhase, encBuildStart]

theorem step_buildStart (k : List Stmt) (s : State) :
    coreStep (s.withTodo (.buildStart :: k)) = some ((stepBuildStart s).withTodo k) := rfl

theorem step_shape (k : List Stmt) (s : State) : coreStep (s.withTodo (.shape :: k))
    = some (s.withTodo ((if s.ncnt = 1#10 then .wrapSingle else .mergeLoop) :: k)) := rfl

theorem step_clearTable (k : List Stmt) (s : State) :
    coreStep (s.withTodo (.clearTable :: k)) = some ((stepClearTable s).withTodo k) := rfl

theorem step_walkStart (k : List Stmt) (s : State) :
    coreStep (s.withTodo (.walkStart :: k)) = some ((stepWalkStart s).withTodo k) := rfl

theorem step_setBuilt (k : List Stmt) (s : State) :
    coreStep (s.withTodo (.setBuilt :: k)) = some ((stepSetBuilt s).withTodo k) := rfl

theorem step_walkTable_end (k : List Stmt) {s : State} (h : s.stack = []) :
    coreStep (s.withTodo (.walkTable :: k)) = some (s.withTodo k) := by
  rw [coreStep_withTodo]
  simp only [runStmt, stepWalkTable, withTodo_stack, h]

/-- `s` with what ENC_BUILD writes (R169). -/
def State.built (s : State) (node : Vector Node 511) (ncnt : BitVec 10) (root : NodeIdx)
    (ct : Vector (List Bool) 256) (path : List Bool) (deg : Bool) : State :=
  { s with
    node := node, ncnt := ncnt, root := root, heap := [], ct := ct, stack := [], path := path
    deg := deg, treeValid := true, tableValid := true, degenerate := deg }

/-- The code table and the flags, once the tree is in the store (R160, R161, R169). -/
theorem runs_table (T : Tree) (k : List Stmt) (s : State) (hT : HoldsTree s s.root T)
    (hleaf : T.isLeaf = false) :
    ∃ ct P, (∀ v : Byte, ct[v.toNat] = T.code v) ∧
      RunsIn (T.nodes + 4) (s.withTodo (.clearTable :: .walkStart :: .walkTable :: .setBuilt :: k))
        ((stepSetBuilt (s.withWalk ct [] P)).withTodo k) := by
  match T, hleaf with
  | .node l r, _ =>
    obtain ⟨P, hrun⟩ := runs_walkTable (.node l r) s.root [] [] (.setBuilt :: k)
      (stepWalkStart (stepClearTable s)) rfl (hT.congr rfl)
    have e : ((Format.Tree.node l r).codes.map fun c => (c.1, [] ++ c.2)) = (Format.Tree.node l r).codes := by
      simp
    rw [e] at hrun
    refine ⟨recordAll (Vector.replicate 256 []) (Format.Tree.node l r).codes, P,
      recordAll_codes l r, ?_⟩
    have hrun' : RunsIn _ _ ((s.withWalk (recordAll (Vector.replicate 256 [])
      (Format.Tree.node l r).codes) [] P).withTodo (.walkTable :: .setBuilt :: k)) := hrun
    exact (RunsIn.step (step_clearTable _ _) (.step (step_walkStart _ _)
      (hrun'.trans (.step (step_walkTable_end _ rfl) (.one (step_setBuilt _ _)))))).mono (by omega)

theorem mem_leafForest_pos {w : Byte → Nat} {σ : Byte} (hσ : 0 < w σ) : 0 < (leafForest w).length := by
  have : (w σ, Format.Tree.leaf σ) ∈ leafForest w := by
    simp only [leafForest, List.mem_map, List.mem_filter]
    exact ⟨σ, ⟨Format.mem_allSymbols σ, by simpa using hσ⟩, rfl⟩
  exact List.length_pos_of_mem this

theorem length_leafForest_le (w : Byte → Nat) : (leafForest w).length ≤ 256 := by
  rw [← leavesUpTo_all]; exact length_leavesUpTo w 256

theorem forestWeight_leafForest (w : Byte → Nat) :
    forestWeight (leafForest w) = (Format.allSymbols.map w).sum := by
  simp only [forestWeight, leafForest, List.map_map]
  have h : (Prod.fst ∘ fun s => (w s, Format.Tree.leaf s)) = w := rfl
  rw [h]
  generalize Format.allSymbols = l
  induction l with
  | nil => rfl
  | cons a l ih =>
    by_cases ha : 0 < w a
    · simp [ha, ih]
    · have h0 : w a = 0 := by omega
      simp [h0, ih]

/-- The tree ENC_BUILD builds: NODE holds Huffman's tree of the counts, built from index 0 up, the root's
frequency is the total, and the single-leaf path ran exactly when there is one symbol (R156 to R159). -/
theorem runs_buildTree (k : List Stmt) (s : State) (hpos : 0 < weightOf s s.encSent)
    (hsum : (Format.allSymbols.map (weightOf s)).sum < 2 ^ 32) :
    ∃ t, t = { (encBuildStart s).withTree t.node t.ncnt t.root [] with deg := t.deg } ∧
      HoldsBelow t.ncnt.toNat t t.root (huffman (weightOf s) s.encSent) ∧
      t.ncnt.toNat = (huffman (weightOf s) s.encSent).nodes ∧
      (t.nodeAt t.root).freq.toNat = (Format.allSymbols.map (weightOf s)).sum ∧
      t.deg = decide ((leafForest (weightOf s)).length = 1) ∧
      RunsIn 600 ((encBuildStart s).withTodo (.makeLeaves 0 :: .shape :: k)) (t.withTodo k) := by
  have hlp := mem_leafForest_pos hpos
  have hle := length_leafForest_le (weightOf s)
  have hfw := forestWeight_leafForest (weightOf s)
  obtain ⟨u, hu, hfu, hnu, hrun⟩ := runs_makeLeaves (weightOf s) 256 0 (.shape :: k) (encBuildStart s) rfl
    (fun _ => rfl) ⟨List.Forall₂.nil, List.Pairwise.nil⟩ rfl
  have hsent : u.encSent = s.encSent := (congrArg State.encSent hu).trans rfl
  have hdeg : u.deg = false := (congrArg State.deg hu).trans rfl
  have hshape := step_shape k u
  by_cases h1 : (leafForest (weightOf s)).length = 1
  · obtain ⟨x, hx⟩ := List.length_eq_one_iff.mp h1
    have hncnt : u.ncnt = 1#10 := BitVec.eq_of_toNat_eq (by rw [hnu, h1]; rfl)
    rw [if_pos hncnt] at hshape
    rw [hx] at hfu
    obtain ⟨t, ht, hb, hfr, hstep⟩ := runs_wrapSingle x k u hfu (by rw [hncnt]; rfl)
    have hhuff : huffman (weightOf s) s.encSent = .node x.2 (.leaf s.encSent) := by
      unfold huffman; rw [hx]
    rw [hsent] at hb
    have hroot : t.root = 2#9 := (congrArg State.root ht).trans rfl
    have hn3 : t.ncnt = 3#10 := (congrArg State.ncnt ht).trans rfl
    have hxl : ∃ v, x.2 = .leaf v := by
      have hm : x ∈ leafForest (weightOf s) := by rw [hx]; simp
      simp only [leafForest, List.mem_map] at hm
      obtain ⟨v, -, rfl⟩ := hm
      exact ⟨v, rfl⟩
    obtain ⟨v, hv⟩ := hxl
    have hd : t.deg = true := (congrArg State.deg ht).trans rfl
    refine ⟨t, ?_, by rw [hhuff, hroot, hn3]; exact hb, by rw [hhuff, hn3, hv]; rfl, ?_, ?_, ?_⟩
    · rw [hd]
      conv_lhs => rw [ht, hu]
      rw [hroot, hn3]
      rfl
    · rw [hroot, hfr, ← hfw, hx]; simp [forestWeight]
    · rw [hd]; simp [h1]
    · exact (hrun.trans (.step hshape (.one hstep))).mono (by omega)
  · have hncnt : u.ncnt ≠ 1#10 := fun h => h1 (by rw [← hnu, h]; rfl)
    rw [if_neg hncnt] at hshape
    obtain ⟨t, T, hT, ht, hnt, hr, hrun2⟩ := runs_mergeLoop (leafForest (weightOf s)).length
      (leafForest (weightOf s)) k u hfu (List.ne_nil_of_length_pos hlp) (by omega)
      (by rw [hfw]; exact hsum) (by rw [hnu]; omega)
    have hhuff : huffman (weightOf s) s.encSent = T := by
      unfold huffman
      split
      · rename_i x hx
        rw [hx] at h1; simp at h1
      · rename_i hx
        rw [hT]; rfl
    have hd : t.deg = false := ((congrArg State.deg ht).trans rfl).trans hdeg
    have hsym : T.symbols.length = (leafForest (weightOf s)).length := by
      rw [← hhuff, ((Format.huffman_spec (weightOf s) s.encSent hpos).2.2 (by omega)).length_eq,
        Format.leafForest_length]
    refine ⟨t, ?_, by rw [hhuff]; exact hr.1, ?_, by rw [← hfw]; exact hr.2, ?_, ?_⟩
    · conv_lhs => rw [ht, hu]
      have : (encBuildStart s).deg = false := rfl
      rw [hd]; rfl
    · have := T.nodes_eq
      rw [hhuff]; omega
    · rw [hd]; simp [h1]
    · exact (hrun.trans (.step hshape hrun2)).mono (by omega)

/-- ENC_BUILD with counts that promise what ENC_COUNT leaves (R169). -/
theorem runs_encBuild (k : List Stmt) (s : State) (hv : s.freqValid = true)
    (hpos : 0 < weightOf s s.encSent) (hsum : (Format.allSymbols.map (weightOf s)).sum < 2 ^ 32) :
    ∃ t, t = (s.withPhase 0x11#8).built t.node t.ncnt t.root t.ct t.path
          (decide ((leafForest (weightOf s)).length = 1)) ∧
      HoldsBelow t.ncnt.toNat t t.root (huffman (weightOf s) s.encSent) ∧
      t.ncnt.toNat = (huffman (weightOf s) s.encSent).nodes ∧
      (t.nodeAt t.root).freq.toNat = (Format.allSymbols.map (weightOf s)).sum ∧
      HoldsTable t (huffman (weightOf s) s.encSent) ∧
      RunsIn 1200 (s.withTodo (bodyEncBuild ++ k)) (t.withTodo k) := by
  obtain ⟨u, hu, hb, hn, hfr, hd, hrun⟩ := runs_buildTree
    (.clearTable :: .walkStart :: .walkTable :: .setBuilt :: k) s hpos hsum
  obtain ⟨ct, P, hct, hrun2⟩ := runs_table _ k u hb.holdsTree
    (Format.huffman_spec (weightOf s) s.encSent hpos).1
  have hle := Format.huffman_nodes_le (weightOf s) s.encSent hpos
  have h0 : RunsIn 3 (s.withTodo (bodyEncBuild ++ k)) ((encBuildStart s).withTodo (.makeLeaves 0 ::
      .shape :: .clearTable :: .walkStart :: .walkTable :: .setBuilt :: k)) := by
    rw [← encBuildStart_eq]
    exact .step (step_phase _ _ _) (.step (step_needFlag (f := .freq) _ hv) (.one (step_buildStart _ _)))
  refine ⟨stepSetBuilt (u.withWalk ct [] P), ?_, ?_, hn, ?_, fun v => hct v,
    ((h0.trans hrun).trans hrun2).mono (by omega)⟩
  · rw [← hd]
    show stepSetBuilt (u.withWalk ct [] P) = (s.withPhase 0x11#8).built u.node u.ncnt u.root ct P u.deg
    conv_lhs => rw [hu]
    rfl
  · exact hb.mono le_rfl fun j _ => nodeAt_congr rfl j
  · rw [← hfr]; exact congrArg (fun n => n.freq.toNat) (nodeAt_congr rfl _)

end Sys2Proof.Machine
end

