-- ==== Sys2Proof/Laws/EncoderEmit.lean ====
section
/-!
SUPPORT. Whole runs of the bit-packer: the tree write, the payload pass, the sentinel's code, and
ENC_EMIT (42_encoder.md R164 to R167, R170).
-/

namespace Sys2Proof.Machine

open Sys2Proof.Format (Tree streamBits)

/-! ### Writing is independent of what is not written -/

/-- `s` with another stack. -/
def State.withStack (s : State) (st : List Frame) : State := { s with stack := st }

/-- `s` after the next `n` bytes have been taken from the source. -/
def taken (s : State) (n : Nat) : State :=
  { s with
    inCount := s.inCount + BitVec.ofNat 32 n
    env := { s.env with sIn := s.env.sIn.drop n } }

theorem writeOne_withStack (b : Bool) (s : State) (st : List Frame) :
    writeOne b (s.withStack st) = (writeOne b s).withStack st := by
  unfold writeOne
  by_cases h : (s.bbBits ++ [b]).length = s.bufBits
  · rw [if_pos h, if_pos (show ((s.withStack st).bbBits ++ [b]).length = (s.withStack st).bufBits from h)]
    rfl
  · rw [if_neg h,
      if_neg (show ¬ ((s.withStack st).bbBits ++ [b]).length = (s.withStack st).bufBits from h)]
    rfl

theorem writeAll_withStack (bs : List Bool) (s : State) (st : List Frame) :
    writeAll bs (s.withStack st) = (writeAll bs s).withStack st := by
  induction bs generalizing s with
  | nil => simp only [writeAll_nil]
  | cons b bs ih => rw [writeAll_cons, writeOne_withStack, ih, writeAll_cons]

theorem writeOne_taken (b : Bool) (s : State) (n : Nat) :
    writeOne b (taken s n) = taken (writeOne b s) n := by
  unfold writeOne
  by_cases h : (s.bbBits ++ [b]).length = s.bufBits
  · rw [if_pos h, if_pos (show ((taken s n).bbBits ++ [b]).length = (taken s n).bufBits from h)]
    rfl
  · rw [if_neg h, if_neg (show ¬ ((taken s n).bbBits ++ [b]).length = (taken s n).bufBits from h)]
    rfl

theorem writeAll_taken (bs : List Bool) (s : State) (n : Nat) :
    writeAll bs (taken s n) = taken (writeAll bs s) n := by
  induction bs generalizing s with
  | nil => simp only [writeAll_nil]
  | cons b bs ih => rw [writeAll_cons, writeOne_taken, ih, writeAll_cons]

/-- What writing changes: the bits in the buffer and what has been sent. -/
theorem writeAll_eq (bs : List Bool) (s : State) :
    ∃ l b, writeAll bs s = (s.sent l).withBits b := by
  induction bs generalizing s with
  | nil => exact ⟨[], s.bbBits, by rw [writeAll_nil, sent_nil]; rfl⟩
  | cons b bs ih =>
    obtain ⟨l, b', h⟩ := ih (writeOne b s)
    rw [writeAll_cons, h]
    unfold writeOne
    split
    · exact ⟨packBits (s.bbBits ++ [b]) ++ l, b', by rw [← sent_sent]; rfl⟩
    · exact ⟨l, b', rfl⟩

theorem writeAll_mode (bs : List Bool) (s : State) : (writeAll bs s).bbMode = s.bbMode := by
  obtain ⟨l, b, h⟩ := writeAll_eq bs s; rw [h]; rfl

theorem writeAll_sink (bs : List Bool) (s : State) : (writeAll bs s).env.sink = s.env.sink := by
  obtain ⟨l, b, h⟩ := writeAll_eq bs s; rw [h]; rfl

theorem writeAll_bufBytes (bs : List Bool) (s : State) : (writeAll bs s).bufBytes = s.bufBytes := by
  obtain ⟨l, b, h⟩ := writeAll_eq bs s; rw [h]; rfl

theorem writeAll_node (bs : List Bool) (s : State) : (writeAll bs s).node = s.node := by
  obtain ⟨l, b, h⟩ := writeAll_eq bs s; rw [h]; rfl

theorem writeAll_sIn (bs : List Bool) (s : State) : (writeAll bs s).env.sIn = s.env.sIn := by
  obtain ⟨l, b, h⟩ := writeAll_eq bs s; rw [h]; rfl

theorem writeAll_codeAt (bs : List Bool) (s : State) (v : Byte) : (writeAll bs s).codeAt v = s.codeAt v := by
  obtain ⟨l, b, h⟩ := writeAll_eq bs s; rw [h]; rfl

theorem writeAll_encSent (bs : List Bool) (s : State) : (writeAll bs s).encSent = s.encSent := by
  obtain ⟨l, b, h⟩ := writeAll_eq bs s; rw [h]; rfl

theorem writeAll_encColl (bs : List Bool) (s : State) : (writeAll bs s).encColl = s.encColl := by
  obtain ⟨l, b, h⟩ := writeAll_eq bs s; rw [h]; rfl

/-- `s` with the bit buffer closed. -/
def State.shut (s : State) : State := { s with bbBits := [], bbRemain := 0#32, bbMode := .closed }

/-- Writing bits into an empty buffer and closing it sends the bits packed, whatever BUF_BITS is
(R127). -/
theorem closeAll_writeAll (bs : List Bool) (s : State) (hm : s.bbMode = .write) (hb : s.bbBits = []) :
    closeAll (writeAll bs s) = (s.sent (packBits bs)).shut := by
  obtain ⟨m, h1, -, h3⟩ := writeAll_session bs s (by
    rw [hb]; simp only [List.length_nil, State.bufBits, State.bufBytes]; omega)
  rw [hb, List.nil_append] at h1 h3
  have hmode : (writeAll bs s).bbMode = .write := (writeAll_mode bs s).trans hm
  unfold closeAll
  rw [if_pos hmode, h3]
  have e : packBits bs = packBits (bs.take (8 * m)) ++ packBits (bs.drop (8 * m)) := by
    conv_lhs => rw [← List.take_append_drop (8 * m) bs]
    exact packBits_append (m := m) (by rw [List.length_take]; omega)
  rw [e, ← sent_sent]
  rfl

/-- Writing bits into an empty buffer and raising an error: the release sends the bits packed. -/
theorem raised_writeAll (bs : List Bool) (s : State) (e : ErrCode) (hm : s.bbMode = .write)
    (hb : s.bbBits = []) : raised (writeAll bs s) e = ((s.sent (packBits bs)).shut).failStep e := by
  unfold raised
  rw [closeAll_writeAll bs s hm hb]

/-! ### The tree write -/

theorem step_writeByte {v : Byte} (k : List Stmt) {s : State} (hm : s.bbMode = .write) :
    coreStep (s.withTodo (.writeByte v :: k))
      = some (s.withTodo ((bitsOfByte v).map Stmt.writeBit ++ k)) := by
  rw [coreStep_withTodo]
  simp only [runStmt, stepWriteByte]
  rw [if_neg (show ¬ (s.withTodo k).bbMode ≠ .write from not_not.mpr hm)]
  rfl

theorem step_treeWrite_leaf {s : State} {n : NodeIdx} {sym : Byte} {f : Word} {p : List Bool}
    {st : List Frame} (k : List Stmt) (hst : s.stack = .visit n p :: st) (h : s.nodeAt n = .leaf sym f) :
    coreStep (s.withTodo (.treeWrite :: k))
      = some ((s.withStack st).withTodo (.writeBit true :: .writeByte sym :: .treeWrite :: k)) := by
  rw [coreStep_withTodo]
  simp only [runStmt, stepTreeWrite, withTodo_stack, hst, nodeAt_congr (s := s.withTodo k) (t := s) rfl, h]
  rfl

theorem step_treeWrite_node {s : State} {n l r : NodeIdx} {f : Word} {p : List Bool} {st : List Frame}
    (k : List Stmt) (hst : s.stack = .visit n p :: st) (h : s.nodeAt n = .internal l r f) :
    coreStep (s.withTodo (.treeWrite :: k)) = some ((s.withStack
      (.visit l (p ++ [false]) :: .visit r (p ++ [true]) :: st)).withTodo
        (.writeBit false :: .treeWrite :: k)) := by
  rw [coreStep_withTodo]
  simp only [runStmt, stepTreeWrite, withTodo_stack, hst, nodeAt_congr (s := s.withTodo k) (t := s) rfl, h]
  rfl

theorem step_treeWrite_end (k : List Stmt) {s : State} (h : s.stack = []) :
    coreStep (s.withTodo (.treeWrite :: k)) = some (s.withTodo k) := by
  rw [coreStep_withTodo]
  simp only [runStmt, stepTreeWrite, withTodo_stack, h]

/-- The tree write of one subtree writes its tree section (R164, 30_encoding.md R87). -/
theorem runs_treeWrite (T : Tree) (n : NodeIdx) (p : List Bool) (st : List Frame) (k : List Stmt)
    (s : State) (hst : s.stack = .visit n p :: st) (hT : HoldsTree s n T) (hm : s.bbMode = .write)
    (hs : s.env.sink = none) :
    RunsIn (T.serialize.length * (s.bufBytes + 3) + T.nodes) (s.withTodo (.treeWrite :: k))
      (((writeAll T.serialize s).withStack st).withTodo (.treeWrite :: k)) := by
  induction T generalizing n p st s with
  | leaf sym =>
    obtain ⟨f, hf⟩ := hT
    have h1 := step_treeWrite_leaf k hst hf
    have h2 := runs_writeBit true (.writeByte sym :: .treeWrite :: k) (s.withStack st) hm hs
    have h3 := step_writeByte (v := sym) (.treeWrite :: k) (s := writeOne true (s.withStack st))
      ((writeOne_mode _ _).trans hm)
    have h4 := runs_writeBits (bitsOfByte sym) (.treeWrite :: k) (writeOne true (s.withStack st))
      ((writeOne_mode _ _).trans hm) ((writeOne_sink _ _).trans hs)
    have e : writeAll (bitsOfByte sym) (writeOne true (s.withStack st))
        = (writeAll (Format.Tree.leaf sym).serialize s).withStack st := by
      rw [← writeAll_withStack, Format.Tree.serialize, writeAll_cons]
    rw [e, writeOne_bufBytes] at h4
    refine (RunsIn.step h1 (h2.trans (.step h3 h4))).mono ?_
    show s.bufBytes + 2 + (8 * (s.bufBytes + 2) + 1) + 1 ≤ 9 * (s.bufBytes + 3) + 1
    omega
  | node l r hl hr =>
    obtain ⟨a, b, f, hf, h1, h2⟩ := hT
    have hs1 := step_treeWrite_node k hst hf
    set s1 := s.withStack (.visit a (p ++ [false]) :: .visit b (p ++ [true]) :: st) with hs1d
    have hw := runs_writeBit false (.treeWrite :: k) s1 hm hs
    have hstk : (writeOne false s1).stack = .visit a (p ++ [false]) :: .visit b (p ++ [true]) :: st := by
      rw [hs1d, writeOne_withStack]; rfl
    have hm1 : (writeOne false s1).bbMode = .write := (writeOne_mode _ _).trans hm
    have hk1 : (writeOne false s1).env.sink = none := (writeOne_sink _ _).trans hs
    have hB1 : (writeOne false s1).bufBytes = s.bufBytes := writeOne_bufBytes _ _
    have hn1 : (writeOne false s1).node = s.node := by
      have := writeAll_node [false] s1
      rwa [writeAll_cons, writeAll_nil] at this
    have hrun1 := hl a (p ++ [false]) (.visit b (p ++ [true]) :: st) (writeOne false s1) hstk
      (h1.congr hn1) hm1 hk1
    set s2 := (writeAll l.serialize (writeOne false s1)).withStack (.visit b (p ++ [true]) :: st) with hs2
    have hrun2 := hr b (p ++ [true]) st s2 rfl (h2.congr ((writeAll_node _ _).trans hn1))
      ((writeAll_mode _ _).trans hm1) ((writeAll_sink _ _).trans hk1)
    have e : (writeAll r.serialize s2).withStack st
        = (writeAll (Format.Tree.node l r).serialize s).withStack st := by
      rw [hs2, writeAll_withStack, hs1d, writeOne_withStack, writeAll_withStack, writeAll_withStack]
      simp only [Format.Tree.serialize, writeAll_cons, writeAll_append]
      rfl
    rw [e] at hrun2
    have hB2 : s2.bufBytes = s.bufBytes := (writeAll_bufBytes _ _).trans hB1
    rw [hB1] at hrun1
    rw [hB2] at hrun2
    have hB : s1.bufBytes = s.bufBytes := rfl
    rw [hB] at hw
    refine (RunsIn.step hs1 ((hw.trans hrun1).trans hrun2)).mono ?_
    simp only [Format.Tree.serialize, Format.Tree.nodes, List.length_cons, List.length_append]
    ring_nf; omega

/-! ### The payload pass -/

theorem step_emit {s : State} {v : Byte} {rest : List Byte} (n : Nat) (k : List Stmt)
    (h : s.env.sIn = v :: rest) : coreStep (s.withTodo (.emit (n + 1) :: k))
      = some ((tookOne s rest).withTodo (.emitSym v :: .emit n :: k)) := by
  rw [coreStep_withTodo]
  simp only [runStmt, stepEmit, inByte_cons (s := s.withTodo k) (v := v) (rest := rest) h]
  rfl

theorem step_emit_zero (k : List Stmt) (s : State) :
    coreStep (s.withTodo (.emit 0 :: k)) = some (s.withTodo k) := rfl

theorem tookOne_eq {s : State} {v : Byte} {rest : List Byte} (h : s.env.sIn = v :: rest) :
    tookOne s rest = taken s 1 := by
  unfold tookOne taken
  rw [h]; rfl

/-- A byte that can be coded: no collision, and it has a code (R165). -/
def Codable (s : State) (v : Byte) : Prop := ¬ (s.encColl = true ∧ v = s.encSent) ∧ s.codeAt v ≠ []

theorem step_emitSym {s : State} {v : Byte} (k : List Stmt) (h : Codable s v) :
    coreStep (s.withTodo (.emitSym v :: k))
      = some (s.withTodo ((s.codeAt v).map Stmt.writeBit ++ k)) := by
  rw [coreStep_withTodo]
  simp only [runStmt, stepEmitSym]
  rw [if_neg (show ¬ ((s.withTodo k).encColl = true ∧ v = (s.withTodo k).encSent) from h.1),
    if_neg (show ¬ ((s.withTodo k).codeAt v).length = 0 from
      fun h0 => h.2 (List.length_eq_zero_iff.mp h0))]
  rfl

/-- The error a byte that cannot be coded raises: the collision check comes first (R165). -/
def emitError (s : State) (v : Byte) : ErrCode :=
  if s.encColl = true ∧ v = s.encSent then .sentinelCollision else .unknownSymbol

theorem step_emitSym_not {s : State} {v : Byte} (k : List Stmt) (h : ¬ Codable s v) :
    coreStep (s.withTodo (.emitSym v :: k)) = some (s.withTodo [.bbClose, .fail (emitError s v)]) := by
  rw [coreStep_withTodo]
  simp only [runStmt, stepEmitSym, emitError]
  by_cases h1 : s.encColl = true ∧ v = s.encSent
  · rw [if_pos h1, if_pos (show (s.withTodo k).encColl = true ∧ v = (s.withTodo k).encSent from h1)]
    rfl
  · have h2 : s.codeAt v = [] := by
      by_contra h2
      exact h ⟨h1, h2⟩
    rw [if_neg h1, if_neg (show ¬ ((s.withTodo k).encColl = true ∧ v = (s.withTodo k).encSent) from h1),
      if_pos (show ((s.withTodo k).codeAt v).length = 0 from by
        rw [show (s.withTodo k).codeAt v = s.codeAt v from rfl, h2]; rfl)]
    rfl

theorem taken_taken (s : State) (a b : Nat) : taken (taken s a) b = taken s (a + b) := by
  simp [taken, BitVec.ofNat_add, BitVec.add_assoc, List.drop_drop]

/-- The payload pass over bytes that can be coded writes their codes (R165). -/
theorem runs_emit (C : Nat) (l : List Byte) (m : Nat) (k : List Stmt) (s : State) (rest : List Byte)
    (hin : s.env.sIn = l ++ rest) (hok : ∀ v ∈ l, Codable s v) (hC : ∀ v, (s.codeAt v).length ≤ C)
    (hm : s.bbMode = .write) (hs : s.env.sink = none) :
    RunsIn (l.length * (C * (s.bufBytes + 2) + 2)) (s.withTodo (.emit (l.length + m) :: k))
      ((writeAll (l.flatMap s.codeAt) (taken s l.length)).withTodo (.emit m :: k)) := by
  induction l generalizing s with
  | nil =>
    have : taken s 0 = s := by simp [taken]
    rw [List.length_nil, this, Nat.zero_add, List.flatMap_nil, writeAll_nil]
    exact RunsIn.refl _ _
  | cons v l ih =>
    have h1 := step_emit (l.length + m) k (s := s) hin
    rw [show l.length + m + 1 = (v :: l).length + m by simp; omega, tookOne_eq hin] at h1
    have h2 := step_emitSym (s := taken s 1) (.emit (l.length + m) :: k) (hok v (by simp))
    have h3 := runs_writeBits (s.codeAt v) (.emit (l.length + m) :: k) (taken s 1) hm hs
    set s1 := writeAll (s.codeAt v) (taken s 1) with hs1
    have hc1 : ∀ u, s1.codeAt u = s.codeAt u := fun u => writeAll_codeAt _ _ u
    have h4 := ih s1 (by
        rw [hs1, writeAll_sIn]
        show s.env.sIn.drop 1 = _
        rw [hin]; rfl)
      (fun u hu => by
        have := hok u (List.mem_cons_of_mem _ hu)
        exact ⟨by
          rw [hs1, writeAll_encColl, writeAll_encSent]; exact this.1, by rw [hc1]; exact this.2⟩)
      (fun u => by rw [hc1]; exact hC u) ((writeAll_mode _ _).trans hm) ((writeAll_sink _ _).trans hs)
    have e : writeAll (l.flatMap s1.codeAt) (taken s1 l.length)
        = writeAll ((v :: l).flatMap s.codeAt) (taken s (v :: l).length) := by
      have e1 : s1.codeAt = s.codeAt := funext hc1
      rw [e1, hs1, ← writeAll_taken, taken_taken, ← writeAll_append, List.flatMap_cons,
        List.length_cons, Nat.add_comm 1]
    have hB : s1.bufBytes = s.bufBytes := writeAll_bufBytes _ _
    rw [e, hB] at h4
    have hCv : (s.codeAt v).length * (s.bufBytes + 2) ≤ C * (s.bufBytes + 2) :=
      Nat.mul_le_mul_right _ (hC v)
    have hB' : (taken s 1).bufBytes = s.bufBytes := rfl
    rw [hB'] at h3
    refine (RunsIn.step h1 (.step h2 (h3.trans h4))).mono ?_
    have : (v :: l).length * (C * (s.bufBytes + 2) + 2)
        = l.length * (C * (s.bufBytes + 2) + 2) + (C * (s.bufBytes + 2) + 2) := by
      rw [List.length_cons]; ring
    omega

/-! ### ENC_EMIT -/

theorem step_payloadPass (k : List Stmt) (s : State) :
    coreStep (s.withTodo (.payloadPass :: k)) = some (s.withTodo (.emit s.srcLen.toNat :: k)) := rfl

theorem step_sentinelCode (k : List Stmt) (s : State) : coreStep (s.withTodo (.sentinelCode :: k))
    = some (s.withTodo ((s.codeAt s.encSent).map Stmt.writeBit ++ k)) := rfl

/-- The state in which ENC_EMIT's tree write starts, but for the stack `st` (R170). -/
def encEmitStart (s : State) (st : List Frame) : State :=
  { s with phase := 0x12#8, bbMode := .write, bbBits := [], bbRemain := 0#32, stack := st }

theorem encEmitStart_eq (s : State) : stepWalkStart (stepBbOpen .write (s.withPhase 0x12#8))
    = encEmitStart s [.visit s.root []] := by
  simp [stepWalkStart, stepBbOpen, State.withPhase, encEmitStart]

theorem encEmitStart_withStack (s : State) (st st' : List Frame) :
    (encEmitStart s st).withStack st' = encEmitStart s st' := by
  simp [State.withStack, encEmitStart]

/-- ENC_EMIT up to its payload pass (R164, R170). -/
theorem runs_encEmit_tree (T : Tree) (k : List Stmt) (s : State) (hv : s.tableValid = true)
    (hm : s.bbMode = .closed) (h0 : 0 < s.srcLen.toNat) (hs : s.env.sink = none)
    (hT : HoldsTree s s.root T) :
    RunsIn (T.serialize.length * (s.bufBytes + 3) + T.nodes + 8) (s.withTodo (bodyEncEmit ++ k))
      ((writeAll T.serialize (encEmitStart s [])).withTodo
        (.emit s.srcLen.toNat :: .sentinelCode :: .bbClose :: k)) := by
  have h1 : RunsIn 6 (s.withTodo (bodyEncEmit ++ k)) ((encEmitStart s [.visit s.root []]).withTodo
      (.treeWrite :: .payloadPass :: .sentinelCode :: .bbClose :: k)) := by
    rw [← encEmitStart_eq]
    exact .step (step_phase _ _ _) (.step (step_needFlag (f := .table) _ hv) (.step (step_needMode _ hm)
      (.step (step_needSource _ (s := s.withPhase 0x12#8) (srcLen_ne_zero h0))
        (.step (step_bbOpen _ _ _) (.one (step_walkStart _ _))))))
  have h2 := runs_treeWrite T s.root [] [] (.payloadPass :: .sentinelCode :: .bbClose :: k)
    (encEmitStart s [.visit s.root []]) rfl (hT.congr rfl) rfl hs
  rw [← writeAll_withStack, encEmitStart_withStack] at h2
  set s1 := writeAll T.serialize (encEmitStart s []) with hs1
  have h3 := step_treeWrite_end (s := s1) (.payloadPass :: .sentinelCode :: .bbClose :: k) (by
    obtain ⟨l, b, h⟩ := writeAll_eq T.serialize (encEmitStart s [])
    rw [hs1, h]; rfl)
  have h4 := step_payloadPass (.sentinelCode :: .bbClose :: k) s1
  have h5 : s1.srcLen = s.srcLen := by
    obtain ⟨l, b, h⟩ := writeAll_eq T.serialize (encEmitStart s [])
    rw [hs1, h]; rfl
  rw [h5] at h4
  exact ((h1.trans h2).trans (.step h3 (.one h4))).mono (by
    show 6 + (T.serialize.length * (s.bufBytes + 3) + T.nodes) + (1 + 1) ≤ _
    omega)

/-- The state of ENC_EMIT after the tree section and the codes of the bytes `l`, with what it has written
still to be closed (R164, R165). -/
def emitting (T : Tree) (s : State) (l : List Byte) : State :=
  writeAll (T.serialize ++ l.flatMap s.codeAt) (taken (encEmitStart s []) l.length)

theorem emitting_bufBytes (T : Tree) (s : State) (l : List Byte) :
    (emitting T s l).bufBytes = s.bufBytes := writeAll_bufBytes _ _

theorem emitting_mode (T : Tree) (s : State) (l : List Byte) : (emitting T s l).bbMode = .write :=
  writeAll_mode _ _

theorem emitting_sink (T : Tree) (s : State) (l : List Byte) :
    (emitting T s l).env.sink = s.env.sink := writeAll_sink _ _

theorem emitting_codeAt (T : Tree) (s : State) (l : List Byte) (v : Byte) :
    (emitting T s l).codeAt v = s.codeAt v := writeAll_codeAt _ _ _

theorem emitting_bbBits (T : Tree) (s : State) (l : List Byte) :
    (emitting T s l).bbBits.length < s.bufBits := by
  obtain ⟨m, -, h2, h3⟩ := writeAll_session (T.serialize ++ l.flatMap s.codeAt)
    (taken (encEmitStart s []) l.length) (by
      show 0 < 8 * (s.extraBytes + 1); omega)
  rw [emitting, h3]
  exact h2

/-- ENC_EMIT up to the end of its payload pass over bytes that can be coded. -/
theorem runs_encEmit_payload (T : Tree) (C : Nat) (src : List Byte) (m : Nat) (k : List Stmt) (s : State)
    (rest : List Byte) (hv : s.tableValid = true) (hm : s.bbMode = .closed)
    (h0 : 0 < s.srcLen.toNat) (hs : s.env.sink = none) (hT : HoldsTree s s.root T)
    (hin : s.env.sIn = src ++ rest) (hlen : src.length + m = s.srcLen.toNat)
    (hok : ∀ v ∈ src, Codable s v) (hC : ∀ v, (s.codeAt v).length ≤ C) :
    RunsIn (T.serialize.length * (s.bufBytes + 3) + T.nodes + 8
        + src.length * (C * (s.bufBytes + 2) + 2))
      (s.withTodo (bodyEncEmit ++ k))
      ((emitting T s src).withTodo (.emit m :: .sentinelCode :: .bbClose :: k)) := by
  have h1 := runs_encEmit_tree T k s hv hm h0 hs hT
  set s1 := writeAll T.serialize (encEmitStart s []) with hs1
  have hc1 : s1.codeAt = s.codeAt := funext fun v => writeAll_codeAt _ _ v
  have h2 := runs_emit C src m (.sentinelCode :: .bbClose :: k) s1 rest
    ((writeAll_sIn _ _).trans hin) (fun v hv' => by
      refine ⟨?_, by rw [hc1]; exact (hok v hv').2⟩
      rw [hs1, writeAll_encColl, writeAll_encSent]
      exact (hok v hv').1) (fun v => by rw [hc1]; exact hC v) (writeAll_mode _ _)
    ((writeAll_sink _ _).trans hs)
  have e : writeAll (src.flatMap s1.codeAt) (taken s1 src.length) = emitting T s src := by
    rw [hc1, hs1, ← writeAll_taken, ← writeAll_append]; rfl
  have hB : s1.bufBytes = s.bufBytes := writeAll_bufBytes _ _
  rw [e, hlen, hB] at h2
  exact h1.trans h2

/-- `s` after ENC_EMIT has sent the bytes `o` and taken `n` bytes, its session closed (R170). -/
def State.emitted (s : State) (o : List Byte) (n : Nat) : State :=
  { s with
    phase := 0x12#8, bbMode := .closed, bbBits := [], bbRemain := 0#32, stack := []
    inCount := s.inCount + BitVec.ofNat 32 n
    outCount := s.outCount + BitVec.ofNat 32 o.length
    env := { s.env with sIn := s.env.sIn.drop n, sOut := s.env.sOut ++ o } }

theorem shut_emitting (s : State) (o : List Byte) (n : Nat) :
    ((taken (encEmitStart s []) n).sent o).shut = s.emitted o n := by
  simp [taken, encEmitStart, State.sent, State.shut, State.emitted]

/-- The state at the end of ENC_EMIT (R167, R170). -/
def encEmitEnd (T : Tree) (s : State) (src : List Byte) : State :=
  s.emitted (packBits (T.serialize ++ (src.flatMap s.codeAt ++ s.codeAt s.encSent))) src.length

/-- ENC_EMIT with a tree and a table, over bytes that can be coded (R164 to R167, R170). -/
theorem runs_encEmit (T : Tree) (C : Nat) (src : List Byte) (k : List Stmt) (s : State)
    (rest : List Byte) (hv : s.tableValid = true) (hm : s.bbMode = .closed)
    (h0 : 0 < s.srcLen.toNat) (hs : s.env.sink = none) (hT : HoldsTree s s.root T)
    (hin : s.env.sIn = src ++ rest) (hlen : src.length = s.srcLen.toNat)
    (hok : ∀ v ∈ src, Codable s v) (hC : ∀ v, (s.codeAt v).length ≤ C) :
    RunsIn (T.serialize.length * (s.bufBytes + 3) + T.nodes + 8
        + src.length * (C * (s.bufBytes + 2) + 2) + C * (s.bufBytes + 2) + s.bufBits + 5)
      (s.withTodo (bodyEncEmit ++ k)) ((encEmitEnd T s src).withTodo k) := by
  have h1 := runs_encEmit_payload T C src 0 k s rest hv hm h0 hs hT hin (by omega) hok hC
  have h2 := step_emit_zero (.sentinelCode :: .bbClose :: k) (emitting T s src)
  have h3 := step_sentinelCode (.bbClose :: k) (emitting T s src)
  have hes : (emitting T s src).encSent = s.encSent := writeAll_encSent _ _
  rw [hes, emitting_codeAt] at h3
  have h4 := runs_writeBits (s.codeAt s.encSent) (.bbClose :: k) (emitting T s src)
    (emitting_mode _ _ _) ((emitting_sink _ _ _).trans hs)
  have e : writeAll (s.codeAt s.encSent) (emitting T s src)
      = writeAll (T.serialize ++ (src.flatMap s.codeAt ++ s.codeAt s.encSent))
        (taken (encEmitStart s []) src.length) := by
    rw [emitting, ← writeAll_append, List.append_assoc]
  rw [e, emitting_bufBytes] at h4
  set s2 := writeAll (T.serialize ++ (src.flatMap s.codeAt ++ s.codeAt s.encSent))
    (taken (encEmitStart s []) src.length) with hs2
  have h5 := runs_bbClose k s2 ((writeAll_sink _ _).trans hs)
  rw [hs2, closeAll_writeAll _ _ rfl rfl, shut_emitting, ← hs2] at h5
  have hbits : s2.bbBits.length < s.bufBits := by
    obtain ⟨m, -, hb2, hb3⟩ := writeAll_session
      (T.serialize ++ (src.flatMap s.codeAt ++ s.codeAt s.encSent))
      (taken (encEmitStart s []) src.length) (by
        show 0 < 8 * (s.extraBytes + 1); omega)
    rw [hs2, hb3]; exact hb2
  have hCv : (s.codeAt s.encSent).length * (s.bufBytes + 2) ≤ C * (s.bufBytes + 2) :=
    Nat.mul_le_mul_right _ (hC _)
  exact (h1.trans (.step h2 (.step h3 (h4.trans h5)))).mono (by omega)

/-- ENC_EMIT over a source whose byte number `pre.length` is the first that cannot be coded (R165). -/
theorem runs_encEmit_stop (T : Tree) (C : Nat) (pre : List Byte) (v : Byte) (k : List Stmt) (s : State)
    (rest : List Byte) (hv : s.tableValid = true) (hm : s.bbMode = .closed)
    (hlen : pre.length < s.srcLen.toNat) (hs : s.env.sink = none) (hT : HoldsTree s s.root T)
    (hin : s.env.sIn = pre ++ v :: rest) (hok : ∀ u ∈ pre, Codable s u) (hbad : ¬ Codable s v)
    (hC : ∀ v, (s.codeAt v).length ≤ C) :
    RunsIn (T.serialize.length * (s.bufBytes + 3) + T.nodes + 8
        + pre.length * (C * (s.bufBytes + 2) + 2) + 2)
      (s.withTodo (bodyEncEmit ++ k))
      ((taken (emitting T s pre) 1).withTodo [.bbClose, .fail (emitError s v)]) := by
  obtain ⟨m, hm'⟩ : ∃ m, pre.length + (m + 1) = s.srcLen.toNat := ⟨s.srcLen.toNat - pre.length - 1, by omega⟩
  have h1 := runs_encEmit_payload T C pre (m + 1) k s (v :: rest) hv hm (by omega) hs hT hin hm' hok hC
  have hin' : (emitting T s pre).env.sIn = v :: rest := by
    rw [emitting, writeAll_sIn]
    show s.env.sIn.drop pre.length = _
    rw [hin, List.drop_left]
  have h2 := step_emit m (.sentinelCode :: .bbClose :: k) hin'
  rw [tookOne_eq hin'] at h2
  have hes : (taken (emitting T s pre) 1).encSent = s.encSent := writeAll_encSent _ _
  have hec : (taken (emitting T s pre) 1).encColl = s.encColl := writeAll_encColl _ _
  have hco : (taken (emitting T s pre) 1).codeAt v = s.codeAt v := emitting_codeAt _ _ _ _
  have h3 := step_emitSym_not (s := taken (emitting T s pre) 1) (v := v)
    (.emit m :: .sentinelCode :: .bbClose :: k) (by
      rw [Codable, hes, hec, hco]; exact hbad)
  have he : emitError (taken (emitting T s pre) 1) v = emitError s v := by
    rw [emitError, hes, hec, emitError]
  rw [he] at h3
  exact (h1.trans (.step h2 (.one h3))).mono (by omega)

/-- What the release sends after such a byte (R165, 60_exceptions.md R263). -/
theorem raised_emitting (T : Tree) (s : State) (pre : List Byte) (e : ErrCode) :
    raised (taken (emitting T s pre) 1) e
      = (s.emitted (packBits (T.serialize ++ pre.flatMap s.codeAt)) (pre.length + 1)).failStep e := by
  rw [emitting, ← writeAll_taken, taken_taken, ← shut_emitting]
  exact raised_writeAll _ _ e rfl rfl

end Sys2Proof.Machine
end

