-- ==== Sys2Proof/Laws/Outside.lean ====
section
/-!
SUPPORT. What a core step reads and writes of what lies outside the block (`env`) and of CMD_DROPPED: the next
byte offered, the sink's readiness and the bytes accepted, in five statements, and otherwise nothing.
-/

namespace Sys2Proof.Machine

/-- The statements that use a stream (20_memory.md R64, R65). -/
def Stmt.usesStream : Stmt → Bool
  | .outByte _ => true
  | .fetch (_ + 1) => true
  | .count (_ + 1) => true
  | .emit (_ + 1) => true
  | .drain => true
  | _ => false

/-- `s` with another outside and another CMD_DROPPED. -/
def State.withOutside (s : State) (e : Env) (d : Bool) : State := { s with dropped := d, env := e }

variable (e : Env) (d : Bool)

theorem withOutside_ite {p : Prop} [Decidable p] (a b : State) :
    (if p then a else b).withOutside e d = if p then a.withOutside e d else b.withOutside e d := by
  split <;> rfl

theorem leastKey_withOutside (s : State) (l : List NodeIdx) (b : NodeIdx) :
    (s.withOutside e d).leastKey b l = s.leastKey b l := by
  induction l generalizing b with
  | nil => rfl
  | cons i r ih => exact ih _

theorem heapExtractMin_withOutside (s : State) :
    (s.withOutside e d).heapExtractMin = (s.heapExtractMin.1, s.heapExtractMin.2.withOutside e d) := by
  unfold State.heapExtractMin
  have h : (s.withOutside e d).heap = s.heap := rfl
  rw [h]
  cases s.heap with
  | nil => rfl
  | cons i r => simp only [leastKey_withOutside]; rfl

theorem useDescentBit_withOutside (b : Bool) (s : State) :
    useDescentBit b (s.withOutside e d) = (useDescentBit b s).withOutside e d := by
  unfold useDescentBit
  rw [show (s.withOutside e d).nodeAt (s.withOutside e d).cur = s.nodeAt s.cur from rfl]
  split <;> rfl

theorem stepReadBit_withOutside (u : BitUse) (s : State) :
    stepReadBit u deliverBit (s.withOutside e d) = (stepReadBit u deliverBit s).withOutside e d := by
  simp only [stepReadBit, withOutside_ite]
  rw [show (s.withOutside e d).bbMode = s.bbMode from rfl, show (s.withOutside e d).bbBits = s.bbBits from rfl,
    show (s.withOutside e d).bbRemain = s.bbRemain from rfl]
  split
  · rfl
  · cases s.bbBits with
    | nil => simp only; rw [withOutside_ite]; rfl
    | cons b r =>
      simp only
      cases u with
      | result => rfl
      | tag => simp only [deliverBit, useTag, withOutside_ite]; rfl
      | symbol i acc more => cases more <;> rfl
      | descent => exact useDescentBit_withOutside e d b { s with bbBits := r }

theorem stepWalkTable_withOutside (s : State) :
    stepWalkTable (s.withOutside e d) = (stepWalkTable s).withOutside e d := by
  unfold stepWalkTable
  rw [show (s.withOutside e d).stack = s.stack from rfl]
  rcases s.stack with _ | ⟨f, r⟩
  · rfl
  · cases f with
    | needLeft i => rfl
    | needRight i l => rfl
    | visit m p =>
      simp only
      rw [show ({ (s.withOutside e d) with stack := r, path := p } : State).nodeAt m
        = ({ s with stack := r, path := p } : State).nodeAt m from rfl]
      split
      · split <;> rename_i h1 <;> split <;> rename_i h2 <;>
          first | rfl | exact absurd h1 h2 | exact absurd h2 h1
      · rfl

theorem stepTreeWrite_withOutside (s : State) :
    stepTreeWrite (s.withOutside e d) = (stepTreeWrite s).withOutside e d := by
  unfold stepTreeWrite
  rw [show (s.withOutside e d).stack = s.stack from rfl]
  rcases s.stack with _ | ⟨f, r⟩
  · rfl
  · cases f with
    | needLeft i => rfl
    | needRight i l => rfl
    | visit m p =>
      simp only
      rw [show (s.withOutside e d).nodeAt m = s.nodeAt m from rfl]
      cases s.nodeAt m <;> rfl

/-- A statement that uses no stream reads nothing of the outside and of CMD_DROPPED, and changes neither. -/
theorem runStmt_withOutside (st : Stmt) (hst : st.usesStream = false) (s : State) :
    runStmt st (s.withOutside e d) = (runStmt st s).map (·.withOutside e d) := by
  cases st
  case legality => simp only [runStmt, Option.map_some, withOutside_ite]; rfl
  case needFlag f =>
    simp only [runStmt, Option.map_some, withOutside_ite]
    rw [show (s.withOutside e d).flag f = s.flag f by cases f <;> rfl]; rfl
  case needMode m => simp only [runStmt, Option.map_some, withOutside_ite]; rfl
  case writeBit b => simp only [runStmt, Option.map_some, stepWriteBit, withOutside_ite]; rfl
  case writeByte b => simp only [runStmt, Option.map_some, stepWriteByte, withOutside_ite]; rfl
  case readBit u => exact congrArg some (stepReadBit_withOutside e d u s)
  case fetch k => cases k with
    | zero => rfl
    | succ k => cases hst
  case outByte v => cases hst
  case needSource => simp only [runStmt, Option.map_some, stepNeedSource, withOutside_ite]; rfl
  case needCountable => simp only [runStmt, Option.map_some, stepNeedCountable, withOutside_ite]; rfl
  case count k => cases k with
    | zero => rfl
    | succ k => cases hst
  case tally v => simp only [runStmt, Option.map_some, stepTally, withOutside_ite]; rfl
  case makeLeaves k =>
    simp only [runStmt, Option.map_some, stepMakeLeaves, withOutside_ite]
    rw [show (s.withOutside e d).freqAt = s.freqAt from rfl]
    split
    · split <;> rfl
    · rfl
  case wrapSingle =>
    simp only [runStmt, Option.map_some, stepWrapSingle, heapExtractMin_withOutside]; rfl
  case mergeLoop =>
    simp only [runStmt, Option.map_some, stepMergeLoop, heapExtractMin_withOutside, withOutside_ite]; rfl
  case walkTable => exact congrArg some (stepWalkTable_withOutside e d s)
  case treeWrite => exact congrArg some (stepTreeWrite_withOutside e d s)
  case emit k => cases k with
    | zero => rfl
    | succ k => cases hst
  case emitSym v => simp only [runStmt, Option.map_some, stepEmitSym, withOutside_ite]; rfl
  case nodeDone i =>
    simp only [runStmt, Option.map_some, stepNodeDone]
    rw [show (s.withOutside e d).stack = s.stack from rfl]
    rcases s.stack with _ | ⟨f, r⟩
    · rfl
    · cases f <;> rfl
  case rootRead r => simp only [runStmt, Option.map_some, stepRootRead, withOutside_ite]; rfl
  case symbolLoop =>
    simp only [runStmt, Option.map_some, stepSymbolLoop]
    rw [show (s.withOutside e d).nodeAt (s.withOutside e d).cur = s.nodeAt s.cur from rfl]
    cases s.nodeAt s.cur with
    | leaf sym f => simp only [withOutside_ite]; rfl
    | internal l r' f => rfl
  case drain => cases hst
  all_goals rfl

/-- `s` with its outside and its CMD_DROPPED changed. -/
def State.mapOutside (g : Env → Env) (f : Bool → Bool) (s : State) : State :=
  s.withOutside (g s.env) (f s.dropped)

/-- What a statement that uses no stream leaves of the outside. -/
theorem runStmt_keepsOutside {st : Stmt} (hst : st.usesStream = false) {s t : State}
    (h : runStmt st s = some t) : t.env = s.env ∧ t.dropped = s.dropped := by
  have h2 := runStmt_withOutside s.env s.dropped st hst s
  rw [show s.withOutside s.env s.dropped = s from rfl, h, Option.map_some, Option.some.injEq] at h2
  rw [h2]
  exact ⟨rfl, rfl⟩

section

variable {g : Env → Env} {f : Bool → Bool}
  (hin : ∀ (s t : State) (v : Byte), s.inByte = some (v, t) →
    (s.mapOutside g f).inByte = some (v, t.mapOutside g f))
  (hout : ∀ (s t : State) (v : Byte), s.outByte v = some t →
    (s.mapOutside g f).outByte v = some (t.mapOutside g f))

include hin hout in
/-- A statement that runs also runs after a change of the outside under which a byte taken or sent stays so,
and does the same. -/
theorem runStmt_mapOutside (st : Stmt) {s t : State} (h : runStmt st s = some t) :
    runStmt st (s.mapOutside g f) = some (t.mapOutside g f) := by
  by_cases hst : st.usesStream = false
  · obtain ⟨h1, h2⟩ := runStmt_keepsOutside hst h
    rw [State.mapOutside, runStmt_withOutside _ _ st hst, h, ← h1, ← h2]
    rfl
  cases st
  case outByte v => exact hout s t v h
  case drain =>
    simp only [runStmt, stepDrain] at h ⊢
    rw [show (s.mapOutside g f).bbRemain = s.bbRemain from rfl]
    split at h
    · rename_i h0
      rw [if_pos h0, Option.some.inj h]
    · rename_i h0
      rw [if_neg h0]
      cases hi : s.inByte with
      | none => simp [hi] at h
      | some p =>
        rw [hi] at h
        rw [hin _ _ _ hi, ← Option.some.inj h]
        rfl
  case fetch n | count n | emit n =>
    cases n with
    | zero => exact absurd rfl hst
    | succ n =>
      simp only [runStmt, stepFetch, stepCount, stepEmit] at h ⊢
      cases hi : s.inByte with
      | none => simp [hi] at h
      | some p =>
        rw [hi] at h
        rw [hin _ _ _ hi, ← Option.some.inj h]
        rfl
  all_goals exact absurd rfl hst

include hin hout in
/-- The same of a core step. -/
theorem coreStep_mapOutside {s t : State} (h : coreStep s = some t) :
    coreStep (s.mapOutside g f) = some (t.mapOutside g f) := by
  unfold coreStep at h ⊢
  rw [show (s.mapOutside g f).todo = s.todo from rfl]
  cases ht : s.todo with
  | nil => simp [ht] at h
  | cons st k =>
    rw [ht] at h
    exact runStmt_mapOutside hin hout st h

end

/-- The outside with other coming actions, schedule, free-value index and read data. -/
def withAgents (ev : List Event) (q : List Nat) (n : Nat) (r : Word) (e : Env) : Env :=
  { e with events := ev, sched := q, epoch := n, readData := r }

/-- The core reads nothing of the coming actions, the schedule, the free-value index, the read data and
CMD_DROPPED, and changes none of them: a step of the core under other ones is the same step. -/
theorem coreStep_agents (ev : List Event) (q : List Nat) (n : Nat) (r : Word) (f : Bool → Bool) (s : State) :
    coreStep (s.mapOutside (withAgents ev q n r) f)
      = (coreStep s).map (·.mapOutside (withAgents ev q n r) f) := by
  have key : ∀ (ev : List Event) (q : List Nat) (n : Nat) (r : Word) (f : Bool → Bool) {s t : State},
      coreStep s = some t →
      coreStep (s.mapOutside (withAgents ev q n r) f)
        = some (t.mapOutside (withAgents ev q n r) f) := by
    intro ev q n r f s t h
    refine coreStep_mapOutside ?_ ?_ h
    · intro s t v h
      unfold State.inByte at h ⊢
      rw [show (s.mapOutside (withAgents ev q n r) f).env.sIn = s.env.sIn from rfl]
      cases hs : s.env.sIn with
      | nil => simp [hs] at h
      | cons a l =>
        rw [hs] at h
        obtain ⟨rfl, rfl⟩ := Prod.mk.inj (Option.some.inj h)
        rfl
    · intro s t v h
      unfold State.outByte at h ⊢
      rw [show (s.mapOutside (withAgents ev q n r) f).env.sink = s.env.sink from rfl]
      split at h
      · cases h
      · rw [← Option.some.inj h]; rfl
  cases h : coreStep s with
  | some t => exact key ev q n r f h
  | none =>
    cases hu : coreStep (s.mapOutside _ f) with
    | none => rfl
    | some u =>
      have h2 := key s.env.events s.env.sched s.env.epoch s.env.readData (fun _ => s.dropped) hu
      rw [show State.mapOutside _ _ (s.mapOutside _ f) = s from rfl, h] at h2
      cases h2

/-- A core step keeps what the agents outside hold apart from the streams. -/
theorem coreStep_keepsAgents {s t : State} (h : coreStep s = some t) :
    t.env.events = s.env.events ∧ t.env.sched = s.env.sched ∧ t.env.epoch = s.env.epoch ∧
      t.env.readData = s.env.readData ∧ t.dropped = s.dropped := by
  have h2 := coreStep_agents s.env.events s.env.sched s.env.epoch s.env.readData (fun _ => s.dropped) s
  rw [show State.mapOutside _ _ s = s from rfl, h, Option.map_some, Option.some.injEq] at h2
  rw [h2]
  exact ⟨rfl, rfl, rfl, rfl, rfl⟩

/-- A run of core steps under other ones is the same run. -/
theorem runCore_agents (ev : List Event) (q : List Nat) (n : Nat) (r : Word) (f : Bool → Bool) (m : Nat)
    (s : State) :
    runCore m (s.mapOutside (withAgents ev q n r) f) = (runCore m s).mapOutside (withAgents ev q n r) f := by
  induction m generalizing s with
  | zero => rfl
  | succ m ih =>
    simp only [runCore, coreStep_agents]
    cases coreStep s with
    | none => rfl
    | some t => exact ih t

end Sys2Proof.Machine
end

