-- ==== Sys2Proof/Laws/PerInstr.lean ====
section
/-!
SUPPORT. Family WordFields, one lemma per command: the fields of the encoder's word are the command's
opcode, its argument and zeros (30_encoding.md R80, R81).
-/

namespace Sys2Proof.Laws.WordFields

/-- The three fields of the encoder's word. -/
def Statement (i : Instr) : Prop :=
  opField (encodeWord i) = i.opcode ∧ argField (encodeWord i) = i.argument ∧
    rsvdField (encodeWord i) = 0#16

theorem field_of_append (a o : Byte) :
    ((0#16 ++ (a ++ o) : BitVec (16 + (8 + 8))).extractLsb' 0 8 = o) ∧
    ((0#16 ++ (a ++ o) : BitVec (16 + (8 + 8))).extractLsb' 8 8 = a) ∧
    ((0#16 ++ (a ++ o) : BitVec (16 + (8 + 8))).extractLsb' 16 16 = 0#16) := by
  refine ⟨?_, ?_, ?_⟩ <;> ext j hj <;>
    simp only [BitVec.getElem_extractLsb', BitVec.getLsbD_append]
  · rw [if_pos (by omega), if_pos (by omega), Nat.zero_add, BitVec.getLsbD_eq_getElem hj]
  · rw [if_pos (by omega), if_neg (by omega), show 8 + j - 8 = j by omega, BitVec.getLsbD_eq_getElem hj]
  · rw [if_neg (by omega)]
    simp

theorem of_word (i : Instr) : Statement i := field_of_append i.argument i.opcode

theorem nop : Statement .nop := of_word _
theorem encCount : Statement .encCount := of_word _
theorem encBuild : Statement .encBuild := of_word _
theorem encEmit : Statement .encEmit := of_word _
theorem encode : Statement .encode := of_word _
theorem decTree : Statement .decTree := of_word _
theorem decPayload : Statement .decPayload := of_word _
theorem decode : Statement .decode := of_word _
theorem bbOpenW : Statement .bbOpenW := of_word _
theorem bbOpenR : Statement .bbOpenR := of_word _
theorem bbWriteBit (arg : Byte) : Statement (.bbWriteBit arg) := of_word _
theorem bbWriteByte (arg : Byte) : Statement (.bbWriteByte arg) := of_word _
theorem bbReadBit : Statement .bbReadBit := of_word _
theorem bbClose : Statement .bbClose := of_word _

end Sys2Proof.Laws.WordFields
end

