-- ==== Sys2Proof/Tests/Slice0.lean ====
section
/-!
SUPPORT. Small tests of the model, with expected results from 30_encoding.md R81 and from the vectors of
95_test_vectors.md (named V-...), and for every statement with hypotheses a concrete state that meets them.
-/

namespace Sys2Proof.Tests

open Sys2Proof Sys2Proof.Machine

-- Each kernel evaluation waits for the one before; elaborating them in turn keeps no threads waiting.
set_option Elab.async false

/-! ### Small states -/

/-- A machine after reset with SRC_LEN = `len`, whose source offers `input`. -/
def machine (len : Nat) (input : List Byte) : State :=
  { State.reset with
    srcLen := BitVec.ofNat 32 len
    env := { Env.initial with sIn := input } }

/-- The machine of V-E6 after ENC_BUILD: tree I(L00, L03), codes 00 = `0` and 03 = `1`, all flags set. -/
def built (len : Nat) (input : List Byte) : State :=
  { machine len input with
    freq := ((Vector.replicate 256 0#32).set 0 1#32).set 3 1#32
    node := (((Vector.replicate 511 (.leaf 0#8 0#32)).set 0 (.leaf 0x00#8 1#32)).set 1
      (.leaf 0x03#8 1#32)).set 2 (.internal 0#9 1#9 2#32)
    ncnt := 3#10
    root := 2#9
    ct := ((Vector.replicate 256 []).set 0 [false]).set 3 [true]
    freqValid := true
    treeValid := true
    tableValid := true }

/-- The tree of `built`. -/
def builtTree : Format.Tree := Format.Tree.node (.leaf 0x00#8) (.leaf 0x03#8)

/-- A machine with a write session that holds `bits`. -/
def writing (bits : List Bool) : State := { State.reset with bbMode := .write, bbBits := bits }

/-- A machine with a read session that holds `bits` and has `input` still to take. -/
def reading (bits : List Bool) (input : List Byte) : State :=
  { machine 0 input with bbMode := .read, bbBits := bits, bbRemain := BitVec.ofNat 32 input.length }

/-- A machine whose coming actions are `events` and whose core takes no step in the first two turns. -/
def paused (events : List Event) : State :=
  { machine 0 [] with
    todo := [.complete]
    env := { Env.initial with events := events, sched := [0, 0] } }

/-- The state after a command, or the state itself where the command stops. -/
def after (i : Instr) (s : State) : State :=
  match exec i s with
  | .next t => t
  | .fault _ => s
  | .refused _ => s

/-- ERR_CODE, the bytes sent, IN_COUNT and OUT_COUNT after a command. -/
def report (i : Instr) (s : State) : Word × List Byte × Word × Word :=
  let t := after i s
  (t.errWord, t.env.sOut, t.inCount, t.outCount)

/-- "ABRACADABRA" (V-E1). -/
def abra : List Byte :=
  [0x41#8, 0x42#8, 0x52#8, 0x41#8, 0x43#8, 0x41#8, 0x44#8, 0x41#8, 0x42#8, 0x52#8, 0x41#8]

/-- The stream of "ABRACADABRA" (V-E1). -/
def abraStream : List Byte :=
  [0x50#8, 0x4A#8, 0x25#8, 0x09#8, 0x52#8, 0x40#8, 0xE8#8, 0x6B#8, 0x9E#8, 0x8B#8, 0x9C#8]

/-- The counts of "ABRACADABRA" and the sentinel in FREQ (V-E1). -/
def countedAbra : State :=
  { State.reset with
    freqValid := true
    freq := ((((((Vector.replicate 256 0#32).set 0x03 1#32).set 0x41 5#32).set 0x42 2#32).set 0x43 1#32).set
      0x44 1#32).set 0x52 2#32 }

/-! ### WellFormed refuses the ill-formed term -/

theorem test_wellFormed_refuses_bbWriteBit_2 : (Instr.bbWriteBit 0x02#8).wellFormed = false := by decide

theorem test_wellFormed_refuses_bbWriteBit_80 : (Instr.bbWriteBit 0x80#8).wellFormed = false := by decide

theorem test_wellFormed_accepts :
    (Instr.bbWriteBit 0x01#8).wellFormed = true ∧ (Instr.bbWriteByte 0xFF#8).wellFormed = true := by decide

/-! ### Decoding, words from the opcode map (30_encoding.md R80, R81) -/

theorem test_decode_nop : decodeTableWord 32 0b00000000_00000000_00000000_00000000 = some .nop := by decide
theorem test_decode_encCount : decodeTableWord 32 0b00000000_00000000_00000000_00010000 = some .encCount := by decide
theorem test_decode_encBuild : decodeTableWord 32 0b00000000_00000000_00000000_00010001 = some .encBuild := by decide
theorem test_decode_encEmit : decodeTableWord 32 0b00000000_00000000_00000000_00010010 = some .encEmit := by decide
theorem test_decode_encode : decodeTableWord 32 0b00000000_00000000_00000000_00010011 = some .encode := by decide
theorem test_decode_decTree : decodeTableWord 32 0b00000000_00000000_00000000_00100000 = some .decTree := by decide
theorem test_decode_decPayload : decodeTableWord 32 0b00000000_00000000_00000000_00100001 = some .decPayload := by decide
theorem test_decode_decode : decodeTableWord 32 0b00000000_00000000_00000000_00100010 = some .decode := by decide
theorem test_decode_bbOpenW : decodeTableWord 32 0b00000000_00000000_00000000_00110000 = some .bbOpenW := by decide
theorem test_decode_bbOpenR : decodeTableWord 32 0b00000000_00000000_00000000_00110001 = some .bbOpenR := by decide
theorem test_decode_bbWriteBit :
    decodeTableWord 32 0b00000000_00000000_00000001_00110010 = some (.bbWriteBit 0x01#8) := by decide
theorem test_decode_bbWriteByte :
    decodeTableWord 32 0b00000000_00000000_10110100_00110011 = some (.bbWriteByte 0xB4#8) := by decide
theorem test_decode_bbReadBit : decodeTableWord 32 0b00000000_00000000_00000000_00110100 = some .bbReadBit := by decide
theorem test_decode_bbClose : decodeTableWord 32 0b00000000_00000000_00000000_00110101 = some .bbClose := by decide

/-- The illegal words of V-C4 to V-C7 and V-B17. -/
theorem test_decode_illegal :
    decodeTableWord 32 0x00000001 = none ∧ decodeTableWord 32 0x00000100 = none ∧
      decodeTableWord 32 0x00010000 = none ∧ decodeTableWord 32 0x000000FF = none ∧
      decodeTableWord 32 0x00000232 = none := by decide

/-! ### Single steps -/

/-- The fetch runs the written word: V-C3. -/
theorem test_step_fetches_nop :
    (match step (State.reset.withFetchWord 32 0) with
      | .next t => (t.errWord, t.statusLow) | .fault _ => (1#32, 0#4) | .refused _ => (1#32, 0#4))
      = (0#32, 2#4) := by decide +kernel

/-- V-C7: an illegal word is accepted and ends with its OP as written. -/
theorem test_step_illegal_word :
    (match writeCmd 0x000000FF#32 State.reset with
      | .next t => (t.errWord, t.busy) | .fault _ => (0#32, true) | .refused _ => (0#32, true))
      = (0x0000FF06#32, false) := by decide +kernel

/-- V-C5: NOP clears an old error (V-C14). -/
theorem test_nop_clears_error :
    report .nop { State.reset with errCode := .endOfStream, errOp := 0x34#8, inCount := 5#32 }
      = (0#32, [], 0#32, 0#32) := by decide +kernel

/-- V-E1: FREQ after the count of "ABRACADABRA". -/
theorem test_encCount_counts :
    let t := after .encCount (machine 11 abra)
    [0x03#8, 0x41#8, 0x42#8, 0x43#8, 0x44#8, 0x52#8, 0x00#8].map t.freqAt
      = [1#32, 5#32, 2#32, 1#32, 1#32, 2#32, 0#32] ∧ t.freqValid = true := by decide +kernel

/-- V-E8: the collision at the second byte. -/
theorem test_encCount_collision :
    report .encCount (machine 3 [0x41#8, 0x03#8, 0x42#8]) = (0x00001005#32, [], 2#32, 0#32) := by
  decide +kernel

/-- V-E1: the tree and the codes of "ABRACADABRA". -/
theorem test_encBuild_codes :
    let t := after .encBuild countedAbra
    [0x41#8, 0x44#8, 0x42#8, 0x52#8, 0x03#8, 0x43#8].map t.codeAt
      = [[false], [true, false, false], [true, false, true], [true, true, false],
        [true, true, true, false], [true, true, true, true]] ∧
      t.root = 10#9 ∧ t.ncnt = 11#10 ∧ t.degenerate = false := by decide +kernel

/-- V-E10 (P6): only the sentinel was counted, so the tree is wrapped. -/
theorem test_encBuild_degenerate :
    let t := after .encBuild { State.reset with
      freqValid := true, freq := (Vector.replicate 256 0#32).set 3 3#32 }
    t.degenerate = true ∧ t.ncnt = 3#10 ∧ t.codeAt 0x03#8 = [false] ∧
      [0, 1, 2].map t.nodeAt = [.leaf 0x03#8 3#32, .leaf 0x03#8 0#32, .internal 0#9 1#9 3#32] := by
  decide +kernel

/-- V-E6: the stream of the single byte 00. -/
theorem test_encEmit_stream :
    report .encEmit (built 1 [0x00#8]) = (0x00001200#32, [0x40#8, 0x20#8, 0x68#8], 1#32, 3#32) := by
  decide +kernel

/-- R165: a byte without a code ends ENC_EMIT after the tree section, which the release sends. -/
theorem test_encEmit_unknown :
    report .encEmit (built 1 [0x41#8]) = (0x00001204#32, [0x40#8, 0x20#8, 0x60#8], 1#32, 3#32) := by
  decide +kernel

/-- V-E1: the whole encoder. -/
theorem test_encode_abra :
    report .encode (machine 11 (abra ++ abra)) = (0x00001300#32, abraStream, 22#32, 11#32) := by
  decide +kernel

/-- V-E7: ties are broken by insertion order. -/
theorem test_encode_tie_break :
    report .encode (machine 4 [0x01#8, 0x02#8, 0x04#8, 0x05#8, 0x01#8, 0x02#8, 0x04#8, 0x05#8])
      = (0x00001300#32, [0x20#8, 0x70#8, 0x44#8, 0x15#8, 0x01#8, 0x81#8, 0x6E#8, 0xC0#8], 8#32, 8#32) := by
  decide +kernel

/-- V-D18: the tree section of "ABRACADABRA" with BUF_BITS = 8. -/
theorem test_decTree_takes_eight :
    let t := after .decTree { machine 11 abraStream with extraBytes := 0 }
    t.errWord = 0x00002000#32 ∧ t.ncnt = 11#10 ∧ t.inCount = 8#32 ∧ t.bbMode = .read ∧
      t.treeValid = true := by decide +kernel

/-- V-D10: a root leaf is malformed. -/
theorem test_decTree_root_leaf :
    report .decTree (machine 2 [0xA0#8, 0x80#8]) = (0x00002009#32, [], 2#32, 0#32) := by decide +kernel

/-- V-E6's payload `0 1` and its padding, read with V-E6's tree. -/
theorem test_decPayload_emits :
    report .decPayload { built 1 [0x40#8] with bbMode := .read, bbRemain := 1#32 }
      = (0x00002100#32, [0x00#8], 1#32, 1#32) := by decide +kernel

/-- V-D20: no tree. -/
theorem test_decPayload_sequence : report .decPayload State.reset = (0x00002107#32, [], 0#32, 0#32) := by
  decide +kernel

/-- V-D1: the whole decoder. -/
theorem test_decode_abra :
    report .decode (machine 11 abraStream) = (0x00002200#32, abra, 11#32, 11#32) := by decide +kernel

/-- V-D14: a tree without a sentinel leaf; the stream ends. -/
theorem test_decode_no_sentinel :
    report .decode (machine 3 [0x50#8, 0x60#8, 0x00#8])
      = (0x00002103#32, [0x41#8, 0x41#8, 0x41#8, 0x41#8, 0x41#8], 3#32, 5#32) := by decide +kernel

/-- V-B12. -/
theorem test_bbOpenW_twice :
    (after .bbOpenW State.reset).bbMode = .write ∧
      report .bbOpenW (writing []) = (0x00003002#32, [], 0#32, 0#32) := by decide +kernel

/-- V-B7, V-B13. -/
theorem test_bbOpenR_twice :
    (after .bbOpenR State.reset).bbRemain = 0#32 ∧ (after .bbOpenR State.reset).bbMode = .read ∧
      report .bbOpenR (reading [] [0xFF#8]) = (0x00003102#32, [], 0#32, 0#32) := by decide +kernel

/-- V-B2: the bit that fills the buffer sends it. -/
theorem test_bbWriteBit_flushes :
    report (.bbWriteBit 0x00#8)
        { writing [true, false, true, true, false, true, false] with extraBytes := 0 }
      = (0x00003200#32, [0xB4#8], 0#32, 1#32) := by decide +kernel

/-- V-B8; and R102 with R261: the release of an illegal word closes and flushes an open session. -/
theorem test_bbWriteBit_errors :
    report (.bbWriteBit 0x01#8) State.reset = (0x00003202#32, [], 0#32, 0#32) ∧
      report (.bbWriteBit 0x02#8) (writing [true]) = (0x00003206#32, [0x80#8], 0#32, 1#32) := by
  decide +kernel

/-- V-B1: a zero byte is eight bits. -/
theorem test_bbWriteByte_zero :
    (after (.bbWriteByte 0x00#8) (writing [true, false, true])).bbBits
      = [true, false, true, false, false, false, false, false, false, false, false] := by decide +kernel

/-- V-B9. -/
theorem test_bbWriteByte_closed :
    report (.bbWriteByte 0xB4#8) State.reset = (0x00003302#32, [], 0#32, 0#32) := by decide +kernel

/-- V-B16: the first read refills the buffer with both bytes. -/
theorem test_bbReadBit_refills :
    let t := after .bbReadBit (reading [] [0xA0#8, 0x00#8])
    t.result = true ∧ t.inCount = 2#32 ∧ t.bbBits.length = 15 := by decide +kernel

/-- V-B5: the ninth read. -/
theorem test_bbReadBit_ends :
    report .bbReadBit (reading [] []) = (0x00003403#32, [], 0#32, 0#32) := by decide +kernel

/-- V-B1: BB_CLOSE pads. -/
theorem test_bbClose_pads :
    report .bbClose (writing [true, false, true, false, false, false, false, false, false, false, false])
      = (0x00003500#32, [0xA0#8, 0x00#8], 0#32, 2#32) := by decide +kernel

/-- V-B10. -/
theorem test_bbClose_closed : report .bbClose State.reset = (0x00003500#32, [], 0#32, 0#32) := by
  decide +kernel

/-- V-C1, V-C2, V-C12: the registers of a reset machine. -/
theorem test_reset_reads :
    [0x000#12, 0x00C#12, 0x010#12, 0x014#12, 0x004#12, 0x058#12, 0x800#12, 0xFFC#12].map (readReg State.reset)
      = [0x48554601#32, 0#32, 0#32, 0x00000103#32, 0#32, 0#32, 0#32, 0#32] := by decide +kernel

/-- V-E2: the read window for 0x43 after V-E1, whose code is `1111`. -/
theorem test_window_reads :
    let s := { built 0 [] with tblIdx := 0x43#8, ct := (Vector.replicate 256 []).set 0x43 [true, true, true, true] }
    [0x030#12, 0x034#12, 0x038#12, 0x050#12].map (readReg s) = [4#32, 0x0000000F#32, 0#32, 0#32] := by
  decide +kernel

/-! ### Every hypothesis can be met

One theorem for each statement with hypotheses: a concrete state and operands that meet all of them. Where a
statement has clauses, each clause is met, at a boundary of its range where it has one. -/

theorem quiet_machine (len : Nat) (input : List Byte) : (machine len input).Quiet := ⟨rfl, rfl, rfl⟩
theorem quiet_built (len : Nat) (input : List Byte) : (built len input).Quiet := ⟨rfl, rfl, rfl⟩
theorem quiet_writing (bits : List Bool) : (writing bits).Quiet := ⟨rfl, rfl, rfl⟩
theorem quiet_reading (bits : List Bool) (input : List Byte) : (reading bits input).Quiet := ⟨rfl, rfl, rfl⟩

theorem built_nodeAt (len : Nat) (input : List Byte) (i : NodeIdx) :
    (built len input).nodeAt i = (built 0 []).nodeAt i := rfl

theorem built_codeAt (len : Nat) (input : List Byte) (v : Byte) :
    (built len input).codeAt v = (built 0 []).codeAt v := rfl

theorem built_freqAt (len : Nat) (input : List Byte) (v : Byte) :
    (built len input).freqAt v = (built 0 []).freqAt v := rfl

theorem built_nodes :
    (built 0 []).nodeAt 2#9 = .internal 0#9 1#9 2#32 ∧ (built 0 []).nodeAt 0#9 = .leaf 0x00#8 1#32 ∧
      (built 0 []).nodeAt 1#9 = .leaf 0x03#8 1#32 := by decide +kernel

theorem built_codes : ∀ v : Byte, (built 0 []).codeAt v = builtTree.code v := by decide +kernel

theorem built_counts :
    0 < weightOf (built 0 []) 0x03#8 ∧ (Format.allSymbols.map (weightOf (built 0 []))).sum < 2 ^ 32 := by
  decide +kernel

/-- NODE of `s` is NODE of `built`. -/
theorem holdsTree_of_node (s : State) (h : s.node = (built 0 []).node) : HoldsTree s 2#9 builtTree := by
  have key : ∀ i, s.nodeAt i = (built 0 []).nodeAt i := by
    intro i; unfold State.nodeAt; rw [h]
  refine ⟨0#9, 1#9, 2#32, (key _).trans built_nodes.1, ⟨1#32, (key _).trans built_nodes.2.1⟩,
    ⟨1#32, (key _).trans built_nodes.2.2⟩⟩

theorem built_holdsTree (len : Nat) (input : List Byte) :
    HoldsTree (built len input) (built len input).root builtTree := holdsTree_of_node _ rfl

theorem built_holdsTable (len : Nat) (input : List Byte) : HoldsTable (built len input) builtTree :=
  fun v => (built_codeAt len input v).trans (built_codes v)

theorem built_weights (len : Nat) (input : List Byte) :
    0 < weightOf (built len input) 0x03#8 ∧
      (Format.allSymbols.map (weightOf (built len input))).sum < 2 ^ 32 := by
  have h : weightOf (built len input) = weightOf (built 0 []) := by
    funext v; unfold weightOf; rw [built_freqAt]
  rw [h]; exact built_counts

/-- One word for each way of being illegal, and an ill-formed term, with a session open. -/
theorem test_meets_IllegalCommandEndsAtOnce :
    (writing [true]).Quiet ∧
      opField 0x00000014#32 ∉ [0x00#8, 0x10#8, 0x11#8, 0x12#8, 0x13#8, 0x20#8, 0x21#8, 0x22#8, 0x30#8,
        0x31#8, 0x32#8, 0x33#8, 0x34#8, 0x35#8] ∧
      rsvdField 0x80000000#32 ≠ 0#16 ∧
      (opField 0x00000232#32 = 0x32#8 ∧ (argField 0x00000232#32).extractLsb' 1 7 ≠ 0#7) ∧
      (opField 0x00000135#32 ≠ 0x32#8 ∧ opField 0x00000135#32 ≠ 0x33#8 ∧ argField 0x00000135#32 ≠ 0#8) ∧
      (0x02#8 : Byte).extractLsb' 1 7 ≠ 0#7 := by
  exact ⟨quiet_writing _, by decide⟩

theorem test_meets_StepRunsTheWrittenCommand :
    ((paused [.write 0x00B#12 0x00000035#32]).env.events = .write 0x00B#12 0x00000035#32 :: []) ∧
      (0x00B#12 : Offset).extractLsb' 2 10 = 2#10 ∧ decode 0x00000035#32 = .ok .bbClose := by decide

theorem test_meets_AcceptanceClears :
    ∃ s : State, s.todo = [] ∧ s.env.sched = 0 :: [] :=
  ⟨{ State.reset with env := { Env.initial with sched := [0] } }, rfl, rfl⟩

theorem test_meets_BusyCommandIsDropped : (paused []).busy = true := rfl

theorem test_meets_NopOnlyClears : ∃ s : State, s.Quiet := ⟨_, quiet_built 0 []⟩

/-- A command that the step ends, and one that it brings to a hold for the sink. -/
theorem test_meets_ScheduleIsInvisible :
    [[.complete], [.phase 0x30#8, .outByte 0x41#8, .complete]].all (fun k =>
      let s := { machine 0 [] with todo := k, env := { Env.initial with sink := some 0 } }
      s.busy && s.env.events == [] && s.env.sched == [] && match step s with
        | .next u => coreStep u == none | .fault _ => false | .refused _ => false) = true := by
  decide +kernel

theorem test_meets_StreamTimingIsInvisible : ∃ s s' : State, coreStep s = some s' :=
  ⟨paused [], _, rfl⟩

/-- Idle, held by the sink, and held for the source in each of its four loops. -/
theorem test_meets_HoldsOnlyForStreams :
    [[], [.outByte 0#8], [.fetch 1], [.count 1], [.emit 1], [.drain]].all (fun k =>
      let s := { machine 0 [] with
        todo := k, bbRemain := 1#32, env := { Env.initial with sink := some 0 } }
      s.env.events == [] && coreStep s == none) = true := by decide +kernel

theorem test_meets_OpenForWriting : (machine 0 []).Quiet ∧ (machine 0 []).bbMode = .closed :=
  ⟨quiet_machine _ _, rfl⟩

theorem test_meets_OpenForReading :
    (machine 0xFFFFFFFF []).Quiet ∧ (machine 0xFFFFFFFF []).bbMode = .closed := ⟨quiet_machine _ _, rfl⟩

/-- A write and a read session, for the opens, DEC_TREE and DECODE; ENC_EMIT with a table. -/
theorem test_meets_OpenSessionIsRefused :
    (writing [true]).Quiet ∧ (writing [true]).bbMode ≠ .closed ∧ (reading [] []).Quiet ∧
      (reading [] []).bbMode ≠ .closed ∧ { built 0 [] with bbMode := .read }.Quiet ∧
      { built 0 [] with bbMode := .read }.bbMode ≠ .closed ∧
      { built 0 [] with bbMode := .read }.tableValid = true :=
  ⟨quiet_writing _, by decide, quiet_reading _ _, by decide, ⟨rfl, rfl, rfl⟩, by decide, rfl⟩

/-- The bit before the last of an 8-bit buffer, and the last. -/
theorem test_meets_WriteBitAppends :
    [6, 7].all (fun n =>
      let s := { writing (List.replicate n true) with extraBytes := 0 }
      s.todo == [] && s.env.sched == [] && s.env.sink == none && s.bbMode == .write &&
        decide (s.bbBits.length < s.bufBits)) = true ∧
      (0x01#8 : Byte).extractLsb' 1 7 = 0#7 := by decide +kernel

/-- A byte that leaves one bit of room in the default buffer, one that fills it, and one at its last bit. -/
theorem test_meets_WriteByteAppends :
    [119, 120, 127].all (fun n =>
      let s := writing (List.replicate n true)
      s.todo == [] && s.env.sched == [] && s.env.sink == none && s.bbMode == .write &&
        decide (s.bbBits.length < s.bufBits)) = true := by decide +kernel

theorem test_meets_WriteNeedsWriteMode :
    (machine 0 []).Quiet ∧ (machine 0 []).bbMode ≠ .write ∧ (reading [] []).Quiet ∧
      (reading [] []).bbMode ≠ .write ∧ (Instr.bbWriteBit 0x01#8).wellFormed = true ∧
      (Instr.bbWriteByte 0xFF#8).wellFormed = true :=
  ⟨quiet_machine _ _, by decide, quiet_reading _ _, by decide, rfl, rfl⟩

/-- A full read from an empty buffer, and the last bit of a session. -/
theorem test_meets_ReadBitReturns :
    ((reading [] [0xA0#8]).Quiet ∧ (reading [] [0xA0#8]).bbMode = .read ∧ Supplied (reading [] [0xA0#8]) ∧
      avail (reading [] [0xA0#8]) = true :: [false, true, false, false, false, false, false]) ∧
    ((reading [true] []).Quiet ∧ (reading [true] []).bbMode = .read ∧ Supplied (reading [true] []) ∧
      avail (reading [true] []) = true :: []) :=
  ⟨⟨quiet_reading _ _, rfl, Nat.le_refl 1, rfl⟩, quiet_reading _ _, rfl, Nat.le_refl 0, rfl⟩

theorem test_meets_ReadBitErrors :
    ((writing [true]).Quiet ∧ (writing [true]).bbMode ≠ .read) ∧
      ((reading [] []).Quiet ∧ (reading [] []).bbMode = .read ∧ (reading [] []).bbBits = [] ∧
        (reading [] []).bbRemain = 0#32) :=
  ⟨⟨quiet_writing _, by decide⟩, quiet_reading _ _, rfl, rfl, rfl⟩

theorem test_meets_CloseReleases : (writing [true]).Quiet ∧ (reading [] []).Quiet ∧ (machine 0 []).Quiet :=
  ⟨quiet_writing _, quiet_reading _ _, quiet_machine _ _⟩

theorem test_meets_WriteSessionSendsItsBits :
    (machine 0 []).Quiet ∧ (machine 0 []).bbMode = .closed ∧
      ∀ i ∈ [Instr.bbWriteBit 0x01#8, .bbWriteByte 0x00#8], i.wellFormed = true ∧
        ((∃ arg, i = .bbWriteBit arg) ∨ ∃ arg, i = .bbWriteByte arg) := by
  refine ⟨quiet_machine _ _, rfl, ?_⟩
  simp [Instr.wellFormed]

/-- A session of two bytes: the first and the last of its bits. -/
theorem test_meets_ReadSessionReturnsItsBits :
    (machine 2 [0xA0#8, 0x00#8]).Quiet ∧ (machine 2 [0xA0#8, 0x00#8]).bbMode = .closed ∧
      Offers (machine 2 [0xA0#8, 0x00#8]) (machine 2 [0xA0#8, 0x00#8]).srcLen.toNat ∧
      1 ≤ 1 ∧ 1 ≤ 16 ∧ 16 ≤ 8 * (machine 2 [0xA0#8, 0x00#8]).srcLen.toNat :=
  ⟨quiet_machine _ _, rfl, Nat.le_refl 2, by decide⟩

theorem test_meets_EncCountCounts :
    (machine 1 [0x00#8]).Quiet ∧ 0 < (machine 1 [0x00#8]).srcLen.toNat ∧
      (machine 1 [0x00#8]).srcLen.toNat ≤ 0xFFFFFFFE ∧
      Offers (machine 1 [0x00#8]) (machine 1 [0x00#8]).srcLen.toNat ∧
      ((machine 1 [0x00#8]).collChk = true →
        (machine 1 [0x00#8]).sentinel ∉ nextBytes (machine 1 [0x00#8]) (machine 1 [0x00#8]).srcLen.toNat) :=
  ⟨quiet_machine _ _, by decide, by decide, Nat.le_refl 1, by decide⟩

/-- Both lengths, for ENC_COUNT and for ENCODE. -/
theorem test_meets_EncCountRejectsLength :
    ((machine 0 []).Quiet ∧ (machine 0 []).srcLen = 0#32) ∧
      ((machine 0xFFFFFFFF []).Quiet ∧ (machine 0xFFFFFFFF []).srcLen = 0xFFFFFFFF#32) :=
  ⟨⟨quiet_machine _ _, rfl⟩, quiet_machine _ _, rfl⟩

/-- V-E8: the collision is the last byte but one; and a collision at the first byte of one. -/
theorem test_meets_EncCountFindsCollision :
    let s := machine 3 [0x41#8, 0x03#8, 0x42#8]
    let r := machine 1 [0x03#8]
    (s.Quiet ∧ s.collChk = true ∧ s.env.sIn = [0x41#8] ++ s.sentinel :: [0x42#8] ∧
      s.sentinel ∉ [0x41#8] ∧ [0x41#8].length < s.srcLen.toNat ∧ s.srcLen.toNat ≤ 0xFFFFFFFE) ∧
    (r.Quiet ∧ r.collChk = true ∧ r.env.sIn = [] ++ r.sentinel :: [] ∧
      ([] : List Byte).length < r.srcLen.toNat ∧ r.srcLen.toNat ≤ 0xFFFFFFFE) :=
  ⟨⟨quiet_machine _ _, by decide⟩, quiet_machine _ _, by decide⟩

theorem test_meets_EncBuildBuildsHuffman :
    (built 0 []).Quiet ∧ (built 0 []).freqValid = true ∧ 0 < weightOf (built 0 []) (built 0 []).encSent ∧
      (Format.allSymbols.map (weightOf (built 0 []))).sum < 2 ^ 32 :=
  ⟨quiet_built _ _, rfl, built_weights _ _⟩

/-- Two symbols counted, and, in a second state, one. -/
theorem test_meets_EncBuildTreeShape :
    ((built 0 []).Quiet ∧ (built 0 []).freqValid = true ∧
      0 < weightOf (built 0 []) (built 0 []).encSent ∧
      (Format.allSymbols.map (weightOf (built 0 []))).sum < 2 ^ 32 ∧
      2 = (Format.allSymbols.filter (fun v => 0 < weightOf (built 0 []) v)).length) ∧
    let s := { State.reset with freqValid := true, freq := (Vector.replicate 256 0#32).set 3 1#32 }
    s.Quiet ∧ s.freqValid = true ∧ 0 < weightOf s s.encSent ∧
      (Format.allSymbols.map (weightOf s)).sum < 2 ^ 32 ∧
      1 = (Format.allSymbols.filter (fun v => 0 < weightOf s v)).length :=
  ⟨⟨quiet_built _ _, rfl, by decide +kernel⟩, ⟨rfl, rfl, rfl⟩, rfl, by decide +kernel⟩

/-- In the state the premises ask for, two symbols have codes. -/
theorem test_meets_CodesArePrefixFree :
    (built 0 []).Quiet ∧ (built 0 []).freqValid = true ∧ 0 < weightOf (built 0 []) (built 0 []).encSent ∧
      (Format.allSymbols.map (weightOf (built 0 []))).sum < 2 ^ 32 ∧
      (after .encBuild (built 0 [])).codeAt 0x00#8 ≠ [] ∧
      (after .encBuild (built 0 [])).codeAt 0x03#8 ≠ [] :=
  ⟨quiet_built _ _, rfl, (built_weights _ _).1, (built_weights _ _).2, by decide +kernel⟩

theorem test_meets_SequenceIsChecked :
    State.reset.Quiet ∧ State.reset.freqValid = false ∧ State.reset.tableValid = false ∧
      State.reset.treeValid = false := ⟨⟨rfl, rfl, rfl⟩, rfl, rfl, rfl⟩

theorem test_meets_EncEmitWritesStream :
    let s := built 1 [0x00#8]
    s.Quiet ∧ s.tableValid = true ∧ s.bbMode = .closed ∧ HoldsTree s s.root builtTree ∧
      HoldsTable s builtTree ∧ builtTree.isLeaf = false ∧ builtTree.nodes ≤ 511 ∧
      0 < s.srcLen.toNat ∧ Offers s s.srcLen.toNat ∧
      ∀ v ∈ nextBytes s s.srcLen.toNat, v ∈ builtTree.symbols ∧ (s.encColl = true → v ≠ s.encSent) :=
  ⟨quiet_built _ _, rfl, rfl, built_holdsTree _ _, built_holdsTable _ _, rfl, by decide, by decide,
    Nat.le_refl 1, by decide⟩

theorem test_meets_EncEmitNeedsSource :
    (built 0 []).Quiet ∧ (built 0 []).tableValid = true ∧ (built 0 []).bbMode = .closed ∧
      (built 0 []).srcLen = 0#32 := ⟨quiet_built _ _, rfl, rfl, rfl⟩

/-- A collision after a good byte, and an unknown symbol as the first byte. -/
theorem test_meets_EncEmitStopsAtBadByte :
    let s := built 2 [0x00#8, 0x03#8]
    let r := built 1 [0x41#8]
    (s.Quiet ∧ s.tableValid = true ∧ s.bbMode = .closed ∧ HoldsTree s s.root builtTree ∧
      HoldsTable s builtTree ∧ s.env.sIn = [0x00#8] ++ 0x03#8 :: [] ∧ [0x00#8].length < s.srcLen.toNat ∧
      (∀ u ∈ [0x00#8], u ∈ builtTree.symbols ∧ (s.encColl = true → u ≠ s.encSent)) ∧
      (s.encColl = true ∧ 0x03#8 = s.encSent)) ∧
    (r.Quiet ∧ r.tableValid = true ∧ r.bbMode = .closed ∧ HoldsTree r r.root builtTree ∧
      HoldsTable r builtTree ∧ r.env.sIn = [] ++ 0x41#8 :: [] ∧ 0 < r.srcLen.toNat ∧
      0x41#8 ∉ builtTree.symbols) ∧ builtTree.isLeaf = false ∧ builtTree.nodes ≤ 511 :=
  ⟨⟨quiet_built _ _, rfl, rfl, built_holdsTree _ _, built_holdsTable _ _, by decide⟩,
    ⟨quiet_built _ _, rfl, rfl, built_holdsTree _ _, built_holdsTable _ _, by decide⟩, rfl, by decide⟩

/-- V-E6, where both passes are the same, and V-E16, where they differ. -/
theorem test_meets_EncodeSendsTheStream :
    let s := machine 1 [0x00#8, 0x00#8]
    let r := machine 2 [0x41#8, 0x42#8, 0x42#8, 0x41#8]
    (s.Quiet ∧ s.bbMode = .closed ∧ [0x00#8].length = s.srcLen.toNat ∧ 0 < s.srcLen.toNat ∧
      s.srcLen.toNat ≤ 0xFFFFFFFE ∧ s.env.sIn = [0x00#8] ++ ([0x00#8] ++ []) ∧
      (s.collChk = true → s.sentinel ∉ [0x00#8]) ∧
      (∀ v ∈ [0x00#8], 0 < Format.counts [0x00#8] s.sentinel v ∧ (s.collChk = true → v ≠ s.sentinel))) ∧
    (r.Quiet ∧ r.bbMode = .closed ∧ [0x41#8, 0x42#8].length = r.srcLen.toNat ∧
      [0x42#8, 0x41#8].length = r.srcLen.toNat ∧ 0 < r.srcLen.toNat ∧ r.srcLen.toNat ≤ 0xFFFFFFFE ∧
      r.env.sIn = [0x41#8, 0x42#8] ++ ([0x42#8, 0x41#8] ++ []) ∧
      (r.collChk = true → r.sentinel ∉ [0x41#8, 0x42#8]) ∧
      (∀ v ∈ [0x42#8, 0x41#8], 0 < Format.counts [0x41#8, 0x42#8] r.sentinel v ∧
        (r.collChk = true → v ≠ r.sentinel))) :=
  ⟨⟨quiet_machine _ _, rfl, by decide⟩, quiet_machine _ _, rfl, by decide⟩

theorem test_meets_StreamLength :
    let s := { machine 1 [0x03#8, 0x03#8] with collChk := false }
    s.Quiet ∧ s.bbMode = .closed ∧ 0 < s.srcLen.toNat ∧ s.srcLen.toNat ≤ 0xFFFFFFFE ∧
      nextBytes s (2 * s.srcLen.toNat) = nextBytes s s.srcLen.toNat ++ nextBytes s s.srcLen.toNat ∧
      Offers s (2 * s.srcLen.toNat) ∧
      (s.collChk = true → s.sentinel ∉ nextBytes s s.srcLen.toNat) :=
  ⟨⟨rfl, rfl, rfl⟩, rfl, by decide, by decide, by decide, Nat.le_refl 2, by decide⟩

theorem test_meets_EncodeFindsOpenSession :
    let s := { machine 1 [0x00#8] with bbMode := .write }
    s.Quiet ∧ s.bbMode ≠ .closed ∧ 0 < s.srcLen.toNat ∧ s.srcLen.toNat ≤ 0xFFFFFFFE ∧
      Offers s s.srcLen.toNat ∧ (s.collChk = true → s.sentinel ∉ nextBytes s s.srcLen.toNat) :=
  ⟨⟨rfl, rfl, rfl⟩, by decide, by decide, by decide, Nat.le_refl 1, by decide⟩

/-- V-E15, a byte that was not counted, and V-E17, a collision in the second pass only. -/
theorem test_meets_EncodeStopsAtBadByte :
    let s := machine 2 [0x41#8, 0x42#8, 0x41#8, 0x43#8]
    let r := machine 2 [0x41#8, 0x42#8, 0x41#8, 0x03#8]
    (s.Quiet ∧ s.bbMode = .closed ∧ [0x41#8, 0x42#8].length = s.srcLen.toNat ∧
      s.srcLen.toNat ≤ 0xFFFFFFFE ∧ (s.collChk = true → s.sentinel ∉ [0x41#8, 0x42#8]) ∧
      s.env.sIn = [0x41#8, 0x42#8] ++ ([0x41#8] ++ 0x43#8 :: []) ∧ [0x41#8].length < s.srcLen.toNat ∧
      (∀ u ∈ [0x41#8], 0 < Format.counts [0x41#8, 0x42#8] s.sentinel u ∧
        (s.collChk = true → u ≠ s.sentinel)) ∧
      Format.counts [0x41#8, 0x42#8] s.sentinel 0x43#8 = 0) ∧
    (r.Quiet ∧ r.bbMode = .closed ∧ [0x41#8, 0x42#8].length = r.srcLen.toNat ∧
      r.srcLen.toNat ≤ 0xFFFFFFFE ∧ (r.collChk = true → r.sentinel ∉ [0x41#8, 0x42#8]) ∧
      r.env.sIn = [0x41#8, 0x42#8] ++ ([0x41#8] ++ 0x03#8 :: []) ∧ [0x41#8].length < r.srcLen.toNat ∧
      (∀ u ∈ [0x41#8], 0 < Format.counts [0x41#8, 0x42#8] r.sentinel u ∧
        (r.collChk = true → u ≠ r.sentinel)) ∧
      (r.collChk = true ∧ 0x03#8 = r.sentinel)) :=
  ⟨⟨quiet_machine _ _, rfl, by decide⟩, quiet_machine _ _, rfl, by decide⟩

/-- Two machines that differ in their memories, their flags and BUF_BITS. -/
theorem test_meets_EncodeDependsOnInputAlone :
    let s := machine 1 [0x00#8, 0x00#8]
    let s' := { built 1 [0x00#8, 0x00#8] with extraBytes := 0 }
    s.Quiet ∧ s'.Quiet ∧ s.bbMode = .closed ∧ s'.bbMode = .closed ∧ s.srcLen = s'.srcLen ∧
      s.sentinel = s'.sentinel ∧ s.collChk = s'.collChk ∧ Offers s (2 * s.srcLen.toNat) ∧
      Offers s' (2 * s.srcLen.toNat) ∧
      nextBytes s (2 * s.srcLen.toNat) = nextBytes s' (2 * s.srcLen.toNat) :=
  ⟨quiet_machine _ _, ⟨rfl, rfl, rfl⟩, rfl, rfl, rfl, rfl, rfl, Nat.le_refl 2, Nat.le_refl 2, rfl⟩

/-- V-E6's stream: its tree section, then five bits. -/
theorem test_meets_DecTreeReadsTree :
    let s := machine 3 [0x40#8, 0x20#8, 0x68#8]
    s.Quiet ∧ s.bbMode = .closed ∧ Offers s s.srcLen.toNat ∧
      streamOf s = builtTree.serialize ++ [false, true, false, false, false] ∧
      builtTree.isLeaf = false ∧ builtTree.nodes ≤ 511 :=
  ⟨quiet_machine _ _, rfl, Nat.le_refl 3, by decide, rfl, by decide⟩

/-- A tree whose left spine has `n` internal nodes. -/
def chain : Nat → Format.Tree
  | 0 => .leaf 0x00#8
  | n + 1 => .node (chain n) (.leaf 0x00#8)

theorem chain_nodes (n : Nat) : (chain n).nodes = 2 * n + 1 := by
  induction n with
  | zero => rfl
  | succ n ih => simp only [chain, Format.Tree.nodes, ih]; omega

theorem chain_firstRecords (n : Nat) : (chain n).firstRecords n = List.replicate n false := by
  induction n with
  | zero => rfl
  | succ n ih =>
    rw [chain, Format.Tree.firstRecords_node, ih, show n - (chain n).nodes = 0 by rw [chain_nodes]; omega,
      Format.Tree.firstRecords_zero, List.append_nil, List.replicate_succ]

theorem streamOf_zeros :
    streamOf (machine 64 (List.replicate 64 0x00#8)) = List.replicate 511 false ++ false :: [] ∧
      streamOf (machine 63 (List.replicate 63 0x00#8)) ++ List.replicate 7 false = List.replicate 511 false := by
  decide +kernel

/-- V-D10's root leaf; and V-D13, 64 bytes of 00, whose 512th tag bit needs a 512th node. -/
theorem test_meets_DecTreeMalformed :
    let s := machine 2 [0xA0#8, 0x80#8]
    let r := machine 64 (List.replicate 64 0x00#8)
    (s.Quiet ∧ s.bbMode = .closed ∧ Offers s s.srcLen.toNat ∧ ∃ sym rest,
      streamOf s = (Format.Tree.leaf sym).serialize ++ rest) ∧
    (r.Quiet ∧ r.bbMode = .closed ∧ Offers r r.srcLen.toNat ∧
      ∃ (T : Format.Tree) (tag : Bool) (rest : List Bool), 511 < T.nodes ∧
        512 = (T.firstRecords 511).length + 1 ∧ streamOf r = T.firstRecords 511 ++ tag :: rest) := by
  refine ⟨⟨quiet_machine _ _, rfl, Nat.le_refl 2, 0x41#8,
    [false, false, false, false, false, false, false], by decide⟩,
    quiet_machine _ _, rfl, Nat.le_refl 64, chain 511, false, [], ?_, ?_, ?_⟩
  · rw [chain_nodes]; decide
  · rw [chain_firstRecords, List.length_replicate]
  · rw [chain_firstRecords]; exact streamOf_zeros.1

/-- V-D12, V-E6's stream cut after its second byte, and V-D13's stream one byte shorter: 504 tag bits of an
unfinished tree. -/
theorem test_meets_DecTreeEndOfStream :
    let s := machine 2 [0x40#8, 0x20#8]
    let r := machine 0 []
    let z := machine 63 (List.replicate 63 0x00#8)
    (s.Quiet ∧ s.bbMode = .closed ∧ Offers s s.srcLen.toNat ∧
      builtTree.serialize = streamOf s ++ [false, true, true] ∧ [false, true, true] ≠ [] ∧
      (streamOf s).length ≤ (builtTree.firstRecords 511).length) ∧
    (r.Quiet ∧ r.bbMode = .closed ∧ Offers r r.srcLen.toNat ∧
      builtTree.serialize = streamOf r ++ builtTree.serialize ∧ builtTree.serialize ≠ [] ∧
      (streamOf r).length ≤ (builtTree.firstRecords 511).length) ∧
    (z.Quiet ∧ z.bbMode = .closed ∧ Offers z z.srcLen.toNat ∧
      ∃ (T : Format.Tree) (missing : List Bool), T.serialize = streamOf z ++ missing ∧ missing ≠ [] ∧
        (streamOf z).length ≤ (T.firstRecords 511).length) := by
  refine ⟨⟨quiet_machine _ _, rfl, Nat.le_refl 2, by decide, by decide, by decide⟩,
    ⟨quiet_machine _ _, rfl, Nat.le_refl 0, by decide, by decide, by decide⟩,
    quiet_machine _ _, rfl, Nat.le_refl 63, chain 511, ?_⟩
  obtain ⟨more, hmore, hne⟩ := (chain 511).serialize_eq_firstRecords 511
  rw [chain_firstRecords, ← streamOf_zeros.2, List.append_assoc] at hmore
  refine ⟨_, hmore, by simp, ?_⟩
  rw [chain_firstRecords, ← streamOf_zeros.2, List.length_append]
  exact Nat.le_add_right _ _

/-- A payload with the sentinel, and one without. -/
theorem test_meets_DecPayloadEmitsSymbols :
    let s := { built 1 [0x40#8] with bbMode := .read, bbRemain := 1#32 }
    let r := { built 0 [] with bbMode := .read, bbBits := [false, false] }
    (s.Quiet ∧ s.treeValid = true ∧ s.bbMode = .read ∧ Supplied s ∧ HoldsTree s s.root builtTree ∧
      builtTree.spell s.sentinel builtTree (avail s) = ([0x00#8], true)) ∧
    (r.Quiet ∧ r.treeValid = true ∧ r.bbMode = .read ∧ Supplied r ∧ HoldsTree r r.root builtTree ∧
      builtTree.spell r.sentinel builtTree (avail r) = ([0x00#8, 0x00#8], false)) ∧
    builtTree.isLeaf = false :=
  ⟨⟨⟨rfl, rfl, rfl⟩, rfl, rfl, Nat.le_refl 1, built_holdsTree 0 [], by decide⟩,
    ⟨⟨rfl, rfl, rfl⟩, rfl, rfl, Nat.le_refl 0, built_holdsTree 0 [], by decide⟩, rfl⟩

theorem test_meets_DecPayloadNeedsReadSession :
    ((built 0 []).Quiet ∧ (built 0 []).treeValid = true ∧ (built 0 []).bbMode ≠ .read) ∧
      { built 0 [] with bbMode := .write, bbBits := [true] }.Quiet ∧
      { built 0 [] with bbMode := .write, bbBits := [true] }.treeValid = true ∧
      { built 0 [] with bbMode := .write, bbBits := [true] }.bbMode ≠ .read :=
  ⟨⟨quiet_built _ _, rfl, by decide⟩, ⟨rfl, rfl, rfl⟩, rfl, by decide⟩

/-- V-D15, and its stream with the last byte cut short of the sentinel. -/
theorem test_meets_DecodeEmitsMessage :
    let s := machine 3 [0x40#8, 0x20#8, 0x68#8]
    let r := machine 3 [0x40#8, 0x20#8, 0x60#8]
    (s.Quiet ∧ s.bbMode = .closed ∧ Offers s s.srcLen.toNat ∧
      streamOf s = builtTree.serialize ++ [false, true, false, false, false] ∧
      builtTree.spell s.sentinel builtTree [false, true, false, false, false] = ([0x00#8], true)) ∧
    (r.Quiet ∧ r.bbMode = .closed ∧ Offers r r.srcLen.toNat ∧
      streamOf r = builtTree.serialize ++ [false, false, false, false, false] ∧
      builtTree.spell r.sentinel builtTree [false, false, false, false, false]
        = (List.replicate 5 0x00#8, false)) ∧
    builtTree.isLeaf = false ∧ builtTree.nodes ≤ 511 :=
  ⟨⟨quiet_machine _ _, rfl, Nat.le_refl 3, by decide, by decide⟩,
    ⟨quiet_machine _ _, rfl, Nat.le_refl 3, by decide, by decide⟩, rfl, by decide⟩

theorem exec_encode (s : State) : exec .encode s = .next (after .encode s) := rfl

theorem encode_zero_completes :
    let t := after .encode (machine 1 [0x00#8, 0x00#8])
    (t.busy = false ∧ t.done = true ∧ t.errCode = .none ∧ t.errOp = Instr.encode.opcode ∧
      t.cmdw = encodeWord .encode) ∧ t.env.sOut = [0x40#8, 0x20#8, 0x68#8] := by decide +kernel

/-- V-E6 and V-D15: the outer premises, and those of the decoding machine `u`. -/
theorem test_meets_RoundTrip :
    let s := machine 1 [0x00#8, 0x00#8]
    let u := machine 3 [0x40#8, 0x20#8, 0x68#8]
    (s.Quiet ∧ [0x00#8].length = s.srcLen.toNat ∧ s.env.sIn = [0x00#8] ++ ([0x00#8] ++ []) ∧
      ∃ t, exec .encode s = .next t ∧ Completed .encode t ∧
        t.env.sOut = s.env.sOut ++ [0x40#8, 0x20#8, 0x68#8]) ∧
    (u.Quiet ∧ u.bbMode = .closed ∧ u.sentinel = s.sentinel ∧
      u.srcLen.toNat = [0x40#8, 0x20#8, 0x68#8].length ∧
      u.env.sIn = [0x40#8, 0x20#8, 0x68#8] ++ []) :=
  ⟨⟨quiet_machine _ _, rfl, rfl, _, exec_encode _, encode_zero_completes.1,
    encode_zero_completes.2⟩, quiet_machine _ _, rfl, rfl, rfl, rfl⟩

/-- Six bytes 00: the tree I(L03, L00), then six codes `1` and the code `0` of the sentinel. -/
theorem encode_six_completes :
    let t := after .encode (machine 6 (List.replicate 12 0x00#8))
    (t.busy = false ∧ t.done = true ∧ t.errCode = .none ∧ t.errOp = Instr.encode.opcode ∧
      t.cmdw = encodeWord .encode) ∧ t.env.sOut = [0x40#8, 0xE0#8, 0x1F#8, 0x80#8] := by decide +kernel

/-- V-E6, whose cut falls into the tree section (phase 0x20), and six bytes 00, whose cut leaves five codes
(phase 0x21): the outer premises, and those of the machine `u` that decodes the cut stream. -/
theorem test_meets_TruncationIsReported :
    let s := machine 1 [0x00#8, 0x00#8]
    let u := machine 2 [0x40#8, 0x20#8]
    let s6 := machine 6 (List.replicate 12 0x00#8)
    let u6 := machine 3 [0x40#8, 0xE0#8, 0x1F#8]
    ((s.Quiet ∧ [0x00#8].length = s.srcLen.toNat ∧ s.env.sIn = [0x00#8] ++ ([0x00#8] ++ []) ∧
      s.sentinel ∉ [0x00#8] ∧
      ∃ t, exec .encode s = .next t ∧ Completed .encode t ∧
        t.env.sOut = s.env.sOut ++ [0x40#8, 0x20#8, 0x68#8]) ∧
    (u.Quiet ∧ u.bbMode = .closed ∧ u.sentinel = s.sentinel ∧
      u.srcLen.toNat = [0x40#8, 0x20#8, 0x68#8].length - 1 ∧
      u.env.sIn = [0x40#8, 0x20#8, 0x68#8].dropLast ++ [] ∧
      report .decode u = (0x00002003#32, [], 2#32, 0#32))) ∧
    (s6.Quiet ∧ (List.replicate 6 0x00#8).length = s6.srcLen.toNat ∧
      s6.env.sIn = List.replicate 6 0x00#8 ++ (List.replicate 6 0x00#8 ++ []) ∧
      s6.sentinel ∉ List.replicate 6 0x00#8 ∧
      ∃ t, exec .encode s6 = .next t ∧ Completed .encode t ∧
        t.env.sOut = s6.env.sOut ++ [0x40#8, 0xE0#8, 0x1F#8, 0x80#8]) ∧
    (u6.Quiet ∧ u6.bbMode = .closed ∧ u6.sentinel = s6.sentinel ∧
      u6.srcLen.toNat = [0x40#8, 0xE0#8, 0x1F#8, 0x80#8].length - 1 ∧
      u6.env.sIn = [0x40#8, 0xE0#8, 0x1F#8, 0x80#8].dropLast ++ [] ∧
      report .decode u6 = (0x00002103#32, List.replicate 5 0x00#8, 3#32, 5#32)) :=
  ⟨⟨⟨quiet_machine _ _, rfl, rfl, by decide, _, exec_encode _, encode_zero_completes.1,
    encode_zero_completes.2⟩, quiet_machine _ _, rfl, rfl, rfl, rfl, by decide +kernel⟩,
    ⟨quiet_machine _ _, rfl, rfl, by decide, _, exec_encode _, encode_six_completes.1,
      encode_six_completes.2⟩, quiet_machine _ _, rfl, rfl, rfl, rfl, by decide +kernel⟩

/-- A machine in the middle of a refill. -/
def refilling : State :=
  { reading [] [0xB4#8] with todo := [.fetch 1, .readBit .result, .complete] }

theorem test_meets_InvariantKept : refilling.Inv ∧ ∃ t, step refilling = .next t := by
  refine ⟨⟨?_, ?_, ?_, ?_, ?_, ?_, ?_, ?_, ?_⟩, _, rfl⟩
  · exact fun _ => ⟨rfl, rfl, rfl⟩
  · intro h; cases h
  · intro h; cases h
  · decide
  · intro n hn
    have h1 : n = 1 := by simpa [refilling] using hn
    subst h1
    exact ⟨rfl, by decide⟩
  · decide
  · intro h; cases h
  · intro e he
    simp [refilling] at he
  · intro h; exact absurd rfl h

/-- A machine whose three valid flags are set, with the source offered twice. -/
theorem test_meets_EveryCommandEnds :
    let s := built 1 [0x00#8, 0x00#8]
    s.Quiet ∧ s.Inv ∧ s.Promise ∧ Offers s (2 * s.srcLen.toNat) ∧ Supplied s := by
  refine ⟨quiet_built _ _, ⟨?_, ?_, ?_, ?_, ?_, ?_, ?_, ?_, ?_⟩, ⟨?_, ?_, ?_⟩, Nat.le_refl 2, Nat.zero_le 2⟩
  · intro h; cases h
  · exact fun _ => ⟨rfl, rfl⟩
  · intro h; cases h
  · exact Nat.zero_le _
  · intro n hn; cases hn
  · intro st h; cases h
  · intro h; cases h
  · intro e he; cases he
  · intro h; exact absurd rfl h
  · exact fun _ => built_weights _ _
  · exact fun _ => ⟨builtTree, built_holdsTree _ _, rfl, by decide⟩
  · exact fun _ => ⟨builtTree, built_holdsTree _ _, built_holdsTable _ _, rfl, by decide, by decide⟩

/-- The reset input, and a write of SRST together with IRQ_EN. -/
theorem test_meets_ResetAbandons :
    (paused [.rst]).env.events = .rst :: [] ∧
      (paused [.write 0x007#12 3#32]).env.events = .write 0x007#12 3#32 :: [] ∧
      (0x007#12 : Offset).extractLsb' 2 10 = 1#10 ∧ (3#32 : Word).getLsbD 0 = true := by decide

/-- A busy machine whose core takes no step. -/
theorem test_meets_StatusWriteClears :
    Paused (paused [.write 0x00C#12 0xA#32]) ∧
      (paused [.write 0x00C#12 0xA#32]).env.events = .write 0x00C#12 0xA#32 :: [] ∧
      (0x00C#12 : Offset).extractLsb' 2 10 = 3#10 := ⟨.inr ⟨[0], rfl⟩, rfl, by decide⟩

theorem test_meets_CtrlWriteSetsIrq :
    Paused (paused [.write 0x004#12 2#32]) ∧
      (paused [.write 0x004#12 2#32]).env.events = .write 0x004#12 2#32 :: [] ∧
      (0x004#12 : Offset).extractLsb' 2 10 = 1#10 ∧ (2#32 : Word).getLsbD 0 = false :=
  ⟨.inr ⟨[0], rfl⟩, rfl, by decide, by decide⟩

/-- CFG and SRC_LEN, busy and idle. -/
theorem test_meets_ConfigurationIsStable :
    let busy := paused [.write 0x014#12 0x1FF#32]
    let idle := { machine 0 [] with env := { Env.initial with events := [.write 0x018#12 0xFFFFFFFF#32] } }
    (Paused busy ∧ busy.busy = true ∧ busy.env.events = .write 0x014#12 0x1FF#32 :: [] ∧
      (0x014#12 : Offset).extractLsb' 2 10 = 5#10) ∧
    (Paused idle ∧ idle.busy = false ∧ idle.env.events = .write 0x018#12 0xFFFFFFFF#32 :: [] ∧
      (0x018#12 : Offset).extractLsb' 2 10 = 6#10) :=
  ⟨⟨.inr ⟨[0], rfl⟩, rfl, rfl, by decide⟩, .inl rfl, rfl, rfl, by decide⟩

/-- TBL_IDX, a read-only word beside a writable one, and the last unmapped word. -/
theorem test_meets_OtherWrites :
    (∀ off : Offset, Paused (paused [.write off 0x141#32]) ∧
      (paused [.write off 0x141#32]).env.events = .write off 0x141#32 :: []) ∧
    (0x028#12 : Offset).extractLsb' 2 10 = 10#10 ∧
    (0x02C#12 : Offset).extractLsb' 2 10 ∉ [1#10, 2#10, 3#10, 5#10, 6#10, 10#10] ∧
    (0xFFC#12 : Offset).extractLsb' 2 10 ∉ [1#10, 2#10, 3#10, 5#10, 6#10, 10#10] :=
  ⟨fun _ => ⟨.inr ⟨[0], rfl⟩, rfl⟩, by decide, by decide, by decide⟩

/-- One offset for each clause, the first and the last unmapped word, and a state in which every guard
holds. -/
theorem test_meets_RegisterReads :
    [0x000#12, 0x004#12, 0x008#12, 0x00C#12, 0x010#12, 0x014#12, 0x018#12, 0x01C#12, 0x020#12, 0x024#12,
        0x028#12, 0x02C#12, 0x030#12, 0x054#12, 0x058#12, 0xFFF#12].map
        (fun off : Offset => (off.extractLsb' 2 10).toNat)
      = [0, 1, 2, 3, 4, 5, 6, 7, 8, 9, 10, 11, 12, 21, 22, 1023] ∧
      (built 0 []).busy = false ∧ (built 0 []).freqValid = true ∧ (built 0 []).treeValid = true ∧
      (built 0 []).tableValid = true ∧ (built 0 []).ct[(built 0 []).tblIdx.toNat].length ≤ 255 := by
  decide +kernel

/-- The first and the last bit of the window. -/
theorem test_meets_CodeWindowBits :
    (built 0 []).busy = false ∧ (built 0 []).tableValid = true ∧
      ((0x034#12 : Offset).extractLsb' 2 10).toNat = 13 + 0 ∧
      ((0x050#12 : Offset).extractLsb' 2 10).toNat = 13 + 7 ∧ 7 < 8 ∧ 31 < 32 := by decide +kernel

/-- Two reads of an unspecified register while the core is busy and takes no step, and of an idle machine. -/
theorem test_meets_ReadsChangeNothing :
    (∃ q, (paused [.read 0x024#12, .read 0x024#12]).env.sched = 0 :: 0 :: q) ∧
      (paused [.read 0x024#12, .read 0x024#12]).env.events = .read 0x024#12 :: .read 0x024#12 :: [] ∧
      (machine 0 []).todo = [] := ⟨⟨[], rfl⟩, rfl, rfl⟩

end Sys2Proof.Tests
end

section
/-!
PROOFS. The whole ENCODE (42_encoder.md R171): its count and build phases, and its endings as runs of the
core from a quiet machine.
-/

namespace Sys2Proof.Machine

open Sys2Proof.Format (Tree counts huffman leafForest streamBits)

/-! ### Counts and codes -/

/-- The counts are those of the source with one sentinel added (R155). -/
theorem counts_eq_count_cons (src : List Byte) (σ v : Byte) : counts src σ v = (σ :: src).count v := by
  simp only [counts, List.count_cons, beq_iff_eq, eq_comm (a := v)]

theorem counts_sentinel_pos (src : List Byte) (σ : Byte) : 0 < counts src σ σ := by
  rw [counts_eq_count_cons]
  exact List.count_pos_iff.mpr List.mem_cons_self

/-- The counts of a source add up to its length and the sentinel (R155). -/
theorem sum_counts (src : List Byte) (σ : Byte) :
    (Format.allSymbols.map (counts src σ)).sum = src.length + 1 := by
  have hcard := Multiset.sum_count_eq_card (s := Format.allSymbols.toFinset) (m := ↑(σ :: src))
    fun v _ => List.mem_toFinset.mpr (Format.mem_allSymbols v)
  rw [funext (counts_eq_count_cons src σ), ← List.sum_toFinset _ Format.nodup_allSymbols]
  simpa using hcard

/-- In a tree with an internal root the symbols of the leaves are those with a code (R162, R163). -/
theorem code_ne_nil_iff {T : Tree} (hT : T.isLeaf = false) (v : Byte) : T.code v ≠ [] ↔ v ∈ T.symbols := by
  match T, hT with
  | .node l r, _ =>
    exact ⟨fun h => not_not.mp (mt (Format.Tree.code_eq_nil_of_not_mem _ v) h), Format.Tree.code_ne_nil l r v⟩

/-- The tree ENCODE builds for the first pass `src` and the sentinel `σ` (R155 to R158). -/
abbrev codeTree (src : List Byte) (σ : Byte) : Tree := huffman (counts src σ) σ

/-- The bytes of the second pass that can be coded, after the first pass `first` (R165). -/
def CanCode (first : List Byte) (σ : Byte) (coll : Bool) (v : Byte) : Prop :=
  0 < counts first σ v ∧ (coll = true → v ≠ σ)

/-- The tree of a source fits into the store (R159). -/
theorem nodes_codeTree_le (src : List Byte) (σ : Byte) : (codeTree src σ).nodes ≤ 511 :=
  Format.huffman_nodes_le _ σ (counts_sentinel_pos src σ)

/-- Its tree section has at most 511 records, of which at most 256 hold a symbol (30_encoding.md R87). -/
theorem length_serialize_codeTree_le (src : List Byte) (σ : Byte) :
    (codeTree src σ).serialize.length ≤ 2559 := by
  have h1 := nodes_codeTree_le src σ
  have h2 := (codeTree src σ).nodes_eq
  have h3 := (codeTree src σ).length_serialize
  omega

/-- The steps of ENC_EMIT over `m` bytes with codes of at most 511 bits are few against a turn (log 1). -/
theorem encEmit_steps_le {B S N m : Nat} (hS : S ≤ 2559) (hN : N ≤ 511) (hm : m < 2 ^ 32) :
    S * (B + 3) + N + 8 + m * (511 * (B + 2) + 2) + 511 * (B + 2) + 8 * B + 5 ≤ 2 ^ 42 * (B + 8) := by
  have h1 : S * (B + 3) ≤ 2559 * (B + 3) := Nat.mul_le_mul_right _ hS
  have h2 : m * (511 * (B + 2) + 2) ≤ 2 ^ 32 * (511 * (B + 2) + 2) := Nat.mul_le_mul_right _ hm.le
  omega

/-! ### The first two phases -/

/-- `u` is `s` after ENCODE's first two phases over the first pass `first` (R171): the tree of the source
and its code table are in the memories. -/
structure EncodeBuilt (s : State) (first : List Byte) (u : State) : Prop where
  state : u = ((encCountEnd s first).withPhase 0x11#8).built u.node u.ncnt u.root u.ct u.path
    (decide ((leafForest (counts first s.sentinel)).length = 1))
  tree : HoldsBelow u.ncnt.toNat u u.root (codeTree first s.sentinel)
  nodes : u.ncnt.toNat = (codeTree first s.sentinel).nodes
  table : HoldsTable u (codeTree first s.sentinel)

theorem encCountEnd_weightOf (s : State) {first : List Byte} (h : first.length ≤ Config.maxLen.toNat) :
    weightOf (encCountEnd s first) = counts first s.sentinel := by
  funext v
  rw [weightOf, encCountEnd_freqAt, BitVec.toNat_ofNat, Nat.mod_eq_of_lt (counts_lt _ v h)]

/-- ENC_COUNT over a source without a collision, and ENC_BUILD (R168, R169, R171). -/
theorem runs_encCount_encBuild (first : List Byte) (k : List Stmt) (s : State) (rest : List Byte)
    (hlen : first.length = s.srcLen.toNat) (h0 : 0 < s.srcLen.toNat)
    (hmax : s.srcLen.toNat ≤ Config.maxLen.toNat) (hin : s.env.sIn = first ++ rest)
    (hok : s.collChk = true → s.sentinel ∉ first) :
    ∃ u, EncodeBuilt s first u ∧
      RunsIn (2 * s.srcLen.toNat + 1209) (s.withTodo (bodyEncCount ++ (bodyEncBuild ++ k)))
        (u.withTodo k) := by
  have hw := encCountEnd_weightOf s (hlen.trans_le hmax)
  have hmaxLen : Config.maxLen.toNat = 4294967294 := rfl
  have hcount := runs_encCount first (bodyEncBuild ++ k) s rest hlen h0 hmax hin hok
  obtain ⟨u, hu, htree, hnodes, -, htable, hbuild⟩ := runs_encBuild k (encCountEnd s first) rfl
    (by rw [hw]; exact counts_sentinel_pos first s.sentinel) (by rw [hw, sum_counts]; omega)
  rw [hw] at hu htree hnodes htable
  exact ⟨u, ⟨hu, htree, hnodes, htable⟩, (hcount.trans hbuild).mono (by omega)⟩

namespace EncodeBuilt

variable {s u : State} {first : List Byte} (h : EncodeBuilt s first u)

include h

theorem codeAt_eq : u.codeAt = (codeTree first s.sentinel).code := funext h.table

theorem encSent_eq : u.encSent = s.sentinel := (congrArg State.encSent h.state).trans rfl

theorem encColl_eq : u.encColl = s.collChk := (congrArg State.encColl h.state).trans rfl

theorem bbMode_eq : u.bbMode = s.bbMode := (congrArg State.bbMode h.state).trans rfl

theorem srcLen_eq : u.srcLen = s.srcLen := (congrArg State.srcLen h.state).trans rfl

theorem bufBytes_eq : u.bufBytes = s.bufBytes := (congrArg State.bufBytes h.state).trans rfl

theorem cmdw_eq : u.cmdw = s.cmdw := (congrArg State.cmdw h.state).trans rfl

theorem inCount_eq : u.inCount = s.inCount + BitVec.ofNat 32 first.length :=
  (congrArg State.inCount h.state).trans rfl

theorem outCount_eq : u.outCount = s.outCount := (congrArg State.outCount h.state).trans rfl

theorem env_eq : u.env = { s.env with sIn := s.env.sIn.drop first.length } :=
  (congrArg State.env h.state).trans rfl

theorem tableValid_eq : u.tableValid = true := (congrArg State.tableValid h.state).trans rfl

theorem holdsTree : HoldsTree u u.root (codeTree first s.sentinel) := h.tree.holdsTree

/-- The bytes of the second pass that can be coded: the counted ones, but for a collision (R165). -/
theorem codable_iff (v : Byte) :
    Codable u v ↔ CanCode first s.sentinel s.collChk v := by
  obtain ⟨hleaf, hsym, -⟩ := Format.huffman_spec (counts first s.sentinel) s.sentinel
    (counts_sentinel_pos first s.sentinel)
  rw [Codable, h.encColl_eq, h.encSent_eq, h.codeAt_eq, code_ne_nil_iff hleaf, hsym, not_and, and_comm,
    CanCode]

/-- The error of a byte of the second pass that cannot be coded (R165). -/
theorem emitError_eq (v : Byte) : emitError u v
    = if s.collChk = true ∧ v = s.sentinel then .sentinelCollision else .unknownSymbol := by
  rw [emitError, h.encColl_eq, h.encSent_eq]

/-- What ENC_EMIT leaves after the second pass `second` (R167, R170). -/
theorem encEmitEnd_eq (second : List Byte) :
    encEmitEnd (codeTree first s.sentinel) u second = u.emitted (packBits
      (streamBits (codeTree first s.sentinel) second s.sentinel)) second.length := by
  rw [encEmitEnd, h.codeAt_eq, h.encSent_eq, streamBits]

/-- What the error of such a byte leaves, after the bytes `before` of the second pass (R165,
60_exceptions.md R263). -/
theorem raised_stop (before : List Byte) (v : Byte) :
    raised (taken (emitting (codeTree first s.sentinel) u before) 1) (emitError u v)
      = (u.emitted (packBits ((codeTree first s.sentinel).serialize
          ++ before.flatMap (codeTree first s.sentinel).code)) (before.length + 1)).failStep
        (if s.collChk = true ∧ v = s.sentinel then .sentinelCollision else .unknownSymbol) := by
  rw [raised_emitting, h.codeAt_eq, h.emitError_eq]

theorem length_codeAt_le (v : Byte) : (u.codeAt v).length ≤ 511 := by
  have h1 := Format.Tree.length_code_lt_nodes (codeTree first s.sentinel) v
  have h2 := nodes_codeTree_le first s.sentinel
  rw [h.codeAt_eq]
  omega

variable (hm : s.bbMode = .closed) (hs : s.env.sink = none)

include hm hs

/-- The third phase over a second pass that can be coded (R170, R171). -/
theorem runs_encEmit {second rest : List Byte} (k : List Stmt) (h0 : 0 < s.srcLen.toNat)
    (hlen : second.length = s.srcLen.toNat) (hin : s.env.sIn = first ++ (second ++ rest))
    (hcode : ∀ v ∈ second, CanCode first s.sentinel s.collChk v) :
    RunsIn (2 ^ 42 * (s.bufBytes + 8)) (u.withTodo (bodyEncEmit ++ k))
      ((u.emitted (packBits (streamBits (codeTree first s.sentinel) second s.sentinel))
        second.length).withTodo k) := by
  rw [← h.encEmitEnd_eq]
  rw [← h.srcLen_eq] at h0 hlen
  have hrest : u.env.sIn = second ++ rest := by
    rw [h.env_eq, hin]; exact List.drop_left
  refine (Machine.runs_encEmit _ 511 second k u rest h.tableValid_eq (h.bbMode_eq.trans hm) h0
    (h.env_eq ▸ hs) h.holdsTree hrest hlen (fun v hv => (h.codable_iff v).mpr (hcode v hv))
    h.length_codeAt_le).mono ?_
  rw [State.bufBits, h.bufBytes_eq]
  exact encEmit_steps_le (length_serialize_codeTree_le _ _) (nodes_codeTree_le _ _)
    (hlen.trans_lt u.srcLen.isLt)

/-- The third phase up to the first byte that cannot be coded (R165, R171). -/
theorem runs_encEmit_stop {before after : List Byte} {v : Byte} (k : List Stmt)
    (hlen : before.length < s.srcLen.toNat) (hin : s.env.sIn = first ++ (before ++ v :: after))
    (hcode : ∀ w ∈ before, CanCode first s.sentinel s.collChk w)
    (hbad : ¬ CanCode first s.sentinel s.collChk v) :
    RunsIn (2 ^ 42 * (s.bufBytes + 8)) (u.withTodo (bodyEncEmit ++ k))
      ((taken (emitting (codeTree first s.sentinel) u before) 1).withTodo
        [.bbClose, .fail (emitError u v)]) := by
  rw [← h.srcLen_eq] at hlen
  have hrest : u.env.sIn = before ++ v :: after := by
    rw [h.env_eq, hin]; exact List.drop_left
  refine (Machine.runs_encEmit_stop _ 511 before v k u after h.tableValid_eq (h.bbMode_eq.trans hm) hlen
    (h.env_eq ▸ hs) h.holdsTree hrest (fun w hw => (h.codable_iff w).mpr (hcode w hw))
    (mt (h.codable_iff v).mp hbad) h.length_codeAt_le).mono ?_
  rw [h.bufBytes_eq]
  have := encEmit_steps_le (B := s.bufBytes) (length_serialize_codeTree_le first s.sentinel)
    (nodes_codeTree_le first s.sentinel) (hlen.trans u.srcLen.isLt)
  omega

end EncodeBuilt

/-! ### The endings -/

/-- A turn is longer than ENCODE's three phases and its ending (log 1). -/
theorem encode_steps_le (s : State) {l : Nat} (hl : l < 8 * s.bufBytes + 8) :
    2 * s.srcLen.toNat + 1209 + 2 ^ 42 * (s.bufBytes + 8) + (l + 5) ≤ runOn s := by
  have hb := runOn_mul s (2 ^ 43) (by norm_num)
  have hn := s.srcLen.isLt
  omega

theorem State.Quiet.sink {s : State} (h : s.Quiet) : s.env.sink = none := h.2.2

/-- ENCODE is its three bodies in turn (40_control.md R106); a run of them that comes to its end completes. -/
theorem exec_encode_of_completes {s t : State} {b : Nat} (hq : s.Quiet)
    (h : RunsIn b ((accepted s (encodeWord .encode)).withTodo
      (bodyEncCount ++ (bodyEncBuild ++ (bodyEncEmit ++ [.complete])))) (t.withTodo [.complete]))
    (hb : b + 2 ≤ runOn s) : exec .encode s = .next t.completeStep :=
  congrArg Host.Outcome.next (issue_completes (i := .encode)
    (body := bodyEncCount ++ bodyEncBuild ++ bodyEncEmit) rfl hq h hb)

/-- A run of ENCODE's bodies that raises an error fails. -/
theorem exec_encode_of_fails {s t : State} {b : Nat} {e : ErrCode} (hq : s.Quiet) (ht : t.env.sink = none)
    (h : RunsIn b ((accepted s (encodeWord .encode)).withTodo
      (bodyEncCount ++ (bodyEncBuild ++ (bodyEncEmit ++ [.complete])))) (t.withTodo [.bbClose, .fail e]))
    (hb : b + (t.bbBits.length + 5) ≤ runOn s) : exec .encode s = .next (raised t e) :=
  congrArg Host.Outcome.next (issue_fails (i := .encode)
    (body := bodyEncCount ++ bodyEncBuild ++ bodyEncEmit) rfl hq ht h hb)

section

variable {s : State} (hq : s.Quiet)

include hq

/-- ENCODE with SRC_LEN = 0 (R168, R171). -/
theorem exec_encode_empty (h : s.srcLen = 0#32) : exec .encode s
    = .next (raised (encCountStart (accepted s (encodeWord .encode))) .emptyInput) := by
  have hb := runOn_mul s 1 (by norm_num)
  refine exec_encode_of_fails hq hq.sink (runs_encCount_empty _ _ h) ?_
  show 3 + (s.bbBits.length + 5) ≤ _
  omega

/-- ENCODE with SRC_LEN above MAX_LEN (R168, R171). -/
theorem exec_encode_overflow (h : Config.maxLen.toNat < s.srcLen.toNat) : exec .encode s
    = .next (raised (encCountStart (accepted s (encodeWord .encode))) .countOverflow) := by
  have hb := runOn_mul s 1 (by norm_num)
  refine exec_encode_of_fails hq hq.sink (runs_encCount_overflow _ _ h) ?_
  show 4 + (s.bbBits.length + 5) ≤ _
  omega

/-- ENCODE over a first pass with a collision (R155, R168, R171). -/
theorem exec_encode_collision {before after : List Byte} (hlen : before.length < s.srcLen.toNat)
    (hmax : s.srcLen.toNat ≤ Config.maxLen.toNat) (hin : s.env.sIn = before ++ s.sentinel :: after)
    (hcoll : s.collChk = true) (hpre : s.sentinel ∉ before) : exec .encode s
    = .next (raised (tookOne (encCounting (accepted s (encodeWord .encode)) before) after)
        .sentinelCollision) := by
  have hb := runOn_mul s 1 (by norm_num)
  have hmaxLen : Config.maxLen.toNat = 4294967294 := rfl
  refine exec_encode_of_fails hq hq.sink
    (runs_encCount_collision before _ (accepted s (encodeWord .encode)) after hlen hmax hin hcoll hpre) ?_
  show 2 * s.srcLen.toNat + 9 + (s.bbBits.length + 5) ≤ _
  omega

variable {first : List Byte} (hm : s.bbMode = .closed) (hlen : first.length = s.srcLen.toNat)
  (hmax : s.srcLen.toNat ≤ Config.maxLen.toNat) (hok : s.collChk = true → s.sentinel ∉ first)

include hm hlen hmax hok

/-- ENCODE over two passes whose second can be coded sends the stream (R165 to R167, R171). -/
theorem exec_encode_stream {second more : List Byte} (h0 : 0 < s.srcLen.toNat)
    (hlen2 : second.length = s.srcLen.toNat) (hin : s.env.sIn = first ++ (second ++ more))
    (hcode : ∀ v ∈ second, CanCode first s.sentinel s.collChk v) :
    ∃ u, EncodeBuilt (accepted s (encodeWord .encode)) first u ∧ exec .encode s
      = .next (u.emitted (packBits (streamBits (codeTree first s.sentinel) second s.sentinel))
        second.length).completeStep := by
  obtain ⟨u, hu, hbuild⟩ := runs_encCount_encBuild first (bodyEncEmit ++ [.complete])
    (accepted s (encodeWord .encode)) (second ++ more) hlen h0 hmax hin hok
  have hemit := hu.runs_encEmit hm hq.sink [.complete] h0 hlen2 hin hcode
  exact ⟨u, hu, exec_encode_of_completes hq (hbuild.trans hemit)
    ((Nat.add_le_add_left (by norm_num) _).trans (encode_steps_le s (l := 0) (Nat.succ_pos _)))⟩

/-- ENCODE stops at the first byte of the second pass that cannot be coded (R165, R171,
60_exceptions.md R263). -/
theorem exec_encode_stops {before after : List Byte} {v : Byte} (hlen2 : before.length < s.srcLen.toNat)
    (hin : s.env.sIn = first ++ (before ++ v :: after))
    (hcode : ∀ u ∈ before, CanCode first s.sentinel s.collChk u)
    (hbad : ¬ CanCode first s.sentinel s.collChk v) :
    ∃ u, EncodeBuilt (accepted s (encodeWord .encode)) first u ∧ exec .encode s
      = .next ((u.emitted (packBits ((codeTree first s.sentinel).serialize
          ++ before.flatMap (codeTree first s.sentinel).code)) (before.length + 1)).failStep
        (if s.collChk = true ∧ v = s.sentinel then .sentinelCollision else .unknownSymbol)) := by
  obtain ⟨u, hu, hbuild⟩ := runs_encCount_encBuild first (bodyEncEmit ++ [.complete])
    (accepted s (encodeWord .encode)) (before ++ v :: after) hlen (by
      show 0 < s.srcLen.toNat; omega) hmax hin hok
  have hemit := hu.runs_encEmit_stop hm hq.sink [.complete] hlen2 hin hcode hbad
  have hexec := exec_encode_of_fails (e := emitError u v)
    (t := taken (emitting (codeTree first s.sentinel) u before) 1) hq
    ((emitting_sink _ _ _).trans (hu.env_eq ▸ hq.sink)) (hbuild.trans hemit)
    (encode_steps_le s (((emitting_bbBits _ u before).trans_eq
      (congrArg (8 * ·) hu.bufBytes_eq)).trans (Nat.lt_add_of_pos_right (by norm_num))))
  exact ⟨u, hu, hexec.trans (congrArg _ (hu.raised_stop before v))⟩

end

end Sys2Proof.Machine
end

section
/-!
PROOFS. What the host and the streams see of ENCODE is a function of SRC_LEN, SENTINEL, COLL_CHK and the
offered bytes alone (00_scope.md R6, 30_encoding.md R92, 42_encoder.md R172).
-/

namespace Sys2Proof.Machine

open Sys2Proof.Format (streamBits)

/-- What the host and the streams see at the end of ENCODE: ERR_CODE's two fields, the number of bytes
taken and the bytes sent. -/
structure EncodeReport where
  err : ErrCode
  op : Byte
  taken : Nat
  sent : List Byte

/-- ENCODE from `s` has ended in `t` with the report `r`. -/
def Reports (s t : State) (r : EncodeReport) : Prop :=
  t.busy = false ∧ t.errCode = r.err ∧ t.errOp = r.op ∧ t.inCount = BitVec.ofNat 32 r.taken ∧
    Sends r.sent s t

/-- The report of ENCODE with SRC_LEN = `n`, SENTINEL = `σ` and COLL_CHK = `coll` over the next `2 * n`
offered bytes, in the order in which R165, R168, R170 and R171 make their checks. -/
inductive EncodeOutcome (n : Nat) (σ : Byte) (coll : Bool) : List Byte → EncodeReport → Prop where
  /-- SRC_LEN = 0 -/
  | empty {offered : List Byte} (h : n = 0) :
      EncodeOutcome n σ coll offered ⟨.emptyInput, 0x10#8, 0, []⟩
  /-- SRC_LEN above MAX_LEN -/
  | overflow {offered : List Byte} (h : Config.maxLen.toNat < n) :
      EncodeOutcome n σ coll offered ⟨.countOverflow, 0x10#8, 0, []⟩
  /-- a collision in the first pass -/
  | collision {before after : List Byte} (hmax : n ≤ Config.maxLen.toNat) (hlen : before.length < n)
      (hcoll : coll = true) (hpre : σ ∉ before) :
      EncodeOutcome n σ coll (before ++ σ :: after) ⟨.sentinelCollision, 0x10#8, before.length + 1, []⟩
  /-- a byte of the second pass that cannot be coded -/
  | stop {first before after : List Byte} {v : Byte} (hmax : n ≤ Config.maxLen.toNat)
      (hlen : first.length = n) (hok : coll = true → σ ∉ first) (hlen2 : before.length < n)
      (hcode : ∀ u ∈ before, CanCode first σ coll u) (hbad : ¬ CanCode first σ coll v) :
      EncodeOutcome n σ coll (first ++ (before ++ v :: after))
        ⟨if coll = true ∧ v = σ then .sentinelCollision else .unknownSymbol, 0x12#8,
          first.length + (before.length + 1),
          packBits ((codeTree first σ).serialize ++ before.flatMap (codeTree first σ).code)⟩
  /-- the whole stream -/
  | stream {first second : List Byte} (h0 : 0 < n) (hmax : n ≤ Config.maxLen.toNat)
      (hlen : first.length = n) (hok : coll = true → σ ∉ first) (hlen2 : second.length = n)
      (hcode : ∀ v ∈ second, CanCode first σ coll v) :
      EncodeOutcome n σ coll (first ++ second)
        ⟨.none, 0x13#8, first.length + second.length,
          packBits (streamBits (codeTree first σ) second σ)⟩

/-! ### Every input has an outcome -/

/-- A list all of whose elements have a property, or its first element that has it not. -/
theorem forall_mem_or_first_not {α : Type} (P : α → Prop) (l : List α) :
    (∀ v ∈ l, P v) ∨ ∃ before v after, l = before ++ v :: after ∧ (∀ u ∈ before, P u) ∧ ¬ P v := by
  induction l with
  | nil => exact .inl (by simp)
  | cons a l ih =>
    by_cases ha : P a
    · rcases ih with h | ⟨before, v, after, rfl, hpre, hv⟩
      · exact .inl (List.forall_mem_cons.mpr ⟨ha, h⟩)
      · exact .inr ⟨a :: before, v, after, rfl, List.forall_mem_cons.mpr ⟨ha, hpre⟩, hv⟩
    · exact .inr ⟨[], a, l, rfl, by simp, ha⟩

theorem length_before_lt {α : Type} {l before after : List α} {v : α} (h : l = before ++ v :: after) :
    before.length < l.length := by
  rw [h, List.length_append, List.length_cons]; omega

/-- The two passes over a countable source have an outcome. -/
theorem encodeOutcome_passes {n : Nat} (σ : Byte) (coll : Bool) {first second : List Byte} (h0 : 0 < n)
    (hmax : n ≤ Config.maxLen.toNat) (hlen : first.length = n) (hlen2 : second.length = n) :
    ∃ r, EncodeOutcome n σ coll (first ++ second) r := by
  rcases forall_mem_or_first_not (fun v => ¬ (coll = true ∧ v = σ)) first with
    hok | ⟨before, v, after, hsplit, hpre, hv⟩
  · have hnot : coll = true → σ ∉ first := fun hc hm => hok σ hm ⟨hc, rfl⟩
    rcases forall_mem_or_first_not (CanCode first σ coll) second with
      hcode | ⟨before, v, after, hsplit, hcode, hbad⟩
    · exact ⟨_, .stream h0 hmax hlen hnot hlen2 hcode⟩
    · have hb := (length_before_lt hsplit).trans_eq hlen2
      exact hsplit ▸ ⟨_, .stop hmax hlen hnot hb hcode hbad⟩
  · obtain ⟨hc, rfl⟩ := not_not.mp hv
    have hb := (length_before_lt hsplit).trans_eq hlen
    rw [hsplit, List.append_assoc]
    exact ⟨_, .collision hmax hb hc fun hm => hpre v hm ⟨hc, rfl⟩⟩

/-- ENCODE has an outcome for every SRC_LEN and every two passes offered. -/
theorem exists_encodeOutcome {n : Nat} (σ : Byte) (coll : Bool) {offered : List Byte}
    (h : offered.length = 2 * n) : ∃ r, EncodeOutcome n σ coll offered r := by
  rcases Nat.eq_zero_or_pos n with h0 | h0
  · exact ⟨_, .empty h0⟩
  · rcases Nat.lt_or_ge Config.maxLen.toNat n with hmax | hmax
    · exact ⟨_, .overflow hmax⟩
    · rw [← List.take_append_drop n offered]
      exact encodeOutcome_passes σ coll h0 hmax (by rw [List.length_take]; omega)
        (by rw [List.length_drop]; omega)

/-! ### A quiet machine ends with the outcome -/

/-- An error completion with a closed buffer reports no byte sent (60_exceptions.md R261). -/
theorem reports_raised {s u : State} {e : ErrCode} {n : Nat} (he : e ≠ .illegalCmd) (hm : u.bbMode = .closed)
    (hin : u.inCount = BitVec.ofNat 32 n) (hsent : Sends [] s u) :
    Reports s (raised u e) ⟨e, u.phase, n, []⟩ := by
  obtain ⟨hout, hcount⟩ := hsent
  have hrel : releaseBytes u = [] := by rw [releaseBytes, hm]; rfl
  rw [raised_eq, hrel]
  exact ⟨rfl, rfl, if_neg he, hin, by simpa [State.failedWith] using hout,
    by simpa [State.failedWith] using hcount⟩

/-- The state at the start of ENCODE has counted nothing, and its streams are those of `s` (R100). -/
theorem sends_nil_accepted (s : State) (w : Word) : Sends [] s (accepted s w) :=
  ⟨(List.append_nil _).symm, rfl⟩

/-- The counters and the bytes sent when the third phase has sent `o` and taken `m` bytes (R170). -/
theorem EncodeBuilt.emitted_streams {s u : State} {w : Word} {first : List Byte}
    (h : EncodeBuilt (accepted s w) first u) (o : List Byte) (m : Nat) :
    (u.emitted o m).inCount = BitVec.ofNat 32 (first.length + m) ∧ Sends o s (u.emitted o m) := by
  refine ⟨?_, ?_, ?_⟩
  · show u.inCount + BitVec.ofNat 32 m = _
    rw [h.inCount_eq, BitVec.ofNat_add]
    exact congrArg (· + _) (BitVec.zero_add _)
  · show u.env.sOut ++ o = _
    rw [h.env_eq]
    rfl
  · show u.outCount + BitVec.ofNat 32 o.length = _
    rw [h.outCount_eq]
    exact BitVec.zero_add _

/-- A quiet machine with a closed buffer ends ENCODE with the outcome of its registers and of the bytes it
is offered, whatever its BUF_BITS, memories and flags. -/
theorem exec_encode_reports {s : State} (hq : s.Quiet) (hm : s.bbMode = .closed)
    {offered more : List Byte} (hin : s.env.sIn = offered ++ more) {r : EncodeReport}
    (h : EncodeOutcome s.srcLen.toNat s.sentinel s.collChk offered r) :
    ∃ t, exec .encode s = .next t ∧ Reports s t r := by
  have hstart := sends_nil_accepted s (encodeWord .encode)
  cases h with
  | empty h0 =>
    exact ⟨_, exec_encode_empty hq (BitVec.eq_of_toNat_eq h0),
      reports_raised (by decide) hm rfl hstart⟩
  | overflow hmax =>
    exact ⟨_, exec_encode_overflow hq hmax, reports_raised (by decide) hm rfl hstart⟩
  | @collision before after hmax hlen hcoll hpre =>
    rw [List.append_assoc, List.cons_append] at hin
    refine ⟨_, exec_encode_collision hq hlen hmax hin hcoll hpre, reports_raised (by decide) hm ?_ hstart⟩
    rw [BitVec.ofNat_add, ← BitVec.zero_add (BitVec.ofNat 32 before.length)]
    rfl
  | @stop first before after v hmax hlen hok hlen2 hcode hbad =>
    rw [List.append_assoc, List.append_assoc, List.cons_append] at hin
    obtain ⟨u, hu, hexec⟩ := exec_encode_stops hq hm hlen hmax hok hlen2 hin hcode hbad
    obtain ⟨htaken, hsent⟩ := hu.emitted_streams (packBits
      ((codeTree first s.sentinel).serialize
        ++ before.flatMap (codeTree first s.sentinel).code)) (before.length + 1)
    exact ⟨_, hexec, rfl, rfl, if_neg (by split <;> decide), htaken, hsent⟩
  | @stream first second h0 hmax hlen hok hlen2 hcode =>
    rw [List.append_assoc] at hin
    obtain ⟨u, hu, hexec⟩ := exec_encode_stream hq hm hlen hmax hok h0 hlen2 hin hcode
    obtain ⟨htaken, hsent⟩ := hu.emitted_streams
      (packBits (streamBits (codeTree first s.sentinel) second s.sentinel)) second.length
    exact ⟨_, hexec, rfl, rfl, (congrArg opField hu.cmdw_eq).trans (Laws.WordFields.encode).1, htaken, hsent⟩

/-- Settles O35: the machines agree on the registers and the bytes of which the outcome of ENCODE is a
function, so both end with the one report that outcome has. -/
theorem encodeDependsOnInputAlone : Obligations.EncodeDependsOnInputAlone := by
  unfold Obligations.EncodeDependsOnInputAlone
  intro s s' hq hq' hm hm' hlen hsent hcoll hoff hoff' hbytes
  obtain ⟨r, hr⟩ := exists_encodeOutcome s.sentinel s.collChk
    (show (nextBytes s (2 * s.srcLen.toNat)).length = 2 * s.srcLen.toNat from List.length_take_of_le hoff)
  obtain ⟨t, hexec, hbusy, herr, hop, htaken, hout, hcount⟩ := exec_encode_reports hq hm
    (List.take_append_drop _ s.env.sIn).symm hr
  rw [hbytes, hlen, hsent, hcoll] at hr
  obtain ⟨t', hexec', hbusy', herr', hop', htaken', hout', hcount'⟩ := exec_encode_reports hq' hm'
    (List.take_append_drop _ s'.env.sIn).symm hr
  exact ⟨t, t', r.sent, hexec, hexec', hout, hout', herr.trans herr'.symm, hop.trans hop'.symm,
    htaken.trans htaken'.symm, hcount.trans hcount'.symm, hbusy, hbusy'⟩

end Sys2Proof.Machine
end

section
/-!
PROOFS. The register port (10_state.md R22 to R38, R49): what a write does in a turn in which the core
takes no step, what each word reads, and the code window; and the flags' promise after reset (R47).
-/

namespace Sys2Proof.Machine

/-! ### A write in a turn without a core step -/

/-- A turn in which the core takes no step only uses up a schedule entry. -/
theorem coreTurn_paused {s : State} (h : Paused s) : coreTurn s = popSched s := by
  obtain hidle | ⟨q, hq⟩ := h
  · have hstep : coreStep s = none := coreStep_idle hidle
    have hstop : coreStep (popSched s) = none := coreStep_idle hidle
    simp [coreTurn, coreMoves, hstep, runCore_stopped hstop]
  · simp [coreTurn, coreMoves, quota, hq, runCore]

/-- A register write, a reset by CTRL.SRST among them, starts no command and leaves the schedule. -/
theorem paused_writeWord {s : State} (h : Paused s) (n : Nat) (v : Word) : Paused (writeWord n v s) := by
  unfold writeWord
  split
  · unfold writeCtrl
    split
    · exact .inl rfl
    · exact h
  · exact h
  · unfold writeCfg
    split <;> exact h
  · unfold writeSrcLen
    split <;> exact h
  · exact h
  · exact h

/-- The step of a host write that is not a CMD write, while the core takes no step. -/
theorem step_write_paused {s t : State} {off : Offset} {v : Word} {rest : List Event} {n : BitVec 10}
    (hn : off.extractLsb' 2 10 = n) (h : Paused s) (hev : s.env.events = .write off v :: rest)
    (hcmd : n ≠ 2#10) (ht : writeWord n.toNat v { s with env := { s.env with events := rest } } = t) :
    step s = .next (popSched (tick t)) := by
  have hidx : wordIndex off = n.toNat := congrArg BitVec.toNat hn
  have hne : n.toNat ≠ 2 := fun h2 => hcmd (BitVec.eq_of_toNat_eq h2)
  have hp : Paused { s with env := { s.env with events := rest } } := h
  have hturn : coreTurn (tick t) = popSched (tick t) := coreTurn_paused (ht ▸ paused_writeWord hp n.toNat v)
  simp only [step, hev, perform, hidx, hne, if_false, ht, hturn]

theorem writeCtrl_no_reset (s : State) {v : Word} (h : v.getLsbD 0 = false) :
    writeCtrl v s = { s with irqEn := v.getLsbD 1 } := if_neg (h ▸ Bool.false_ne_true)

theorem writeCfg_eq (v : Word) (s : State) : writeCfg v s = { s with
    sentinel := if s.busy then s.sentinel else v.extractLsb' 0 8
    collChk := if s.busy then s.collChk else v.getLsbD 8 } := by
  unfold writeCfg
  cases s.busy <;> rfl

theorem writeSrcLen_eq (v : Word) (s : State) :
    writeSrcLen v s = { s with srcLen := if s.busy then s.srcLen else v } := by
  unfold writeSrcLen
  cases s.busy <;> rfl

/-- A write to a read-only or unmapped word has no effect (R22, R38). -/
theorem writeWord_other {n : Nat} (h : n ∉ [1, 3, 5, 6, 10]) (v : Word) (s : State) :
    writeWord n v s = s := by
  simp only [List.mem_cons, List.not_mem_nil, or_false, not_or] at h
  obtain ⟨h1, h3, h5, h6, h10⟩ := h
  unfold writeWord
  split
  · contradiction
  · contradiction
  · contradiction
  · contradiction
  · contradiction
  · rfl

/-- Settles O50: the write's own step is the whole turn. -/
theorem statusWriteClears : Obligations.StatusWriteClears := by
  unfold Obligations.StatusWriteClears
  intro s off v rest hp hev hoff
  exact step_write_paused hoff hp hev (by decide) rfl

/-- Settles O51: with SRST = 0 the write sets IRQ_EN, of which IRQ is computed. -/
theorem ctrlWriteSetsIrq : Obligations.CtrlWriteSetsIrq := by
  unfold Obligations.CtrlWriteSetsIrq
  intro s off v rest hp hev hoff hsrst
  exact ⟨_, step_write_paused hoff hp hev (by decide) (writeCtrl_no_reset _ hsrst), rfl, rfl⟩

/-- Settles O52: both writes test BUSY, which the port's own bookkeeping does not change. -/
theorem configurationIsStable : Obligations.ConfigurationIsStable := by
  unfold Obligations.ConfigurationIsStable
  intro s off v rest hp hev
  constructor
  · intro hoff
    exact step_write_paused hoff hp hev (by decide) (writeCfg_eq v _)
  · intro hoff
    exact step_write_paused hoff hp hev (by decide) (writeSrcLen_eq v _)

/-- Settles O53: TBL_IDX takes the write, every other word named by none of the writable numbers ignores it. -/
theorem otherWrites : Obligations.OtherWrites := by
  unfold Obligations.OtherWrites
  intro s off v rest hp hev
  constructor
  · intro hoff
    exact step_write_paused hoff hp hev (by decide) rfl
  · intro hoff
    have hcmd : off.extractLsb' 2 10 ≠ 2#10 := fun h2 => hoff (by simp [h2])
    refine step_write_paused rfl hp hev hcmd (writeWord_other (fun hmem => hoff ?_) v _)
    generalize off.extractLsb' 2 10 = n at hmem ⊢
    simp only [List.mem_cons, List.not_mem_nil, or_false, ← BitVec.toNat_inj, BitVec.toNat_ofNat] at hmem ⊢
    omega

/-! ### What each register reads -/

theorem readReg_of_word {off : Offset} {n : BitVec 10} (h : off.extractLsb' 2 10 = n) (s : State) :
    readReg s off = readWord s n.toNat := congrArg (fun w : BitVec 10 => readWord s w.toNat) h

/-- The words above CODE_LEN, NODE_COUNT apart, are the code window or unmapped (R36, R38). -/
theorem readWord_window (s : State) {n : Nat} (h : 13 ≤ n) (h21 : n ≠ 21) : readWord s n =
    if n ≤ 20 then
      if !s.busy && s.tableValid then codeWindow (s.codeAt s.tblIdx) (n - 13) else freeWord s n
    else 0#32 := by
  unfold readWord
  split
  case h_15 => simp only [h, true_and]
  all_goals omega

theorem readWord_result (s : State) (h : s.busy = false) : readWord s 9 = if s.result then 1#32 else 0#32 := by
  have hread : readWord s 9 = (BitVec.ofBool s.result).setWidth 32 := if_neg (h ▸ Bool.false_ne_true)
  rw [hread]
  cases s.result <;> rfl

theorem ctrlWord_eq (s : State) : s.ctrlWord = if s.irqEn then 2#32 else 0#32 := by
  unfold State.ctrlWord
  cases s.irqEn <;> rfl

theorem err_eq (s : State) : s.err = decide (s.errCode ≠ .none) := by
  unfold State.err
  cases s.errCode <;> rfl

/-- The fields of a word of three parts. -/
theorem extract_append_append {a b c : Nat} (x : BitVec a) (y : BitVec b) (z : BitVec c) :
    (x ++ (y ++ z)).extractLsb' 0 c = z ∧ (x ++ (y ++ z)).extractLsb' c b = y ∧
      (x ++ (y ++ z)).extractLsb' (b + c) a = x := by
  refine ⟨?_, ?_, BitVec.extractLsb'_append_eq_left⟩
  · rw [BitVec.extractLsb'_append_eq_of_add_le (by omega), BitVec.extractLsb'_append_eq_right]
  · rw [BitVec.extractLsb'_append_eq_of_add_le (by omega), BitVec.extractLsb'_append_eq_left]

/-- A bit of a word is a bit of the field it lies in. -/
theorem getLsbD_of_extract {w a n i : Nat} {x : BitVec w} {y : BitVec n} (h : x.extractLsb' a n = y)
    (hi : i < n) : x.getLsbD (a + i) = y.getLsbD i := by
  rw [← h, BitVec.getLsbD_extractLsb', decide_eq_true hi, Bool.true_and]

theorem statusLow_bits (s : State) :
    s.statusLow.getLsbD 0 = s.busy ∧ s.statusLow.getLsbD 1 = s.done ∧ s.statusLow.getLsbD 2 = s.err ∧
      s.statusLow.getLsbD 3 = s.dropped := by
  unfold State.statusLow
  generalize s.busy = busy, s.done = done, s.err = err, s.dropped = dropped
  revert busy done err dropped
  decide

theorem statusHigh_bits (s : State) :
    s.statusHigh.extractLsb' 0 2 = s.bbMode.bits ∧ s.statusHigh.getLsbD 2 = s.freqValid ∧
      s.statusHigh.getLsbD 3 = s.treeValid ∧ s.statusHigh.getLsbD 4 = s.tableValid ∧
      s.statusHigh.getLsbD 5 = s.degenerate := by
  unfold State.statusHigh
  generalize s.bbMode.bits = mode, s.freqValid = freq, s.treeValid = tree, s.tableValid = table,
    s.degenerate = deg
  revert mode freq tree table deg
  decide

theorem statusWord_fields (s : State) :
    (statusWord s).extractLsb' 0 4 = s.statusLow ∧
      (s.busy = false → (statusWord s).extractLsb' 4 6 = s.statusHigh) ∧
      (statusWord s).extractLsb' 10 22 = 0#22 := by
  obtain ⟨hlow, hhigh, hzero⟩ := extract_append_append 0#22
    (if s.busy then (freeWord s 3).extractLsb' 4 6 else s.statusHigh) s.statusLow
  exact ⟨hlow, fun hb => hhigh.trans (if_neg (hb ▸ Bool.false_ne_true)), hzero⟩

/-- STATUS at all times (R26). -/
theorem statusWord_low (s : State) :
    (statusWord s).getLsbD 0 = s.busy ∧ (statusWord s).getLsbD 1 = s.done ∧
      (statusWord s).getLsbD 2 = decide (s.errCode ≠ .none) ∧ (statusWord s).getLsbD 3 = s.dropped := by
  obtain ⟨hlow, -, -⟩ := statusWord_fields s
  obtain ⟨hbusy, hdone, herr, hdropped⟩ := statusLow_bits s
  have hbit {i : Nat} (hi : i < 4) : (statusWord s).getLsbD i = s.statusLow.getLsbD i := by
    simpa using getLsbD_of_extract hlow hi
  exact ⟨(hbit (by decide)).trans hbusy, (hbit (by decide)).trans hdone,
    (hbit (by decide)).trans (herr.trans (err_eq s)), (hbit (by decide)).trans hdropped⟩

/-- STATUS[9:4] while BUSY = 0 (R26). -/
theorem statusWord_high (s : State) (h : s.busy = false) :
    (statusWord s).extractLsb' 4 2 = s.bbMode.bits ∧ (statusWord s).getLsbD 6 = s.freqValid ∧
      (statusWord s).getLsbD 7 = s.treeValid ∧ (statusWord s).getLsbD 8 = s.tableValid ∧
      (statusWord s).getLsbD 9 = s.degenerate := by
  obtain ⟨-, hhigh, -⟩ := statusWord_fields s
  obtain ⟨hmode, hfreq, htree, htable, hdeg⟩ := statusHigh_bits s
  have hbit {i : Nat} (hi : i < 6) : (statusWord s).getLsbD (4 + i) = s.statusHigh.getLsbD i :=
    getLsbD_of_extract (hhigh h) hi
  refine ⟨?_, (hbit (by decide)).trans hfreq, (hbit (by decide)).trans htree,
    (hbit (by decide)).trans htable, (hbit (by decide)).trans hdeg⟩
  rw [← hmode]
  ext j hj
  simpa [BitVec.getElem_extractLsb'] using hbit (show j < 6 by omega)

theorem errWord_fields (s : State) :
    s.errWord.extractLsb' 0 4 = s.errCode.number ∧ s.errWord.extractLsb' 4 4 = 0#4 ∧
      s.errWord.extractLsb' 8 8 = s.errOp ∧ s.errWord.extractLsb' 16 16 = 0#16 := by
  obtain ⟨-, hop, hzero⟩ := extract_append_append 0#16 s.errOp (0#4 ++ s.errCode.number)
  have hlow (a n : Nat) (h : a + n ≤ 8) :
      s.errWord.extractLsb' a n = (0#4 ++ s.errCode.number).extractLsb' a n :=
    (BitVec.extractLsb'_append_eq_of_add_le (by omega)).trans (BitVec.extractLsb'_append_eq_of_add_le h)
  exact ⟨(hlow 0 4 (by decide)).trans BitVec.extractLsb'_append_eq_right,
    (hlow 4 4 (by decide)).trans BitVec.extractLsb'_append_eq_left, hop, hzero⟩

theorem cfgWord_fields (s : State) :
    s.cfgWord.extractLsb' 0 8 = s.sentinel ∧ s.cfgWord.getLsbD 8 = s.collChk ∧
      s.cfgWord.extractLsb' 9 23 = 0#23 := by
  obtain ⟨hsent, hcoll, hzero⟩ := extract_append_append 0#23 (BitVec.ofBool s.collChk) s.sentinel
  refine ⟨hsent, ?_, hzero⟩
  have hbit : s.cfgWord.getLsbD (8 + 0) = (BitVec.ofBool s.collChk).getLsbD 0 :=
    getLsbD_of_extract hcoll Nat.one_pos
  simpa using hbit

/-- Settles O54: each word number selects its branch of `readWord`, and the packed words have the fields of
the lemmas above. -/
theorem registerReads : Obligations.RegisterReads := by
  unfold Obligations.RegisterReads
  intro s off
  refine ⟨?_, ?_, ?_, ?_, ?_, ?_, ?_, ?_, ?_, ?_, ?_, ?_, ?_, ?_, ?_⟩ <;> intro hoff
  case refine_15 =>
    rw [readReg_of_word rfl, readWord_window s (by omega) (by omega), if_neg (by omega)]
  all_goals rw [readReg_of_word hoff]
  · rfl
  · exact ctrlWord_eq s
  · rfl
  · obtain ⟨hbusy, hdone, herr, hdropped⟩ := statusWord_low s
    obtain ⟨-, -, hzero⟩ := statusWord_fields s
    refine ⟨hbusy, hdone, herr, hdropped, hzero, fun hb => ?_⟩
    obtain ⟨hmode, hflags⟩ := statusWord_high s hb
    exact ⟨hmode.trans (by cases s.bbMode <;> rfl), hflags⟩
  · exact errWord_fields s
  · exact cfgWord_fields s
  · rfl
  · rfl
  · rfl
  · exact readWord_result s
  · rfl
  · intro hb hv
    exact if_pos (by simp [hb, hv])
  · intro hb hv hlen
    have hread : readWord s 12 = BitVec.ofNat 32 (s.ct[s.tblIdx.toNat].length % 256) :=
      if_pos (by simp [hb, hv])
    show (readWord s 12).toNat = _
    rw [hread, BitVec.toNat_ofNat, Nat.mod_eq_of_lt (by omega : _ < 256), Nat.mod_eq_of_lt (by omega)]
  · intro hb hv
    exact if_pos (by simp [hb, hv])

/-! ### The code window -/

/-- The bits of a sum of bit values are those bits. -/
theorem testBit_sum_bits (f : Nat → Bool) (n j : Nat) :
    (((List.range n).map fun i => (f i).toNat * 2 ^ i).sum).testBit j = (decide (j < n) && f j) := by
  have hlt (n : Nat) : ((List.range n).map fun i => (f i).toNat * 2 ^ i).sum < 2 ^ n := by
    induction n with
    | zero => simp
    | succ n ih =>
      have := Nat.mul_le_mul_right (2 ^ n) (Bool.toNat_le (f n))
      simp only [List.range_succ, List.map_append, List.sum_append, List.map_singleton, List.sum_singleton]
      omega
  induction n with
  | zero => simp
  | succ n ih =>
    rw [List.range_succ, List.map_append, List.sum_append, List.map_singleton, List.sum_singleton,
      Nat.add_comm, Nat.mul_comm, Nat.testBit_two_pow_mul_add _ (hlt n), ih]
    obtain hj | rfl | hj := Nat.lt_trichotomy j n
    · simp [hj, Nat.lt_succ_of_lt hj]
    · cases f j <;> simp
    · have hbit : (f n).toNat < 2 ^ (j - n) :=
        (Bool.toNat_lt (f n)).trans_le (Nat.le_self_pow (by omega) 2)
      rw [if_neg (by omega), Nat.testBit_lt_two_pow hbit, decide_eq_false (by omega), Bool.false_and]

/-- Bit `j` of word `k` of the code window is code bit `32k + j` (R36). -/
theorem codeWindow_getLsbD (code : List Bool) (k : Nat) {j : Nat} (hj : j < 32) :
    (codeWindow code k).getLsbD j = code.getD (32 * k + j) false := by
  have h := testBit_sum_bits (fun i => code.getD (32 * k + i) false) 32 j
  simp only [codeWindow, BitVec.getLsbD_ofNat, bitValue]
  rw [h]
  simp [hj]

/-- Settles O55: the word is the window's, whose bits are the code's. -/
theorem codeWindowBits : Obligations.CodeWindowBits := by
  unfold Obligations.CodeWindowBits
  intro s off k j hb hv hk hj hoff
  have hread : readReg s off = codeWindow (s.codeAt s.tblIdx) k := by
    rw [readReg_of_word rfl, hoff, readWord_window s (by omega) (by omega), if_pos (by omega),
      if_pos (by simp [hb, hv]), Nat.add_sub_cancel_left]
  rw [hread]
  exact codeWindow_getLsbD _ k hj

/-- Settles O47: no flag is set after reset, so nothing is promised. -/
theorem promiseAtReset : Obligations.PromiseAtReset := by
  unfold Obligations.PromiseAtReset
  exact ⟨nofun, nofun, nofun⟩

end Sys2Proof.Machine
end

section
/-!
PROOFS. The invariant of the channel and of completion (`State.Inv`): what an update must show to keep it,
one lemma per statement that writes the bit buffer or ends a command, and every step of the machine.
-/

namespace Sys2Proof.Machine

/-! ### The invariant taken apart -/

/-- The part of `State.Inv` that speaks of the bit buffer alone (10_state.md R39). -/
structure BufferFits (s : State) : Prop where
  closedEmpty : s.bbMode = .closed → s.bbBits = [] ∧ s.bbRemain = 0#32
  writeNoRemain : s.bbMode = .write → s.bbRemain = 0#32
  bitsFit : s.bbBits.length ≤ s.bufBits

/-- The completion fields read 0, as they do while BUSY = 1 (10_state.md R27, 40_control.md R100). -/
def Cleared (s : State) : Prop := s.done = false ∧ s.errCode = .none ∧ s.errOp = 0#8

/-- There is no full write buffer, which would have to be sent first (R122, R123). -/
def NotFull (s : State) : Prop := s.bbMode = .write → s.bbBits.length ≠ s.bufBits

theorem bufBits_pos (s : State) : 0 < s.bufBits := by
  simp [State.bufBits, State.bufBytes]

theorem SameBuffer.bufBits_eq {s t : State} (h : SameBuffer s t) : t.bufBits = s.bufBits := by
  obtain ⟨-, -, -, -, -, -, hextra⟩ := h
  simp [State.bufBits, State.bufBytes, hextra]

theorem BufferFits.of_same {s t : State} (h : BufferFits s) (hst : SameBuffer s t) : BufferFits t := by
  have hbuf := hst.bufBits_eq
  obtain ⟨hmode, hbits, hremain, -, -, -, -⟩ := hst
  refine ⟨?_, ?_, ?_⟩
  · rw [hmode, hbits, hremain]; exact h.closedEmpty
  · rw [hmode, hremain]; exact h.writeNoRemain
  · rw [hbits, hbuf]; exact h.bitsFit

theorem Cleared.of_same {s t : State} (h : Cleared s) (hst : SameBuffer s t) : Cleared t := by
  obtain ⟨-, -, -, hdone, hcode, hop, -⟩ := hst
  unfold Cleared
  rw [hdone, hcode, hop]
  exact h

theorem NotFull.of_same {s t : State} (h : NotFull s) (hst : SameBuffer s t) : NotFull t := by
  have hbuf := hst.bufBits_eq
  obtain ⟨hmode, hbits, -⟩ := hst
  unfold NotFull
  rw [hmode, hbits, hbuf]
  exact h

theorem notFull_of_nil {s : State} (h : s.bbBits = []) : NotFull s := fun _ hfull => by
  have := bufBits_pos s
  simp [h] at hfull
  omega

theorem notFull_of_mode {s : State} (h : s.bbMode ≠ .write) : NotFull s := fun hw => absurd hw h

/-- The invariant does not see what is neither the buffer, nor a completion field, nor a statement to run. -/
theorem State.Inv.of_same {s t : State} (h : s.Inv) (hst : SameBuffer s t) (htodo : t.todo = s.todo) :
    t.Inv := by
  have hbuf := hst.bufBits_eq
  obtain ⟨hmode, hbits, hremain, hdone, hcode, hop, -⟩ := hst
  have hbusy : t.busy = s.busy := congrArg (fun l => !List.isEmpty l) htodo
  constructor <;> simp only [hbusy, hmode, hbits, hremain, hdone, hcode, hop, htodo, hbuf]
  · exact h.busyClear
  · exact h.closedEmpty
  · exact h.writeNoRemain
  · exact h.bitsFit
  · exact h.fetchFits
  · exact h.fetchFirst
  · exact h.fullIsSent
  · exact h.failReleases
  · exact h.errorClosed

/-! ### How the invariant is established -/

/-- An idle block keeps the invariant if its buffer does, and is CLOSED after an error (R264). -/
theorem inv_of_idle {t : State} (htodo : t.todo = []) (hb : BufferFits t) (hf : NotFull t)
    (he : t.errCode ≠ .none → t.bbMode = .closed) : t.Inv where
  busyClear hbusy := by simp [State.busy, htodo] at hbusy
  closedEmpty := hb.closedEmpty
  writeNoRemain := hb.writeNoRemain
  bitsFit := hb.bitsFit
  fetchFits := by simp [htodo]
  fetchFirst := by simp [htodo]
  fullIsSent hw hfull := absurd hfull (hf hw)
  failReleases := by simp [htodo]
  errorClosed := he

/-- A running command with no error in progress. -/
theorem inv_of_no_error {t : State} (hb : BufferFits t) (hc : Cleared t)
    (hfetch : ∀ n, .fetch n ∈ t.todo → t.bbMode = .read ∧ t.bbBits.length + 8 * n ≤ t.bufBits)
    (hfirst : ∀ st ∈ t.todo.tail, st.isFetch = false)
    (hfull : t.bbMode = .write → t.bbBits.length = t.bufBits →
      ∃ (l : List Byte) (k : List Stmt), t.todo = l.map Stmt.outByte ++ .clearBits :: k)
    (hno : ∀ e, .fail e ∉ t.todo) : t.Inv where
  busyClear _ := hc
  closedEmpty := hb.closedEmpty
  writeNoRemain := hb.writeNoRemain
  bitsFit := hb.bitsFit
  fetchFits := hfetch
  fetchFirst := hfirst
  fullIsSent := hfull
  failReleases e he := absurd he (hno e)
  errorClosed he := absurd hc.2.1 he

/-- A running command with no refill and no error in progress; a full write buffer is being sent. -/
theorem inv_of_sending {t : State} (hb : BufferFits t) (hc : Cleared t)
    (hfull : t.bbMode = .write → t.bbBits.length = t.bufBits →
      ∃ (l : List Byte) (k : List Stmt), t.todo = l.map Stmt.outByte ++ .clearBits :: k)
    (hplain : ∀ st ∈ t.todo, Plain st) : t.Inv :=
  inv_of_no_error hb hc (fun _ hn => by simpa [Stmt.isFetch] using (hplain _ hn).1)
    (fun st hst => (hplain st (List.mem_of_mem_tail hst)).1) hfull (fun e he => (hplain _ he).2 e rfl)

theorem inv_of_plain {t : State} (hb : BufferFits t) (hc : Cleared t) (hf : NotFull t)
    (hplain : ∀ st ∈ t.todo, Plain st) : t.Inv :=
  inv_of_sending hb hc (fun hw hfull => absurd hfull (hf hw)) hplain

/-- A refill that fits into the buffer of a read session (R125). -/
theorem inv_of_fetch {t : State} {n : Nat} {k : List Stmt} (hb : BufferFits t) (hc : Cleared t)
    (htodo : t.todo = .fetch n :: k) (hread : t.bbMode = .read)
    (hfit : t.bbBits.length + 8 * n ≤ t.bufBits) (hplain : ∀ st ∈ k, Plain st) : t.Inv := by
  refine inv_of_no_error hb hc ?_ ?_ (fun hw => by simp [hread] at hw) ?_ <;> rw [htodo]
  · intro m hm
    obtain hm | hm := List.mem_cons.mp hm
    · cases hm
      exact ⟨hread, hfit⟩
    · simpa [Stmt.isFetch] using (hplain _ hm).1
  · exact fun st hst => (hplain st hst).1
  · intro e he
    obtain he | he := List.mem_cons.mp he
    · cases he
    · exact (hplain _ he).2 e rfl

/-- A running command with an error in progress (R261). -/
theorem inv_of_release {t : State} {e : ErrCode} (hb : BufferFits t) (hc : Cleared t) (hf : NotFull t)
    (htodo : t.todo = [.bbClose, .fail e] ∨
      (∃ l : List Byte, t.todo = l.map Stmt.outByte ++ [.bbShut, .fail e]) ∨
      (t.todo = [.fail e] ∧ t.bbMode = .closed)) : t.Inv := by
  have hfetch : ∀ st ∈ t.todo, st.isFetch = false := by
    obtain h | ⟨l, h⟩ | ⟨h, -⟩ := htodo <;> rw [h] <;> simp [or_imp, forall_and, Stmt.isFetch]
  have hfail : ∀ e', .fail e' ∈ t.todo → e' = e := by
    obtain h | ⟨l, h⟩ | ⟨h, -⟩ := htodo <;> simp [h]
  exact {
    busyClear := fun _ => hc
    closedEmpty := hb.closedEmpty
    writeNoRemain := hb.writeNoRemain
    bitsFit := hb.bitsFit
    fetchFits := fun n hn => by simpa [Stmt.isFetch] using hfetch _ hn
    fetchFirst := fun st hst => hfetch st (List.mem_of_mem_tail hst)
    fullIsSent := fun hw hfull => absurd hfull (hf hw)
    failReleases := fun e' he' => by rw [hfail e' he']; exact htodo
    errorClosed := fun he => absurd hc.2.1 he }

/-- A command that goes on with plain statements, or raises an error. -/
theorem inv_of_continues {s t : State} (hb : BufferFits t) (hc : Cleared t) (hf : NotFull t)
    (hplain : ∀ st ∈ s.todo, Plain st) (hst : Continues s t) : t.Inv := by
  obtain ⟨l, htodo, hl⟩ | ⟨e, htodo⟩ := hst
  · refine inv_of_plain hb hc hf fun st hst => ?_
    rw [htodo] at hst
    exact (List.mem_append.mp hst).elim (hl st) (hplain st)
  · exact inv_of_release hb hc hf (.inl htodo)

/-! ### What the invariant says of a running command -/

section

variable {s t : State} {st : Stmt} {k : List Stmt} (h : s.Inv) (hs : s.todo = st :: k)
include h

theorem State.Inv.bufferFits : BufferFits s := ⟨h.closedEmpty, h.writeNoRemain, h.bitsFit⟩

/-- The buffer does not see which statements are still to run. -/
theorem State.Inv.bufferFits_withTodo (k : List Stmt) : BufferFits (s.withTodo k) :=
  ⟨h.closedEmpty, h.writeNoRemain, h.bitsFit⟩

theorem State.Inv.notFull_of_idle (hidle : s.todo = []) : NotFull s := fun hw hfull => by
  obtain ⟨l, k, htodo⟩ := h.fullIsSent hw hfull
  simp [hidle] at htodo

include hs

theorem State.Inv.cleared : Cleared s := h.busyClear (by simp [State.busy, hs])

theorem State.Inv.rest_not_fetch : ∀ x ∈ k, x.isFetch = false := by
  have := h.fetchFirst
  rwa [hs] at this

/-- Only the statements that send a full buffer run while it is full (R122). -/
theorem State.Inv.notFull (hout : ∀ v, st ≠ .outByte v) (hclear : st ≠ .clearBits) : NotFull s :=
  fun hw hfull => by
    obtain ⟨l, k', htodo⟩ := h.fullIsSent hw hfull
    rw [hs] at htodo
    cases l with
    | nil => exact hclear (List.cons.inj htodo).1
    | cons v l => exact hout v (List.cons.inj htodo).1

/-- Where the statement that ends a raised error is still to run, the first statement releases the buffer
(R261). -/
theorem State.Inv.releasing {e : ErrCode} (he : .fail e ∈ k) :
    (st = .bbClose ∧ k = [.fail e]) ∨
      (∃ v, st = .outByte v ∧ ∃ l : List Byte, k = l.map Stmt.outByte ++ [.bbShut, .fail e]) ∨
      (st = .bbShut ∧ k = [.fail e]) := by
  have hmem : .fail e ∈ s.todo := by rw [hs]; exact List.mem_cons_of_mem _ he
  obtain htodo | ⟨l, htodo⟩ | ⟨htodo, -⟩ := h.failReleases e hmem <;> rw [hs] at htodo
  · obtain ⟨rfl, rfl⟩ := List.cons.inj htodo
    exact .inl ⟨rfl, rfl⟩
  · cases l with
    | nil =>
      obtain ⟨rfl, rfl⟩ := List.cons.inj htodo
      exact .inr (.inr ⟨rfl, rfl⟩)
    | cons v l =>
      obtain ⟨rfl, rfl⟩ := List.cons.inj htodo
      exact .inr (.inl ⟨v, rfl, l, rfl⟩)
  · obtain ⟨rfl, rfl⟩ := List.cons.inj htodo
    simp at he

theorem State.Inv.rest_plain_of_no_error (hno : ∀ e, .fail e ∉ k) : ∀ x ∈ k, Plain x := fun x hx =>
  ⟨h.rest_not_fetch hs x hx, fun e he => hno e (he ▸ hx)⟩

/-- After a statement that takes no part in the release of the buffer the rest of the command is plain. -/
theorem State.Inv.rest_plain (hout : ∀ v, st ≠ .outByte v) (hclose : st ≠ .bbClose)
    (hshut : st ≠ .bbShut) : ∀ x ∈ k, Plain x :=
  h.rest_plain_of_no_error hs fun _ he => by
    obtain ⟨hst, -⟩ | ⟨v, hst, -⟩ | ⟨hst, -⟩ := h.releasing hs he
    · exact hclose hst
    · exact hout v hst
    · exact hshut hst

end

/-! ### Statements that do not write the buffer -/

/-- What a `readBit()` does with the bit it returns leaves the buffer alone (R133, R200, R203). -/
theorem deliverBit_plain (u : BitUse) (b : Bool) (s : State) :
    SameBuffer s (deliverBit u b s) ∧ Continues s (deliverBit u b s) := by
  cases u with
  | result => exact keeps ⟨rfl, rfl, rfl, rfl, rfl, rfl, rfl⟩ rfl
  | tag =>
    simp only [deliverBit, useTag]
    split
    · exact raises _ _
    · split <;> exact ⟨⟨rfl, rfl, rfl, rfl, rfl, rfl, rfl⟩, .inl ⟨[_], rfl, by simp [Plain, Stmt.isFetch]⟩⟩
  | symbol i acc more =>
    cases more <;> exact ⟨⟨rfl, rfl, rfl, rfl, rfl, rfl, rfl⟩, .inl ⟨[_], rfl, by simp [Plain, Stmt.isFetch]⟩⟩
  | descent =>
    simp only [deliverBit, useDescentBit]
    split
    · exact keeps ⟨rfl, rfl, rfl, rfl, rfl, rfl, rfl⟩ rfl
    · exact stays _

/-- A byte sent leaves the buffer and the statements alone (20_memory.md R65). -/
theorem outByte_same {s t : State} {v : Byte} (h : s.outByte v = some t) :
    SameBuffer s t ∧ t.todo = s.todo := by
  unfold State.outByte at h
  split at h
  · cases h
  · obtain rfl := Option.some.inj h
    exact ⟨⟨rfl, rfl, rfl, rfl, rfl, rfl, rfl⟩, rfl⟩

theorem plain_map_outByte (l : List Byte) : ∀ st ∈ l.map Stmt.outByte, Plain st := by
  intro st hst
  obtain ⟨v, -, rfl⟩ := List.mem_map.mp hst
  simp [Plain, Stmt.isFetch]

section

variable {s t : State} {k : List Stmt} (h : s.Inv)
include h

/-- The statements `outByte v`, of a full and of a closing write buffer (R122, R126). -/
theorem State.Inv.after_outByte {v : Byte} (hs : s.todo = .outByte v :: k)
    (ht : (s.withTodo k).outByte v = some t) : t.Inv := by
  obtain ⟨hst, htodo⟩ := outByte_same ht
  have hst : SameBuffer s t := hst
  have hb := h.bufferFits.of_same hst
  have hc := (h.cleared hs).of_same hst
  have hbuf := hst.bufBits_eq
  obtain ⟨hmode, hbits, -⟩ := hst
  have hrest := h.rest_not_fetch hs
  rw [← show t.todo = k from htodo] at hs hrest
  exact {
    busyClear := fun _ => hc
    closedEmpty := hb.closedEmpty
    writeNoRemain := hb.writeNoRemain
    bitsFit := hb.bitsFit
    fetchFits := fun n hn => by simpa [Stmt.isFetch] using hrest _ hn
    fetchFirst := fun x hx => hrest x (List.mem_of_mem_tail hx)
    fullIsSent := fun hw hfull => by
      rw [hmode] at hw
      rw [hbits, hbuf] at hfull
      obtain ⟨l, k', hl⟩ := h.fullIsSent hw hfull
      rw [hs] at hl
      cases l with
      | nil => cases hl
      | cons w l => exact ⟨l, k', (List.cons.inj hl).2⟩
    failReleases := fun e he => by
      obtain ⟨hst, -⟩ | ⟨_, -, l, hl⟩ | ⟨hst, -⟩ := h.releasing hs he
      · cases hst
      · exact .inr (.inl ⟨l, hl⟩)
      · cases hst
    errorClosed := fun he => absurd hc.2.1 he }

/-- `bbClose()`, called by a command or by a raised error (R126, R261). -/
theorem State.Inv.after_bbClose (hs : s.todo = .bbClose :: k) :
    (stepBbClose (s.withTodo k)).Inv := by
  have hsame : SameBuffer s (stepBbClose (s.withTodo k)) := ⟨rfl, rfl, rfl, rfl, rfl, rfl, rfl⟩
  have hb := h.bufferFits.of_same hsame
  have hc := (h.cleared hs).of_same hsame
  have hf := (h.notFull hs nofun nofun).of_same hsame
  by_cases he : ∃ e, .fail e ∈ k
  · obtain ⟨e, he⟩ := he
    obtain ⟨-, rfl⟩ | ⟨_, hst, -⟩ | ⟨hst, -⟩ := h.releasing hs he
    · refine inv_of_release (e := e) hb hc hf (.inr (.inl ⟨releaseBytes s, ?_⟩))
      by_cases hw : s.bbMode = .write <;> simp [stepBbClose, releaseBytes, State.push, hw]
    · cases hst
    · cases hst
  · have hst := runStmt_plain .bbClose rfl (s.withTodo k) _ rfl
    exact inv_of_continues hb hc hf (h.rest_plain_of_no_error hs (not_exists.mp he)) hst.2

/-- Every other statement that leaves the buffer alone (`runStmt_plain`). -/
theorem State.Inv.after_plainStmt {st : Stmt} (hs : s.todo = st :: k) (hst : st.usesBuffer = false)
    (hout : ∀ v, st ≠ .outByte v) (hclose : st ≠ .bbClose) (ht : runStmt st (s.withTodo k) = some t) :
    t.Inv := by
  obtain ⟨hsame, hcont⟩ := runStmt_plain st hst _ t ht
  have hsame : SameBuffer s t := hsame
  have hshut : st ≠ .bbShut := fun he => by simp [he, Stmt.usesBuffer] at hst
  have hclear : st ≠ .clearBits := fun he => by simp [he, Stmt.usesBuffer] at hst
  exact inv_of_continues (h.bufferFits.of_same hsame) ((h.cleared hs).of_same hsame)
    ((h.notFull hs hout hclear).of_same hsame) (h.rest_plain hs hout hclose hshut) hcont

/-! ### Statements that write the buffer or end the command -/

theorem State.Inv.after_bbOpen {m : BBMode} (hs : s.todo = .bbOpen m :: k) :
    (stepBbOpen m (s.withTodo k)).Inv := by
  refine inv_of_plain ⟨?_, ?_, Nat.zero_le _⟩ (h.cleared hs) (notFull_of_nil rfl)
    (h.rest_plain hs nofun nofun nofun)
  · intro hm
    have hm : m = .closed := hm
    subst hm
    exact ⟨rfl, rfl⟩
  · intro hm
    have hm : m = .write := hm
    subst hm
    rfl

/-- `BB_BITS <- []` after a full buffer has been sent (R122). -/
theorem State.Inv.after_clearBits (hs : s.todo = .clearBits :: k) :
    (stepClearBits (s.withTodo k)).Inv :=
  inv_of_plain ⟨fun hm => ⟨rfl, (h.closedEmpty hm).2⟩, h.writeNoRemain, Nat.zero_le _⟩ (h.cleared hs)
    (notFull_of_nil rfl) (h.rest_plain hs nofun nofun nofun)

theorem State.Inv.after_bbShut (hs : s.todo = .bbShut :: k) :
    (stepBbShut (s.withTodo k)).Inv := by
  have hb : BufferFits (stepBbShut (s.withTodo k)) := ⟨fun _ => ⟨rfl, rfl⟩, nofun, Nat.zero_le _⟩
  have hf : NotFull (stepBbShut (s.withTodo k)) := notFull_of_nil rfl
  by_cases he : ∃ e, .fail e ∈ k
  · obtain ⟨e, he⟩ := he
    obtain ⟨hst, -⟩ | ⟨_, hst, -⟩ | ⟨-, hk⟩ := h.releasing hs he
    · cases hst
    · cases hst
    · exact inv_of_release hb (h.cleared hs) hf (.inr (.inr ⟨hk, rfl⟩))
  · exact inv_of_plain hb (h.cleared hs) hf (h.rest_plain_of_no_error hs (not_exists.mp he))

theorem State.Inv.after_complete (hs : s.todo = .complete :: k) : (s.withTodo k).completeStep.Inv :=
  inv_of_idle rfl ⟨h.closedEmpty, h.writeNoRemain, h.bitsFit⟩ (h.notFull hs nofun nofun) (absurd rfl)

/-- The step that ends a raised error runs with the buffer released (R261, R264). -/
theorem State.Inv.after_fail {e : ErrCode} (hs : s.todo = .fail e :: k) :
    ((s.withTodo k).failStep e).Inv := by
  have hclosed : s.bbMode = .closed := by
    obtain htodo | ⟨l, htodo⟩ | ⟨-, hclosed⟩ := h.failReleases e (by simp [hs])
    · rw [hs] at htodo; cases htodo
    · rw [hs] at htodo; cases l <;> cases htodo
    · exact hclosed
  exact inv_of_idle rfl ⟨h.closedEmpty, h.writeNoRemain, h.bitsFit⟩
    (notFull_of_nil (h.closedEmpty hclosed).1) fun _ => hclosed

/-- A bit written to a buffer that was not full: if it fills the buffer, the whole buffer is sent and then
cleared (R122, R123). -/
theorem State.Inv.after_writeBit {b : Bool} (hs : s.todo = .writeBit b :: k) :
    (stepWriteBit b (s.withTodo k)).Inv := by
  have hplain := h.rest_plain hs nofun nofun nofun
  have hf := h.notFull hs nofun nofun
  unfold stepWriteBit
  split
  case isTrue =>
    exact inv_of_release (h.bufferFits_withTodo _) (h.cleared hs) hf
      (.inl rfl)
  case isFalse hm =>
    have hw : s.bbMode = .write := not_not.mp hm
    have hclosed : s.bbMode ≠ .closed := by simp [hw]
    have hfit : (s.bbBits ++ [b]).length ≤ s.bufBits := by
      rw [List.length_append, List.length_singleton]
      exact Nat.lt_of_le_of_ne h.bitsFit (hf hw)
    dsimp only
    split
    case isTrue hfull =>
      refine inv_of_sending ⟨fun hm => absurd hm hclosed, h.writeNoRemain, hfit⟩ (h.cleared hs)
        (fun _ _ => ⟨packBits (s.bbBits ++ [b]), k, List.append_assoc ..⟩) fun st hst => ?_
      obtain hst | hst := List.mem_append.mp hst
      · obtain hst | hst := List.mem_append.mp hst
        · exact plain_map_outByte _ st hst
        · obtain rfl := List.mem_singleton.mp hst
          simp [Plain, Stmt.isFetch]
      · exact hplain st hst
    case isFalse hnot =>
      exact inv_of_plain ⟨fun hm => absurd hm hclosed, h.writeNoRemain, hfit⟩ (h.cleared hs)
        (fun _ => hnot) hplain

/-- A bit read: an empty buffer starts a refill that fits into it (R125). -/
theorem State.Inv.after_readBit {u : BitUse} (hs : s.todo = .readBit u :: k) :
    (stepReadBit u deliverBit (s.withTodo k)).Inv := by
  have hplain := h.rest_plain hs nofun nofun nofun
  have hraise (e : ErrCode) : (s.raise e).Inv :=
    inv_of_release (h.bufferFits_withTodo _) (h.cleared hs)
      (h.notFull hs nofun nofun) (.inl rfl)
  unfold stepReadBit
  split
  case isTrue => exact hraise _
  case isFalse hm =>
    have hread : s.bbMode = .read := not_not.mp hm
    have hclosed : s.bbMode ≠ .closed := by simp [hread]
    split
    next b rest hbits =>
      have hlen : rest.length ≤ s.bufBits := by
        have := h.bitsFit
        rw [show s.bbBits = b :: rest from hbits, List.length_cons] at this
        exact Nat.le_of_succ_le this
      obtain ⟨hsame, hcont⟩ := deliverBit_plain u b ((s.withTodo k).withBits rest)
      have hb : BufferFits ((s.withTodo k).withBits rest) :=
        ⟨fun hm => absurd hm hclosed, h.writeNoRemain, hlen⟩
      have hc : Cleared ((s.withTodo k).withBits rest) := h.cleared hs
      have hf : NotFull ((s.withTodo k).withBits rest) := notFull_of_mode (by simp [hread])
      exact inv_of_continues (hb.of_same hsame) (hc.of_same hsame) (hf.of_same hsame) hplain hcont
    next hbits =>
      split
      case isTrue => exact hraise _
      case isFalse =>
        refine inv_of_fetch (h.bufferFits_withTodo _) (h.cleared hs) rfl
          hread ?_ fun st hst => ?_
        · show s.bbBits.length + 8 * min s.bufBytes s.bbRemain.toNat ≤ 8 * s.bufBytes
          rw [show s.bbBits = [] from hbits, List.length_nil]
          omega
        · obtain rfl | hst := List.mem_cons.mp hst
          · simp [Plain, Stmt.isFetch]
          · exact hplain st hst

/-- One byte of a refill (R125). -/
theorem State.Inv.after_fetch {n : Nat} (hs : s.todo = .fetch n :: k)
    (ht : stepFetch n (s.withTodo k) = some t) : t.Inv := by
  have hplain := h.rest_plain hs nofun nofun nofun
  obtain ⟨hread, hfit⟩ := h.fetchFits n (by simp [hs])
  have hclosed : s.bbMode ≠ .closed := by simp [hread]
  have hwrite : s.bbMode ≠ .write := by simp [hread]
  cases n with
  | zero =>
    obtain rfl := Option.some.inj ht
    exact inv_of_plain (h.bufferFits_withTodo _) (h.cleared hs)
      (notFull_of_mode hwrite) hplain
  | succ n =>
    simp only [stepFetch] at ht
    split at ht
    · cases ht
    next v u hin =>
      obtain rfl := Option.some.inj ht
      obtain ⟨hsame, htodo⟩ := inByte_same hin
      have hsame : SameBuffer s u := hsame
      have hbuf := hsame.bufBits_eq
      have hc := (h.cleared hs).of_same hsame
      obtain ⟨hmode, hbits, -⟩ := hsame
      rw [← hmode] at hread hclosed hwrite
      have hlen : (u.bbBits ++ bitsOfByte v).length + 8 * n ≤ u.bufBits := by
        rw [List.length_append, hbits, hbuf]
        simp only [bitsOfByte, List.length_cons, List.length_nil]
        omega
      exact inv_of_fetch ⟨fun hm => absurd hm hclosed, fun hm => absurd hm hwrite,
        Nat.le_of_add_right_le hlen⟩ hc rfl hread hlen (by rw [htodo]; exact hplain)

/-- One byte of a drain: only a read session has bytes to take (R205, R121). -/
theorem State.Inv.after_drain (hs : s.todo = .drain :: k)
    (ht : stepDrain (s.withTodo k) = some t) : t.Inv := by
  have hplain := h.rest_plain hs nofun nofun nofun
  have hf := h.notFull hs nofun nofun
  unfold stepDrain at ht
  split at ht
  case isTrue =>
    obtain rfl := Option.some.inj ht
    exact inv_of_plain (h.bufferFits_withTodo _) (h.cleared hs) hf hplain
  case isFalse hne =>
    split at ht
    · cases ht
    next v u hin =>
      obtain rfl := Option.some.inj ht
      obtain ⟨hsame, htodo⟩ := inByte_same hin
      have hsame : SameBuffer s u := hsame
      have hb := h.bufferFits.of_same hsame
      have hc := (h.cleared hs).of_same hsame
      have hf := hf.of_same hsame
      obtain ⟨-, -, hremain, -⟩ := hsame
      have hremain : u.bbRemain ≠ 0#32 := hremain ▸ hne
      refine inv_of_plain ⟨fun hm => absurd (hb.closedEmpty hm).2 hremain,
        fun hm => absurd (hb.writeNoRemain hm) hremain, hb.bitsFit⟩ hc hf fun st hst => ?_
      obtain rfl | hst := List.mem_cons.mp hst
      · simp [Plain, Stmt.isFetch]
      · have hst : st ∈ u.todo := hst
        rw [htodo] at hst
        exact hplain st hst

end

/-! ### The core -/

theorem coreStep_inv {s t : State} (ht : coreStep s = some t) (h : s.Inv) : t.Inv := by
  cases hs : s.todo with
  | nil => rw [coreStep_idle hs] at ht; cases ht
  | cons st k =>
    rw [coreStep_cons hs] at ht
    by_cases hst : st.usesBuffer = true
    · cases st <;> simp only [Stmt.usesBuffer, Bool.false_eq_true] at hst
      case bbOpen m => exact Option.some.inj ht ▸ h.after_bbOpen hs
      case writeBit b => exact Option.some.inj ht ▸ h.after_writeBit hs
      case clearBits => exact Option.some.inj ht ▸ h.after_clearBits hs
      case readBit u => exact Option.some.inj ht ▸ h.after_readBit hs
      case fetch n => exact h.after_fetch hs ht
      case bbShut => exact Option.some.inj ht ▸ h.after_bbShut hs
      case complete => exact Option.some.inj ht ▸ h.after_complete hs
      case fail e => exact Option.some.inj ht ▸ h.after_fail hs
      case drain => exact h.after_drain hs ht
    · by_cases hclose : st = .bbClose
      · subst hclose
        exact Option.some.inj ht ▸ h.after_bbClose hs
      by_cases hout : ∃ v, st = .outByte v
      · obtain ⟨v, rfl⟩ := hout
        exact h.after_outByte hs ht
      exact h.after_plainStmt hs (Bool.eq_false_iff.mpr hst) (not_exists.mp hout) hclose ht

/-- What the agents outside the core hold is no part of the invariant. -/
theorem State.Inv.withEnv {s : State} (h : s.Inv) (f : Env) : State.Inv { s with env := f } :=
  h.of_same ⟨rfl, rfl, rfl, rfl, rfl, rfl, rfl⟩ rfl

theorem tick_inv {s : State} (h : s.Inv) : (tick s).Inv := h.withEnv _

theorem popSched_inv {s : State} (h : s.Inv) : (popSched s).Inv := h.withEnv _

theorem coreTurn_inv {s : State} (h : s.Inv) : (coreTurn s).Inv := by
  refine runCore_keeps (fun _ _ hst hi => coreStep_inv hst hi) _ _ ?_
  split
  · exact tick_inv (popSched_inv h)
  · exact popSched_inv h

/-! ### The commands -/

/-- Acceptance clears the completion fields and leaves the buffer of the idle block (R100). -/
theorem accept_inv {s : State} (h : s.Inv) (hidle : s.todo = []) (w : Word) {body : List Stmt}
    (hbody : ∀ st ∈ body, Plain st) : (s.accept w body).Inv :=
  inv_of_plain ⟨h.closedEmpty, h.writeNoRemain, h.bitsFit⟩ ⟨rfl, rfl, rfl⟩ (h.notFull_of_idle hidle) hbody

theorem issue_inv {s : State} (h : s.Inv) (w : Word) {body : List Stmt} (hbody : ∀ st ∈ body, Plain st) :
    (issue w body s).Inv := by
  refine coreTurn_inv (tick_inv ?_)
  split
  case isTrue => exact h.of_same ⟨rfl, rfl, rfl, rfl, rfl, rfl, rfl⟩ rfl
  case isFalse hbusy => exact accept_inv h (by simpa [State.busy] using hbusy) w hbody

/-- Every instruction issues its word with a body of plain statements. -/
theorem exec_eq_issue (i : Instr) :
    ∃ body, (∀ s, exec i s = .next (issue (encodeWord i) body s)) ∧ ∀ st ∈ body, Plain st := by
  cases i <;> refine ⟨_, fun _ => rfl, ?_⟩ <;>
    simp [Plain, Stmt.isFetch, bodyEncCount, bodyEncBuild, bodyEncEmit, bodyDecTree, bodyDecPayload]

theorem writeCmd_inv {s t : State} {w : Word} (h : s.Inv) (ht : writeCmd w s = .next t) : t.Inv := by
  unfold writeCmd at ht
  split at ht
  next i _ =>
    obtain ⟨body, hexec, hbody⟩ := exec_eq_issue i
    rw [hexec] at ht
    exact Host.Outcome.next.inj ht ▸ issue_inv h _ hbody
  next =>
    exact Host.Outcome.next.inj ht ▸ issue_inv h _ (by simp [Plain, Stmt.isFetch])

/-! ### The agents outside the core -/

/-- Both resets close and empty the buffer (R291). -/
theorem resetBlock_inv (s : State) : s.resetBlock.Inv :=
  inv_of_idle rfl ⟨fun _ => ⟨rfl, rfl⟩, fun _ => rfl, Nat.zero_le _⟩ (notFull_of_nil rfl) (absurd rfl)

/-- A write to STATUS can only clear DONE (R26). -/
theorem writeStatus_inv {s : State} (h : s.Inv) (v : Word) : (writeStatus v s).Inv :=
  { h with
    busyClear := fun hbusy => by
      obtain ⟨hdone, hcode, hop⟩ := h.busyClear hbusy
      exact ⟨by simp [writeStatus, hdone], hcode, hop⟩ }

theorem writeWord_inv {s : State} (h : s.Inv) (n : Nat) (v : Word) : (writeWord n v s).Inv := by
  unfold writeWord
  split
  · unfold writeCtrl
    split
    · exact resetBlock_inv s
    · exact h.of_same ⟨rfl, rfl, rfl, rfl, rfl, rfl, rfl⟩ rfl
  · exact writeStatus_inv h v
  · unfold writeCfg
    split
    · exact h
    · exact h.of_same ⟨rfl, rfl, rfl, rfl, rfl, rfl, rfl⟩ rfl
  · unfold writeSrcLen
    split
    · exact h
    · exact h.of_same ⟨rfl, rfl, rfl, rfl, rfl, rfl, rfl⟩ rfl
  · exact h.of_same ⟨rfl, rfl, rfl, rfl, rfl, rfl, rfl⟩ rfl
  · exact h

theorem perform_inv {s t : State} {e : Event} (h : s.Inv) (ht : perform e s = .next t) : t.Inv := by
  cases e with
  | write off v =>
    unfold perform at ht
    dsimp only at ht
    split at ht
    · exact writeCmd_inv h ht
    · exact Host.Outcome.next.inj ht ▸ coreTurn_inv (tick_inv (writeWord_inv h _ v))
  | read off => exact Host.Outcome.next.inj ht ▸ coreTurn_inv (h.withEnv _)
  | offer bytes => exact Host.Outcome.next.inj ht ▸ coreTurn_inv (tick_inv (h.withEnv _))
  | withdraw n => exact Host.Outcome.next.inj ht ▸ coreTurn_inv (tick_inv (h.withEnv _))
  | sinkReady n => exact Host.Outcome.next.inj ht ▸ coreTurn_inv (tick_inv (h.withEnv _))
  | rst => exact Host.Outcome.next.inj ht ▸ coreTurn_inv (tick_inv (resetBlock_inv s))

/-- Settles O44: the action of the agent outside keeps the invariant, and so does every core step of the
turn after it, statement by statement. -/
theorem invariantKept : Obligations.InvariantKept := by
  unfold Obligations.InvariantKept
  intro s t h ht
  unfold step at ht
  split at ht
  · exact Host.Outcome.next.inj ht ▸ coreTurn_inv h
  · exact perform_inv (h.withEnv _) ht

end Sys2Proof.Machine
end

section
/-!
PROOFS. The host's access to the register port as a step: a read changes no register and no stream
(20_memory.md R63), and a CMD write is the decoded command (20_memory.md R61, 40_control.md R100).
-/

namespace Sys2Proof.Machine

/-- A step performs the oldest coming action, with that action taken off the list. -/
theorem step_of_event {s : State} {e : Event} {rest : List Event} (h : s.env.events = e :: rest) :
    step s = perform e { s with env := { s.env with events := rest } } := by
  simp only [step, h]

/-! ### A read in a turn without a core step -/

/-- Of the agents outside, a register read depends on the index of the free values alone (R49). -/
theorem readReg_of_same_epoch {s : State} {e : Env} (h : e.epoch = s.env.epoch) (off : Offset) :
    readReg { s with env := e } off = readReg s off := by
  have hfree : ∀ n, freeWord { s with env := e } n = freeWord s n := fun n =>
    congrArg (Config.freeRead · n) h
  have hstatus : statusWord { s with env := e } = statusWord s := by
    unfold statusWord
    rw [hfree]
    rfl
  unfold readReg readWord
  simp only [hfree, hstatus]
  rfl

/-- The step of a host read, while the core takes no step. -/
theorem step_read_paused {s : State} {off : Offset} {v : Word} {rest : List Event} (h : Paused s)
    (hev : s.env.events = .read off :: rest) (hv : readReg s off = v) :
    step s = .next { s with env := { s.env with
      events := rest, sched := s.env.sched.tail, readData := v } } := by
  have hread : readReg { s with env := { s.env with events := rest } } off = v :=
    (readReg_of_same_epoch rfl off).trans hv
  have hp : Paused (hostRead off { s with env := { s.env with events := rest } }) := h
  rw [step_of_event hev, perform, coreTurn_paused hp, hostRead, hread]
  rfl

/-- Settles O56: the first read leaves the core paused and the index of the free values where it was, so the
second read returns what the first did. -/
theorem readsChangeNothing : Obligations.ReadsChangeNothing := by
  unfold Obligations.ReadsChangeNothing
  intro s off rest h hev
  have hp : Paused s := h.imp_right fun ⟨q, hq⟩ => ⟨0 :: q, hq⟩
  have hp' : s.todo = [] ∨ ∃ q, s.env.sched.tail = 0 :: q :=
    h.imp_right fun ⟨q, hq⟩ => ⟨q, congrArg List.tail hq⟩
  exact ⟨_, _, step_read_paused hp hev rfl, step_read_paused hp' rfl (readReg_of_same_epoch rfl off), rfl, rfl⟩

/-! ### A CMD write -/

/-- A legal word's write to CMD is the meaning of its command (R25). -/
theorem writeCmd_of_decode {w : Word} {i : Instr} (h : decode w = .ok i) (s : State) :
    writeCmd w s = exec i s := by
  simp only [writeCmd, h]

/-- A host write to CMD, by any offset that selects the word (R61). -/
theorem perform_write_cmd {off : Offset} (h : off.extractLsb' 2 10 = 2#10) (w : Word) (s : State) :
    perform (.write off w) s = writeCmd w s := if_pos (congrArg BitVec.toNat h)

/-- Settles O4: the port hands the word to the decoder, and the decoded command to `exec`. -/
theorem stepRunsTheWrittenCommand : Obligations.StepRunsTheWrittenCommand := by
  unfold Obligations.StepRunsTheWrittenCommand
  intro s off w i rest hev hoff hdec
  rw [step_of_event hev, perform_write_cmd hoff, writeCmd_of_decode hdec]

end Sys2Proof.Machine
end

section
/-!
PROOFS. The encoding of the commands (30_encoding.md R80 to R84): a word is its three fields, and the decoder reads
a command exactly from the fields the encoder gives it.
-/

namespace Sys2Proof.Machine

/-! ### A word and its fields -/

/-- A word is its fields RSVD, ARG and OP, one after the other (R80). -/
theorem append_fields (w : Word) : rsvdField w ++ (argField w ++ opField w) = w := by
  have h : argField w ++ opField w = w.extractLsb' 0 16 := BitVec.extractLsb'_append_extractLsb'_eq_extractLsb' rfl
  rw [h]
  exact (BitVec.extractLsb'_append_extractLsb'_eq_extractLsb' rfl).trans BitVec.extractLsb'_eq_self

/-- A word encodes a command exactly when RSVD is 0, and ARG and OP are the command's (R80, R81). -/
theorem encodeWord_eq_iff {i : Instr} {w : Word} :
    encodeWord i = w ↔ rsvdField w = 0#16 ∧ argField w = i.argument ∧ opField w = i.opcode := by
  constructor
  · rintro rfl
    obtain ⟨hop, harg, hrsvd⟩ := Laws.WordFields.of_word i
    exact ⟨hrsvd, harg, hop⟩
  · rintro ⟨hrsvd, harg, hop⟩
    rw [encodeWord, ← hrsvd, ← harg, ← hop]
    exact append_fields w

/-! ### The decoder -/

/-- A command without an operand is read when ARG is 0, and no other is. -/
theorem plain_eq_ok {p : Prop} [Decidable p] {i j : Instr} :
    (if p then .ok j else .error .badArg : Except DecodeError Instr) = .ok i ↔ p ∧ j = i := by
  split <;> simp [*]

/-- The fields of a word that decodes are those of the command it gives (R81, R83). -/
theorem fields_of_decode {w : Word} {i : Instr} (h : decode w = .ok i) : i.wellFormed = true ∧
    rsvdField w = 0#16 ∧ argField w = i.argument ∧ opField w = i.opcode := by
  unfold decode at h
  by_cases hrsvd : rsvdField w = 0#16
  case neg => rw [if_pos hrsvd] at h; cases h
  rw [if_neg (not_not.mpr hrsvd)] at h
  dsimp only at h
  split at h
  case h_11 hop =>
    obtain ⟨hwf, rfl⟩ := plain_eq_ok.mp h
    exact ⟨hwf, hrsvd, rfl, BitVec.eq_of_toNat_eq hop⟩
  case h_12 hop =>
    obtain rfl := Except.ok.inj h
    exact ⟨rfl, hrsvd, rfl, BitVec.eq_of_toNat_eq hop⟩
  case h_15 => cases h
  all_goals
    rename_i hop
    obtain ⟨harg, rfl⟩ := plain_eq_ok.mp h
    exact ⟨rfl, hrsvd, harg, BitVec.eq_of_toNat_eq hop⟩

/-- A word with the fields of a well-formed command decodes to it (R81, R84). -/
theorem decode_of_fields {w : Word} {i : Instr} (hwf : i.wellFormed = true) (hrsvd : rsvdField w = 0#16)
    (harg : argField w = i.argument) (hop : opField w = i.opcode) : decode w = .ok i := by
  rw [decode, if_neg (not_not.mpr hrsvd), harg, hop]
  cases i
  case bbWriteBit arg => exact if_pos hwf
  all_goals rfl

/-- Settles O1: both sides say that the command is well formed and the word has its fields. -/
theorem decodeInvertsEncode : Obligations.DecodeInvertsEncode := by
  unfold Obligations.DecodeInvertsEncode
  intro i w
  rw [encodeWord_eq_iff]
  exact ⟨fields_of_decode, fun ⟨hwf, hrsvd, harg, hop⟩ => decode_of_fields hwf hrsvd harg hop⟩

/-- Settles O3: the three fields of each word are numerals, and the opcode map of R81 is evaluated at them. -/
theorem sampleWordsDecode : Obligations.SampleWordsDecode := by
  unfold Obligations.SampleWordsDecode
  exact ⟨rfl, rfl, rfl, rfl, rfl, rfl, rfl, rfl⟩

end Sys2Proof.Machine
end

section
/-!
PROOFS. An illegal word (30_encoding.md R83): it is accepted, and the legality check ends it with ILLEGAL_CMD
(40_control.md R102, 60_exceptions.md R261).
-/

namespace Sys2Proof.Machine

/-! ### The legality check -/

/-- The four tests of the legality check are the ways a word is illegal (R83, R102). -/
theorem illegalWord_iff {w : Word} : illegalWord w = true ↔
    opField w ∉ [0x00#8, 0x10#8, 0x11#8, 0x12#8, 0x13#8, 0x20#8, 0x21#8, 0x22#8, 0x30#8, 0x31#8,
        0x32#8, 0x33#8, 0x34#8, 0x35#8] ∨
      rsvdField w ≠ 0#16 ∨
      (opField w = 0x32#8 ∧ (argField w).extractLsb' 1 7 ≠ 0#7) ∨
      (opField w ≠ 0x32#8 ∧ opField w ≠ 0x33#8 ∧ argField w ≠ 0#8) := by
  simp [illegalWord, or_assoc, and_assoc]

/-- The decoder refuses what the legality check refuses: a word that decodes encodes a well-formed command,
which is legal. -/
theorem decode_of_illegalWord {w : Word} (h : illegalWord w = true) : ∃ e, decode w = .error e := by
  cases hdec : decode w with
  | error e => exact ⟨e, rfl⟩
  | ok i =>
    obtain ⟨hwf, rfl⟩ := (decodeInvertsEncode i w).mp hdec
    exact absurd ((legal_encodeWord hwf).symm.trans h) Bool.false_ne_true

/-- The word of the one ill-formed term is illegal by its ARG (R83 (c)). -/
theorem illegalWord_bbWriteBit {arg : Byte} (h : arg.extractLsb' 1 7 ≠ 0#7) :
    illegalWord (encodeWord (.bbWriteBit arg)) = true := by
  obtain ⟨hop, harg, -⟩ := Laws.WordFields.of_word (.bbWriteBit arg)
  rw [illegalWord_iff, hop, harg]
  exact .inr (.inr (.inl ⟨rfl, h⟩))

/-! ### The error completion -/

/-- A quiet core ends an accepted illegal word at the legality check, whatever the body would do next. -/
theorem issue_illegal {s : State} {w : Word} (hq : s.Quiet) (h : illegalWord w = true) (body : List Stmt) :
    issue w (.legality :: body) s = raised (accepted s w) .illegalCmd := by
  have hrun : RunsIn (s.bbBits.length + 5) ((accepted s w).withTodo (.legality :: body))
      (raised (accepted s w) .illegalCmd) :=
    .step (step_legality_not _ h) (runs_fail .illegalCmd (accepted s w) hq.sink)
  have hturn := runOn_mul s 1 (by norm_num)
  exact issue_of_runs hq hrun (by omega) rfl

/-- What an error completion at the legality check reports, sends and keeps (R102, R261). -/
theorem raised_accepted_illegalCmd (s : State) (w : Word) {t : State}
    (ht : raised (accepted s w) .illegalCmd = t) :
    Failed .illegalCmd (opField w) w t ∧ TakesNothing s t ∧ Sends (releaseBytes s) s t ∧
      KeepsHost s t ∧ KeepsFlags s t ∧ KeepsMemories s t ∧ t.result = s.result := by
  rw [raised_eq] at ht
  subst ht
  have hsends : Sends (releaseBytes s) s
      ((accepted s w).failedWith .illegalCmd (releaseBytes (accepted s w))) :=
    ⟨rfl, BitVec.zero_add _⟩
  exact ⟨⟨rfl, rfl, rfl, rfl, rfl, rfl, rfl, rfl⟩, ⟨rfl, rfl⟩, hsends,
    ⟨rfl, rfl, rfl, rfl, rfl, rfl, rfl, rfl, rfl, rfl, rfl⟩, ⟨rfl, rfl, rfl, rfl⟩,
    ⟨⟨rfl, rfl, rfl⟩, ⟨rfl, rfl, rfl⟩, rfl, rfl⟩, rfl⟩

/-- Settles O2: the decoder hands an illegal word to `execIllegal`; there and in the ill-formed term's meaning
the legality check, which comes first, raises the error. -/
theorem illegalCommandEndsAtOnce : Obligations.IllegalCommandEndsAtOnce := by
  unfold Obligations.IllegalCommandEndsAtOnce
  refine ⟨fun s w hq hw => ?_, fun s arg hq harg => ?_⟩
  · have hill := illegalWord_iff.mpr hw
    obtain ⟨e, he⟩ := decode_of_illegalWord hill
    refine ⟨_, ?_, raised_accepted_illegalCmd s w rfl⟩
    simp only [writeCmd, he, execIllegal, issue_illegal hq hill]
  · have hop : opField (encodeWord (.bbWriteBit arg)) = 0x32#8 := (Laws.WordFields.of_word _).1
    refine ⟨_, congrArg Host.Outcome.next (issue_illegal hq (illegalWord_bbWriteBit harg) _), ?_⟩
    exact hop ▸ raised_accepted_illegalCmd s (encodeWord (.bbWriteBit arg)) rfl

end Sys2Proof.Machine
end

section
/-!
PROOFS. The timing of the streams (20_memory.md R64, R65, 30_encoding.md R92): a core step takes the first byte
offered and sends one byte, so neither later bytes nor a more willing sink changes it.
-/

namespace Sys2Proof.Machine

/-- The outside with `bytes` offered behind those already offered (R93). -/
def withLaterBytes (bytes : List Byte) (e : Env) : Env := { e with sIn := e.sIn ++ bytes }

/-- The outside with a sink that accepts every byte (R93). -/
def withWillingSink (e : Env) : Env := { e with sink := none }

theorem offerBytes_eq_mapOutside (bytes : List Byte) (s : State) :
    offerBytes bytes s = s.mapOutside (withLaterBytes bytes) id := rfl

theorem setSink_none_eq_mapOutside (s : State) : setSink none s = s.mapOutside withWillingSink id := rfl

/-- `InByte()` takes the first byte offered (R64). -/
theorem inByte_eq_some {s t : State} {v : Byte} : s.inByte = some (v, t) ↔ ∃ rest, s.env.sIn = v :: rest ∧
    t = { s with inCount := s.inCount + 1#32, env := { s.env with sIn := rest } } := by
  unfold State.inByte
  cases s.env.sIn with
  | nil => simp
  | cons a l => simp [eq_comm]

/-- `OutByte(v)` is sent to any sink but one that accepts no byte (R65). -/
theorem outByte_eq_some {s t : State} {v : Byte} : s.outByte v = some t ↔ s.env.sink ≠ some 0 ∧
    t = { s with
      outCount := s.outCount + 1#32
      env := { s.env with sOut := s.env.sOut ++ [v], sink := s.env.sink.map (· - 1) } } := by
  unfold State.outByte
  split
  next hsink => simp [hsink]
  next hsink =>
    have hready : s.env.sink ≠ some 0 := hsink
    simp [hready, eq_comm]

/-- A core step takes and sends the same with later bytes behind those offered: a byte it takes is still the
first (R64). -/
theorem coreStep_offerBytes {s t : State} (h : coreStep s = some t) (bytes : List Byte) :
    coreStep (offerBytes bytes s) = some (offerBytes bytes t) := by
  simp only [offerBytes_eq_mapOutside]
  refine coreStep_mapOutside (fun s t v hin => ?_) (fun s t v hout => ?_) h
  · obtain ⟨rest, hs, rfl⟩ := inByte_eq_some.mp hin
    exact inByte_eq_some.mpr ⟨rest ++ bytes, congrArg (· ++ bytes) hs, rfl⟩
  · obtain ⟨hs, rfl⟩ := outByte_eq_some.mp hout
    exact outByte_eq_some.mpr ⟨hs, rfl⟩

/-- A core step takes and sends the same with a sink that accepts every byte (R65). -/
theorem coreStep_setSink_none {s t : State} (h : coreStep s = some t) :
    coreStep (setSink none s) = some (setSink none t) := by
  simp only [setSink_none_eq_mapOutside]
  refine coreStep_mapOutside (fun s t v hin => ?_) (fun s t v hout => ?_) h
  · obtain ⟨rest, hs, rfl⟩ := inByte_eq_some.mp hin
    exact inByte_eq_some.mpr ⟨rest, hs, rfl⟩
  · obtain ⟨-, rfl⟩ := outByte_eq_some.mp hout
    have hwilling : (s.mapOutside withWillingSink id).env.sink ≠ some 0 := (Option.some_ne_none 0).symm
    exact outByte_eq_some.mpr ⟨hwilling, rfl⟩

/-- Settles O9: a core step depends on the streams by `InByte()` and `OutByte()` alone. -/
theorem streamTimingIsInvisible : Obligations.StreamTimingIsInvisible := by
  unfold Obligations.StreamTimingIsInvisible
  intro s s' h
  exact ⟨coreStep_offerBytes h, coreStep_setSink_none h⟩

end Sys2Proof.Machine
end

section
/-!
PROOFS. Acceptance and dropping of a CMD write, NOP, and the turns of the core (40_control.md R100 to R105):
a turn is a run of core steps, which reads nothing of the coming actions, the schedule, the free-value index
and CMD_DROPPED.
-/

namespace Sys2Proof.Machine

/-! ### A CMD write -/

/-- A write of any word to CMD issues it with a body that starts with the legality check; an illegal word has
no other statement (R100, R102). -/
theorem writeCmd_eq_issue (w : Word) : ∃ body, (∀ e, decode w = .error e → body = []) ∧
    ∀ s, writeCmd w s = .next (issue w (.legality :: body) s) := by
  cases hdec : decode w with
  | error e =>
    refine ⟨[], fun _ _ => rfl, fun s => ?_⟩
    simp only [writeCmd, hdec, execIllegal]
  | ok i =>
    obtain ⟨-, rfl⟩ := (decodeInvertsEncode i w).mp hdec
    have hexec : ∃ body, ∀ s, exec i s = .next (issue (encodeWord i) (.legality :: body) s) := by
      cases i <;> exact ⟨_, fun _ => rfl⟩
    obtain ⟨body, hbody⟩ := hexec
    exact ⟨body, nofun, fun s => (writeCmd_of_decode hdec s).trans (hbody s)⟩

/-- Settles O5: the turn of the write uses up the schedule's entry and takes no step, so the state is that of
acceptance. -/
theorem acceptanceClears : Obligations.AcceptanceClears := by
  unfold Obligations.AcceptanceClears
  intro s w q hidle hsched
  obtain ⟨body, hillegal, hwrite⟩ := writeCmd_eq_issue w
  have hbusy : s.busy = false := by simp [State.busy, hidle]
  have hturn : issue w (.legality :: body) s = popSched (tick (s.accept w (.legality :: body))) := by
    rw [issue, hbusy]
    exact coreTurn_paused (.inr ⟨q, hsched⟩)
  refine ⟨_, (hwrite s).trans (congrArg _ hturn), rfl, rfl, fun e he => ?_, ?_⟩
  · rw [hillegal e he]; rfl
  · simp [popSched, tick, State.accept, hsched]

/-! ### A turn of the core -/

/-- `s` with another schedule and free-value index. -/
def State.scheduled (s : State) (q : List Nat) (n : Nat) : State :=
  { s with env := { s.env with sched := q, epoch := n } }

/-- A run of core steps keeps the coming actions and the read data. -/
theorem runCore_keepsPort (m : Nat) (s : State) :
    (runCore m s).env.events = s.env.events ∧ (runCore m s).env.readData = s.env.readData :=
  runCore_keeps (P := fun t => t.env.events = s.env.events ∧ t.env.readData = s.env.readData)
    (fun t u htu ⟨hev, hdata⟩ => by
      obtain ⟨hev', -, -, hdata', -⟩ := coreStep_keepsAgents htu
      exact ⟨hev'.trans hev, hdata'.trans hdata⟩) m s ⟨rfl, rfl⟩

/-- The core holds and is idle under any schedule alike. -/
theorem coreStep_scheduled_eq_none {s : State} (q : List Nat) (n : Nat) :
    coreStep (s.scheduled q n) = none ↔ coreStep s = none := by
  have hstep := coreStep_agents s.env.events q n s.env.readData id s
  exact (Eq.congr_left hstep).trans Option.map_eq_none_iff

/-- The core's steps are the same under any schedule. -/
theorem runCore_scheduled (m : Nat) (s : State) (q : List Nat) (n : Nat) :
    runCore m (s.scheduled q n) = (runCore m s).scheduled q n := by
  obtain ⟨hev, hdata⟩ := runCore_keepsPort m s
  refine (runCore_agents s.env.events q n s.env.readData id m s).trans ?_
  rw [← hev, ← hdata]
  rfl

/-- A turn takes its quota of core steps and uses up a schedule entry. -/
theorem coreTurn_eq_runCore (s : State) :
    ∃ n, coreTurn s = (runCore (quota s) s).scheduled s.env.sched.tail n := by
  unfold coreTurn
  split
  · exact ⟨_, runCore_scheduled (quota s) s s.env.sched.tail (s.env.epoch + 1)⟩
  · exact ⟨_, runCore_scheduled (quota s) s s.env.sched.tail s.env.epoch⟩

/-- Settles O6: the dropped write is a turn in which the coming actions, the free-value index and CMD_DROPPED
differ from the turn without it, and the core's steps are the same. -/
theorem busyCommandIsDropped : Obligations.BusyCommandIsDropped := by
  unfold Obligations.BusyCommandIsDropped
  intro s w hbusy
  obtain ⟨body, -, hwrite⟩ := writeCmd_eq_issue w
  have hissue : issue w (.legality :: body) s = coreTurn (tick { s with dropped := true }) := by
    rw [issue, hbusy]; rfl
  obtain ⟨n, ht⟩ := coreTurn_eq_runCore (tick { s with dropped := true })
  obtain ⟨m, hu⟩ := coreTurn_eq_runCore { s with env := { s.env with events := [] } }
  have hrun := runCore_agents s.env.events s.env.sched (s.env.epoch + 1) s.env.readData (fun _ => true)
    (quota s) { s with env := { s.env with events := [] } }
  obtain ⟨-, hdata⟩ := runCore_keepsPort (quota s) { s with env := { s.env with events := [] } }
  refine ⟨_, _, (hwrite s).trans (congrArg _ (hissue.trans ht)), congrArg _ hu, ?_⟩
  refine (congrArg (·.scheduled s.env.sched.tail n) hrun).trans ?_
  rw [← hdata]
  rfl

/-- Settles O7: after the legality check NOP enters its phase and completes. -/
theorem nopOnlyClears : Obligations.NopOnlyClears := by
  unfold Obligations.NopOnlyClears
  intro s hq
  have hrun : RunsIn 1 ((accepted s (encodeWord .nop)).withTodo ([.phase 0x00#8] ++ [.complete]))
      (((accepted s (encodeWord .nop)).withPhase 0x00#8).withTodo [.complete]) := .one (step_phase _ _ _)
  have hturn := runOn_mul s 1 (by norm_num)
  have hexec : exec .nop s = .next ((accepted s (encodeWord .nop)).withPhase 0x00#8).completeStep :=
    congrArg Host.Outcome.next (issue_completes rfl hq hrun (by omega))
  exact ⟨_, hexec, ⟨rfl, rfl, rfl, rfl, rfl⟩, ⟨rfl, rfl⟩, ⟨(List.append_nil _).symm, rfl⟩,
    ⟨rfl, rfl, rfl, rfl, rfl, rfl, rfl, rfl, rfl, rfl, rfl⟩, ⟨rfl, rfl, rfl, rfl⟩,
    ⟨⟨rfl, rfl, rfl⟩, ⟨rfl, rfl, rfl⟩, rfl, rfl⟩, ⟨rfl, rfl, rfl⟩, rfl⟩

/-! ### A command cut into turns -/

/-- A run of `q` steps reaches the end of a chain of `n` steps exactly when `q` is not less. -/
theorem coreStep_runCore_eq_none_iff {n : Nat} {s t : State} (h : Runs n s t) (ht : coreStep t = none)
    (q : Nat) : coreStep (runCore q s) = none ↔ n ≤ q := by
  induction h generalizing q with
  | refl s => simp [runCore_stopped ht, ht]
  | step hs _ ih =>
    cases q with
    | zero => simp [runCore, hs]
    | succ q => simpa [runCore, hs] using ih ht q

/-- The steps that use up a schedule take as many core steps as it grants in all. -/
theorem stepMany_scheduled (grants : List Nat) (s : State) (n : Nat) (hev : s.env.events = []) :
    ∃ m, stepMany grants.length (s.scheduled grants n)
      = some ((runCore grants.sum s).scheduled [] m) := by
  induction grants generalizing s n with
  | nil => exact ⟨n, rfl⟩
  | cons q grants ih =>
    obtain ⟨m, hturn⟩ := coreTurn_eq_runCore (s.scheduled (q :: grants) n)
    have hstep : step (s.scheduled (q :: grants) n) = .next ((runCore q s).scheduled grants m) := by
      have hidle : step (s.scheduled (q :: grants) n) = .next (coreTurn (s.scheduled (q :: grants) n)) := by
        simp only [step, show (s.scheduled (q :: grants) n).env.events = [] from hev]
      rw [hidle, hturn, show quota (s.scheduled (q :: grants) n) = q from rfl, runCore_scheduled]
      rfl
    simp only [List.length_cons, stepMany, hstep, List.sum_cons, runCore_add]
    exact ih (runCore q s) m ((runCore_keepsPort q s).1.trans hev)

/-- Settles O8: the steps of the core under an empty schedule are a chain, and any schedule cuts the same chain
into turns. -/
theorem scheduleIsInvisible : Obligations.ScheduleIsInvisible := by
  unfold Obligations.ScheduleIsInvisible
  intro s u hev hsched hstep hstop
  obtain ⟨n, hturn⟩ := coreTurn_eq_runCore s
  have hu : (runCore (quota s) s).scheduled [] n = u := by
    simp only [step, hev, Host.Outcome.next.injEq] at hstep
    rw [← hstep, hturn, hsched]
    rfl
  have hend : coreStep (runCore (quota s) s) = none :=
    (coreStep_scheduled_eq_none [] n).mp (hu ▸ hstop)
  obtain ⟨enough, -, hruns⟩ := runs_runCore (quota s) s
  refine ⟨enough, fun grants => ?_⟩
  obtain ⟨m, hmany⟩ := stepMany_scheduled grants s s.env.epoch hev
  refine ⟨_, hmany, ?_, fun hle => ?_⟩
  · exact (coreStep_scheduled_eq_none [] m).trans (coreStep_runCore_eq_none_iff hruns hend grants.sum)
  · rw [runCore_eq_of_runsIn ⟨enough, le_rfl, hruns⟩ hle hend, ← hu]
    rfl

end Sys2Proof.Machine
end

section
/-!
PROOFS. Every command ends (40_control.md R104, 43_decoder.md R211): each body of a command, run with the bytes it
needs on offer, comes to its end or to the error completion, and leaves the valid flags true (10_state.md R47).
-/

namespace Sys2Proof.Machine

open Sys2Proof.Format (Tree)

/-! ### The promise of the valid flags -/

/-- What FREQ_VALID's promise speaks of. -/
def State.promisedFreq (s : State) : Bool × Vector Word 256 × Byte := (s.freqValid, s.freq, s.encSent)

/-- What the promises of the valid flags speak of. -/
def State.promised (s : State) :
    (Bool × Vector Word 256 × Byte) × Bool × Bool × Vector Node 511 × NodeIdx × Vector (List Bool) 256 :=
  (s.promisedFreq, s.treeValid, s.tableValid, s.node, s.root, s.ct)

theorem State.Promise.freq_congr {s t : State} (h : s.Promise) (he : t.promisedFreq = s.promisedFreq) :
    t.freqValid = true → 0 < weightOf t t.encSent ∧ (Format.allSymbols.map (weightOf t)).sum < 2 ^ 32 := by
  obtain ⟨hvalid, hfreq, hsent⟩ : t.freqValid = s.freqValid ∧ t.freq = s.freq ∧ t.encSent = s.encSent := by
    simpa [State.promisedFreq] using he
  have hweight : weightOf t = weightOf s := by funext v; simp [weightOf, State.freqAt, hfreq]
  rw [hvalid, hweight, hsent]
  exact h.freq

theorem State.Promise.congr {s t : State} (h : s.Promise) (he : t.promised = s.promised) : t.Promise := by
  obtain ⟨hfreq, htree, htable, hnode, hroot, hct⟩ : t.promisedFreq = s.promisedFreq ∧
      t.treeValid = s.treeValid ∧ t.tableValid = s.tableValid ∧ t.node = s.node ∧ t.root = s.root ∧
      t.ct = s.ct := by simpa [State.promised] using he
  have hsent : t.encSent = s.encSent := congrArg (·.2.2) hfreq
  refine ⟨h.freq_congr hfreq, fun hv => ?_, fun hv => ?_⟩
  · obtain ⟨T, hT, hshape⟩ := h.tree (htree ▸ hv)
    exact ⟨T, hroot ▸ hT.congr hnode, hshape⟩
  · obtain ⟨T, hT, hcodes, hleaf, hnodes, hmem⟩ := h.table (htable ▸ hv)
    have hcodes' : HoldsTable t T := fun v =>
      (show t.codeAt v = s.codeAt v by simp [State.codeAt, hct]).trans (hcodes v)
    exact ⟨T, hroot ▸ hT.congr hnode, hcodes', hleaf, hnodes, hsent ▸ hmem⟩

theorem promise_of_no_flag {t : State} (hfreq : t.freqValid = false) (htree : t.treeValid = false)
    (htable : t.tableValid = false) : t.Promise :=
  ⟨by simp [hfreq], by simp [htree], by simp [htable]⟩

theorem promise_closeAll {s : State} (h : s.Promise) : (closeAll s).Promise := by
  refine h.congr ?_
  unfold closeAll
  split <;> rfl

theorem promise_writeAll {s : State} (h : s.Promise) (bs : List Bool) : (writeAll bs s).Promise := by
  obtain ⟨l, b, he⟩ := writeAll_eq bs s
  exact h.congr ((congrArg State.promised he).trans rfl)

/-! ### Running a body to its end -/

/-- The command has ended, and its valid flags are true. -/
def Ended (t : State) : Prop := t.todo = [] ∧ t.done = true ∧ t.Promise

/-- The core comes within `b` steps to the end of the command. -/
def EndsIn (b : Nat) (s : State) : Prop := ∃ t, Ended t ∧ RunsIn b s t

/-- From `s`, whatever follows `body`, the core comes within `b` steps to the end of `body` in a state with `P`,
or to the end of the command. -/
def Passes (b : Nat) (s : State) (body : List Stmt) (P : State → Prop) : Prop :=
  ∀ k, (∃ t, P t ∧ RunsIn b (s.withTodo (body ++ k)) (t.withTodo k)) ∨ EndsIn b (s.withTodo (body ++ k))

/-- A raised error ends the command (R261). -/
theorem endsIn_of_raise {a b l : Nat} {s t : State} {e : ErrCode}
    (h : RunsIn a s (t.withTodo [.bbClose, .fail e])) (hs : t.env.sink = none) (hp : t.Promise)
    (hl : t.bbBits.length ≤ l) (hb : a + (l + 4) ≤ b) : EndsIn b s :=
  ⟨raised t e, ⟨rfl, rfl, (promise_closeAll hp).congr rfl⟩, (h.trans (runs_fail e t hs)).mono (by omega)⟩

/-- Two bodies in turn (40_control.md R106). -/
theorem Passes.append {a b : Nat} {s : State} {body next : List Stmt} {P Q : State → Prop}
    (h : Passes a s body P) (hnext : ∀ t, P t → Passes b t next Q) :
    Passes (a + b) s (body ++ next) Q := by
  intro k
  rw [List.append_assoc]
  obtain ⟨t, hP, hrun⟩ | ⟨t, hend, hrun⟩ := h (next ++ k)
  · obtain ⟨u, hQ, hrun'⟩ | ⟨u, hend, hrun'⟩ := hnext t hP k
    · exact .inl ⟨u, hQ, hrun.trans hrun'⟩
    · exact .inr ⟨u, hend, hrun.trans hrun'⟩
  · exact .inr ⟨t, hend, hrun.mono (Nat.le_add_right a b)⟩

theorem Passes.imp {b : Nat} {s : State} {body : List Stmt} {P Q : State → Prop} (h : Passes b s body P)
    (hPQ : ∀ t, P t → Q t) : Passes b s body Q := fun k =>
  (h k).imp_left fun ⟨t, hP, hrun⟩ => ⟨t, hPQ t hP, hrun⟩

/-- A well-formed command whose body passes ends (R103, R104). -/
theorem exec_ends {s : State} {i : Instr} {body : List Stmt} {b : Nat} (hi : i.wellFormed = true)
    (hq : s.Quiet) (hexec : exec i s = .next (issue (encodeWord i) (.legality :: body ++ [.complete]) s))
    (h : Passes b (accepted s (encodeWord i)) body State.Promise) (hb : b + 2 ≤ runOn s) :
    ∃ t, exec i s = .next t ∧ t.busy = false ∧ t.done = true ∧ t.Promise := by
  obtain ⟨t, hp, hrun⟩ | ⟨t, ⟨htodo, hdone, hp⟩, hrun⟩ := h [.complete]
  · exact ⟨_, hexec.trans (congrArg _ (issue_completes hi hq hrun hb)), rfl, rfl, hp.congr rfl⟩
  · have hissue := issue_of_runs hq (.step (step_legality _ (legal_encodeWord hi)) hrun) (by omega)
      (coreStep_idle htodo)
    exact ⟨t, hexec.trans (congrArg _ hissue), by simp [State.busy, htodo], hdone, hp⟩

/-! ### What a body starts from -/

/-- Steps enough for one body of a command that starts in `s` (log 1). -/
def bodySteps (s : State) : Nat := 2 ^ 50 * ((s.bufBytes + 8) * (s.bbBits.length + 1))

theorem bodySteps_le_runOn (s : State) : 3 * bodySteps s + 2 ≤ runOn s := by
  have h : (s.bufBytes + 8) * (s.bbBits.length + 1) ≤ 8 * ((s.bufBytes + 1) * (s.bbBits.length + 1)) := by
    rw [← Nat.mul_assoc]
    exact Nat.mul_le_mul_right _ (by omega)
  have hpos : 0 < (s.bufBytes + 1) * (s.bbBits.length + 1) := by positivity
  unfold bodySteps runOn
  omega

theorem le_bodySteps (s : State) :
    2 ^ 49 * s.bufBytes + 2 ^ 49 * s.bbBits.length + 2 ^ 52 ≤ bodySteps s := by
  have h1 : s.bufBytes + 8 ≤ (s.bufBytes + 8) * (s.bbBits.length + 1) :=
    Nat.le_mul_of_pos_right _ (Nat.succ_pos _)
  have h2 : s.bbBits.length + 1 ≤ (s.bufBytes + 8) * (s.bbBits.length + 1) :=
    Nat.le_mul_of_pos_left _ (Nat.succ_pos _)
  unfold bodySteps
  omega

/-- `t` is reached by a command that has started in `s`, and `n` passes of SRC_LEN bytes are still on offer. -/
structure Ready (s : State) (n : Nat) (t : State) : Prop where
  promise : t.Promise
  sink : t.env.sink = none
  bufBytes : t.bufBytes = s.bufBytes
  bits : t.bbBits.length ≤ 2 ^ 35 + s.bbBits.length
  offers : n * t.srcLen.toNat ≤ t.env.sIn.length

section

variable {s t : State} {n : Nat}

theorem Ready.pass_le (h : Ready s (n + 1) t) : t.srcLen.toNat ≤ t.env.sIn.length :=
  (Nat.le_mul_of_pos_left _ (Nat.succ_pos n)).trans h.offers

/-- The next pass, and what is offered after it. -/
theorem Ready.split (h : Ready s (n + 1) t) : ∃ src rest, t.env.sIn = src ++ rest ∧
    src.length = t.srcLen.toNat ∧ n * t.srcLen.toNat ≤ rest.length := by
  have hoff := h.offers
  rw [Nat.succ_mul] at hoff
  refine ⟨t.env.sIn.take t.srcLen.toNat, t.env.sIn.drop t.srcLen.toNat, (List.take_append_drop _ _).symm,
    List.length_take_of_le h.pass_le, ?_⟩
  rw [List.length_drop]
  omega

/-- An error that is raised with the buffer as the body found it. -/
theorem Ready.endsIn {a : Nat} {x u : State} {e : ErrCode} (h : Ready s n t)
    (hrun : RunsIn a x (u.withTodo [.bbClose, .fail e])) (hs : u.env.sink = t.env.sink) (hp : u.Promise)
    (hl : u.bbBits = t.bbBits) (ha : a ≤ 2 ^ 40) : EndsIn (bodySteps s) x := by
  have hb := le_bodySteps s
  exact endsIn_of_raise hrun (hs.trans h.sink) hp ((congrArg List.length hl).trans_le h.bits) (by omega)

/-! ### The encoder's bodies -/

theorem passes_encCount (h : Ready s (n + 1) t) : Passes (bodySteps s) t bodyEncCount (Ready s n) := by
  intro k
  have hb := le_bodySteps s
  have hlt := t.srcLen.isLt
  obtain ⟨src, rest, hin, hlen, hrest⟩ := h.split
  rcases Nat.eq_zero_or_pos t.srcLen.toNat with h0 | h0
  · exact .inr (h.endsIn (runs_encCount_empty k t (BitVec.eq_of_toNat_eq h0)) rfl
      (promise_of_no_flag rfl rfl rfl) rfl (by omega))
  rcases Nat.lt_or_ge Config.maxLen.toNat t.srcLen.toNat with hmax | hmax
  · exact .inr (h.endsIn (runs_encCount_overflow k t hmax) rfl (promise_of_no_flag rfl rfl rfl) rfl (by omega))
  rcases forall_mem_or_first_not (fun v => ¬ (t.collChk = true ∧ v = t.sentinel)) src with
    hok | ⟨before, v, after, hsplit, hpre, hv⟩
  · have hok' : t.collChk = true → t.sentinel ∉ src := fun hc hm => hok _ hm ⟨hc, rfl⟩
    have hweight := encCountEnd_weightOf t (hlen.trans_le hmax)
    have hmaxLen : Config.maxLen.toNat = 4294967294 := rfl
    have hp : (encCountEnd t src).Promise := by
      refine ⟨fun _ => ?_, nofun, nofun⟩
      rw [hweight, sum_counts]
      exact ⟨counts_sentinel_pos src t.sentinel, by omega⟩
    have hoff : n * t.srcLen.toNat ≤ (t.env.sIn.drop src.length).length := by
      rwa [hin, List.drop_left]
    exact .inl ⟨encCountEnd t src, ⟨hp, h.sink, h.bufBytes, h.bits, hoff⟩,
      (runs_encCount src k t rest hlen h0 hmax hin hok').mono (by omega)⟩
  · obtain ⟨hcoll, rfl⟩ := not_not.mp hv
    have hbefore := (length_before_lt hsplit).trans_eq hlen
    rw [hsplit, List.append_assoc, List.cons_append] at hin
    exact .inr (h.endsIn (runs_encCount_collision before k t _ hbefore hmax hin hcoll
      (fun hm => hpre _ hm ⟨hcoll, rfl⟩)) rfl (promise_of_no_flag rfl rfl rfl) rfl (by omega))

theorem passes_encBuild (h : Ready s n t) : Passes (bodySteps s) t bodyEncBuild (Ready s n) := by
  intro k
  have hb := le_bodySteps s
  cases hv : t.freqValid with
  | false =>
    have hrun : RunsIn 2 (t.withTodo (bodyEncBuild ++ k))
        ((t.withPhase 0x11#8).withTodo [.bbClose, .fail .sequence]) :=
      .step (step_phase _ _ _) (.one (step_needFlag_not (f := .freq) _ hv))
    exact .inr (h.endsIn hrun rfl (h.promise.congr rfl) rfl (by omega))
  | true =>
    obtain ⟨hpos, hsum⟩ := h.promise.freq hv
    obtain ⟨u, hu, htree, -, -, htable, hrun⟩ := runs_encBuild k t hv hpos hsum
    obtain ⟨hleaf, hsym, -⟩ := Format.huffman_spec (weightOf t) t.encSent hpos
    have hnodes := Format.huffman_nodes_le (weightOf t) t.encSent hpos
    have hfreq : u.promisedFreq = t.promisedFreq := (congrArg State.promisedFreq hu).trans rfl
    have hsent : u.encSent = t.encSent := congrArg (·.2.2) hfreq
    have hp : u.Promise :=
      ⟨h.promise.freq_congr hfreq, fun _ => ⟨_, htree.holdsTree, hleaf, hnodes⟩,
        fun _ => ⟨_, htree.holdsTree, htable, hleaf, hnodes, hsent ▸ (hsym _).mpr hpos⟩⟩
    have hready : Ready s n u :=
      ⟨hp, (congrArg (·.env.sink) hu).trans h.sink, (congrArg State.bufBytes hu).trans h.bufBytes,
        by rw [hu]; exact h.bits, by rw [hu]; exact h.offers⟩
    exact .inl ⟨u, hready, hrun.mono (by omega)⟩

/-- The tree section of a tree in the store has at most 511 records, of which at most 256 hold a symbol
(30_encoding.md R87). -/
theorem length_serialize_le {T : Tree} (h : T.nodes ≤ 511) : T.serialize.length ≤ 2559 := by
  have h1 := T.nodes_eq
  have h2 := T.length_serialize
  omega

/-- ENC_EMIT past its checks comes to its end or to the first byte that cannot be coded (R165, R170). -/
theorem passes_encEmit_checked (h : Ready s (n + 1) t) (hv : t.tableValid = true) (hm : t.bbMode = .closed)
    (h0 : 0 < t.srcLen.toNat) : Passes (bodySteps s) t bodyEncEmit State.Promise := by
  intro k
  have hb := le_bodySteps s
  obtain ⟨src, rest, hin, hlen, -⟩ := h.split
  obtain ⟨T, hT, hcodes, -, hnodes, -⟩ := h.promise.table hv
  have hC : ∀ v, (t.codeAt v).length ≤ 511 := fun v =>
    (hcodes v ▸ (T.length_code_lt_nodes v).le).trans hnodes
  have hcost : ∀ {m : Nat}, m ≤ t.srcLen.toNat → T.serialize.length * (s.bufBytes + 3) + T.nodes + 8
      + m * (511 * (s.bufBytes + 2) + 2) + 511 * (s.bufBytes + 2) + 8 * s.bufBytes + 5
      ≤ 2 ^ 42 * s.bufBytes + 2 ^ 42 * 8 := fun hle =>
    Nat.mul_add _ _ _ ▸ encEmit_steps_le (length_serialize_le hnodes) hnodes (hle.trans_lt t.srcLen.isLt)
  rcases forall_mem_or_first_not (Codable t) src with hok | ⟨before, v, after, hsplit, hpre, hbad⟩
  · have hsteps := hcost hlen.le
    exact .inl ⟨encEmitEnd T t src, h.promise.congr rfl,
      (runs_encEmit T 511 src k t rest hv hm h0 h.sink hT hin hlen hok hC).mono
        (by rw [State.bufBits, h.bufBytes]; omega)⟩
  · have hbefore := (length_before_lt hsplit).trans_eq hlen
    have hsteps := hcost hbefore.le
    rw [hsplit, List.append_assoc, List.cons_append] at hin
    have hp : (taken (emitting T t before) 1).Promise :=
      State.Promise.congr (promise_writeAll (s := taken (encEmitStart t []) before.length)
        (h.promise.congr rfl) (T.serialize ++ before.flatMap t.codeAt)) rfl
    exact .inr (endsIn_of_raise
      (runs_encEmit_stop T 511 before v k t _ hv hm hbefore h.sink hT hin hpre hbad hC)
      ((emitting_sink T t before).trans h.sink) hp (emitting_bbBits T t before).le
      (by rw [State.bufBits, h.bufBytes]; omega))

theorem passes_encEmit (h : Ready s (n + 1) t) : Passes (bodySteps s) t bodyEncEmit State.Promise := by
  intro k
  have herror : ∀ {e : ErrCode} {a : Nat}, a ≤ 4 →
      RunsIn a (t.withTodo (bodyEncEmit ++ k)) ((t.withPhase 0x12#8).withTodo [.bbClose, .fail e]) →
      EndsIn (bodySteps s) (t.withTodo (bodyEncEmit ++ k)) := fun ha hrun =>
    h.endsIn hrun rfl (h.promise.congr rfl) rfl (by omega)
  cases hv : t.tableValid with
  | false =>
    exact .inr (herror (by norm_num)
      (.step (step_phase _ _ _) (.one (step_needFlag_not (f := .table) _ hv))))
  | true =>
    have hflag : (t.withPhase 0x12#8).flag .table = true := hv
    by_cases hm : t.bbMode = .closed
    · rcases Nat.eq_zero_or_pos t.srcLen.toNat with h0 | h0
      · exact .inr (herror le_rfl (.step (step_phase _ _ _) (.step (step_needFlag _ hflag)
          (.step (step_needMode _ hm) (.one (step_needSource_not _ (BitVec.eq_of_toNat_eq h0)))))))
      · exact passes_encEmit_checked h hv hm h0 k
    · exact .inr (herror (by norm_num) (.step (step_phase _ _ _) (.step (step_needFlag _ hflag)
        (.one (step_needMode_not _ hm)))))

/-! ### The decoder's bodies -/

theorem length_bbBits_le_avail (t : State) : t.bbBits.length ≤ (avail t).length := by
  simp [avail]

/-- A read session has at most the buffer's bits and 2 ^ 32 - 1 bytes to return. -/
theorem length_avail_lt (t : State) : (avail t).length < t.bbBits.length + 2 ^ 35 := by
  have hr := t.bbRemain.isLt
  have ht := List.length_take_le t.bbRemain.toNat t.env.sIn
  rw [avail, List.length_append, length_flatMap_bitsOfByte]
  omega

/-- The reading of a tree stops within the bits there are. -/
theorem TreeStops.le_length {T : Tree} {bits : List Bool} {room r : Nat} {e : ErrCode}
    (h : TreeStops T bits room e r) : r ≤ bits.length := by
  obtain ⟨-, -, rfl, b, rest, rfl⟩ | ⟨-, rfl, -⟩ := h
  · simp
  · exact le_rfl

/-- Reading DEC_TREE's stream leaves no more bits in the buffer than the stream has. -/
theorem Moved.length_bbBits_le {r : Nat} {u : State} (h : Moved r (decTreeStart t) u) :
    u.bbBits.length ≤ 2 ^ 35 := by
  have h1 := length_bbBits_le_avail u
  have h2 := congrArg List.length h.avail
  have h3 : (Machine.avail (decTreeStart t)).length < 0 + 2 ^ 35 := length_avail_lt (decTreeStart t)
  rw [List.length_drop] at h2
  omega

/-- Reading a tree keeps FREQ_VALID's promise. -/
theorem Moved.promisedFreq_eq {r : Nat} {u : State} (h : Moved r (decTreeStart t) u) :
    u.promisedFreq = t.promisedFreq := (congrArg State.promisedFreq h.eq).trans rfl

theorem Moved.tableValid_eq {r : Nat} {u : State} (h : Moved r (decTreeStart t) u) : u.tableValid = false :=
  (congrArg State.tableValid h.eq).trans rfl

/-- An error that DEC_TREE raises while it reads, its flags cleared (R207). -/
theorem Ready.endsIn_decTree {a r : Nat} {x u : State} {e : ErrCode} (h : Ready s n t)
    (hu : Moved r (decTreeStart t) u) (hrun : RunsIn a x (u.withTodo [.bbClose, .fail e]))
    (ha : a ≤ 2 ^ 40 * s.bufBytes + 2 ^ 40) : EndsIn (bodySteps s) x := by
  have hb := le_bodySteps s
  have htree : u.treeValid = false := (congrArg State.treeValid hu.eq).trans rfl
  exact endsIn_of_raise hrun ((congrArg (·.env.sink) hu.eq).trans h.sink)
    ⟨h.promise.freq_congr hu.promisedFreq_eq, by simp [htree], by simp [hu.tableValid_eq]⟩
    hu.length_bbBits_le (by omega)

/-- DEC_TREE on a closed buffer reads a tree that fits the store, or stops (R200, R207). -/
theorem passes_decTree_closed (h : Ready s (n + 1) t) (hm : t.bbMode = .closed) :
    Passes (bodySteps s) t bodyDecTree (fun u => Ready s 0 u ∧ Supplied u) := by
  intro k
  have hb := le_bodySteps s
  have hbytes : (nextBytes t t.srcLen.toNat).length < 2 ^ 32 :=
    (List.length_take_le _ _).trans_lt t.srcLen.isLt
  have hbits : (streamOf t).length < 2 ^ 35 := by
    rw [streamOf, length_flatMap_bitsOfByte]
    omega
  rcases section_total (streamOf t) 511 with ⟨T, rest, hT, hnodes⟩ | ⟨T, e, r, hT⟩
  · obtain ⟨u, hu, -, hpre, hrun⟩ := runs_decTree T k t rest hm h.pass_le hT hnodes
    have hsteps : 5 + (T.serialize.length * (t.bufBytes + 3) + 2 * T.nodes) + 2
        ≤ 2 ^ 40 * s.bufBytes + 2 ^ 40 := by
      have hser := Nat.mul_le_mul_right (t.bufBytes + 3) (length_serialize_le hnodes)
      rw [h.bufBytes] at hser ⊢
      omega
    cases hleaf : T.isLeaf with
    | true => exact .inr (h.endsIn_decTree hu (by simpa [hleaf] using hrun) hsteps)
    | false =>
      have hp : (decTreeEnd u).Promise :=
        ⟨h.promise.freq_congr hu.promisedFreq_eq, fun _ => ⟨T, hpre.holdsTree.congr rfl, hleaf, hnodes⟩,
          by simp [decTreeEnd, hu.tableValid_eq]⟩
      have hready : Ready s 0 (decTreeEnd u) :=
        ⟨hp, (congrArg (·.env.sink) hu.eq).trans h.sink, hu.bufBytes.trans h.bufBytes,
          hu.length_bbBits_le.trans (Nat.le_add_right _ _), by simp⟩
      exact .inl ⟨decTreeEnd u, ⟨hready, hu.supplied⟩,
        RunsIn.mono (by simpa [hleaf] using hrun) (by omega)⟩
  · obtain ⟨u, hu, hrun⟩ := runs_decTree_stop T k t e r hm h.pass_le hT
    have hr := hT.le_length
    have hsteps : 5 + (r + 1) * (t.bufBytes + 4) ≤ 2 ^ 40 * s.bufBytes + 2 ^ 40 := by
      have hmul : (r + 1) * (t.bufBytes + 4) ≤ 2 ^ 35 * (t.bufBytes + 4) :=
        Nat.mul_le_mul_right _ (by omega)
      rw [h.bufBytes] at hmul ⊢
      omega
    exact .inr (h.endsIn_decTree hu hrun hsteps)

theorem passes_decTree (h : Ready s (n + 1) t) :
    Passes (bodySteps s) t bodyDecTree (fun u => Ready s 0 u ∧ Supplied u) := by
  intro k
  by_cases hm : t.bbMode = .closed
  · exact passes_decTree_closed h hm k
  · exact .inr (h.endsIn (.step (step_phase _ _ _) (.one (step_needMode_not _ hm))) rfl
      (h.promise.congr rfl) rfl (by norm_num))

/-- DEC_PAYLOAD past its checks comes to the sentinel or to the end of the bits (R205, R206, R208). -/
theorem passes_decPayload_checked (h : Ready s n t) (hsup : Supplied t) (hv : t.treeValid = true)
    (hm : t.bbMode = .read) : Passes (bodySteps s) t bodyDecPayload State.Promise := by
  intro k
  have hb := le_bodySteps s
  obtain ⟨T, hT, hleaf, -⟩ := h.promise.tree hv
  match T, hleaf with
  | .node l r, _ =>
    obtain ⟨p, u, hu, -, hrun⟩ := runs_decPayload l r k t hv hm hsup h.sink hT
    have hsteps : ((avail t).length + 1) * (t.bufBytes + 8) + 9 + t.bbRemain.toNat + (avail t).length
        + ((avail t).length + 4) ≤ bodySteps s := by
      have hlen := length_avail_lt t
      have hbits := h.bits
      have hremain := t.bbRemain.isLt
      have hmul : ((avail t).length + 1) * (s.bufBytes + 8)
          ≤ 2 ^ 37 * (s.bbBits.length + 1) * (s.bufBytes + 8) := Nat.mul_le_mul_right _ (by omega)
      have hshare : 2 ^ 37 * (s.bbBits.length + 1) * (s.bufBytes + 8) * 2 ^ 13 = bodySteps s := by
        unfold bodySteps
        ring
      rw [h.bufBytes]
      omega
    cases hspell : (Tree.spell (.node l r) t.sentinel (.node l r) (avail t)).2 with
    | true =>
      have hp : (closeAll (drained u)).Promise :=
        closeAll_drained hm hu ▸ h.promise.congr rfl
      exact .inl ⟨closeAll (drained u), hp, RunsIn.mono (by simpa [hspell] using hrun) (by omega)⟩
    | false =>
      have hl : u.bbBits.length ≤ (avail t).length := by
        refine (length_bbBits_le_avail u).trans ?_
        rw [hu.avail, List.length_drop]
        exact Nat.sub_le _ _
      exact .inr (endsIn_of_raise (by simpa [hspell] using hrun) ((congrArg (·.env.sink) hu.eq).trans h.sink)
        (h.promise.congr ((congrArg State.promised hu.eq).trans rfl)) hl hsteps)

theorem passes_decPayload (h : Ready s n t) (hsup : Supplied t) :
    Passes (bodySteps s) t bodyDecPayload State.Promise := by
  intro k
  have herror : ∀ {e : ErrCode} {a : Nat}, a ≤ 3 →
      RunsIn a (t.withTodo (bodyDecPayload ++ k)) ((t.withPhase 0x21#8).withTodo [.bbClose, .fail e]) →
      EndsIn (bodySteps s) (t.withTodo (bodyDecPayload ++ k)) := fun ha hrun =>
    h.endsIn hrun rfl (h.promise.congr rfl) rfl (by omega)
  cases hv : t.treeValid with
  | false =>
    exact .inr (herror (by norm_num)
      (.step (step_phase _ _ _) (.one (step_needFlag_not (f := .tree) _ hv))))
  | true =>
    by_cases hm : t.bbMode = .read
    · exact passes_decPayload_checked h hsup hv hm k
    · have hflag : (t.withPhase 0x21#8).flag .tree = true := hv
      exact .inr (herror le_rfl (.step (step_phase _ _ _) (.step (step_needFlag _ hflag)
        (.one (step_needMode_not _ hm)))))

/-! ### The bodies of NOP and of the raw commands -/

theorem passes_nop (h : Ready s n t) : Passes (bodySteps s) t [.phase 0x00#8] State.Promise := fun k => by
  have hb := le_bodySteps s
  exact .inl ⟨t.withPhase 0x00#8, h.promise.congr rfl, (RunsIn.one (step_phase _ _ _)).mono (by omega)⟩

theorem passes_bbOpen (h : Ready s n t) (op : Byte) (m : BBMode) :
    Passes (bodySteps s) t [.phase op, .needMode .closed, .bbOpen m] State.Promise := by
  intro k
  have hb := le_bodySteps s
  by_cases hm : t.bbMode = .closed
  · have hrun : RunsIn 3 (t.withTodo ([.phase op, .needMode .closed, .bbOpen m] ++ k))
        ((stepBbOpen m (t.withPhase op)).withTodo k) :=
      .step (step_phase _ _ _) (.step (step_needMode _ hm) (.one (step_bbOpen _ _ _)))
    exact .inl ⟨stepBbOpen m (t.withPhase op), h.promise.congr rfl, hrun.mono (by omega)⟩
  · exact .inr (h.endsIn (.step (step_phase _ _ _) (.one (step_needMode_not _ hm))) rfl
      (h.promise.congr rfl) rfl (by norm_num))

/-- A command that writes at most eight bits, or finds no write session (R131, R132). -/
theorem passes_write (h : Ready s n t) (op : Byte) {st : Stmt} {bs : List Bool} (hbs : bs.length ≤ 8)
    (hwrite : ∀ (k : List Stmt) (u : State), u.bbMode = .write → u.env.sink = none →
      RunsIn (bs.length * (u.bufBytes + 2) + 1) (u.withTodo (st :: k)) ((writeAll bs u).withTodo k))
    (hrefuse : ∀ (k : List Stmt) {u : State}, u.bbMode ≠ .write →
      coreStep (u.withTodo (st :: k)) = some (u.withTodo [.bbClose, .fail .invalidMode])) :
    Passes (bodySteps s) t [.phase op, st] State.Promise := by
  intro k
  have hp : (t.withPhase op).Promise := h.promise.congr rfl
  by_cases hm : t.bbMode = .write
  · have hsteps : bs.length * (t.bufBytes + 2) + 1 + 1 ≤ bodySteps s := by
      have hb := le_bodySteps s
      have hmul := Nat.mul_le_mul_right (t.bufBytes + 2) hbs
      rw [h.bufBytes] at hmul ⊢
      omega
    exact .inl ⟨writeAll bs (t.withPhase op), promise_writeAll hp bs,
      (RunsIn.step (step_phase _ _ _) (hwrite k (t.withPhase op) hm h.sink)).mono hsteps⟩
  · exact .inr (h.endsIn (.step (step_phase _ _ _) (.one (hrefuse k hm))) rfl hp rfl (by norm_num))

theorem passes_writeBit (h : Ready s n t) (op : Byte) (b : Bool) :
    Passes (bodySteps s) t [.phase op, .writeBit b] State.Promise :=
  passes_write h op (bs := [b]) (by norm_num)
    (fun k u hm hs => (runs_writeBits [b] k u hm hs).mono (Nat.le_succ _)) step_writeBit_not

theorem passes_writeByte (h : Ready s n t) (op v : Byte) :
    Passes (bodySteps s) t [.phase op, .writeByte v] State.Promise :=
  passes_write h op (bs := bitsOfByte v) le_rfl
    (fun k u hm hs => .step (step_writeByte k hm) (runs_writeBits (bitsOfByte v) k u hm hs)) step_writeByte_not

theorem passes_readBit (h : Ready s n t) (hsup : Supplied t) (op : Byte) :
    Passes (bodySteps s) t [.phase op, .readBit .result] State.Promise := by
  intro k
  have hb := le_bodySteps s
  have hbuf := h.bufBytes
  by_cases hm : t.bbMode = .read
  · cases hbits : avail (t.withPhase op) with
    | nil =>
      exact .inr (h.endsIn (.step (step_phase _ _ _) (runs_readBit_end .result k (t.withPhase op) hm hsup hbits))
        rfl (h.promise.congr rfl) rfl (by norm_num))
    | cons b rest =>
      obtain ⟨u, ⟨⟨B, m, -, hu⟩, -⟩, hrun⟩ := runs_bit .result k (t.withPhase op) b rest hm hsup hbits
      have hp : u.Promise := h.promise.congr (hu ▸ rfl)
      exact .inl ⟨{ u with result := b }, hp.congr rfl, (RunsIn.step (step_phase _ _ _) hrun).mono (by
        show t.bufBytes + 3 + 1 ≤ _
        omega)⟩
  · exact .inr (h.endsIn (.step (step_phase _ _ _) (.one (step_readBit_not _ hm))) rfl
      (h.promise.congr rfl) rfl (by norm_num))

theorem passes_bbClose (h : Ready s n t) (op : Byte) :
    Passes (bodySteps s) t [.phase op, .bbClose] State.Promise := by
  intro k
  have hb := le_bodySteps s
  have hbits := h.bits
  exact .inl ⟨closeAll (t.withPhase op), promise_closeAll (h.promise.congr rfl),
    (RunsIn.step (step_phase _ _ _) (runs_bbClose k (t.withPhase op) h.sink)).mono (by
      show t.bbBits.length + 3 + 1 ≤ _
      omega)⟩

end

/-! ### Every command -/

/-- What an accepted command starts from. -/
theorem ready_accepted {s : State} {w : Word} (hq : s.Quiet) (hp : s.Promise)
    (hoff : Offers s (2 * s.srcLen.toNat)) : Ready s 2 (accepted s w) :=
  ⟨hp.congr rfl, hq.sink, rfl, Nat.le_add_left _ _, hoff⟩

/-- The one command term that is not well formed (log 11). -/
theorem eq_bbWriteBit_of_not_wellFormed {i : Instr} (h : ¬ i.wellFormed = true) :
    ∃ arg, i = .bbWriteBit arg ∧ arg.extractLsb' 1 7 ≠ 0#7 := by
  cases i with
  | bbWriteBit arg => exact ⟨arg, rfl, fun h0 => h (beq_iff_eq.mpr h0)⟩
  | _ => exact absurd rfl h

/-- Settles O46: each body of a well-formed command passes, and the ill-formed term ends at the legality check. -/
theorem everyCommandEnds : Obligations.EveryCommandEnds := by
  unfold Obligations.EveryCommandEnds
  intro s i hq _ hp hoff hsup
  have hready : Ready s 2 (accepted s (encodeWord i)) := ready_accepted hq hp hoff
  have hsup' : Supplied (accepted s (encodeWord i)) := hsup
  have hturn := bodySteps_le_runOn s
  have hone : bodySteps s + 2 ≤ runOn s := by omega
  by_cases hi : i.wellFormed = true
  · cases i with
    | nop => exact exec_ends hi hq rfl (passes_nop hready) hone
    | encCount => exact exec_ends hi hq rfl ((passes_encCount hready).imp fun _ => Ready.promise) hone
    | encBuild => exact exec_ends hi hq rfl ((passes_encBuild hready).imp fun _ => Ready.promise) hone
    | encEmit => exact exec_ends hi hq rfl (passes_encEmit hready) hone
    | encode =>
      exact exec_ends hi hq rfl (((passes_encCount hready).append fun _ => passes_encBuild).append
        fun _ => passes_encEmit) (by omega)
    | decTree => exact exec_ends hi hq rfl ((passes_decTree hready).imp fun _ hu => hu.1.promise) hone
    | decPayload => exact exec_ends hi hq rfl (passes_decPayload hready hsup') hone
    | decode =>
      exact exec_ends hi hq rfl ((passes_decTree hready).append fun _ ⟨hu, hsup⟩ => passes_decPayload hu hsup)
        (by omega)
    | bbOpenW => exact exec_ends hi hq rfl (passes_bbOpen hready _ _) hone
    | bbOpenR => exact exec_ends hi hq rfl (passes_bbOpen hready _ _) hone
    | bbWriteBit arg => exact exec_ends hi hq rfl (passes_writeBit hready _ _) hone
    | bbWriteByte arg => exact exec_ends hi hq rfl (passes_writeByte hready _ _) hone
    | bbReadBit => exact exec_ends hi hq rfl (passes_readBit hready hsup' _) hone
    | bbClose => exact exec_ends hi hq rfl (passes_bbClose hready _) hone
  · obtain ⟨arg, rfl, harg⟩ := eq_bbWriteBit_of_not_wellFormed hi
    have hexec := issue_illegal hq (illegalWord_bbWriteBit harg)
      [.phase 0x32#8, .writeBit (argBit arg), .complete]
    exact ⟨_, congrArg Host.Outcome.next hexec, rfl, rfl, (promise_closeAll hready.promise).congr rfl⟩

end Sys2Proof.Machine
end

section
/-!
PROOFS. The raw bit-buffer commands (41_bitbuffer.md R129 to R135): how each of them ends on a quiet machine,
and whole sessions of raw writes and raw reads (R127, R128).
-/

namespace Sys2Proof.Machine

/-! ### From acceptance to the end of a command -/

/-- `s` after the command `i` has been accepted and has entered the phase with opcode `op` (R100, R106). -/
def entered (s : State) (i : Instr) (op : Byte) : State := (accepted s (encodeWord i)).withPhase op

section

variable {s : State} {i : Instr} {op : Byte} {body : List Stmt} {b : Nat} (hi : i.wellFormed = true)
  (hq : s.Quiet)
  (hexec : exec i s = .next (issue (encodeWord i) (.legality :: (.phase op :: body) ++ [.complete]) s))

include hi hq hexec

/-- A well-formed command whose body runs to its end completes (R103). -/
theorem exec_completes {u : State}
    (h : RunsIn b ((entered s i op).withTodo (body ++ [.complete])) (u.withTodo [.complete]))
    (hb : b ≤ 8 * (s.bufBytes + 8) + s.bbBits.length) : exec i s = .next u.completeStep := by
  have hturn := runOn_mul s 8 (by norm_num)
  rw [hexec, issue_completes (body := .phase op :: body) hi hq (.step (step_phase _ _ _) h) (by omega)]

/-- A well-formed command whose body raises an error before it has changed anything fails (R261). -/
theorem exec_raises {e : ErrCode} (h : RunsIn b ((entered s i op).withTodo (body ++ [.complete]))
      ((entered s i op).withTodo [.bbClose, .fail e]))
    (hb : b ≤ 8) : exec i s = .next (raised (entered s i op) e) := by
  have hturn := runOn_mul s 8 (by norm_num)
  rw [hexec, issue_fails (t := entered s i op) (body := .phase op :: body) hi hq hq.sink
    (.step (step_phase _ _ _) h) (by
      show b + 1 + (s.bbBits.length + 5) ≤ _
      omega)]

end

/-- `complete()` reports success and the command's own opcode (R103). -/
theorem completed_completeStep {t : State} {i : Instr} (h : t.cmdw = encodeWord i) :
    Completed i t.completeStep :=
  ⟨rfl, rfl, rfl, (congrArg opField h).trans (Laws.WordFields.of_word i).1, h⟩

/-- A quiet machine is quiet again when a command has completed. -/
theorem quiet_of_completed {s t : State} {i : Instr} (hq : s.Quiet) (hc : Completed i t)
    (hk : KeepsHost s t) : t.Quiet := by
  obtain ⟨hbusy, -⟩ := hc
  obtain ⟨-, hsched, hsink⟩ := hq
  obtain ⟨-, -, -, -, -, -, -, -, hsink', hsched', -⟩ := hk
  exact ⟨by simpa [State.busy] using hbusy, hsched'.trans hsched, hsink'.trans hsink⟩

theorem KeepsHost.bufBits_eq {s t : State} (h : KeepsHost s t) : t.bufBits = s.bufBits := by
  obtain ⟨hextra, -⟩ := h
  simp only [State.bufBits, State.bufBytes, hextra]

/-- `s` with another mode, other bits and another remaining length of the bit buffer (10_state.md R39). -/
def State.withBuffer (s : State) (m : BBMode) (bits : List Bool) (remain : Word) : State :=
  { s with bbMode := m, bbBits := bits, bbRemain := remain }

/-- The command `i` from `s` has completed in `t`: it has sent the bytes `out`, set the bit buffer to mode
`m`, the bits `bits` and the remaining length `remain`, and changed nothing else. -/
structure ChannelEnd (i : Instr) (m : BBMode) (bits : List Bool) (remain : Word) (out : List Byte)
    (s t : State) : Prop where
  completed : Completed i t
  mode : t.bbMode = m
  bits : t.bbBits = bits
  remain : t.bbRemain = remain
  takes : TakesNothing s t
  sends : Sends out s t
  host : KeepsHost s t
  flags : KeepsFlags s t
  memories : KeepsMemories s t
  result : t.result = s.result

theorem channelEnd_of_exec {s : State} {i : Instr} {op : Byte} {m : BBMode} {bits : List Bool}
    {remain : Word} {out : List Byte}
    (h : exec i s = .next (((entered s i op).sent out).withBuffer m bits remain).completeStep) :
    ∃ t, exec i s = .next t ∧ ChannelEnd i m bits remain out s t :=
  ⟨_, h, completed_completeStep rfl, rfl, rfl, rfl, ⟨rfl, rfl⟩, ⟨rfl, BitVec.zero_add _⟩,
    ⟨rfl, rfl, rfl, rfl, rfl, rfl, rfl, rfl, rfl, rfl, rfl⟩, ⟨rfl, rfl, rfl, rfl⟩,
    ⟨⟨rfl, rfl, rfl⟩, ⟨rfl, rfl, rfl⟩, rfl, rfl⟩, rfl⟩

/-- The command `i` from `s` has failed in `t` with error `e` in the phase with opcode `op`: the release has
sent what was pending and closed the buffer, and nothing else has changed (60_exceptions.md R261). -/
structure ChannelFailure (i : Instr) (e : ErrCode) (op : Byte) (s t : State) : Prop where
  failed : Failed e op (encodeWord i) t
  takes : TakesNothing s t
  sends : Sends (releaseBytes s) s t
  host : KeepsHost s t
  flags : KeepsFlags s t
  memories : KeepsMemories s t
  result : t.result = s.result

/-- The error completion of a command that has only entered a phase. -/
theorem channelFailure_of_exec {s : State} {i : Instr} {op : Byte} {e : ErrCode} (he : e ≠ .illegalCmd)
    (h : exec i s = .next (raised (entered s i op) e)) :
    ∃ t, exec i s = .next t ∧ ChannelFailure i e op s t := by
  rw [raised_eq] at h
  exact ⟨_, h, ⟨rfl, rfl, rfl, if_neg he, rfl, rfl, rfl, rfl⟩, ⟨rfl, rfl⟩, ⟨rfl, BitVec.zero_add _⟩,
    ⟨rfl, rfl, rfl, rfl, rfl, rfl, rfl, rfl, rfl, rfl, rfl⟩, ⟨rfl, rfl, rfl, rfl⟩,
    ⟨⟨rfl, rfl, rfl⟩, ⟨rfl, rfl, rfl⟩, rfl, rfl⟩, rfl⟩

/-! ### Opening a session -/

/-- An open command on a closed buffer is the check of the mode and `bbOpen(m)` (R121, R129, R130). -/
theorem exec_bbOpen {s : State} {i : Instr} {op : Byte} {m : BBMode} (hi : i.wellFormed = true) (hq : s.Quiet)
    (hm : s.bbMode = .closed)
    (hexec : exec i s = .next (issue (encodeWord i)
      (.legality :: [.phase op, .needMode .closed, .bbOpen m] ++ [.complete]) s)) :
    ∃ t, exec i s = .next t ∧ ChannelEnd i m [] (if m = .read then s.srcLen else 0#32) [] s t := by
  have hrun : RunsIn 2 ((entered s i op).withTodo ([.needMode .closed, .bbOpen m] ++ [.complete]))
      ((stepBbOpen m (entered s i op)).withTodo [.complete]) :=
    .step (step_needMode _ hm) (.one (step_bbOpen _ _ _))
  refine channelEnd_of_exec (op := op) ?_
  rw [sent_nil]
  exact exec_completes hi hq hexec hrun (by omega)

theorem exec_bbOpenW {s : State} (hq : s.Quiet) (hm : s.bbMode = .closed) :
    ∃ t, exec .bbOpenW s = .next t ∧ ChannelEnd .bbOpenW .write [] 0#32 [] s t :=
  exec_bbOpen rfl hq hm rfl

theorem exec_bbOpenR {s : State} (hq : s.Quiet) (hm : s.bbMode = .closed) :
    ∃ t, exec .bbOpenR s = .next t ∧ ChannelEnd .bbOpenR .read [] s.srcLen [] s t :=
  exec_bbOpen rfl hq hm rfl

/-- Settles O11: BB_OPEN_W is the open command whose mode is WRITE. -/
theorem openForWriting : Obligations.OpenForWriting := by
  unfold Obligations.OpenForWriting
  intro s hq hm
  obtain ⟨t, hexec, ht⟩ := exec_bbOpenW hq hm
  exact ⟨t, hexec, ht.completed, ht.mode, ht.bits, ht.remain, ht.takes, ht.sends, ht.host, ht.flags,
    ht.memories, ht.result⟩

/-- Settles O12: BB_OPEN_R is the open command whose mode is READ. -/
theorem openForReading : Obligations.OpenForReading := by
  unfold Obligations.OpenForReading
  intro s hq hm
  obtain ⟨t, hexec, ht⟩ := exec_bbOpenR hq hm
  exact ⟨t, hexec, ht.completed, ht.mode, ht.bits, ht.remain, ht.takes, ht.sends, ht.host, ht.flags,
    ht.memories, ht.result⟩

/-- A command whose body begins with the check that the buffer is CLOSED fails with a session open. -/
theorem exec_needs_closed {s : State} {i : Instr} {op : Byte} {k : List Stmt} (hi : i.wellFormed = true)
    (hq : s.Quiet) (hm : s.bbMode ≠ .closed)
    (hexec : exec i s = .next (issue (encodeWord i)
      (.legality :: (.phase op :: .needMode .closed :: k) ++ [.complete]) s)) :
    ∃ t, exec i s = .next t ∧ ChannelFailure i .invalidMode op s t :=
  channelFailure_of_exec (by decide)
    (exec_raises hi hq hexec (.one (step_needMode_not _ hm)) (by norm_num))

/-- ENC_EMIT with a table checks that the buffer is CLOSED after the flag (42_encoder.md R170). -/
theorem exec_encEmit_open_session {s : State} (hq : s.Quiet) (hm : s.bbMode ≠ .closed)
    (hv : s.tableValid = true) :
    ∃ t, exec .encEmit s = .next t ∧ ChannelFailure .encEmit .invalidMode 0x12#8 s t :=
  channelFailure_of_exec (by decide) (exec_raises (body := bodyEncEmit.tail) rfl hq rfl
    (.step (step_needFlag (f := .table) _ hv) (.one (step_needMode_not _ hm))) (by norm_num))

/-- Settles O13: each of the five commands comes to the check that the buffer is CLOSED before it has changed
anything; DECODE does so in the phase of DEC_TREE. -/
theorem openSessionIsRefused : Obligations.OpenSessionIsRefused := by
  unfold Obligations.OpenSessionIsRefused
  intro s i hq hm hi
  have hfail : ∃ t, exec i s = .next t ∧
      ChannelFailure i .invalidMode (if i = .decode then 0x20#8 else i.opcode) s t := by
    rcases hi with rfl | rfl | ⟨rfl, hv⟩ | rfl | rfl
    · exact exec_needs_closed (k := [.bbOpen .write]) rfl hq hm rfl
    · exact exec_needs_closed (k := [.bbOpen .read]) rfl hq hm rfl
    · exact exec_encEmit_open_session hq hm hv
    · exact exec_needs_closed (k := bodyDecTree.drop 2) rfl hq hm rfl
    · exact exec_needs_closed (k := bodyDecTree.drop 2 ++ bodyDecPayload) rfl hq hm rfl
  obtain ⟨t, hexec, ht⟩ := hfail
  exact ⟨t, hexec, ht.failed, ht.takes, ht.sends, ht.host, ht.flags, ht.memories, ht.result⟩

/-! ### Raw writes -/

theorem length_writeOne (b : Bool) {s : State} (h : s.bbBits.length < s.bufBits) :
    (writeOne b s).bbBits.length = (s.bbBits.length + 1) % s.bufBits := by
  unfold writeOne
  rw [List.length_append, List.length_singleton]
  split
  next hfull => rw [hfull, Nat.mod_self]; rfl
  next hfull =>
    rw [Nat.mod_eq_of_lt (by omega)]
    exact List.length_append

/-- The buffer holds the bits written since it was last full. -/
theorem length_writeAll (bs : List Bool) {s : State} (h : s.bbBits.length < s.bufBits) :
    (writeAll bs s).bbBits.length = (s.bbBits.length + bs.length) % s.bufBits := by
  induction bs generalizing s with
  | nil => rw [writeAll_nil, List.length_nil, Nat.add_zero, Nat.mod_eq_of_lt h]
  | cons b bs ih =>
    have hbuf : (writeOne b s).bufBits = s.bufBits := congrArg (8 * ·) (writeOne_bufBytes b s)
    have hone := length_writeOne b h
    rw [writeAll_cons, ih (by rw [hone, hbuf]; exact Nat.mod_lt _ (bufBits_pos s)), hone, hbuf,
      Nat.mod_add_mod, List.length_cons, Nat.add_assoc, Nat.add_comm 1]

/-- The number of bits of `bits` that writing them into an empty buffer sends (R122). -/
def flushLength (s : State) (bits : List Bool) : Nat := s.bufBits * (bits.length / s.bufBits)

theorem length_drop_flushLength (s : State) (bits : List Bool) :
    (bits.drop (flushLength s bits)).length = bits.length % s.bufBits := by
  rw [List.length_drop, flushLength, Nat.mod_eq_sub]

/-- Exactly the full groups of BUF_BITS bits have been sent (R122, R127). -/
theorem writeAll_eq_flush (bs : List Bool) {s : State} (h : s.bbBits.length < s.bufBits) :
    writeAll bs s = (s.sent (packBits ((s.bbBits ++ bs).take (flushLength s (s.bbBits ++ bs))))).withBits
      ((s.bbBits ++ bs).drop (flushLength s (s.bbBits ++ bs))) := by
  obtain ⟨m, hm, -, hw⟩ := writeAll_session bs s h
  have hlen : ((s.bbBits ++ bs).drop (8 * m)).length = (s.bbBits ++ bs).length % s.bufBits := by
    rw [List.length_append, ← length_writeAll bs h, hw, withBits_bbBits]
  have hflush : 8 * m = flushLength s (s.bbBits ++ bs) := by
    have hdiv := Nat.div_add_mod (s.bbBits ++ bs).length s.bufBits
    rw [List.length_drop] at hlen
    rw [flushLength]
    omega
  rw [hw, hflush]

/-- The two raw write commands (R131, R132). -/
def IsRawWrite (i : Instr) : Prop := (∃ arg, i = .bbWriteBit arg) ∨ ∃ arg, i = .bbWriteByte arg

/-- A raw write is one statement after its phase, which in WRITE mode writes the command's bits and
otherwise raises INVALID_MODE (R122, R124). -/
theorem rawWrite_body {i : Instr} (hi : IsRawWrite i) :
    ∃ st, (∀ s, exec i s
        = .next (issue (encodeWord i) (.legality :: [.phase i.opcode, st] ++ [.complete]) s)) ∧
      (∀ (k : List Stmt) (u : State), u.bbMode = .write → u.env.sink = none →
        RunsIn (8 * (u.bufBytes + 2) + 1) (u.withTodo (st :: k)) ((writeAll (writtenBits i) u).withTodo k)) ∧
      ∀ (k : List Stmt) (u : State), u.bbMode ≠ .write →
        coreStep (u.withTodo (st :: k)) = some (u.withTodo [.bbClose, .fail .invalidMode]) := by
  rcases hi with ⟨arg, rfl⟩ | ⟨arg, rfl⟩
  · exact ⟨.writeBit (argBit arg), fun _ => rfl,
      fun k u hm hs => (runs_writeBits [argBit arg] k u hm hs).mono (by
        rw [List.length_singleton]; omega), fun k u => step_writeBit_not k⟩
  · exact ⟨.writeByte arg, fun _ => rfl,
      fun k u hm hs => .step (step_writeByte k hm) (runs_writeBits (bitsOfByte arg) k u hm hs),
      fun k u => step_writeByte_not k⟩

/-- A raw write in WRITE mode sends the full groups and keeps the other bits (R131, R132). -/
theorem exec_rawWrite {s : State} {i : Instr} (hw : IsRawWrite i) (hi : i.wellFormed = true) (hq : s.Quiet)
    (hm : s.bbMode = .write) (hroom : s.bbBits.length < s.bufBits) {bits : List Bool}
    (hbits : s.bbBits ++ writtenBits i = bits) :
    ∃ t, exec i s = .next t ∧ ChannelEnd i .write (bits.drop (flushLength s bits)) s.bbRemain
      (packBits (bits.take (flushLength s bits))) s t := by
  obtain ⟨st, hexec, hwrite, -⟩ := rawWrite_body hw
  have hdone := exec_completes (body := [st]) hi hq (hexec s) (hwrite [.complete] _ hm hq.sink) (by
    show 8 * (s.bufBytes + 2) + 1 ≤ _
    omega)
  rw [writeAll_eq_flush _ (show (entered s i i.opcode).bbBits.length < s.bufBits from hroom)] at hdone
  subst hbits
  rw [← hm]
  exact channelEnd_of_exec hdone

/-- Bits that leave room in the buffer are not sent. -/
theorem flushLength_of_room {s : State} {bits : List Bool} (h : bits.length < s.bufBits) :
    flushLength s bits = 0 := by
  rw [flushLength, Nat.div_eq_of_lt h, Nat.mul_zero]

/-- Bits that fill the buffer, but not twice, are sent as far as they fill it. -/
theorem flushLength_of_full {s : State} {bits : List Bool} (h : s.bufBits ≤ bits.length)
    (h2 : bits.length < 2 * s.bufBits) : flushLength s bits = s.bufBits := by
  rw [flushLength, Nat.div_eq_of_lt_le (k := 1) (by omega) (by omega), Nat.mul_one]

/-- Settles O14: with one more bit the buffer holds at most BUF_BITS bits, and is sent as a whole if it holds so
many. -/
theorem writeBitAppends : Obligations.WriteBitAppends := by
  unfold Obligations.WriteBitAppends
  intro s arg hq hm hroom harg
  obtain ⟨t, hexec, ht⟩ := exec_rawWrite (.inl ⟨arg, rfl⟩) (beq_iff_eq.mpr harg) hq hm hroom
    (bits := s.bbBits ++ [arg.getLsbD 0]) rfl
  have hlen : (s.bbBits ++ [arg.getLsbD 0]).length = s.bbBits.length + 1 := List.length_append
  have hbits := ht.bits
  have hsends := ht.sends
  refine ⟨t, hexec, ht.completed, ht.mode, ht.remain, ?_, ht.takes, ht.host, ht.flags, ht.memories, ht.result⟩
  split
  next hfull =>
    rw [flushLength_of_full (by omega) (by omega), ← hfull, ← hlen] at hbits hsends
    rw [List.drop_length] at hbits
    rw [List.take_length] at hsends
    exact ⟨hbits, hsends⟩
  next hfull =>
    rw [flushLength_of_room (by omega)] at hbits hsends
    rw [List.take_zero, packBits_nil] at hsends
    exact ⟨hbits, hsends⟩

/-- Settles O15: eight more bits fill the buffer at most once, as BUF_BITS is at least 8. -/
theorem writeByteAppends : Obligations.WriteByteAppends := by
  unfold Obligations.WriteByteAppends
  intro s arg hq hm hroom
  obtain ⟨t, hexec, ht⟩ := exec_rawWrite (.inr ⟨arg, rfl⟩) rfl hq hm hroom
    (bits := s.bbBits ++ bitsOfByte arg) rfl
  have hlen : (s.bbBits ++ bitsOfByte arg).length = s.bbBits.length + 8 := List.length_append
  have hbuf : 8 ≤ s.bufBits := by
    rw [State.bufBits, State.bufBytes]; omega
  have hbits := ht.bits
  have hsends := ht.sends
  refine ⟨t, hexec, ht.completed, ht.mode, ht.remain, ?_, ht.takes, ht.host, ht.flags, ht.memories, ht.result⟩
  split
  next hfits =>
    rw [flushLength_of_room (by omega)] at hbits hsends
    rw [List.take_zero, packBits_nil] at hsends
    exact ⟨hbits, hsends⟩
  next hfits =>
    rw [flushLength_of_full (by omega) (by omega)] at hbits hsends
    exact ⟨hbits, hsends⟩

/-- Settles O16: the write's own check of the mode raises the error, and there is no write session whose bits the
release could send. -/
theorem writeNeedsWriteMode : Obligations.WriteNeedsWriteMode := by
  unfold Obligations.WriteNeedsWriteMode
  intro s i hq hm hi hw
  obtain ⟨st, hexec, -, hrefuse⟩ := rawWrite_body hw
  have hraised := exec_raises (body := [st]) hi hq (hexec s) (.one (hrefuse [.complete] _ hm)) (by norm_num)
  obtain ⟨t, hexec, ht⟩ := channelFailure_of_exec (by decide) hraised
  have hnone : releaseBytes s = [] := if_neg hm
  exact ⟨t, hexec, ht.failed, ht.takes, hnone ▸ ht.sends, ht.host, ht.flags, ht.memories, ht.result⟩

/-! ### Closing -/

theorem closeAll_eq_shut (s : State) : closeAll s = (s.sent (releaseBytes s)).shut := by
  unfold closeAll releaseBytes
  split
  · rfl
  · rw [sent_nil]; rfl

/-- BB_CLOSE is `bbClose()` (R126, R134). -/
theorem exec_bbClose {s : State} (hq : s.Quiet) :
    ∃ t, exec .bbClose s = .next t ∧ ChannelEnd .bbClose .closed [] 0#32 (releaseBytes s) s t := by
  have hdone := exec_completes (body := [.bbClose]) rfl hq rfl
    (runs_bbClose [.complete] (entered s .bbClose 0x35#8) hq.sink) (by
      show s.bbBits.length + 3 ≤ _
      omega)
  rw [closeAll_eq_shut] at hdone
  exact channelEnd_of_exec hdone

/-- Settles O19: what BB_CLOSE sends is what the release of an error would send. -/
theorem closeReleases : Obligations.CloseReleases := by
  unfold Obligations.CloseReleases
  intro s hq
  obtain ⟨t, hexec, ht⟩ := exec_bbClose hq
  exact ⟨t, hexec, ht.completed, ht.mode, ht.bits, ht.remain, ht.takes, ht.sends, ht.host, ht.flags,
    ht.memories, ht.result⟩

/-! ### A session of raw writes -/

/-- The full groups of a bit sequence may be packed first (R127). -/
theorem packBits_take_flushLength (s : State) (bits more : List Bool) :
    packBits (bits.take (flushLength s bits)) ++ packBits (bits.drop (flushLength s bits) ++ more)
      = packBits (bits ++ more) := by
  have hle : flushLength s bits ≤ bits.length := Nat.mul_div_le _ _
  have hbytes : (bits.take (flushLength s bits)).length = 8 * (s.bufBytes * (bits.length / s.bufBits)) := by
    rw [List.length_take_of_le hle, flushLength, ← Nat.mul_assoc]
    rfl
  rw [← packBits_append hbytes, ← List.append_assoc, List.take_append_drop]

/-- The rest of a write session, from any state of it: raw writes and the close send the bits in the buffer and
the bits written, packed, and the close sends those after the last full group (R127). -/
theorem allComplete_writes_close (ws : List Instr) {s : State} (hq : s.Quiet) (hm : s.bbMode = .write)
    (hroom : s.bbBits.length < s.bufBits) (hws : ∀ i ∈ ws, i.wellFormed = true ∧ IsRawWrite i) :
    ∃ t, AllComplete (ws ++ [.bbClose]) s t ∧
      t.env.sOut = s.env.sOut ++ packBits (s.bbBits ++ ws.flatMap writtenBits) ∧
      t.outCount
        = BitVec.ofNat 32 (ceilDiv8 ((s.bbBits ++ ws.flatMap writtenBits).length % s.bufBits)) ∧
      t.bbMode = .closed := by
  induction ws generalizing s with
  | nil =>
    obtain ⟨t, hexec, ht⟩ := exec_bbClose hq
    have hrelease : releaseBytes s = packBits s.bbBits := if_pos hm
    obtain ⟨hout, hcount⟩ := ht.sends
    rw [hrelease] at hout hcount
    rw [length_packBits] at hcount
    rw [List.flatMap_nil, List.append_nil, Nat.mod_eq_of_lt hroom]
    exact ⟨t, ⟨t, hexec, ht.completed, rfl⟩, hout, hcount, ht.mode⟩
  | cons i ws ih =>
    obtain ⟨⟨hi, hw⟩, hws⟩ := List.forall_mem_cons.mp hws
    obtain ⟨bits, hbits⟩ : ∃ bits, s.bbBits ++ writtenBits i = bits := ⟨_, rfl⟩
    obtain ⟨u, hexec, hu⟩ := exec_rawWrite hw hi hq hm hroom hbits
    have hbuf := hu.host.bufBits_eq
    have hroom' : u.bbBits.length < u.bufBits := by
      rw [hu.bits, length_drop_flushLength, hbuf]
      exact Nat.mod_lt _ (bufBits_pos s)
    obtain ⟨t, hall, hout, hcount, hclosed⟩ :=
      ih (quiet_of_completed hq hu.completed hu.host) hu.mode hroom' hws
    rw [List.flatMap_cons, ← List.append_assoc, hbits]
    refine ⟨t, ⟨u, hexec, hu.completed, hall⟩, ?_, ?_, hclosed⟩
    · rw [hout, hu.sends.1, hu.bits, List.append_assoc, packBits_take_flushLength]
    · rw [hcount, hu.bits, hbuf, List.length_append, length_drop_flushLength, List.length_append,
        Nat.mod_add_mod]

/-- Settles O20: BB_OPEN_W opens the session with an empty buffer. -/
theorem writeSessionSendsItsBits : Obligations.WriteSessionSendsItsBits := by
  unfold Obligations.WriteSessionSendsItsBits
  intro s ws hq hm hws
  obtain ⟨u, hexec, hu⟩ := exec_bbOpenW hq hm
  obtain ⟨t, hall, hout, hcount, hclosed⟩ := allComplete_writes_close ws
    (quiet_of_completed hq hu.completed hu.host) hu.mode (by rw [hu.bits]; exact bufBits_pos u) hws
  rw [hu.bits, List.nil_append] at hout hcount
  rw [hu.sends.1, List.append_nil] at hout
  rw [hu.host.bufBits_eq] at hcount
  exact ⟨t, ⟨u, hexec, hu.completed, hall⟩, hout, hcount, hclosed⟩

/-! ### Raw reads -/

/-- The state in which BB_READ_BIT reads its bit. -/
abbrev readStart (s : State) : State := entered s .bbReadBit 0x34#8

/-- BB_READ_BIT whose `readBit()` delivers `b` completes with RESULT = `b` (R133). -/
theorem exec_bbReadBit {s u : State} {b : Bool} (hq : s.Quiet)
    (h : RunsIn (s.bufBytes + 3) ((readStart s).withTodo [.readBit .result, .complete])
      (deliverBit .result b (u.withTodo [.complete]))) :
    exec .bbReadBit s = .next ({ u with result := b } : State).completeStep :=
  exec_completes (body := [.readBit .result]) rfl hq rfl h (by omega)

/-- Settles O17: only the position in the session moves, by the bytes of the refill if there is one. -/
theorem readBitReturns : Obligations.ReadBitReturns := by
  unfold Obligations.ReadBitReturns
  intro s b rest hq hm hsup hav
  obtain ⟨B, R, n, hn, rfl, -, hav', hcase, hrun⟩ :=
    runs_readBit .result [.complete] (readStart s) b rest hm hsup hav
  have htaken : (readStart s).inCount + BitVec.ofNat 32 n = BitVec.ofNat 32 n := BitVec.zero_add _
  refine ⟨_, exec_bbReadBit hq hrun, completed_completeStep rfl, rfl, hm, hav', ?_,
    ⟨(List.append_nil _).symm, rfl⟩, ⟨rfl, rfl, rfl, rfl, rfl, rfl, rfl, rfl, rfl, rfl, rfl⟩,
    ⟨rfl, rfl, rfl, rfl⟩, ⟨⟨rfl, rfl, rfl⟩, ⟨rfl, rfl, rfl⟩, rfl, rfl⟩⟩
  by_cases hnil : s.bbBits = []
  · rw [if_pos (show (readStart s).bbBits = [] from hnil)] at hcase
    rw [if_pos hnil]
    subst hcase
    exact ⟨⟨rfl, htaken⟩, remain_sub hn⟩
  · rw [if_neg (show (readStart s).bbBits ≠ [] from hnil)] at hcase
    rw [if_neg hnil]
    subst hcase
    exact ⟨⟨rfl, htaken⟩, BitVec.sub_zero _⟩

/-- BB_READ_BIT outside READ mode (R133). -/
theorem exec_bbReadBit_not_read {s : State} (hq : s.Quiet) (hm : s.bbMode ≠ .read) :
    ∃ t, exec .bbReadBit s = .next t ∧ ChannelFailure .bbReadBit .invalidMode 0x34#8 s t :=
  channelFailure_of_exec (by decide) (exec_raises (body := [.readBit .result]) rfl hq rfl
    (.one (step_readBit_not _ hm)) (by norm_num))

/-- BB_READ_BIT at the end of the session (R125, R133). -/
theorem exec_bbReadBit_end {s : State} (hq : s.Quiet) (hm : s.bbMode = .read) (hb : s.bbBits = [])
    (hr : s.bbRemain = 0#32) :
    ∃ t, exec .bbReadBit s = .next t ∧ ChannelFailure .bbReadBit .endOfStream 0x34#8 s t :=
  channelFailure_of_exec (by decide) (exec_raises (body := [.readBit .result]) rfl hq rfl
    (.one (step_readBit_end _ _ _ hm hb hr)) (by norm_num))

/-- Settles O18: `readBit()` raises both errors before it moves the position. -/
theorem readBitErrors : Obligations.ReadBitErrors := by
  unfold Obligations.ReadBitErrors
  intro s e hq he
  have hfail : ∃ t, exec .bbReadBit s = .next t ∧ ChannelFailure .bbReadBit e 0x34#8 s t := by
    rcases he with ⟨hm, rfl⟩ | ⟨hm, hb, hr, rfl⟩
    · exact exec_bbReadBit_not_read hq hm
    · exact exec_bbReadBit_end hq hm hb hr
  obtain ⟨t, hexec, ht⟩ := hfail
  exact ⟨t, hexec, ht.failed, ht.result, ht.takes, ht.sends, ht.host, ht.flags, ht.memories⟩

/-! ### A session of raw reads -/

/-- `t` is the machine that has opened a read session of `n0` bytes in `s` and read `r` of its bits. -/
structure ReadSession (s : State) (n0 r : Nat) (t : State) : Prop where
  quiet : t.Quiet
  mode : t.bbMode = .read
  bufBytes : t.bufBytes = s.bufBytes
  supplied : Supplied t
  session : Session n0 r t
  avail : avail t = ((nextBytes s n0).flatMap bitsOfByte).drop r
  source : t.env.sIn = s.env.sIn.drop (n0 - t.bbRemain.toNat)
  result : ∀ p, r = p + 1 → ((nextBytes s n0).flatMap bitsOfByte)[p]? = some t.result

/-- The bytes taken are those of R128. -/
theorem ReadSession.source_eq {s t : State} {n0 r : Nat} (h : ReadSession s n0 r t) :
    t.env.sIn = s.env.sIn.drop (readAhead s n0 r) := by
  obtain ⟨-, -, htaken⟩ := h.session
  have hbuf : t.bufBits = s.bufBits := congrArg (8 * ·) h.bufBytes
  rw [h.source, htaken, readAhead, h.bufBytes, hbuf]

/-- BB_OPEN_R opens a session of SRC_LEN bytes. -/
theorem readSession_of_bbOpenR {s : State} (hq : s.Quiet) (hm : s.bbMode = .closed)
    (hoff : Offers s s.srcLen.toNat) :
    ∃ t, exec .bbOpenR s = .next t ∧ Completed .bbOpenR t ∧ ReadSession s s.srcLen.toNat 0 t := by
  obtain ⟨t, hexec, ht⟩ := exec_bbOpenR hq hm
  obtain ⟨hin, -⟩ := ht.takes
  have hbytes : t.bufBytes = s.bufBytes := by
    obtain ⟨hextra, -⟩ := ht.host
    exact congrArg (· + 1) hextra
  refine ⟨t, hexec, ht.completed, quiet_of_completed hq ht.completed ht.host, ht.mode, hbytes, ?_, ?_, ?_, ?_,
    nofun⟩
  · rw [Supplied, ht.remain, hin]
    exact hoff
  · have hceil : (0 + t.bufBits - 1) / t.bufBits = 0 := Nat.div_eq_of_lt (by have := bufBits_pos t; omega)
    refine ⟨ht.remain ▸ le_rfl, ?_, ?_⟩
    · rw [ht.remain, ht.bits, Nat.sub_self]; rfl
    · rw [hceil, ht.remain, Nat.sub_self, Nat.mul_zero, Nat.min_zero]
  · rw [avail, ht.bits, ht.remain, hin]
    rfl
  · rw [ht.remain, Nat.sub_self, hin]
    rfl

/-- BB_READ_BIT reads the next bit of the session (R128). -/
theorem ReadSession.next {s t : State} {n0 r : Nat} {b : Bool} (h : ReadSession s n0 r t)
    (hb : ((nextBytes s n0).flatMap bitsOfByte)[r]? = some b) :
    ∃ u, exec .bbReadBit t = .next u ∧ Completed .bbReadBit u ∧ ReadSession s n0 (r + 1) u := by
  obtain ⟨hr, hget⟩ := List.getElem?_eq_some_iff.mp hb
  have hav : Machine.avail t = b :: ((nextBytes s n0).flatMap bitsOfByte).drop (r + 1) := by
    rw [h.avail, List.drop_eq_getElem_cons hr, hget]
  obtain ⟨u, ⟨⟨B, n, hn, rfl⟩, hsup, hav', hses⟩, hrun⟩ :=
    runs_bit .result [.complete] (readStart t) b _ h.mode h.supplied hav
  obtain ⟨hremain, -⟩ := h.session
  have hn' : n ≤ t.bbRemain.toNat := hn
  refine ⟨_, exec_bbReadBit h.quiet hrun, completed_completeStep rfl, ⟨rfl, h.quiet.2.1, h.quiet.2.2⟩, h.mode,
    h.bufBytes, hsup, hses n0 r h.session, ?_, ?_, ?_⟩
  · rw [← List.drop_drop, ← h.avail]
    exact hav'
  · show t.env.sIn.drop n = s.env.sIn.drop (n0 - (t.bbRemain - BitVec.ofNat 32 n).toNat)
    rw [h.source, List.drop_drop, remain_sub hn']
    congr 1
    omega
  · rintro p ⟨⟩
    exact hb

/-- The reads of a session complete as long as it has bits. -/
theorem ReadSession.allComplete {s t : State} {n0 p : Nat} (r : Nat) (h : ReadSession s n0 p t)
    (hr : p + r ≤ ((nextBytes s n0).flatMap bitsOfByte).length) :
    ∃ u, AllComplete (List.replicate r .bbReadBit) t u ∧ ReadSession s n0 (p + r) u := by
  induction r generalizing p t with
  | zero => exact ⟨t, rfl, h⟩
  | succ r ih =>
    obtain ⟨u, hexec, hdone, hu⟩ := h.next (List.getElem?_eq_getElem (by omega))
    obtain ⟨v, hall, hv⟩ := ih hu (by omega)
    exact ⟨v, ⟨u, hexec, hdone, hall⟩, by rwa [Nat.add_right_comm p 1 r] at hv⟩

/-- Settles O21: after `r` reads the machine is in the session with `r` bits read, which has none left after the
last. -/
theorem readSessionReturnsItsBits : Obligations.ReadSessionReturnsItsBits := by
  unfold Obligations.ReadSessionReturnsItsBits
  intro s hq hm hoff
  obtain ⟨t, hexec, hdone, ht⟩ := readSession_of_bbOpenR hq hm hoff
  have hlen : (streamOf s).length = 8 * s.srcLen.toNat := by
    rw [streamOf, length_flatMap_bitsOfByte, nextBytes, List.length_take_of_le hoff]
  have hreads (r : Nat) (hr : r ≤ 8 * s.srcLen.toNat) :
      ∃ u, AllComplete (.bbOpenR :: List.replicate r .bbReadBit) s u ∧ ReadSession s s.srcLen.toNat r u := by
    obtain ⟨u, hall, hu⟩ := ht.allComplete r (by rw [Nat.zero_add]; exact hr.trans_eq hlen.symm)
    exact ⟨u, ⟨t, hexec, hdone, hall⟩, by rwa [Nat.zero_add] at hu⟩
  refine ⟨fun r hr1 hr => ?_, ?_⟩
  · obtain ⟨u, hall, hu⟩ := hreads r hr
    exact ⟨u, hall, hu.result (r - 1) (by omega), hu.source_eq⟩
  · obtain ⟨u, hall, hu⟩ := hreads _ le_rfl
    have hav : avail u = [] := hu.avail.trans (List.drop_eq_nil_of_le hlen.le)
    obtain ⟨hbits, hremain⟩ := avail_nil hu.supplied hav
    obtain ⟨v, hend, hv⟩ := exec_bbReadBit_end hu.quiet hu.mode hbits hremain
    exact ⟨u, v, hall, hend, hv.failed⟩

end Sys2Proof.Machine
end

section
/-!
PROOFS. ENC_COUNT (42_encoder.md R155, R168): what it leaves, and its three errors, which are also those of
ENCODE's first phase (R171).
-/

namespace Sys2Proof.Machine

open Sys2Proof.Format (counts)

theorem exec_encCount {s : State} {src rest : List Byte} (hq : s.Quiet) (hlen : src.length = s.srcLen.toNat)
    (h0 : 0 < s.srcLen.toNat) (hmax : s.srcLen.toNat ≤ Config.maxLen.toNat) (hin : s.env.sIn = src ++ rest)
    (hok : s.collChk = true → s.sentinel ∉ src) :
    exec .encCount s = .next (encCountEnd (accepted s (encodeWord .encCount)) src).completeStep := by
  have hb := runOn_mul s 1 (by norm_num)
  have hmaxLen : Config.maxLen.toNat = 4294967294 := rfl
  refine congrArg Host.Outcome.next (issue_completes (body := bodyEncCount) rfl hq
    (runs_encCount src [.complete] (accepted s (encodeWord .encCount)) rest hlen h0 hmax hin hok) ?_)
  show 2 * s.srcLen.toNat + 9 + 2 ≤ _
  omega

/-- Settles O22: the count pass tallies the source bytes into cleared counters, and the sentinel is added. -/
theorem encCountCounts : Obligations.EncCountCounts := by
  unfold Obligations.EncCountCounts
  intro s hq h0 hmax hoff hok
  have hlen : (nextBytes s s.srcLen.toNat).length = s.srcLen.toNat := List.length_take_of_le hoff
  have hexec := exec_encCount hq hlen h0 hmax (List.take_append_drop _ _).symm hok
  have hweight := encCountEnd_weightOf (accepted s (encodeWord .encCount)) (hlen.trans_le hmax)
  refine ⟨_, hexec, completed_completeStep rfl, congrFun hweight, rfl, rfl, rfl, rfl, rfl, rfl, ?_,
    ⟨(List.append_nil _).symm, rfl⟩, ⟨rfl, rfl, rfl, rfl, rfl, rfl, rfl, rfl, rfl, rfl, rfl⟩,
    ⟨rfl, rfl, rfl⟩, rfl, rfl, ⟨rfl, rfl, rfl⟩, rfl⟩
  have htakes : Takes (nextBytes s s.srcLen.toNat).length s
      (encCountEnd (accepted s (encodeWord .encCount)) (nextBytes s s.srcLen.toNat)).completeStep :=
    ⟨rfl, BitVec.zero_add _⟩
  rwa [hlen] at htakes

/-! ### The errors of the count phase -/

/-- `s` with other counters. -/
def State.withFreq (s : State) (freq : Vector Word 256) : State := { s with freq := freq }

/-- The command `i` from `s` has failed in `t` with error `e` in the count phase, having taken `n` bytes and left
the counters `freq`: the latches are set, the valid flags are clear, and the release has sent what was pending
(R168, 60_exceptions.md R261). -/
structure CountFailure (i : Instr) (e : ErrCode) (n : Nat) (freq : Vector Word 256) (s t : State) : Prop where
  failed : Failed e 0x10#8 (encodeWord i) t
  encSent : t.encSent = s.sentinel
  encColl : t.encColl = s.collChk
  freqValid : t.freqValid = false
  treeValid : t.treeValid = false
  tableValid : t.tableValid = false
  degenerate : t.degenerate = false
  freq : t.freq = freq
  takes : Takes n s t
  sends : Sends (releaseBytes s) s t
  host : KeepsHost s t
  tree : KeepsTree s t
  ct : t.ct = s.ct
  heap : t.heap = s.heap
  result : t.result = s.result

/-- ENC_COUNT is the count phase alone, and ENCODE begins with it (R171); a run of that phase that raises an error
fails. -/
theorem exec_countFailure {s : State} {i : Instr} {e : ErrCode} {n b : Nat} {freq : Vector Word 256}
    (hq : s.Quiet) (hi : i = .encCount ∨ i = .encode) (he : e ≠ .illegalCmd)
    (hrun : ∀ k, RunsIn b ((accepted s (encodeWord i)).withTodo (bodyEncCount ++ k))
      (((taken (encCountStart (accepted s (encodeWord i))) n).withFreq freq).withTodo [.bbClose, .fail e]))
    (hb : b ≤ 2 * s.srcLen.toNat + 9) : ∃ t, exec i s = .next t ∧ CountFailure i e n freq s t := by
  have hturn := runOn_mul s 1 (by norm_num)
  have hlt := s.srcLen.isLt
  have hsteps : b + (s.bbBits.length + 5) ≤ runOn s := by omega
  have hexec : exec i s
      = .next (raised ((taken (encCountStart (accepted s (encodeWord i))) n).withFreq freq) e) := by
    rcases hi with rfl | rfl
    · exact congrArg Host.Outcome.next (issue_fails (body := bodyEncCount) rfl hq hq.sink (hrun _) hsteps)
    · exact exec_encode_of_fails hq hq.sink (hrun _) hsteps
  rw [raised_eq] at hexec
  exact ⟨_, hexec, ⟨rfl, rfl, rfl, if_neg he, rfl, rfl, rfl, rfl⟩, rfl, rfl, rfl, rfl, rfl, rfl, rfl,
    ⟨rfl, BitVec.zero_add _⟩, ⟨rfl, BitVec.zero_add _⟩,
    ⟨rfl, rfl, rfl, rfl, rfl, rfl, rfl, rfl, rfl, rfl, rfl⟩, ⟨rfl, rfl, rfl⟩, rfl, rfl, rfl⟩

theorem taken_zero (s : State) : taken s 0 = s := by simp [taken]

/-- Settles O23: both checks of the length come after the latches and before the counters are cleared. -/
theorem encCountRejectsLength : Obligations.EncCountRejectsLength := by
  unfold Obligations.EncCountRejectsLength
  intro s i e hq hi he
  have hfail : ∃ t, exec i s = .next t ∧ CountFailure i e 0 s.freq s t := by
    rcases he with ⟨hlen, rfl⟩ | ⟨hlen, rfl⟩
    · refine exec_countFailure (b := 3) hq hi (by decide) (fun k => ?_) (by omega)
      rw [taken_zero]
      exact runs_encCount_empty k _ hlen
    · have hmax : Config.maxLen.toNat < s.srcLen.toNat := by rw [hlen]; decide
      refine exec_countFailure (b := 4) hq hi (by decide) (fun k => ?_) (by omega)
      rw [taken_zero]
      exact runs_encCount_overflow k (accepted s (encodeWord i)) hmax
  obtain ⟨t, hexec, ht⟩ := hfail
  exact ⟨t, hexec, ht.failed, ht.encSent, ht.encColl, ht.freqValid, ht.treeValid, ht.tableValid,
    ht.degenerate, ht.takes, ht.sends, ht.host, ht.freq, ht.tree, ht.ct, ht.heap, ht.result⟩

/-- The state of the count pass that has taken a colliding byte after the bytes `before`. -/
theorem tookOne_encCounting {s : State} {before after : List Byte} {v : Byte}
    (h : s.env.sIn = before ++ v :: after) : tookOne (encCounting s before) after
      = (taken (encCountStart s) (before.length + 1)).withFreq
        (tallyAll (Vector.replicate 256 0#32) before) := by
  have hrest : (encCounting s before).env.sIn = v :: after := by
    show s.env.sIn.drop before.length = _
    rw [h, List.drop_left]
  rw [tookOne_eq hrest, ← taken_taken]
  rfl

/-- Settles O24: the colliding byte is taken before the check that raises the error, and counted after it. -/
theorem encCountFindsCollision : Obligations.EncCountFindsCollision := by
  unfold Obligations.EncCountFindsCollision
  intro s i before after hq hi hcoll hin hpre hlen hmax
  have hstate := tookOne_encCounting (s := accepted s (encodeWord i)) hin
  obtain ⟨t, hexec, ht⟩ := exec_countFailure (e := .sentinelCollision) hq hi (by decide) (fun k => hstate ▸
    runs_encCount_collision before k (accepted s (encodeWord i)) after hlen hmax hin hcoll hpre) le_rfl
  have hfreq (v : Byte) : (t.freqAt v).toNat = before.count v := by
    have hcount : before.count v ≤ before.length := List.count_le_length
    rw [State.freqAt, ht.freq, tallyAll_get, Vector.getElem_replicate, BitVec.zero_add, BitVec.toNat_ofNat,
      Nat.mod_eq_of_lt (by omega)]
  exact ⟨t, hexec, ht.failed, hfreq, ht.encSent, ht.encColl.trans hcoll, ht.freqValid, ht.treeValid,
    ht.tableValid, ht.degenerate, ht.takes, ht.sends, ht.host, ht.tree, ht.ct, ht.heap, ht.result⟩

end Sys2Proof.Machine
end

section
/-!
PROOFS. ENC_BUILD (42_encoder.md R156 to R163, R169): the tree and the code table it leaves, the shape of the
tree, and the codes.
-/

namespace Sys2Proof.Machine

open Sys2Proof.Format (Tree huffman leafForest)

/-! ### The shape of Huffman's tree -/

/-- A single counted symbol is the left leaf, and the sentinel the right one (R158). -/
theorem huffman_single {w : Byte → Nat} (σ : Byte) (h : (leafForest w).length = 1) :
    ∃ v, huffman w σ = .node (.leaf v) (.leaf σ) := by
  obtain ⟨x, hx⟩ := List.length_eq_one_iff.mp h
  have hmem : x ∈ leafForest w := by rw [hx]; exact List.mem_singleton_self x
  obtain ⟨v, -, rfl⟩ := List.mem_map.mp hmem
  exact ⟨v, by rw [huffman, hx]⟩

theorem depth_huffman_of_single {w : Byte → Nat} (σ : Byte) (h : (leafForest w).length = 1) :
    (huffman w σ).depth = 1 := by
  obtain ⟨v, hv⟩ := huffman_single σ h
  rw [hv]; rfl

section

variable {w : Byte → Nat} {σ : Byte} (hσ : 0 < w σ)

include hσ

/-- Two or more counted symbols have one leaf each (R159 (f)). -/
theorem length_symbols_huffman (h : 2 ≤ (leafForest w).length) :
    (huffman w σ).symbols.length = (leafForest w).length := by
  obtain ⟨-, -, hperm⟩ := Format.huffman_spec w σ hσ
  rw [(hperm h).length_eq, Format.leafForest_length]

theorem nodes_huffman : (huffman w σ).nodes
    = if (leafForest w).length = 1 then 3 else 2 * (leafForest w).length - 1 := by
  have hpos := mem_leafForest_pos hσ
  split
  next h =>
    obtain ⟨v, hv⟩ := huffman_single σ h
    rw [hv]; rfl
  next h =>
    have hnodes := (huffman w σ).nodes_eq
    rw [length_symbols_huffman hσ (by omega)] at hnodes
    omega

theorem depth_huffman_lt (h : (leafForest w).length ≠ 1) :
    (huffman w σ).depth < (leafForest w).length := by
  have hpos := mem_leafForest_pos hσ
  exact (huffman w σ).depth_lt_symbols.trans_eq (length_symbols_huffman hσ (by omega))

theorem depth_huffman_le : (huffman w σ).depth ≤ 255 := by
  have hle := length_leafForest_le w
  by_cases h : (leafForest w).length = 1
  · rw [depth_huffman_of_single σ h]; norm_num
  · have := depth_huffman_lt hσ h
    omega

/-- Exactly the counted symbols have a code (R162). -/
theorem code_huffman_ne_nil_iff (v : Byte) : (huffman w σ).code v ≠ [] ↔ 0 < w v := by
  obtain ⟨hleaf, hsym, -⟩ := Format.huffman_spec w σ hσ
  rw [code_ne_nil_iff hleaf, hsym]

theorem nodup_symbols_huffman (h : 2 ≤ (leafForest w).length) : (huffman w σ).symbols.Nodup := by
  obtain ⟨-, -, hperm⟩ := Format.huffman_spec w σ hσ
  exact (hperm h).nodup_iff.mpr (Format.nodup_allSymbols.filter _)

end

/-! ### Codes -/

theorem length_code_le_depth (T : Tree) (v : Byte) : (T.code v).length ≤ T.depth := by
  by_cases h : v ∈ T.symbols
  · exact T.length_code_le_depth _ (T.mem_codes_of_code v h)
  · rw [T.code_eq_nil_of_not_mem v h]
    exact Nat.zero_le _

/-- The codes of two symbols of a tree do not begin one another (R163). -/
theorem not_code_isPrefix {T : Tree} {u v : Byte} (hu : u ∈ T.symbols) (hv : v ∈ T.symbols) (h : u ≠ v) :
    ¬ T.code u <+: T.code v := by
  rintro ⟨ext, hext⟩
  exact h (congrArg Prod.fst
    (T.codes_unique _ _ (T.mem_codes_of_code u hu) (T.mem_codes_of_code v hv) ext hext))

/-! ### ENC_BUILD -/

/-- `t` is the machine when ENC_BUILD from `s` has completed (R169). -/
structure BuildEnd (s t : State) : Prop where
  completed : Completed .encBuild t
  tree : HoldsBelow t.ncnt.toNat t t.root (huffman (weightOf s) s.encSent)
  nodes : t.ncnt.toNat = (huffman (weightOf s) s.encSent).nodes
  rootFreq : (t.nodeAt t.root).freq.toNat = (Format.allSymbols.map (weightOf s)).sum
  table : HoldsTable t (huffman (weightOf s) s.encSent)
  heap : t.heap = []
  freqValid : t.freqValid = true
  treeValid : t.treeValid = true
  tableValid : t.tableValid = true
  degenerate : t.degenerate = decide ((leafForest (weightOf s)).length = 1)
  takes : TakesNothing s t
  sends : Sends [] s t
  host : KeepsHost s t
  freq : KeepsFreq s t
  buffer : KeepsBuffer s t
  result : t.result = s.result

/-- ENC_BUILD with the counts that FREQ_VALID promises completes (R169). -/
theorem exec_encBuild {s : State} (hq : s.Quiet) (hv : s.freqValid = true) (hpos : 0 < weightOf s s.encSent)
    (hsum : (Format.allSymbols.map (weightOf s)).sum < 2 ^ 32) :
    ∃ t, exec .encBuild s = .next t ∧ BuildEnd s t := by
  obtain ⟨u, hu, htree, hnodes, hfreq, htable, hrun⟩ :=
    runs_encBuild [.complete] (accepted s (encodeWord .encBuild)) hv hpos hsum
  have hb := runOn_mul s 1 (by norm_num)
  have hexec : exec .encBuild s = .next u.completeStep :=
    congrArg Host.Outcome.next (issue_completes (body := bodyEncBuild) rfl hq hrun (by omega))
  generalize u.node = node, u.ncnt = ncnt, u.root = root, u.ct = ct, u.path = path at hu
  subst hu
  exact ⟨_, hexec, completed_completeStep rfl, htree.mono le_rfl fun j _ => nodeAt_congr rfl j, hnodes, hfreq,
    htable, rfl, hv, rfl, rfl, rfl, ⟨rfl, rfl⟩, ⟨(List.append_nil _).symm, rfl⟩,
    ⟨rfl, rfl, rfl, rfl, rfl, rfl, rfl, rfl, rfl, rfl, rfl⟩, ⟨rfl, rfl, rfl⟩, ⟨rfl, rfl, rfl⟩, rfl⟩

/-- Settles O25: the heap of indices builds Huffman's tree, and the walk of that tree its code table. -/
theorem encBuildBuildsHuffman : Obligations.EncBuildBuildsHuffman := by
  unfold Obligations.EncBuildBuildsHuffman
  intro s hq hv hpos hsum
  obtain ⟨t, hexec, ht⟩ := exec_encBuild hq hv hpos hsum
  exact ⟨t, hexec, ht.completed, ht.tree.holdsTree, ht.table, ht.nodes, ht.heap, ht.freqValid, ht.treeValid,
    ht.tableValid, ht.degenerate, ht.takes, ht.sends, ht.host, ht.freq, ht.buffer, ht.result⟩

theorem HoldsTree.isLeaf_nodeAt {s : State} {i : NodeIdx} {T : Tree} (h : HoldsTree s i T) :
    (s.nodeAt i).isLeaf = T.isLeaf := by
  cases T with
  | leaf sym =>
    obtain ⟨f, hf⟩ := h
    rw [hf]; rfl
  | node l r =>
    obtain ⟨a, b, f, hf, -⟩ := h
    rw [hf]; rfl

/-- Settles O26: the tree is Huffman's, whose shape its number of leaves decides. -/
theorem encBuildTreeShape : Obligations.EncBuildTreeShape := by
  unfold Obligations.EncBuildTreeShape
  rintro s L hq hv hpos hsum rfl
  obtain ⟨t, hexec, ht⟩ := exec_encBuild hq hv hpos hsum
  obtain ⟨hleaf, hsym, -⟩ := Format.huffman_spec (weightOf s) s.encSent hpos
  rw [← Format.leafForest_length]
  refine ⟨t, _, hexec, ht.tree, ht.tree.holdsTree.isLeaf_nodeAt.trans hleaf, ht.nodes.trans (nodes_huffman hpos),
    ht.nodes.trans_le (Format.huffman_nodes_le _ _ hpos), ht.rootFreq, ?_, depth_huffman_le hpos,
    fun h => ⟨nodup_symbols_huffman hpos h, hsym⟩⟩
  split
  next h => exact depth_huffman_of_single _ h
  next h => exact Nat.le_sub_one_of_lt (depth_huffman_lt hpos h)

/-- Settles O27: the codes are the paths of a tree's leaves, of which none goes through another leaf. -/
theorem codesArePrefixFree : Obligations.CodesArePrefixFree := by
  unfold Obligations.CodesArePrefixFree
  intro s hq hv hpos hsum
  obtain ⟨t, hexec, ht⟩ := exec_encBuild hq hv hpos hsum
  obtain ⟨hleaf, -⟩ := Format.huffman_spec (weightOf s) s.encSent hpos
  refine ⟨t, hexec, ?_⟩
  rw [funext ht.table]
  refine ⟨fun u v huv hu hv => ?_, code_huffman_ne_nil_iff hpos, fun v hv => ?_⟩
  · exact not_code_isPrefix ((code_ne_nil_iff hleaf u).mp hu) ((code_ne_nil_iff hleaf v).mp hv) huv
  · exact ⟨List.length_pos_iff.mpr hv, (length_code_le_depth _ v).trans (depth_huffman_le hpos)⟩

end Sys2Proof.Machine
end

section
/-!
PROOFS. ENC_EMIT (42_encoder.md R164 to R167, R170): the stream it sends, and its errors.
-/

namespace Sys2Proof.Machine

open Sys2Proof.Format (Tree streamBits)

/-- `t` agrees with `s` in everything but the streams, the bit buffer, the working storage, and how the command
has ended. -/
structure KeepsRest (s t : State) : Prop where
  host : KeepsHost s t
  flags : KeepsFlags s t
  memories : KeepsMemories s t
  result : t.result = s.result

theorem keepsRest_emitted (s : State) (o : List Byte) (n : Nat) : KeepsRest s (s.emitted o n) :=
  ⟨⟨rfl, rfl, rfl, rfl, rfl, rfl, rfl, rfl, rfl, rfl, rfl⟩, ⟨rfl, rfl, rfl, rfl⟩,
    ⟨⟨rfl, rfl, rfl⟩, ⟨rfl, rfl, rfl⟩, rfl, rfl⟩, rfl⟩

theorem KeepsRest.completeStep {s t : State} (h : KeepsRest s t) : KeepsRest s t.completeStep :=
  ⟨h.host, h.flags, h.memories, h.result⟩

theorem KeepsRest.failStep {s t : State} (h : KeepsRest s t) (e : ErrCode) : KeepsRest s (t.failStep e) :=
  ⟨h.host, h.flags, h.memories, h.result⟩

/-- The state at the end of ENC_EMIT has sent and taken what the command has (R170). -/
theorem streams_emitted (s : State) (w : Word) (o : List Byte) (n : Nat) :
    Sends o s ((accepted s w).emitted o n) ∧ Takes n s ((accepted s w).emitted o n) :=
  ⟨⟨rfl, BitVec.zero_add _⟩, rfl, BitVec.zero_add _⟩

/-- The bytes that can be coded with the table of `T` (R165). -/
theorem HoldsTable.codable_iff {s : State} {T : Tree} (hcodes : HoldsTable s T) (hleaf : T.isLeaf = false)
    (v : Byte) : Codable s v ↔ v ∈ T.symbols ∧ (s.encColl = true → v ≠ s.encSent) := by
  rw [Codable, hcodes v, code_ne_nil_iff hleaf, not_and, and_comm]

theorem HoldsTable.length_codeAt_le {s : State} {T : Tree} (hcodes : HoldsTable s T) (hnodes : T.nodes ≤ 511)
    (v : Byte) : (s.codeAt v).length ≤ 511 := by
  rw [hcodes v]
  exact (T.length_code_lt_nodes v).le.trans hnodes

section

variable {s : State} {T : Tree} (hq : s.Quiet) (hv : s.tableValid = true) (hm : s.bbMode = .closed)
  (hT : HoldsTree s s.root T) (hcodes : HoldsTable s T) (hnodes : T.nodes ≤ 511)

include hq hv hm hT hcodes hnodes

/-- ENC_EMIT over a source that can be coded (R164 to R167, R170). -/
theorem exec_encEmit {src rest : List Byte} (h0 : 0 < s.srcLen.toNat) (hlen : src.length = s.srcLen.toNat)
    (hin : s.env.sIn = src ++ rest) (hok : ∀ v ∈ src, Codable s v) : exec .encEmit s
      = .next ((accepted s (encodeWord .encEmit)).emitted (packBits (streamBits T src s.encSent))
        s.srcLen.toNat).completeStep := by
  have hb := runOn_mul s (2 ^ 43) (by norm_num)
  have hsteps := encEmit_steps_le (B := s.bufBytes) (length_serialize_le hnodes) hnodes
    (hlen.trans_lt s.srcLen.isLt)
  have hend : encEmitEnd T (accepted s (encodeWord .encEmit)) src = (accepted s (encodeWord .encEmit)).emitted
      (packBits (streamBits T src s.encSent)) src.length := by
    rw [encEmitEnd, streamBits, ← funext hcodes]
    rfl
  have hbytes : (accepted s (encodeWord .encEmit)).bufBytes = s.bufBytes := rfl
  have hdone := issue_completes (i := .encEmit) (body := bodyEncEmit) rfl hq
    (runs_encEmit T 511 src [.complete] (accepted s (encodeWord .encEmit)) rest hv hm h0 hq.sink (hT.congr rfl)
      hin hlen hok (hcodes.length_codeAt_le hnodes)) (by
      rw [State.bufBits, hbytes]
      linarith)
  rw [← hlen, ← hend]
  exact congrArg Host.Outcome.next hdone

/-- ENC_EMIT stops at the first byte that cannot be coded (R165, R170, 60_exceptions.md R263). -/
theorem exec_encEmit_stops {before after : List Byte} {v : Byte} (hlen : before.length < s.srcLen.toNat)
    (hin : s.env.sIn = before ++ v :: after) (hok : ∀ u ∈ before, Codable s u) (hbad : ¬ Codable s v) :
    exec .encEmit s = .next (((accepted s (encodeWord .encEmit)).emitted
      (packBits (T.serialize ++ before.flatMap T.code)) (before.length + 1)).failStep (emitError s v)) := by
  have hb := runOn_mul s (2 ^ 43) (by norm_num)
  have hsteps := encEmit_steps_le (B := s.bufBytes) (length_serialize_le hnodes) hnodes
    (hlen.trans s.srcLen.isLt)
  have hbits : (taken (emitting T (accepted s (encodeWord .encEmit)) before) 1).bbBits.length < 8 * s.bufBytes :=
    emitting_bbBits T (accepted s (encodeWord .encEmit)) before
  have hbytes : (accepted s (encodeWord .encEmit)).bufBytes = s.bufBytes := rfl
  have hfail := issue_fails (i := .encEmit) (body := bodyEncEmit)
    (t := taken (emitting T (accepted s (encodeWord .encEmit)) before) 1) rfl hq
    ((emitting_sink T (accepted s (encodeWord .encEmit)) before).trans hq.sink)
    (runs_encEmit_stop T 511 before v [.complete] (accepted s (encodeWord .encEmit)) after hv hm hlen hq.sink
      (hT.congr rfl) hin hok hbad (hcodes.length_codeAt_le hnodes)) (by
      rw [hbytes]
      omega)
  rw [raised_emitting] at hfail
  rw [← funext hcodes]
  exact congrArg Host.Outcome.next hfail

end

/-- Settles O29: every source byte can be coded, so the command comes to its end. -/
theorem encEmitWritesStream : Obligations.EncEmitWritesStream := by
  unfold Obligations.EncEmitWritesStream
  intro s T hq hv hm hT hcodes hleaf hnodes h0 hoff hok
  have hlen : (nextBytes s s.srcLen.toNat).length = s.srcLen.toNat := List.length_take_of_le hoff
  have hexec := exec_encEmit hq hv hm hT hcodes hnodes h0 hlen (List.take_append_drop _ _).symm
    fun v hv => (hcodes.codable_iff hleaf v).mpr (hok v hv)
  obtain ⟨hsends, htakes⟩ := streams_emitted s (encodeWord .encEmit)
    (packBits (streamBits T (nextBytes s s.srcLen.toNat) s.encSent)) s.srcLen.toNat
  have hkeeps := keepsRest_emitted (accepted s (encodeWord .encEmit))
    (packBits (streamBits T (nextBytes s s.srcLen.toNat) s.encSent)) s.srcLen.toNat
  exact ⟨_, hexec, completed_completeStep rfl, hsends, htakes, rfl, rfl, rfl, hkeeps.host, hkeeps.flags,
    hkeeps.memories, hkeeps.result⟩

/-- Settles O30: the length is checked after the flag and the mode, and before the buffer is opened. -/
theorem encEmitNeedsSource : Obligations.EncEmitNeedsSource := by
  unfold Obligations.EncEmitNeedsSource
  intro s hq hv hm hlen
  have hrelease : releaseBytes s = [] := if_neg (by rw [hm]; decide)
  have hraised := exec_raises (i := .encEmit) (op := 0x12#8) (body := bodyEncEmit.tail) (e := .emptyInput) rfl hq
    rfl (.step (step_needFlag (f := .table) _ hv) (.step (step_needMode _ hm)
      (.one (step_needSource_not _ hlen)))) (by norm_num)
  obtain ⟨t, hexec, ht⟩ := channelFailure_of_exec (by decide) hraised
  exact ⟨t, hexec, ht.failed, ht.takes, hrelease ▸ ht.sends, ht.host, ht.flags, ht.memories, ht.result⟩

theorem emitError_ne_illegalCmd (s : State) (v : Byte) : emitError s v ≠ .illegalCmd := by
  unfold emitError
  split <;> decide

/-- Settles O31: the byte is the first that cannot be coded, and its collision is checked before its code. -/
theorem encEmitStopsAtBadByte : Obligations.EncEmitStopsAtBadByte := by
  unfold Obligations.EncEmitStopsAtBadByte
  intro s T before after v hq hv hm hT hcodes hleaf hnodes hin hlen hok hbad
  have hbad' : ¬ Codable s v := by
    rw [hcodes.codable_iff hleaf]
    rintro ⟨hmem, hne⟩
    rcases hbad with ⟨hcoll, heq⟩ | hnot
    · exact hne hcoll heq
    · exact hnot hmem
  have hexec := exec_encEmit_stops hq hv hm hT hcodes hnodes hlen hin
    (fun u hu => (hcodes.codable_iff hleaf u).mpr (hok u hu)) hbad'
  obtain ⟨hsends, htakes⟩ := streams_emitted s (encodeWord .encEmit)
    (packBits (T.serialize ++ before.flatMap T.code)) (before.length + 1)
  have hkeeps := keepsRest_emitted (accepted s (encodeWord .encEmit))
    (packBits (T.serialize ++ before.flatMap T.code)) (before.length + 1)
  exact ⟨_, hexec, ⟨rfl, rfl, rfl, if_neg (emitError_ne_illegalCmd s v), rfl, rfl, rfl, rfl⟩, hsends, htakes,
    hkeeps.host, hkeeps.flags, hkeeps.memories, hkeeps.result⟩

end Sys2Proof.Machine
end

section
/-!
PROOFS. ENCODE (42_encoder.md R171 to R173): what its first two phases leave, how it ends, and how many bytes it
sends.
-/

namespace Sys2Proof.Machine

open Sys2Proof.Format (Tree counts leafForest streamBits)

/-! ### What the first two phases leave -/

/-- `t` is a state of the machine after ENCODE's first two phases over the first pass `first`, the command having
started in `s` (R168, R169, R171). -/
structure EncodeLeaves (s : State) (first : List Byte) (t : State) : Prop where
  freqAt : ∀ v, (t.freqAt v).toNat = counts first s.sentinel v
  tree : HoldsTree t t.root (codeTree first s.sentinel)
  table : HoldsTable t (codeTree first s.sentinel)
  nodes : t.ncnt.toNat = (codeTree first s.sentinel).nodes
  heap : t.heap = []
  encSent : t.encSent = s.sentinel
  encColl : t.encColl = s.collChk
  freqValid : t.freqValid = true
  treeValid : t.treeValid = true
  tableValid : t.tableValid = true
  degenerate : t.degenerate = decide ((leafForest (counts first s.sentinel)).length = 1)
  host : KeepsHost s t
  result : t.result = s.result

theorem EncodeBuilt.leaves {s u : State} {w : Word} {first : List Byte}
    (h : EncodeBuilt (accepted s w) first u) (hmax : first.length ≤ Config.maxLen.toNat) :
    EncodeLeaves s first u := by
  have hweight := encCountEnd_weightOf (accepted s w) hmax
  obtain ⟨hu, htree, hnodes, htable⟩ := h
  generalize u.node = node, u.ncnt = ncnt, u.root = root, u.ct = ct, u.path = path at hu
  subst hu
  exact ⟨congrFun hweight, htree.holdsTree, htable, hnodes, rfl, rfl, rfl, rfl, rfl, rfl, rfl,
    ⟨rfl, rfl, rfl, rfl, rfl, rfl, rfl, rfl, rfl, rfl, rfl⟩, rfl⟩

theorem KeepsHost.trans {s t u : State} (h : KeepsHost s t) (h' : KeepsHost t u) : KeepsHost s u := by
  obtain ⟨h1, h2, h3, h4, h5, h6, h7, h8, h9, h10, h11⟩ := h
  obtain ⟨k1, k2, k3, k4, k5, k6, k7, k8, k9, k10, k11⟩ := h'
  exact ⟨k1.trans h1, k2.trans h2, k3.trans h3, k4.trans h4, k5.trans h5, k6.trans h6, k7.trans h7, k8.trans h8,
    k9.trans h9, k10.trans h10, k11.trans h11⟩

theorem EncodeLeaves.of_keepsRest {s u t : State} {first : List Byte} (h : EncodeLeaves s first u)
    (hk : KeepsRest u t) : EncodeLeaves s first t := by
  obtain ⟨hhost, ⟨hfv, htv, hbv, hdeg⟩, hmem, hresult⟩ := hk
  obtain ⟨⟨hfreq, hsent, hcoll⟩, ⟨hnode, hncnt, hroot⟩, hct, hheap⟩ := hmem
  refine ⟨fun v => ?_, hroot ▸ h.tree.congr hnode, fun v => ?_, (congrArg _ hncnt).trans h.nodes,
    hheap.trans h.heap, hsent.trans h.encSent, hcoll.trans h.encColl, hfv.trans h.freqValid,
    htv.trans h.treeValid, hbv.trans h.tableValid, hdeg.trans h.degenerate, h.host.trans hhost,
    hresult.trans h.result⟩
  · rw [State.freqAt, hfreq]
    exact h.freqAt v
  · rw [State.codeAt, hct]
    exact h.table v

/-- The bytes taken when the third phase has taken `m` bytes (R171). -/
theorem EncodeBuilt.takes_emitted {s u : State} {w : Word} {first : List Byte}
    (h : EncodeBuilt (accepted s w) first u) (o : List Byte) (m : Nat) :
    Takes (first.length + m) s (u.emitted o m) := by
  obtain ⟨htaken, -⟩ := h.emitted_streams o m
  refine ⟨?_, htaken⟩
  show u.env.sIn.drop m = _
  rw [h.env_eq]
  exact List.drop_drop

theorem EncodeBuilt.bbBits_eq {s u : State} {first : List Byte} (h : EncodeBuilt s first u) :
    u.bbBits = s.bbBits := (congrArg State.bbBits h.state).trans rfl

/-- The error completion of a command that has only entered a phase (60_exceptions.md R261). -/
theorem keepsRest_raised_withPhase (s : State) (op : Byte) (e : ErrCode) :
    KeepsRest s (raised (s.withPhase op) e) := by
  rw [raised_eq]
  exact ⟨⟨rfl, rfl, rfl, rfl, rfl, rfl, rfl, rfl, rfl, rfl, rfl⟩, ⟨rfl, rfl, rfl, rfl⟩,
    ⟨⟨rfl, rfl, rfl⟩, ⟨rfl, rfl, rfl⟩, rfl, rfl⟩, rfl⟩

/-! ### The endings -/

/-- Settles O32: every byte of the second pass can be coded with the tree of the first, so the third phase comes
to its end. -/
theorem encodeSendsTheStream : Obligations.EncodeSendsTheStream := by
  unfold Obligations.EncodeSendsTheStream
  intro s first second more hq hm hlen hlen2 h0 hmax hin hok hcode
  obtain ⟨u, hu, hexec⟩ := exec_encode_stream hq hm hlen hmax hok h0 hlen2 hin hcode
  obtain ⟨bits, hbits⟩ : ∃ bits, packBits (streamBits (codeTree first s.sentinel) second s.sentinel) = bits :=
    ⟨_, rfl⟩
  rw [hbits] at hexec
  have hsends : Sends bits s (u.emitted bits second.length) := (hu.emitted_streams bits second.length).2
  have htakes : Takes (2 * s.srcLen.toNat) s (u.emitted bits second.length) := by
    have hsum : first.length + second.length = 2 * s.srcLen.toNat := by omega
    exact hsum ▸ hu.takes_emitted bits second.length
  have ht := (hu.leaves (hlen.trans_le hmax)).of_keepsRest (keepsRest_emitted u bits second.length).completeStep
  subst hbits
  refine ⟨_, _, rfl, hexec, completed_completeStep hu.cmdw_eq, hsends, ?_, htakes, ht.freqAt, ht.tree, ht.table,
    ht.nodes, ht.heap, ht.encSent, ht.encColl, ht.freqValid, ht.treeValid, ht.tableValid, ht.degenerate, rfl, rfl,
    rfl, ht.host, ht.result⟩
  rintro rfl
  exact hsends

/-- Settles O57: the byte is the first of the second pass that cannot be coded. -/
theorem encodeStopsAtBadByte : Obligations.EncodeStopsAtBadByte := by
  unfold Obligations.EncodeStopsAtBadByte
  intro s first before after v hq hm hlen hmax hok hin hlen2 hcode hbad
  have hbad' : ¬ CanCode first s.sentinel s.collChk v := by
    rintro ⟨hpos, hne⟩
    rcases hbad with ⟨hcoll, heq⟩ | hzero
    · exact hne hcoll heq
    · exact hpos.ne' hzero
  obtain ⟨u, hu, hexec⟩ := exec_encode_stops hq hm hlen hmax hok hlen2 hin hcode hbad'
  obtain ⟨bits, hbits⟩ : ∃ bits, packBits ((codeTree first s.sentinel).serialize
      ++ before.flatMap (codeTree first s.sentinel).code) = bits := ⟨_, rfl⟩
  rw [hbits] at hexec
  have hsends : Sends bits s (u.emitted bits (before.length + 1)) :=
    (hu.emitted_streams bits (before.length + 1)).2
  have htakes := hu.takes_emitted bits (before.length + 1)
  have ht := (hu.leaves (hlen.trans_le hmax)).of_keepsRest
    ((keepsRest_emitted u bits (before.length + 1)).failStep
      (if s.collChk = true ∧ v = s.sentinel then .sentinelCollision else .unknownSymbol))
  rw [hlen] at htakes
  subst hbits
  exact ⟨_, _, rfl, hexec, ⟨rfl, rfl, rfl, if_neg (by split <;> decide), hu.cmdw_eq, rfl, rfl, rfl⟩, hsends,
    htakes, ht.freqAt, ht.tree, ht.table, ht.nodes, ht.heap, ht.encSent, ht.encColl, ht.freqValid, ht.treeValid,
    ht.tableValid, ht.degenerate, ht.host, ht.result⟩

/-- ENCODE with a session open comes to the third phase's check of the mode (R171). -/
theorem exec_encode_open_session {s : State} {first rest : List Byte} (hq : s.Quiet) (hm : s.bbMode ≠ .closed)
    (hlen : first.length = s.srcLen.toNat) (h0 : 0 < s.srcLen.toNat)
    (hmax : s.srcLen.toNat ≤ Config.maxLen.toNat) (hin : s.env.sIn = first ++ rest)
    (hok : s.collChk = true → s.sentinel ∉ first) :
    ∃ u, EncodeBuilt (accepted s (encodeWord .encode)) first u ∧
      exec .encode s = .next (raised (u.withPhase 0x12#8) .invalidMode) := by
  obtain ⟨u, hu, hbuild⟩ := runs_encCount_encBuild first (bodyEncEmit ++ [.complete])
    (accepted s (encodeWord .encode)) rest hlen h0 hmax hin hok
  have hflag : (u.withPhase 0x12#8).flag .table = true := hu.tableValid_eq
  have hmode : (u.withPhase 0x12#8).bbMode ≠ .closed := fun h => hm (hu.bbMode_eq.symm.trans h)
  have hcheck : RunsIn 3 (u.withTodo (bodyEncEmit ++ [.complete]))
      ((u.withPhase 0x12#8).withTodo [.bbClose, .fail .invalidMode]) :=
    .step (step_phase _ _ _) (.step (step_needFlag _ hflag) (.one (step_needMode_not _ hmode)))
  have hbits : (u.withPhase 0x12#8).bbBits = s.bbBits := hu.bbBits_eq
  have hb := runOn_mul s 1 (by norm_num)
  have hlt := s.srcLen.isLt
  refine ⟨u, hu, exec_encode_of_fails hq (hu.env_eq ▸ hq.sink) (hbuild.trans hcheck) ?_⟩
  show 2 * s.srcLen.toNat + 1209 + 3 + _ ≤ _
  rw [hbits]
  omega

/-- What has been taken and sent when an error is raised before the third phase has begun (R171,
60_exceptions.md R261). -/
theorem EncodeBuilt.raised_streams {s u : State} {w : Word} {first : List Byte}
    (h : EncodeBuilt (accepted s w) first u) (op : Byte) (e : ErrCode) :
    Takes first.length s (raised (u.withPhase op) e) ∧ Sends (releaseBytes s) s (raised (u.withPhase op) e) := by
  obtain ⟨hu, -⟩ := h
  generalize u.node = node, u.ncnt = ncnt, u.root = root, u.ct = ct, u.path = path at hu
  subst hu
  rw [raised_eq]
  exact ⟨⟨rfl, BitVec.zero_add _⟩, rfl, BitVec.zero_add _⟩

/-- Settles O33: the mode is checked in the third phase only, which has then changed nothing. -/
theorem encodeFindsOpenSession : Obligations.EncodeFindsOpenSession := by
  unfold Obligations.EncodeFindsOpenSession
  intro s hq hm h0 hmax hoff hok
  have hlen : (nextBytes s s.srcLen.toNat).length = s.srcLen.toNat := List.length_take_of_le hoff
  obtain ⟨u, hu, hexec⟩ := exec_encode_open_session hq hm hlen h0 hmax (List.take_append_drop _ _).symm hok
  obtain ⟨htakes, hsends⟩ := hu.raised_streams 0x12#8 .invalidMode
  have ht := (hu.leaves (hlen.trans_le hmax)).of_keepsRest (keepsRest_raised_withPhase u 0x12#8 .invalidMode)
  have hfailed : Failed .invalidMode 0x12#8 (encodeWord .encode) (raised (u.withPhase 0x12#8) .invalidMode) := by
    rw [raised_eq]
    exact ⟨rfl, rfl, rfl, rfl, hu.cmdw_eq, rfl, rfl, rfl⟩
  exact ⟨_, _, rfl, hexec, hfailed, hlen ▸ htakes, hsends, ht.freqAt, ht.tree, ht.table, ht.nodes, ht.heap,
    ht.encSent, ht.encColl, ht.freqValid, ht.treeValid, ht.tableValid, ht.degenerate, ht.host, ht.result⟩

/-! ### The length of the stream -/

/-- A sum over the elements of a list of bytes, taken symbol by symbol. -/
theorem sum_map_eq_sum_allSymbols (l : List Byte) (f : Byte → Nat) :
    (l.map f).sum = (Format.allSymbols.map fun v => l.count v * f v).sum := by
  rw [Finset.sum_list_map_count, ← List.sum_toFinset _ Format.nodup_allSymbols]
  refine Finset.sum_subset (fun v _ => List.mem_toFinset.mpr (Format.mem_allSymbols v)) fun v _ hv => ?_
  rw [List.count_eq_zero.mpr (mt List.mem_toFinset.mpr hv), zero_smul]

/-- The number of bits of the stream: the tree section has one bit for each node and eight for each leaf, and the
payload the code of each counted symbol as often as it is counted (R173). -/
theorem length_streamBits (T : Tree) (src : List Byte) (σ : Byte) : (streamBits T src σ).length
    = T.nodes + 8 * ((T.nodes + 1) / 2)
      + (Format.allSymbols.map fun v => counts src σ v * (T.code v).length).sum := by
  have hleaves : (T.nodes + 1) / 2 = T.symbols.length := by
    have := T.nodes_eq
    omega
  have hpayload := sum_map_eq_sum_allSymbols (σ :: src) fun v => (T.code v).length
  simp only [← counts_eq_count_cons, List.map_cons, List.sum_cons] at hpayload
  rw [streamBits, List.length_append, List.length_append, List.length_flatMap, T.length_serialize,
    hleaves, ← hpayload]
  omega

/-- The bytes of the first pass can be coded in the second (R155, R165). -/
theorem canCode_of_mem {first : List Byte} {σ v : Byte} {coll : Bool} (hok : coll = true → σ ∉ first)
    (hv : v ∈ first) : CanCode first σ coll v := by
  refine ⟨?_, fun hc h => hok hc (h ▸ hv)⟩
  rw [counts_eq_count_cons]
  exact List.count_pos_iff.mpr (List.mem_cons_of_mem _ hv)

/-- Settles O34: NCNT, FREQ and CT are those of the tree and the counts of which the stream is made. -/
theorem streamLength : Obligations.StreamLength := by
  unfold Obligations.StreamLength
  intro s hq hm h0 hmax htwice hoff hok
  have hlen : (nextBytes s s.srcLen.toNat).length = s.srcLen.toNat :=
    List.length_take_of_le ((Nat.le_mul_of_pos_left _ two_pos).trans hoff)
  have hin : s.env.sIn = nextBytes s s.srcLen.toNat
      ++ (nextBytes s s.srcLen.toNat ++ s.env.sIn.drop (2 * s.srcLen.toNat)) := by
    rw [← List.append_assoc, ← htwice]
    exact (List.take_append_drop _ _).symm
  obtain ⟨u, hu, hexec⟩ := exec_encode_stream hq hm hlen hmax hok h0 hlen hin fun v hv => canCode_of_mem hok hv
  have ht := hu.leaves (hlen.trans_le hmax)
  obtain ⟨-, hsent, -⟩ := hu.emitted_streams (packBits (streamBits
    (codeTree (nextBytes s s.srcLen.toNat) s.sentinel) (nextBytes s s.srcLen.toNat) s.sentinel))
    (nextBytes s s.srcLen.toNat).length
  refine ⟨_, hexec, (congrArg List.length hsent).trans ?_⟩
  rw [List.length_append, length_packBits, length_streamBits, ← ht.nodes]
  simp only [← ht.freqAt, ← ht.table _]
  rfl

end Sys2Proof.Machine
end

section
/-!
PROOFS. DEC_TREE and the first phase of DECODE (43_decoder.md R200 to R202, R206, R207): the tree read from the
stream, and the two ways in which no tree is read.
-/

namespace Sys2Proof.Machine

open Sys2Proof.Format (Tree)

/-! ### What reading a tree section sets and keeps -/

/-- `t` is reached from `s` by a command that has cleared the flags of DEC_TREE (R207): beside those flags, the
tree and the streams nothing has changed that is not the command's own. -/
structure KeepsButTree (s t : State) : Prop where
  tableValid : t.tableValid = false
  degenerate : t.degenerate = false
  freqValid : t.freqValid = s.freqValid
  host : KeepsHost s t
  freq : KeepsFreq s t
  ct : t.ct = s.ct
  heap : t.heap = s.heap
  result : t.result = s.result

theorem KeepsButTree.of_keepsRest {s u t : State} (h : KeepsButTree s u) (hk : KeepsRest u t) :
    KeepsButTree s t := by
  obtain ⟨hhost, ⟨hfv, -, hbv, hdeg⟩, ⟨⟨hfreq, hsent, hcoll⟩, -, hct, hheap⟩, hresult⟩ := hk
  obtain ⟨hfreq', hsent', hcoll'⟩ := h.freq
  exact ⟨hbv.trans h.tableValid, hdeg.trans h.degenerate, hfv.trans h.freqValid, h.host.trans hhost,
    ⟨hfreq.trans hfreq', hsent.trans hsent', hcoll.trans hcoll'⟩, hct.trans h.ct, hheap.trans h.heap,
    hresult.trans h.result⟩

theorem keepsButTree_decTreeEnd {s u : State} (h : KeepsButTree s u) : KeepsButTree s (decTreeEnd u) :=
  ⟨h.tableValid, h.degenerate, h.freqValid, h.host, h.freq, h.ct, h.heap, h.result⟩

/-- The error completion leaves all but the streams, the buffer and the completion fields (60_exceptions.md
R261). -/
theorem keepsRest_raised (s : State) (e : ErrCode) : KeepsRest s (raised s e) :=
  keepsRest_raised_withPhase s s.phase e

section

variable {s u : State} {w : Word} {r : Nat} (h : Moved r (decTreeStart (accepted s w)) u)

include h

/-- Reading the bits of a tree section moves only the read position and writes only the tree store. -/
theorem Moved.keepsButTree : KeepsButTree s u := by
  obtain ⟨N, C, S, ⟨B, n, -, rfl⟩, -⟩ := h
  exact ⟨rfl, rfl, rfl, ⟨rfl, rfl, rfl, rfl, rfl, rfl, rfl, rfl, rfl, rfl, rfl⟩, ⟨rfl, rfl, rfl⟩, rfl, rfl, rfl⟩

theorem Moved.treeValid_eq : u.treeValid = false := (congrArg State.treeValid h.eq).trans rfl

theorem Moved.cmdw_eq : u.cmdw = w := (congrArg State.cmdw h.eq).trans rfl

theorem Moved.phase_eq : u.phase = 0x20#8 := (congrArg State.phase h.eq).trans rfl

/-- The bits left are those of the stream after the bits read. -/
theorem Moved.avail_eq_drop : Machine.avail u = (streamOf s).drop r := h.avail

theorem Moved.sends_nil : Sends [] s u := by
  obtain ⟨N, C, S, ⟨B, n, -, rfl⟩, -⟩ := h
  exact sends_nil_accepted s w

/-- The bytes taken are those of R128. -/
theorem Moved.takes_readAhead : Takes (readAhead s s.srcLen.toNat r) s u := by
  obtain ⟨hcount, hin, -⟩ := h.taken_fresh rfl
  exact ⟨hin, hcount.trans (BitVec.zero_add _)⟩

theorem Moved.remain_readAhead : u.bbRemain.toNat = s.srcLen.toNat - readAhead s s.srcLen.toNat r := by
  obtain ⟨-, -, hremain⟩ := h.taken_fresh rfl
  exact hremain

end

/-- A turn is longer than the reading of a tree section and the error completion (log 1). -/
theorem decTree_steps_le (s : State) {b l : Nat} (hb : b ≤ 2 ^ 36 * (s.bufBytes + 8)) (hl : l ≤ 2 ^ 35) :
    b + (l + 5) ≤ runOn s := by
  have := runOn_mul s (2 ^ 36) (by norm_num)
  omega

/-- The reading of a tree that fits the store takes few steps. -/
theorem readTree_steps_le {T : Tree} (h : T.nodes ≤ 511) (B : Nat) :
    5 + (T.serialize.length * (B + 3) + 2 * T.nodes) + 2 ≤ 2 ^ 36 * (B + 8) := by
  have hser := Nat.mul_le_mul_right (B + 3) (length_serialize_le h)
  omega

/-! ### The tree is read -/

/-- DEC_TREE on a closed buffer whose stream begins with the section of a tree with an internal root (R207). -/
theorem exec_decTree {s : State} {T : Tree} {rest : List Bool} (hq : s.Quiet) (hm : s.bbMode = .closed)
    (hoff : Offers s s.srcLen.toNat) (hbits : streamOf s = T.serialize ++ rest) (hleaf : T.isLeaf = false)
    (hnodes : T.nodes ≤ 511) :
    ∃ u, Moved T.serialize.length (decTreeStart (accepted s (encodeWord .decTree))) u ∧
      u.ncnt.toNat = T.nodes ∧ HoldsPreorder u 0 T ∧
      exec .decTree s = .next (decTreeEnd u).completeStep := by
  obtain ⟨u, hu, hncnt, hpre, hrun⟩ :=
    runs_decTree T [.complete] (accepted s (encodeWord .decTree)) rest hm hoff hbits hnodes
  rw [hleaf] at hrun
  have hsteps := decTree_steps_le s (readTree_steps_le hnodes s.bufBytes) (Nat.zero_le _)
  exact ⟨u, hu, hncnt, hpre, congrArg Host.Outcome.next
    (issue_completes (body := bodyDecTree) rfl hq hrun ((Nat.add_le_add_left (by norm_num) _).trans hsteps))⟩

/-- Settles O36: the reading leaves the tree in the store and the session after the tree's bits. -/
theorem decTreeReadsTree : Obligations.DecTreeReadsTree := by
  unfold Obligations.DecTreeReadsTree
  intro s T rest hq hm hoff hbits hleaf hnodes
  obtain ⟨u, hu, hncnt, hpre, hexec⟩ := exec_decTree hq hm hoff hbits hleaf hnodes
  have hk := keepsButTree_decTreeEnd hu.keepsButTree
  have hav : avail u = rest := by rw [hu.avail_eq_drop, hbits, List.drop_left]
  exact ⟨_, hexec, completed_completeStep hu.cmdw_eq, hpre.congr fun j _ _ => nodeAt_congr rfl _, rfl, hncnt, rfl,
    hk.tableValid, hk.degenerate, hk.freqValid, hu.mode, hav, hu.supplied, hu.takes_readAhead, hu.sends_nil,
    hk.host, hk.freq, hk.ct, hk.heap, hk.result⟩

/-! ### No tree is read -/

/-- The command `i` from `s` has failed in `t` with error `e` in DEC_TREE's phase, having read `n` bits (R200,
60_exceptions.md R261). -/
structure TreeFailure (i : Instr) (e : ErrCode) (n : Nat) (s t : State) : Prop where
  failed : Failed e 0x20#8 (encodeWord i) t
  treeValid : t.treeValid = false
  takes : Takes (readAhead s s.srcLen.toNat n) s t
  sends : Sends [] s t
  keeps : KeepsButTree s t

/-- The error completion of a read session has nothing to send. -/
theorem Moved.treeFailure {s u : State} {i : Instr} {e : ErrCode} {n : Nat} (he : e ≠ .illegalCmd)
    (h : Moved n (decTreeStart (accepted s (encodeWord i))) u) : TreeFailure i e n s (raised u e) := by
  have hmode : u.bbMode = .read := h.mode
  have hrelease : releaseBytes u = [] := if_neg (by rw [hmode]; decide)
  have hkeeps := h.keepsButTree.of_keepsRest (keepsRest_raised u e)
  obtain ⟨hout, hcount⟩ := h.sends_nil
  rw [raised_eq, hrelease] at hkeeps ⊢
  exact ⟨⟨rfl, rfl, rfl, (if_neg he).trans h.phase_eq, h.cmdw_eq, rfl, rfl, rfl⟩, h.treeValid_eq,
    h.takes_readAhead, ⟨(List.append_nil _).trans hout, (BitVec.add_zero _).trans hcount⟩, hkeeps⟩

section

variable {s : State} {i : Instr} (hq : s.Quiet) (hi : i = .decTree ∨ i = .decode)

include hq hi

/-- DEC_TREE is the first phase of DECODE (40_control.md R106); an error in it ends either command. -/
theorem exec_treeFailure {e : ErrCode} {n b : Nat} (he : e ≠ .illegalCmd)
    (hrun : ∀ k, ∃ u, Moved n (decTreeStart (accepted s (encodeWord i))) u ∧
      RunsIn b ((accepted s (encodeWord i)).withTodo (bodyDecTree ++ k)) (u.withTodo [.bbClose, .fail e]))
    (hb : b ≤ 2 ^ 36 * (s.bufBytes + 8)) : ∃ t, exec i s = .next t ∧ TreeFailure i e n s t := by
  obtain ⟨next, hwf, hexec⟩ : ∃ next, i.wellFormed = true ∧ exec i s
      = .next (issue (encodeWord i) (.legality :: (bodyDecTree ++ next) ++ [.complete]) s) := by
    rcases hi with rfl | rfl
    · exact ⟨[], rfl, rfl⟩
    · exact ⟨bodyDecPayload, rfl, rfl⟩
  obtain ⟨u, hu, hrun⟩ := hrun (next ++ [.complete])
  have hsink : u.env.sink = none := (congrArg (·.env.sink) hu.eq).trans hq.sink
  rw [← List.append_assoc] at hrun
  exact ⟨_, hexec.trans (congrArg _ (issue_fails hwf hq hsink hrun (decTree_steps_le s hb hu.length_bbBits_le))),
    hu.treeFailure he⟩

variable (hm : s.bbMode = .closed) (hoff : Offers s s.srcLen.toNat)

include hm hoff

/-- A root leaf (R201). -/
theorem exec_rootLeaf {sym : Byte} {rest : List Bool} (hbits : streamOf s = (Tree.leaf sym).serialize ++ rest) :
    ∃ t, exec i s = .next t ∧ TreeFailure i .treeMalformed 9 s t := by
  have hnodes : (Tree.leaf sym).nodes ≤ 511 := by norm_num [Tree.nodes]
  refine exec_treeFailure hq hi (by decide) (fun k => ?_) (readTree_steps_le hnodes s.bufBytes)
  obtain ⟨u, hu, -, -, hrun⟩ := runs_decTree _ k (accepted s (encodeWord i)) rest hm hoff hbits hnodes
  exact ⟨u, hu, hrun⟩

/-- Bits that stop the reading of a tree (R200). -/
theorem exec_treeStops {T : Tree} {e : ErrCode} {n : Nat} (he : e ≠ .illegalCmd)
    (h : TreeStops T (streamOf s) 511 e n) : ∃ t, exec i s = .next t ∧ TreeFailure i e n s t := by
  refine exec_treeFailure hq hi he (fun k => runs_decTree_stop T k (accepted s (encodeWord i)) e n hm hoff h) ?_
  have hbits : (streamOf s).length = 8 * s.srcLen.toNat := by
    rw [streamOf, length_flatMap_bitsOfByte, nextBytes, List.length_take_of_le hoff]
  have hn := h.le_length
  have hlt := s.srcLen.isLt
  have hmul : (n + 1) * (s.bufBytes + 4) ≤ 2 ^ 35 * (s.bufBytes + 4) := Nat.mul_le_mul_right _ (by omega)
  show 5 + (n + 1) * (s.bufBytes + 4) ≤ _
  omega

end

/-- Settles O37: the root's kind is looked at after its record, and the node limit after the tag bit. -/
theorem decTreeMalformed : Obligations.DecTreeMalformed := by
  unfold Obligations.DecTreeMalformed
  intro s i n hq hi hm hoff hbits
  have hfail : ∃ t, exec i s = .next t ∧ TreeFailure i .treeMalformed n s t := by
    rcases hbits with ⟨rfl, sym, rest, hbits⟩ | ⟨T, tag, rest, hnodes, hn, hbits⟩
    · exact exec_rootLeaf hq hi hm hoff hbits
    · exact exec_treeStops hq hi hm hoff (by decide) (.inl ⟨rfl, hnodes, hn, tag, rest, hbits⟩)
  obtain ⟨t, hexec, ht⟩ := hfail
  exact ⟨t, hexec, ht.failed, ht.treeValid, ht.keeps.tableValid, ht.keeps.degenerate, ht.keeps.freqValid,
    ht.takes, ht.sends, ht.keeps.host, ht.keeps.freq, ht.keeps.ct, ht.keeps.heap, ht.keeps.result⟩

/-- Every byte of a session has been taken once all its bits have been read (R128). -/
theorem readAhead_all (s : State) (n : Nat) : readAhead s n (8 * n) = n := by
  have hdiv := Nat.div_add_mod (8 * n + s.bufBits - 1) s.bufBits
  have hmod := Nat.mod_lt (8 * n + s.bufBits - 1) (bufBits_pos s)
  have hgroups : s.bufBits * ((8 * n + s.bufBits - 1) / s.bufBits)
      = 8 * (s.bufBytes * ((8 * n + s.bufBits - 1) / s.bufBits)) := Nat.mul_assoc _ _ _
  rw [readAhead]
  omega

/-- Settles O38: the read that finds no bit raises the error, and by then every byte has been taken. -/
theorem decTreeEndOfStream : Obligations.DecTreeEndOfStream := by
  unfold Obligations.DecTreeEndOfStream
  intro s i T missing hq hi hm hoff hT hmissing hlen
  obtain ⟨t, hexec, ht⟩ :=
    exec_treeStops hq hi hm hoff (by decide) (.inr ⟨rfl, rfl, hlen, missing, hmissing, hT⟩)
  have htakes := ht.takes
  rw [streamOf, length_flatMap_bitsOfByte, nextBytes, List.length_take_of_le hoff, readAhead_all] at htakes
  exact ⟨t, hexec, ht.failed, ht.treeValid, ht.keeps.tableValid, ht.keeps.degenerate, ht.keeps.freqValid,
    htakes, ht.sends, ht.keeps.host, ht.keeps.freq, ht.keeps.ct, ht.keeps.heap, ht.keeps.result⟩

end Sys2Proof.Machine
end

section
/-!
PROOFS. DEC_PAYLOAD and the whole DECODE (43_decoder.md R203 to R209).
-/

namespace Sys2Proof.Machine

open Sys2Proof.Format (Tree)

/-! ### The end of the payload -/

/-- `s` at the end of a command whose payload phase has sent the symbols `out`, and has `found` the sentinel or
not (R205, R206). -/
def State.payloadEnd (s : State) (out : List Byte) (found : Bool) (c : NodeIdx) : State :=
  { s.paidOut out c with
    errCode := if found then .none else .endOfStream
    errOp := if found then opField s.cmdw else 0x21#8
    done := true
    todo := [] }

section

variable (s : State) (out : List Byte) (found : Bool) (c : NodeIdx)

theorem payloadEnd_true : s.payloadEnd out true c = (s.paidOut out c).completeStep := rfl

theorem payloadEnd_false : s.payloadEnd out false c = (s.paidOut out c).failStep .endOfStream := rfl

/-- The payload phase leaves all but the streams, the buffer and the working storage. -/
theorem keepsRest_payloadEnd : KeepsRest s (s.payloadEnd out found c) :=
  ⟨⟨rfl, rfl, rfl, rfl, rfl, rfl, rfl, rfl, rfl, rfl, rfl⟩, ⟨rfl, rfl, rfl, rfl⟩,
    ⟨⟨rfl, rfl, rfl⟩, ⟨rfl, rfl, rfl⟩, rfl, rfl⟩, rfl⟩

/-- The command has completed if the sentinel was found, and failed in DEC_PAYLOAD's phase if not. -/
theorem ended_payloadEnd {i : Instr} (h : s.cmdw = encodeWord i) :
    if found then Completed i (s.payloadEnd out found c)
      else Failed .endOfStream 0x21#8 (encodeWord i) (s.payloadEnd out found c) := by
  cases found with
  | true => exact completed_completeStep h
  | false => exact ⟨rfl, rfl, rfl, rfl, h, rfl, rfl, rfl⟩

variable {s}

/-- The symbols are sent after what the command has sent before. -/
theorem sends_payloadEnd {s0 : State} (h : Sends [] s0 s) : Sends out s0 (s.payloadEnd out found c) := by
  obtain ⟨hout, hcount⟩ := h
  refine ⟨?_, ?_⟩
  · show s.env.sOut ++ out = _
    rw [hout, List.append_nil]
  · show s.outCount + BitVec.ofNat 32 out.length = _
    rw [hcount]
    exact BitVec.zero_add _

/-- The bytes of the session are taken after those the command has taken before. -/
theorem takes_payloadEnd {s0 : State} {n : Nat} (h : Takes n s0 s) :
    Takes (n + s.bbRemain.toNat) s0 (s.payloadEnd out found c) := by
  obtain ⟨hin, hcount⟩ := h
  refine ⟨?_, ?_⟩
  · show s.env.sIn.drop s.bbRemain.toNat = _
    rw [hin, List.drop_drop]
  · show s.inCount + s.bbRemain = _
    rw [hcount, BitVec.ofNat_add, BitVec.ofNat_toNat, BitVec.setWidth_eq]

end

/-- The steps of the payload phase and its ending are few for each bit of the session. -/
theorem decPayload_steps_le {s : State} (h : Supplied s) :
    ((avail s).length + 1) * (s.bufBytes + 8) + 9 + s.bbRemain.toNat + (avail s).length + ((avail s).length + 4)
      ≤ (2 * (avail s).length + 3) * (s.bufBytes + 8) := by
  have hlen : s.bbRemain.toNat ≤ (avail s).length := by
    rw [avail, List.length_append, length_flatMap_bitsOfByte, List.length_take_of_le h]
    omega
  have hsplit : (2 * (avail s).length + 3) * (s.bufBytes + 8) = ((avail s).length + 1) * (s.bufBytes + 8)
      + (((avail s).length + 1) * s.bufBytes + 8 * (avail s).length + 8) + (s.bufBytes + 8) := by ring
  omega

/-- The payload phase of a read session, up to the end of the command (R203 to R206, R208). -/
theorem runs_decPayload_complete {s : State} {T : Tree} {out : List Byte} {found : Bool}
    (hv : s.treeValid = true) (hm : s.bbMode = .read) (hsup : Supplied s) (hsink : s.env.sink = none)
    (hT : HoldsTree s s.root T) (hleaf : T.isLeaf = false)
    (hspell : T.spell s.sentinel T (avail s) = (out, found)) :
    ∃ c, RunsIn ((2 * (avail s).length + 3) * (s.bufBytes + 8))
      (s.withTodo (bodyDecPayload ++ [.complete])) (s.payloadEnd out found c) := by
  match T, hleaf with
  | .node l r, _ =>
    obtain ⟨p, u, hu, hp, hrun⟩ := runs_decPayload l r [.complete] s hv hm hsup hsink hT
    rw [hspell] at hu hp hrun
    have hsteps := decPayload_steps_le hsup
    refine ⟨u.cur, ?_⟩
    cases found with
    | true =>
      rw [payloadEnd_true, ← closeAll_drained hm hu]
      exact RunsIn.mono (hrun.trans (.one (step_complete [] _))) (by omega)
    | false =>
      have hl : u.bbBits.length ≤ (avail s).length := by
        refine (length_bbBits_le_avail u).trans ?_
        rw [hu.avail, List.length_drop]
        exact Nat.sub_le _ _
      rw [payloadEnd_false, ← raised_spelt hm hu (hp rfl)]
      exact RunsIn.mono (hrun.trans (runs_fail _ u ((congrArg (·.env.sink) hu.eq).trans hsink))) (by omega)

/-! ### DEC_PAYLOAD -/

/-- DEC_PAYLOAD with a tree in the store and a supplied session (R208). -/
theorem exec_decPayload {s : State} {T : Tree} {out : List Byte} {found : Bool} (hq : s.Quiet)
    (hv : s.treeValid = true) (hm : s.bbMode = .read) (hsup : Supplied s) (hT : HoldsTree s s.root T)
    (hleaf : T.isLeaf = false) (hspell : T.spell s.sentinel T (avail s) = (out, found)) :
    ∃ c, exec .decPayload s = .next ((accepted s (encodeWord .decPayload)).payloadEnd out found c) := by
  obtain ⟨c, hrun⟩ := runs_decPayload_complete (s := accepted s (encodeWord .decPayload)) hv hm hsup hq.sink
    (hT.congr rfl) hleaf hspell
  have hav : (avail (accepted s (encodeWord .decPayload))).length < s.bbBits.length + 2 ^ 35 := length_avail_lt s
  have hturn := runOn_bits s (2 ^ 37) (by norm_num)
  have hsteps : (2 * (avail (accepted s (encodeWord .decPayload))).length + 3) * (s.bufBytes + 8)
      ≤ (2 * s.bbBits.length + 2 ^ 37) * (s.bufBytes + 8) := Nat.mul_le_mul_right _ (by omega)
  refine ⟨c, congrArg Host.Outcome.next (issue_of_runs hq
    (.step (step_legality _ (legal_encodeWord (i := .decPayload) rfl)) hrun) ?_ rfl)⟩
  show _ * (s.bufBytes + 8) + 1 ≤ _
  omega

/-- Settles O39: the symbol loop emits what the bits spell, and the drain takes the rest of the bytes. -/
theorem decPayloadEmitsSymbols : Obligations.DecPayloadEmitsSymbols := by
  unfold Obligations.DecPayloadEmitsSymbols
  intro s T out found hq hv hm hsup hT hleaf hspell
  obtain ⟨c, hexec⟩ := exec_decPayload hq hv hm hsup hT hleaf hspell
  have hk := keepsRest_payloadEnd (accepted s (encodeWord .decPayload)) out found c
  have htakes : Takes (0 + s.bbRemain.toNat) s
      ((accepted s (encodeWord .decPayload)).payloadEnd out found c) :=
    takes_payloadEnd out found c ⟨rfl, rfl⟩
  rw [Nat.zero_add] at htakes
  exact ⟨_, hexec, ended_payloadEnd _ out found c rfl, sends_payloadEnd out found c (sends_nil_accepted s _),
    htakes, rfl, rfl, rfl, hk.host, hk.flags, hk.memories, hk.result⟩

/-- Settles O40: the mode is checked after the flag and before anything has changed. -/
theorem decPayloadNeedsReadSession : Obligations.DecPayloadNeedsReadSession := by
  unfold Obligations.DecPayloadNeedsReadSession
  intro s hq hv hm
  have hraised := exec_raises (i := .decPayload) (op := 0x21#8) (body := bodyDecPayload.tail) (e := .invalidMode)
    rfl hq rfl (.step (step_needFlag (f := .tree) _ hv) (.one (step_needMode_not _ hm))) (by norm_num)
  obtain ⟨t, hexec, ht⟩ := channelFailure_of_exec (by decide) hraised
  exact ⟨t, hexec, ht.failed, ht.takes, ht.sends, ht.host, ht.flags, ht.memories, ht.result⟩

/-! ### DECODE -/

theorem length_streamOf_lt (s : State) : (streamOf s).length < 2 ^ 35 := by
  have hlen := List.length_take_le s.srcLen.toNat s.env.sIn
  have hlt := s.srcLen.isLt
  rw [streamOf, length_flatMap_bitsOfByte, nextBytes]
  omega

/-- DECODE on a closed buffer whose stream begins with the section of a tree with an internal root: the payload
phase starts where the reading of the tree has ended (R209). -/
theorem exec_decode {s : State} {T : Tree} {rest : List Bool} {out : List Byte} {found : Bool} (hq : s.Quiet)
    (hm : s.bbMode = .closed) (hoff : Offers s s.srcLen.toNat) (hbits : streamOf s = T.serialize ++ rest)
    (hleaf : T.isLeaf = false) (hnodes : T.nodes ≤ 511) (hspell : T.spell s.sentinel T rest = (out, found)) :
    ∃ u c, Moved T.serialize.length (decTreeStart (accepted s (encodeWord .decode))) u ∧ HoldsPreorder u 0 T ∧
      exec .decode s = .next ((decTreeEnd u).payloadEnd out found c) := by
  obtain ⟨u, hu, -, hpre, hrun⟩ := runs_decTree T (bodyDecPayload ++ [.complete])
    (accepted s (encodeWord .decode)) rest hm hoff hbits hnodes
  rw [hleaf] at hrun
  have hsent : (decTreeEnd u).sentinel = s.sentinel := (congrArg State.sentinel hu.eq).trans rfl
  have hsink : (decTreeEnd u).env.sink = none := (congrArg (·.env.sink) hu.eq).trans hq.sink
  have hav : avail (decTreeEnd u) = rest := hu.avail_eq_drop.trans (by rw [hbits, List.drop_left])
  obtain ⟨c, hrun'⟩ := runs_decPayload_complete (s := decTreeEnd u) rfl hu.mode hu.supplied hsink
    (hpre.holdsTree.congr rfl) hleaf (by rw [hsent, hav, hspell])
  have hbytes : (decTreeEnd u).bufBytes = s.bufBytes := hu.bufBytes
  rw [hbytes, hav] at hrun'
  have hlen : rest.length ≤ (streamOf s).length := by
    rw [hbits, List.length_append]
    exact Nat.le_add_left _ _
  have hsteps := readTree_steps_le hnodes s.bufBytes
  have hsteps' : (2 * rest.length + 3) * (s.bufBytes + 8) ≤ 2 ^ 37 * (s.bufBytes + 8) :=
    Nat.mul_le_mul_right _ (by have := length_streamOf_lt s; omega)
  have hturn := runOn_mul s (2 ^ 38) (by norm_num)
  refine ⟨u, c, hu, hpre, congrArg Host.Outcome.next (issue_of_runs hq
    (.step (step_legality _ (legal_encodeWord (i := .decode) rfl)) (RunsIn.trans hrun hrun')) ?_ rfl)⟩
  show 5 + (_ * (s.bufBytes + 3) + _) + 2 + _ + 1 ≤ _
  omega

/-- Settles O41: between them the reading of the tree and the payload phase take every byte of the session. -/
theorem decodeEmitsMessage : Obligations.DecodeEmitsMessage := by
  unfold Obligations.DecodeEmitsMessage
  intro s T rest out found hq hm hoff hbits hleaf hnodes hspell
  obtain ⟨u, c, hu, hpre, hexec⟩ := exec_decode hq hm hoff hbits hleaf hnodes hspell
  have hk := (keepsButTree_decTreeEnd hu.keepsButTree).of_keepsRest (keepsRest_payloadEnd _ out found c)
  have htakes : Takes (readAhead s s.srcLen.toNat T.serialize.length + u.bbRemain.toNat) s
      ((decTreeEnd u).payloadEnd out found c) := takes_payloadEnd (s := decTreeEnd u) out found c hu.takes_readAhead
  have hall : readAhead s s.srcLen.toNat T.serialize.length + u.bbRemain.toNat = s.srcLen.toNat := by
    rw [hu.remain_readAhead]
    exact Nat.add_sub_cancel' (Nat.min_le_left _ _)
  rw [hall] at htakes
  exact ⟨_, hexec, ended_payloadEnd _ out found c hu.cmdw_eq,
    sends_payloadEnd (s := decTreeEnd u) out found c hu.sends_nil, htakes,
    hpre.congr fun j _ _ => nodeAt_congr rfl _, rfl, rfl, hk.tableValid, hk.degenerate, hk.freqValid, rfl, rfl, rfl,
    hk.host, hk.freq, hk.ct, hk.heap, hk.result⟩

end Sys2Proof.Machine
end

section
/-!
PROOFS. The round trip (43_decoder.md R210, R212): DECODE of what a successful ENCODE has sent, whole or with its
last byte removed.
-/

namespace Sys2Proof.Machine

open Sys2Proof.Format (Tree streamBits)

/-! ### What a successful ENCODE has sent -/

theorem errCode_ne_none_of_raised {s t : State} {i : Instr} {u : State} {e : ErrCode} (he : e ≠ .none)
    (h : exec i s = .next (raised u e)) (hexec : exec i s = .next t) : t.errCode ≠ .none := by
  obtain rfl : t = raised u e := Host.Outcome.next.inj (hexec.symm.trans h)
  exact he

/-- With a session open ENCODE does not succeed: if nothing fails before, the third phase's check of the mode
does (R171). -/
theorem exec_encode_open_session_fails {s t : State} {first rest : List Byte} (hq : s.Quiet)
    (hm : s.bbMode ≠ .closed) (hlen : first.length = s.srcLen.toNat) (hin : s.env.sIn = first ++ rest)
    (hexec : exec .encode s = .next t) : t.errCode ≠ .none := by
  rcases Nat.eq_zero_or_pos s.srcLen.toNat with h0 | h0
  · exact errCode_ne_none_of_raised (by decide) (exec_encode_empty hq (BitVec.eq_of_toNat_eq h0)) hexec
  rcases Nat.lt_or_ge Config.maxLen.toNat s.srcLen.toNat with hmax | hmax
  · exact errCode_ne_none_of_raised (by decide) (exec_encode_overflow hq hmax) hexec
  rcases forall_mem_or_first_not (fun v => ¬ (s.collChk = true ∧ v = s.sentinel)) first with
    hok | ⟨before, v, after, hsplit, hpre, hv⟩
  · obtain ⟨u, -, hopen⟩ :=
      exec_encode_open_session hq hm hlen h0 hmax hin fun hc hmem => hok _ hmem ⟨hc, rfl⟩
    exact errCode_ne_none_of_raised (by decide) hopen hexec
  · obtain ⟨hcoll, rfl⟩ := not_not.mp hv
    have hbefore := (length_before_lt hsplit).trans_eq hlen
    rw [hsplit, List.append_assoc, List.cons_append] at hin
    exact errCode_ne_none_of_raised (by decide)
      (exec_encode_collision hq hbefore hmax hin hcoll fun hmem => hpre _ hmem ⟨hcoll, rfl⟩) hexec

/-- The one outcome of ENCODE without an error is the stream. -/
theorem EncodeOutcome.of_no_error {n : Nat} {σ : Byte} {coll : Bool} {offered : List Byte} {r : EncodeReport}
    (h : EncodeOutcome n σ coll offered r) (hr : r.err = .none) :
    ∃ first second, offered = first ++ second ∧ first.length = n ∧ (coll = true → σ ∉ first) ∧
      r.sent = packBits (streamBits (codeTree first σ) second σ) := by
  cases h with
  | empty => cases hr
  | overflow => cases hr
  | collision => cases hr
  | stop =>
    dsimp only at hr
    split at hr <;> cases hr
  | @stream first second _ _ hlen hok _ _ => exact ⟨first, second, rfl, hlen, hok, rfl⟩

/-- ENCODE that succeeds on the bytes `b`, offered twice, has found no collision and sent the encoded stream. -/
theorem stream_of_completed {s t : State} {b more : List Byte} (hq : s.Quiet) (hlen : b.length = s.srcLen.toNat)
    (hin : s.env.sIn = b ++ (b ++ more)) (hexec : exec .encode s = .next t) (hdone : Completed .encode t) :
    (s.collChk = true → s.sentinel ∉ b) ∧
      t.env.sOut = s.env.sOut ++ packBits (streamBits (codeTree b s.sentinel) b s.sentinel) := by
  obtain ⟨-, -, herr, -⟩ := hdone
  have hm : s.bbMode = .closed := by
    by_contra hm
    exact exec_encode_open_session_fails hq hm hlen hin hexec herr
  rw [← List.append_assoc] at hin
  obtain ⟨r, hr⟩ := exists_encodeOutcome (n := s.srcLen.toNat) s.sentinel s.collChk (offered := b ++ b)
    (by rw [List.length_append]; omega)
  obtain ⟨t', hexec', -, herr', -, -, hout, -⟩ := exec_encode_reports hq hm hin hr
  obtain rfl : t' = t := Host.Outcome.next.inj (hexec'.symm.trans hexec)
  obtain ⟨first, second, hsplit, hfirst, hok, hsent⟩ := hr.of_no_error (herr'.symm.trans herr)
  obtain ⟨rfl, rfl⟩ := List.append_inj hsplit (hlen.trans hfirst.symm)
  exact ⟨hok, hsent ▸ hout⟩

/-! ### The tree of a source -/

theorem codeTree_isLeaf (b : List Byte) (σ : Byte) : (codeTree b σ).isLeaf = false :=
  (Format.huffman_spec _ σ (counts_sentinel_pos b σ)).1

/-- The tree has leaves for the sentinel and the bytes of the source (R155, R159). -/
theorem mem_symbols_codeTree {b : List Byte} {σ v : Byte} (h : v = σ ∨ v ∈ b) : v ∈ (codeTree b σ).symbols := by
  obtain ⟨-, hsym, -⟩ := Format.huffman_spec _ σ (counts_sentinel_pos b σ)
  rw [hsym, counts_eq_count_cons]
  exact List.count_pos_iff.mpr (List.mem_cons.mpr h)

/-- The payload spells the source up to the first sentinel. -/
theorem spell_codeTree (b : List Byte) (σ : Byte) (rest : List Bool) :
    (codeTree b σ).spell σ (codeTree b σ) (b.flatMap (codeTree b σ).code ++ ((codeTree b σ).code σ ++ rest))
      = (b.takeWhile (fun x => x != σ), true) := by
  have hσ : σ ∈ (codeTree b σ).symbols := mem_symbols_codeTree (.inl rfl)
  have hb : ∀ v ∈ b, v ∈ (codeTree b σ).symbols := fun v hv => mem_symbols_codeTree (.inr hv)
  match codeTree b σ, codeTree_isLeaf b σ, hσ, hb with
  | .node l r, _, hσ, hb => exact Tree.spell_payload l r σ b rest hb hσ

/-! ### The whole stream -/

/-- Settles O42: the stream is the tree section, the payload and padding, and the payload spells the source. -/
theorem roundTrip : Obligations.RoundTrip := by
  unfold Obligations.RoundTrip
  intro s t b more hq hlen hin hexec hdone
  obtain ⟨hok, hout⟩ := stream_of_completed hq hlen hin hexec hdone
  generalize s.sentinel = σ at *
  refine ⟨hok, _, hout, ?_⟩
  rintro u after hqu hmu rfl hlenu hinu
  obtain ⟨pad, hpad, -, -⟩ := flatMap_bitsOfByte_packBits (streamBits (codeTree b u.sentinel) b u.sentinel)
  have hbits : streamOf u = (codeTree b u.sentinel).serialize ++ (b.flatMap (codeTree b u.sentinel).code
      ++ ((codeTree b u.sentinel).code u.sentinel ++ List.replicate pad false)) := by
    rw [streamOf, nextBytes, hlenu, hinu, List.take_left, hpad, streamBits]
    simp only [List.append_assoc]
  have hoff : Offers u u.srcLen.toNat := by
    rw [Offers, hlenu, hinu, List.length_append]
    exact Nat.le_add_right _ _
  obtain ⟨v, hexecv, hend, hsends, ⟨htaken, -⟩, -⟩ := decodeEmitsMessage u _ _ _ _ hqu hmu hoff hbits
    (codeTree_isLeaf b u.sentinel) (nodes_codeTree_le b u.sentinel) (spell_codeTree b u.sentinel _)
  exact ⟨v, hexecv, hend, hsends, by rw [htaken, hlenu, hinu, List.drop_left]⟩

/-! ### The stream without its last byte -/

/-- Removing the last byte removes at least one bit that is no padding (30_encoding.md R90). -/
theorem dropLast_packBits {bits : List Bool} (h : bits ≠ []) :
    ∃ missing, missing ≠ [] ∧ bits = (packBits bits).dropLast.flatMap bitsOfByte ++ missing := by
  obtain ⟨pad, hpad, hlt, hlen⟩ := flatMap_bitsOfByte_packBits bits
  have hpos := List.length_pos_iff.mpr h
  have hshort : ((packBits bits).dropLast.flatMap bitsOfByte).length < bits.length := by
    rw [length_flatMap_bitsOfByte, List.length_dropLast, length_packBits]
    omega
  have hne : packBits bits ≠ [] := List.length_pos_iff.mp (by rw [length_packBits]; omega)
  have hbegins : (packBits bits).dropLast.flatMap bitsOfByte <+: bits ++ List.replicate pad false :=
    ⟨bitsOfByte ((packBits bits).getLast hne), by
      rw [← hpad, ← List.flatMap_singleton bitsOfByte, ← List.flatMap_append, List.dropLast_append_getLast]⟩
  obtain ⟨missing, hmissing⟩ := List.prefix_of_prefix_length_le hbegins (List.prefix_append _ _) hshort.le
  refine ⟨missing, fun hnil => ?_, hmissing.symm⟩
  rw [hnil, List.append_nil] at hmissing
  exact hshort.ne (congrArg List.length hmissing)

/-- Of two ways to cut a list in two, the second cuts inside the second part of the first, or else strictly inside
its first part. -/
theorem append_eq_append_cases {α : Type} {a b c d : List α} (h : a ++ b = c ++ d) :
    (∃ rest, c = a ++ rest ∧ b = rest ++ d) ∨ ∃ x, x ≠ [] ∧ a = c ++ x := by
  rcases List.append_eq_append_iff.mp h with ⟨rest, hc, hb⟩ | ⟨x, ha, hd⟩
  · exact .inl ⟨rest, hc, hb⟩
  · by_cases hx : x = []
    · subst hx
      exact .inl ⟨[], by simpa using ha.symm, by simpa using hd.symm⟩
    · exact .inr ⟨x, hx, ha⟩

/-- A payload that is cut off spells the first symbols of a source without the sentinel, and not the sentinel
(R212). -/
theorem spell_cut {T : Tree} {σ : Byte} {b : List Byte} {bits missing : List Bool} (hT : T.isLeaf = false)
    (hσ : σ ∈ T.symbols) (hb : ∀ v ∈ b, v ∈ T.symbols) (hno : σ ∉ b) (hmissing : missing ≠ [])
    (h : b.flatMap T.code ++ T.code σ = bits ++ missing) :
    ∃ k, T.spell σ T bits = (b.take k, false) := by
  induction b generalizing bits with
  | nil =>
    have hcut := T.spell_path_part σ T hT _ (T.mem_codes_of_code σ hσ) bits missing hmissing h
    exact ⟨0, hcut⟩
  | cons v b ih =>
    obtain ⟨hv, hb⟩ := List.forall_mem_cons.mp hb
    obtain ⟨hvσ, hno⟩ := not_or.mp (mt List.mem_cons.mpr hno)
    have hcode := T.mem_codes_of_code v hv
    rw [List.flatMap_cons, List.append_assoc] at h
    rcases append_eq_append_cases h with ⟨rest, rfl, hrest⟩ | ⟨x, hne, hx⟩
    · obtain ⟨k, hk⟩ := ih hb hno hrest
      refine ⟨k + 1, ?_⟩
      rw [T.spell_path σ T hT _ hcode rest, if_neg (Ne.symm hvσ), hk]
      rfl
    · exact ⟨0, T.spell_path_part σ T hT _ hcode bits x hne hx⟩

/-- The tree section alone is not empty. -/
theorem streamBits_ne_nil (T : Tree) (src : List Byte) (σ : Byte) : streamBits T src σ ≠ [] := by
  cases T <;> exact List.cons_ne_nil _ _

/-- Settles O43: what is left of the stream ends inside the tree section or inside the payload. -/
theorem truncationIsReported : Obligations.TruncationIsReported := by
  unfold Obligations.TruncationIsReported
  intro s t b more hq hlen hin hexec hdone hno
  obtain ⟨-, hout⟩ := stream_of_completed hq hlen hin hexec hdone
  generalize s.sentinel = σ at *
  refine ⟨_, hout, ?_⟩
  rintro u after hqu hmu rfl hlenu hinu
  have hleaf := codeTree_isLeaf b u.sentinel
  have hnodes := nodes_codeTree_le b u.sentinel
  obtain ⟨missing, hmissing, hcut⟩ := dropLast_packBits (streamBits_ne_nil (codeTree b u.sentinel) b u.sentinel)
  rw [← List.length_dropLast] at hlenu
  have hbits : streamOf u
      = (packBits (streamBits (codeTree b u.sentinel) b u.sentinel)).dropLast.flatMap bitsOfByte := by
    rw [streamOf, nextBytes, hlenu, hinu, List.take_left]
  have hoff : Offers u u.srcLen.toNat := by
    rw [Offers, hlenu, hinu, List.length_append]
    exact Nat.le_add_right _ _
  rw [← hbits, streamBits] at hcut
  rcases append_eq_append_cases hcut with ⟨rest, hrest, hpayload⟩ | ⟨x, hne, hx⟩
  · obtain ⟨k, hk⟩ := spell_cut hleaf (mem_symbols_codeTree (.inl rfl))
      (fun v hv => mem_symbols_codeTree (.inr hv)) hno hmissing hpayload
    obtain ⟨v, hexecv, hend, hsends, -⟩ := decodeEmitsMessage u _ _ _ _ hqu hmu hoff hrest hleaf hnodes
      hk
    exact ⟨v, k, hexecv, .inr hend, hsends⟩
  · have hinside : (streamOf u).length ≤ ((codeTree b u.sentinel).firstRecords 511).length := by
      rw [Tree.firstRecords_all _ hnodes, hx, List.length_append]
      exact Nat.le_add_right _ _
    obtain ⟨v, hexecv, hfailed, -, -, -, -, -, hsends, -⟩ :=
      decTreeEndOfStream u .decode _ x hqu (.inr rfl) hmu hoff hx hne hinside
    exact ⟨v, 0, hexecv, .inl hfailed, hsends⟩

end Sys2Proof.Machine
end

section
/-!
PROOFS. When the core takes no step (60_exceptions.md R274, R276; 20_memory.md R64, R65): of the statements only
those that use a stream can hold, each by `InByte()` or `OutByte()`, and a turn that begins with a hold takes no
core step.
-/

namespace Sys2Proof.Machine

/-! ### The statement that holds -/

/-- `InByte()` holds exactly while the source offers nothing (R64). -/
theorem inByte_eq_none {s : State} : s.inByte = none ↔ s.env.sIn = [] := by
  unfold State.inByte
  cases s.env.sIn <;> simp

/-- `OutByte(v)` holds exactly while the sink accepts nothing (R65). -/
theorem outByte_eq_none {s : State} {v : Byte} : s.outByte v = none ↔ s.env.sink = some 0 := by
  unfold State.outByte
  split
  next hsink => exact iff_of_true rfl hsink
  next hsink => exact iff_of_false (Option.some_ne_none _) hsink

/-- A statement that takes a byte when it runs in `s`: an iteration of a loop over the source's bytes (R64). -/
def TakesByte (s : State) (st : Stmt) : Prop :=
  (∃ n, st = .fetch (n + 1) ∨ st = .count (n + 1) ∨ st = .emit (n + 1)) ∨ (st = .drain ∧ s.bbRemain ≠ 0#32)

/-- A statement that uses no stream never holds (R276). -/
theorem runStmt_ne_none {st : Stmt} (hst : st.usesStream = false) (s : State) : runStmt st s ≠ none := by
  cases st
  case outByte | drain => cases hst
  case fetch n | count n | emit n =>
    cases n with
    | zero => exact Option.some_ne_none _
    | succ n => cases hst
  all_goals exact Option.some_ne_none _

/-- The drain holds while bytes remain and none is offered (R205). -/
theorem stepDrain_eq_none {s : State} : stepDrain s = none ↔ s.bbRemain ≠ 0#32 ∧ s.env.sIn = [] := by
  rw [← inByte_eq_none]
  unfold stepDrain
  split
  next h0 => simp [h0]
  next h0 => cases s.inByte <;> simp [h0]

/-- A statement holds exactly if it offers a byte to a sink that accepts none, or takes a byte from a source that
offers none (R276). -/
theorem runStmt_eq_none {st : Stmt} {s : State} : runStmt st s = none ↔
    (s.env.sink = some 0 ∧ ∃ v, st = .outByte v) ∨ (s.env.sIn = [] ∧ TakesByte s st) := by
  by_cases hst : st.usesStream = false
  · refine iff_of_false (runStmt_ne_none hst s) ?_
    rintro (⟨-, v, rfl⟩ | ⟨-, ⟨n, rfl | rfl | rfl⟩ | ⟨rfl, -⟩⟩) <;> cases hst
  cases st
  case outByte v => simpa [runStmt, TakesByte] using outByte_eq_none
  case drain => simpa [runStmt, TakesByte, and_comm] using stepDrain_eq_none
  case fetch n | count n | emit n =>
    cases n with
    | zero => exact absurd rfl hst
    | succ n =>
      rw [← inByte_eq_none]
      cases h : s.inByte <;> simp [runStmt, stepFetch, stepCount, stepEmit, TakesByte, h]
  all_goals exact absurd rfl hst

/-- The core takes no step exactly if it is idle or its next statement holds (R274, R276). -/
theorem coreStep_eq_none {s : State} : coreStep s = none ↔ s.todo = [] ∨
    (s.env.sink = some 0 ∧ ∃ v k, s.todo = .outByte v :: k) ∨
    (s.env.sIn = [] ∧ ∃ k, (∃ n, s.todo = .fetch (n + 1) :: k ∨ s.todo = .count (n + 1) :: k ∨
      s.todo = .emit (n + 1) :: k) ∨ (s.todo = .drain :: k ∧ s.bbRemain ≠ 0#32)) := by
  cases hs : s.todo with
  | nil => simp [coreStep_idle hs]
  | cons st k =>
    rw [coreStep_cons hs, runStmt_eq_none]
    simp [TakesByte, exists_or]

/-! ### The turn of a core that takes no step -/

/-- The turn of an idle or holding core only uses up a schedule entry. -/
theorem coreTurn_stopped {s : State} (h : coreStep s = none) : coreTurn s = popSched s := by
  have hpop : coreStep (popSched s) = none := (coreStep_scheduled_eq_none s.env.sched.tail s.env.epoch).mpr h
  simp [coreTurn, coreMoves, h, runCore_stopped hpop]

/-- Settles O10: the next statement decides whether the core takes a step, and the step of a machine without a
coming action is the core's turn. -/
theorem holdsOnlyForStreams : Obligations.HoldsOnlyForStreams := by
  unfold Obligations.HoldsOnlyForStreams
  refine ⟨fun _ => coreStep_eq_none, fun s hev h => ?_⟩
  simp only [step, hev, coreTurn_stopped h, popSched]

end Sys2Proof.Machine
end

section
/-!
PROOFS. Both resets (70_reset_and_hazards.md R290 to R292), and the flag check that comes before every other
check of ENC_BUILD, ENC_EMIT and DEC_PAYLOAD (R300).
-/

namespace Sys2Proof.Machine

/-! ### What a reset sets -/

/-- The state after power-on is what a reset leaves of it. -/
theorem resetBlock_reset : State.reset.resetBlock = State.reset := rfl

/-- A reset gives every item R291 specifies its value, whatever the block held. -/
theorem atReset_resetBlock (s : State) : AtReset s.resetBlock :=
  ⟨rfl, rfl, rfl, rfl, rfl, rfl, rfl, rfl, rfl, rfl, rfl, rfl, rfl, rfl, rfl, rfl, rfl, rfl, rfl, rfl, rfl, rfl, rfl,
    rfl, rfl⟩

/-- STATUS, ERR_CODE and CFG have the same fields after every reset, and STATUS no free value, since BUSY = 0
(R49). -/
theorem packedWords_resetBlock (s : State) :
    statusWord s.resetBlock = 0#32 ∧ s.resetBlock.errWord = 0#32 ∧ s.resetBlock.cfgWord = 0x00000103#32 :=
  show statusWord State.reset = 0#32 ∧ State.reset.errWord = 0#32 ∧ State.reset.cfgWord = 0x00000103#32 by decide

/-- What the words ID to TBL_IDX read after a reset, whatever the block held. -/
theorem readsAtReset_resetBlock (s : State) : ReadsAtReset s.resetBlock := by
  obtain ⟨hstatus, herr, hcfg⟩ := packedWords_resetBlock s
  exact ⟨rfl, ctrlWord_eq s.resetBlock, rfl, hstatus, herr, hcfg, rfl, rfl, rfl,
    readWord_result s.resetBlock rfl, rfl⟩

/-- Settles O45: the state after reset is what a reset leaves, which keeps the invariant from any state. -/
theorem invariantAtReset : Obligations.InvariantAtReset := by
  unfold Obligations.InvariantAtReset
  exact resetBlock_reset ▸ resetBlock_inv State.reset

/-- Settles O48: the state after reset is what a reset leaves. -/
theorem resetValues : Obligations.ResetValues := by
  unfold Obligations.ResetValues
  exact resetBlock_reset ▸ ⟨atReset_resetBlock State.reset, readsAtReset_resetBlock State.reset⟩

/-! ### A reset as a step -/

/-- The turn after a reset starts nothing: the core is idle, and only the agents' bookkeeping moves on. -/
theorem coreTurn_resetBlock (s : State) : coreTurn (tick s.resetBlock) = (popSched (tick s)).resetBlock :=
  coreTurn_paused (.inl rfl)

/-- A write of 1 to CTRL.SRST, by any offset that selects the word (R61), acts as the reset input does
(R290). -/
theorem perform_write_srst {off : Offset} {v : Word} (hoff : off.extractLsb' 2 10 = 1#10)
    (hsrst : v.getLsbD 0 = true) (s : State) : perform (.write off v) s = perform .rst s := by
  have hidx : wordIndex off = 1 := congrArg BitVec.toNat hoff
  have hwrite : writeWord 1 v s = s.resetBlock := if_pos hsrst
  simp [perform, hidx, hwrite]

/-- Settles O49: the write acts as the reset input, whose step leaves an idle core in the reset state. -/
theorem resetAbandons : Obligations.ResetAbandons := by
  unfold Obligations.ResetAbandons
  intro s rest hev
  have hstep : step s = perform .rst { s with env := { s.env with events := rest } } := by
    rcases hev with hev | ⟨off, v, hoff, hsrst, hev⟩
    · exact step_of_event hev
    · rw [step_of_event hev, perform_write_srst hoff hsrst]
  rw [perform, coreTurn_resetBlock] at hstep
  exact ⟨_, hstep, atReset_resetBlock _, readsAtReset_resetBlock _, rfl, rfl, rfl, rfl, rfl⟩

/-! ### The flag check -/

/-- A command whose body starts with a flag check raises SEQUENCE without that flag, before it has changed
anything (R300). -/
theorem exec_withoutFlag {s : State} {i : Instr} {f : ValidFlag} {body : List Stmt} (hi : i.wellFormed = true)
    (hq : s.Quiet) (hf : s.flag f = false)
    (hexec : exec i s = .next (issue (encodeWord i)
      (.legality :: (.phase i.opcode :: .needFlag f :: body) ++ [.complete]) s)) :
    ∃ t, exec i s = .next t ∧ ChannelFailure i .sequence i.opcode s t := by
  have hflag : (entered s i i.opcode).flag f = false := by cases f <;> exact hf
  exact channelFailure_of_exec (by decide)
    (exec_raises hi hq hexec (.one (step_needFlag_not _ hflag)) (by norm_num))

/-- Settles O28: each of the three bodies starts with the check of its own flag. -/
theorem sequenceIsChecked : Obligations.SequenceIsChecked := by
  unfold Obligations.SequenceIsChecked
  intro s i hq hi
  have hfail : ∃ t, exec i s = .next t ∧ ChannelFailure i .sequence i.opcode s t := by
    rcases hi with ⟨rfl, hf⟩ | ⟨rfl, hf⟩ | ⟨rfl, hf⟩
    · exact exec_withoutFlag (f := .freq) rfl hq hf rfl
    · exact exec_withoutFlag (f := .table) rfl hq hf rfl
    · exact exec_withoutFlag (f := .tree) rfl hq hf rfl
  obtain ⟨t, hexec, ht⟩ := hfail
  exact ⟨t, hexec, ht.failed, ht.takes, ht.sends, ht.host, ht.flags, ht.memories, ht.result⟩

end Sys2Proof.Machine
end
